-- ==== Sys2Proof/Word.lean ====
section
/-! DEFINITION. The word types of the controller: the 16-bit words of frames, the bytes of page data and the 32-bit
counts of plant seconds (spec/11, R191; spec/05, R92). -/

namespace Sys2Proof

/-- A 16-bit word of a request or reply frame (R183, R191). -/
abbrev Word := BitVec 16

/-- A byte of a segment header, a segment payload or a photo sample (R23, R191). -/
abbrev Byte := BitVec 8

/-- A count of plant seconds, 0 to 4,294,967,295, which wraps (R92). -/
abbrev Seconds := BitVec 32

/-- One row of plate dots from dot 0 at the left edge; `true` is an inked dot (R61, R195). -/
abbrev Row := List Bool

end Sys2Proof
end

