-- ==== Sys2Proof/Syntax.lean ====
section
/-! DEFINITION. The commands of the controller: one constructor of `Instr` for each row of spec/opcode_table.json.
A request carries the parameter words of its frame (R183, R192), so that the framing checks are part of its meaning;
an event carries what it names (a page handle, an edition, a line, the level at a mark input). -/

namespace Sys2Proof

/-- A line of the plant: a platesetter, its imaging channel and its mark decoder (spec/00, Terms). -/
inductive Line where
  | a | b
deriving DecidableEq, Repr, Inhabited

/-- The four client ports (R182). -/
inductive Port where
  | feed | plan | imageA | imageB
deriving DecidableEq, Repr, Inhabited

/-- The two ports that serve PAGE READ and INCIDENT READ (spec/10, Requests by port). -/
inductive ReadPort where
  | feed | plan
deriving DecidableEq, Repr, Inhabited

/-- The commands: the requests of the four ports, then the events of the inputs, timers, indexer, render engine and
mark decoders. Of a request, `ws` are the parameter words of its frame. -/
inductive Instr where
  | pageOpen (ws : List Word)
  | segment (ws : List Word)
  | pageClose (ws : List Word)
  | pageAbandon (ws : List Word)
  | resendList (ws : List Word)
  | pageRead (port : ReadPort) (ws : List Word)
  | incidentRead (port : ReadPort) (ws : List Word)
  | linkSet (ws : List Word)
  | lineSet (ws : List Word)
  | generalSet (ws : List Word)
  | editionSet (ws : List Word)
  | screenLoad (ws : List Word)
  | clockSet (ws : List Word)
  | clockRead (ws : List Word)
  | plateOrder (ws : List Word)
  | plateCancel (ws : List Word)
  | plateRead (ws : List Word)
  | pageRelease (ws : List Word)
  | pageRetire (ws : List Word)
  | lineHold (ws : List Word)
  | lineRelease (ws : List Word)
  | lineReset (ws : List Word)
  | incidentClear (ws : List Word)
  | flush (ws : List Word)
  /-- A request of the IMAGE port of `line`, as are the four after it. -/
  | plateRequest (line : Line) (ws : List Word)
  | plateStart (line : Line) (ws : List Word)
  | rowsRead (line : Line) (ws : List Word)
  | plateEnd (line : Line) (ws : List Word)
  | lineAbort (line : Line) (ws : List Word)
  /-- A frame whose request code is not served on its port. -/
  | unknownRequest (port : Port) (code : Word) (ws : List Word)
  | powerOnResetAsserted
  | powerOnResetNegated
  | clockAdvance
  | resendWaitExpiry (handle : Fin 64)
  | deadlineExpiry (edition : Fin 16)
  | verifyTimeout (line : Line)
  | stallTimerExpiry (line : Line)
  | indexerTake
  | indexingCompletion
  | renderArbiterChoice
  | renderTaskCompletion
  | discardedTaskEnd
  | stripEnd (line : Line)
  /-- One mark tick of `line`, with the level that stands at its mark input (`true` high). -/
  | markTick (line : Line) (level : Bool)
deriving DecidableEq, Repr

end Sys2Proof
end

