-- ==== Sys2Proof/Decode.lean ====
section
/-! DEFINITION. Which command a request frame is: the request codes of R192 by the port table of spec/10 (R183, check 1),
and the frame of a request, with its two-word header. spec/opcode_table.json gives no row any bits, so `decodeTableWord` reads no command. -/

namespace Sys2Proof

/-- The rows of spec/opcode_table.json give no bits: no word spells a command. -/
def decodeTableWord (_nbits _w : Nat) : Option Instr := none

/-- The IMAGE port of a line (R118). -/
def Line.imagePort : Line → Port
  | .a => .imageA
  | .b => .imageB

/-- The other line. -/
def Line.other : Line → Line
  | .a => .b
  | .b => .a

/-- The code of a line. -/
def Line.code : Line → Nat
  | .a => 0
  | .b => 1

/-- The line of a code. -/
def Line.ofCode : Nat → Option Line
  | 0 => some .a
  | 1 => some .b
  | _ => none

/-- The port a reader stands at. -/
def ReadPort.port : ReadPort → Port
  | .feed => .feed
  | .plan => .plan

/-- The requests served on FEED, by request code (R192, spec/10 Requests by port). -/
def decodeFeed (code : Word) (ws : List Word) : Instr :=
  match code.toNat with
  | 0x01 => .pageOpen ws
  | 0x02 => .segment ws
  | 0x03 => .pageClose ws
  | 0x04 => .pageAbandon ws
  | 0x05 => .resendList ws
  | 0x06 => .pageRead .feed ws
  | 0x07 => .incidentRead .feed ws
  | _ => .unknownRequest .feed code ws

/-- The requests served on PLAN, by request code (R192, spec/10 Requests by port). -/
def decodePlan (code : Word) (ws : List Word) : Instr :=
  match code.toNat with
  | 0x06 => .pageRead .plan ws
  | 0x07 => .incidentRead .plan ws
  | 0x10 => .linkSet ws
  | 0x11 => .lineSet ws
  | 0x12 => .generalSet ws
  | 0x13 => .editionSet ws
  | 0x14 => .screenLoad ws
  | 0x15 => .clockSet ws
  | 0x16 => .clockRead ws
  | 0x17 => .plateOrder ws
  | 0x18 => .plateCancel ws
  | 0x19 => .plateRead ws
  | 0x1A => .pageRelease ws
  | 0x1B => .pageRetire ws
  | 0x1C => .lineHold ws
  | 0x1D => .lineRelease ws
  | 0x1E => .lineReset ws
  | 0x1F => .incidentClear ws
  | 0x20 => .flush ws
  | _ => .unknownRequest .plan code ws

/-- The requests served on the IMAGE port of a line, by request code (R192, spec/10 Requests by port). -/
def decodeImage (l : Line) (code : Word) (ws : List Word) : Instr :=
  match code.toNat with
  | 0x30 => .plateRequest l ws
  | 0x31 => .plateStart l ws
  | 0x32 => .rowsRead l ws
  | 0x33 => .plateEnd l ws
  | 0x34 => .lineAbort l ws
  | _ => .unknownRequest l.imagePort code ws

/-- The command of a request code and its parameter words on a port; a code not served there is UNKNOWN_REQUEST (R183,
check 1). -/
def decodeFrame (port : Port) (code : Word) (ws : List Word) : Instr :=
  match port with
  | .feed => decodeFeed code ws
  | .plan => decodePlan code ws
  | .imageA => decodeImage .a code ws
  | .imageB => decodeImage .b code ws

/-- Whether a request code is served on a port (R183, check 1). -/
def served (port : Port) (code : Word) : Bool :=
  match decodeFrame port code [] with
  | .unknownRequest _ _ _ => false
  | _ => true

/-- What a request's frame carries: its port, its request code and its parameter words (R192); an event has no frame. -/
def encodeFrame : Instr → Option (Port × Word × List Word)
  | .pageOpen ws => some (.feed, 0x01, ws)
  | .segment ws => some (.feed, 0x02, ws)
  | .pageClose ws => some (.feed, 0x03, ws)
  | .pageAbandon ws => some (.feed, 0x04, ws)
  | .resendList ws => some (.feed, 0x05, ws)
  | .pageRead p ws => some (p.port, 0x06, ws)
  | .incidentRead p ws => some (p.port, 0x07, ws)
  | .linkSet ws => some (.plan, 0x10, ws)
  | .lineSet ws => some (.plan, 0x11, ws)
  | .generalSet ws => some (.plan, 0x12, ws)
  | .editionSet ws => some (.plan, 0x13, ws)
  | .screenLoad ws => some (.plan, 0x14, ws)
  | .clockSet ws => some (.plan, 0x15, ws)
  | .clockRead ws => some (.plan, 0x16, ws)
  | .plateOrder ws => some (.plan, 0x17, ws)
  | .plateCancel ws => some (.plan, 0x18, ws)
  | .plateRead ws => some (.plan, 0x19, ws)
  | .pageRelease ws => some (.plan, 0x1A, ws)
  | .pageRetire ws => some (.plan, 0x1B, ws)
  | .lineHold ws => some (.plan, 0x1C, ws)
  | .lineRelease ws => some (.plan, 0x1D, ws)
  | .lineReset ws => some (.plan, 0x1E, ws)
  | .incidentClear ws => some (.plan, 0x1F, ws)
  | .flush ws => some (.plan, 0x20, ws)
  | .plateRequest l ws => some (l.imagePort, 0x30, ws)
  | .plateStart l ws => some (l.imagePort, 0x31, ws)
  | .rowsRead l ws => some (l.imagePort, 0x32, ws)
  | .plateEnd l ws => some (l.imagePort, 0x33, ws)
  | .lineAbort l ws => some (l.imagePort, 0x34, ws)
  | .unknownRequest p code ws => some (p, code, ws)
  | .powerOnResetAsserted => none
  | .powerOnResetNegated => none
  | .clockAdvance => none
  | .resendWaitExpiry _ => none
  | .deadlineExpiry _ => none
  | .verifyTimeout _ => none
  | .stallTimerExpiry _ => none
  | .indexerTake => none
  | .indexingCompletion => none
  | .renderArbiterChoice => none
  | .renderTaskCompletion => none
  | .discardedTaskEnd => none
  | .stripEnd _ => none
  | .markTick _ _ => none

/-- The words of a request's frame: the request code, the parameter word count and the parameter words (R183, R192). -/
def sendFrame (i : Instr) : Option (Port × List Word) :=
  (encodeFrame i).map fun x => (x.1, x.2.1 :: BitVec.ofNat 16 x.2.2.length :: x.2.2)

/-- The command a frame received whole on a port is: as many parameter words as its header announces (R183); words that
are no whole frame are no command (log entry 24). -/
def receiveFrame (port : Port) : List Word → Option Instr
  | code :: count :: ws => if ws.length = count.toNat then some (decodeFrame port code ws) else none
  | _ => none

end Sys2Proof
end

