-- ==== Sys2Proof/Config.lean ====
section
/-! DEFINITION. What one controller fixes: the capacities of its tables (spec/00, Capacities and ranges) and the values
the manual leaves open, each an opaque constant, so that nothing can be proved of the value it takes. -/

namespace Sys2Proof.Config

/-- Cells of the segment store (R25). -/
abbrev cellCount : Nat := 32768
/-- Bytes of one cell (R25). -/
abbrev cellBytes : Nat := 4096
/-- The last free cells, which a RECEIVING page may not take (R27). -/
abbrev reserveCells : Nat := 2048
/-- The largest payload of a segment, in bytes (R23). -/
abbrev maxPayload : Nat := 16368
/-- Segment numbers of a page run from 0 to one below this (R23). -/
abbrev maxSegments : Nat := 4096
/-- Words a whole frame holds at most after its two-word header (R183, R192). -/
abbrev maxParameterWords : Nat := 8206
/-- Rows of a band (R1). -/
abbrev bandRows : Nat := 256
/-- Patches of one separation of a page (R54). -/
abbrev maxPatches : Nat := 32
/-- Records of the incident list (R168). -/
abbrev maxIncidents : Nat := 255
/-- Entries of one verify queue (R157). -/
abbrev maxQueue : Nat := 16
/-- The largest value a saturating 16-bit count holds (R148, R157, R168, R53). -/
abbrev maxCount : Nat := 65535

/-- FREE VALUE (log entry 1): the row recorded as a separation's first fault row when the row the fault is charged at
is above 65,535. R53 bounds the recorded row to 0 to 65,535 and does not state what is recorded there. -/
opaque rowBeyond : Nat → BitVec 16

/-- FREE VALUES (log entry 2): the parts of a render context that a discarded task leaves "in no defined place" (R121),
each by the number of the discard. -/
opaque lostSegment : Nat → Option Nat
/-- See `lostSegment`: the payload offset. -/
opaque lostOffset : Nat → Nat
/-- See `lostSegment`: the rows left in the current record. -/
opaque lostRowsLeft : Nat → Nat
/-- See `lostSegment`: the carry row. -/
opaque lostCarry : Nat → Row
/-- See `lostSegment`: the running row count. -/
opaque lostRowCount : Nat → Nat
/-- See `lostSegment`: the patch cursors. -/
opaque lostPatchCursors : Nat → List Nat

end Sys2Proof.Config
end

