-- ==== Sys2Proof/Machine/State.lean ====
section
/-! DEFINITION. Everything the manual gives the controller to hold, as plain data, and the state after power-on reset.
Each field names the rule that gives it. Values the manual treats as numbers are `Nat` or `Fin`; words, bytes, check
values, mark codes and wrapping counts are bit vectors. -/

namespace Sys2Proof.Machine

/-! ## Names and small data -/

/-- A separation, with the codes 0 to 3 in this order (spec/00, Conventions). -/
inductive Sep where
  | k | c | m | y
deriving DecidableEq, Repr, Inhabited

/-- One thing for each separation; with `Bool`, a separation set. -/
structure Seps (α : Type) where
  k : α
  c : α
  m : α
  y : α
deriving DecidableEq, Repr, Inhabited

/-- One thing for each line. -/
structure Lines (α : Type) where
  a : α
  b : α
deriving DecidableEq, Repr, Inhabited

/-- A page label: edition 0 to 15, section 0 to 31, page number 1 to 255 (spec/00, Conventions). A page number of 0
names no page; a decoded mark strip may carry it (R155). -/
structure Label where
  edition : Fin 16
  section_ : Fin 32
  page : Fin 256
deriving DecidableEq, Repr, Inhabited

/-- How the indexer reads a segment's payload (R23). -/
inductive SegKind where
  | line | patchHead | patchData
deriving DecidableEq, Repr, Inhabited

/-- The content faults (R53), in the order of their codes (R191). -/
inductive FaultKind where
  | shortRow | longRow | syntaxDefect | rowSequence | shortPage | longPage
  | tooManyPatches | patchOrphan | patchDataShort | patchDataLong
deriving DecidableEq, Repr, Inhabited

/-- The status of a reply (R184), in the order of the codes (R191). -/
inductive Status where
  | done | noPage | badValue | state | full | inUse | checkFailed | duplicate | notReady | unknown
deriving DecidableEq, Repr, Inhabited

/-- A reply frame: its status and its result words (R183). -/
structure Reply where
  status : Status
  results : List Word
deriving DecidableEq, Repr, Inhabited

/-- The reply last formed on each port and not yet taken over by a later request of that port (R182). -/
structure Replies where
  feed : Option Reply
  plan : Option Reply
  imageA : Option Reply
  imageB : Option Reply
deriving DecidableEq, Repr, Inhabited

/-! ## The page catalogue and the segment store (spec/01, spec/02) -/

/-- The states of a live page entry (R1); a FREE entry is an absent one. -/
inductive PageState where
  | receiving | waiting | indexing | complete | faulted | superseded
deriving DecidableEq, Repr, Inhabited

/-- A held segment, with its header and payload bytes as they sit in the store (R24). -/
structure Segment where
  number : Nat
  kind : SegKind
  sep : Sep
  header : List Byte
  payload : List Byte
deriving DecidableEq, Repr, Inhabited

/-- How a patch meets the dots beneath it (R54, R73, R74). -/
inductive PatchMode where
  | knockout | overprint
deriving DecidableEq, Repr, Inhabited

/-- The fields of a patch head (R54). -/
structure PatchHead where
  x0 : Nat
  y0 : Nat
  w : Nat
  h : Nat
  f : Nat
  mode : PatchMode
  override_ : Option (Fin 8)
deriving DecidableEq, Repr, Inhabited

/-- A patch record of a page (R57). The locator gives, for each sample row, the segment number and payload offset of its
first sample, or marks the row empty. -/
structure Patch where
  head : PatchHead
  headSegment : Nat
  received : Nat
  clippedArea : Nat
  locator : List (Option (Nat × Nat))
deriving DecidableEq, Repr, Inhabited

/-- A separation's content-fault tally (R53): the count, and the first fault's kind and row. -/
structure Tally where
  count : Nat
  first : Option (FaultKind × Nat)
deriving DecidableEq, Repr, Inhabited

/-- What indexing finds of one separation (R59). -/
structure SepResult where
  tally : Tally
  patches : List Patch
  runValues : Nat
  photoDots : Nat
  weight : Nat
deriving DecidableEq, Repr, Inhabited

/-- The opening value of a separation's results (R1). -/
def SepResult.opening : SepResult :=
  { tally := { count := 0, first := none }, patches := [], runValues := 0, photoDots := 0, weight := 0 }

/-- A running resend-wait timer: the advances counted and the wait it started with (R38). -/
structure ResendTimer where
  count : Nat
  wait : Nat
deriving DecidableEq, Repr, Inhabited

/-- A live page entry (R1). The edition is the label's, and B is computed from H. -/
structure Page where
  state : PageState
  label : Label
  version : Nat
  seps : Seps Bool
  width : Nat
  height : Nat
  expected : Option Nat
  held : List Segment
  damaged : List Nat
  results : Seps SepResult
  clip : Nat
  released : Bool
  retention : Nat
  opened : Seconds
  closed : Option Seconds
  completed : Option Seconds
  timer : Option ResendTimer
deriving DecidableEq, Repr, Inhabited

/-- The link profile: check length L and polynomial P (R28). -/
structure LinkProfile where
  length : Nat
  poly : BitVec 32
deriving DecidableEq, Repr, Inhabited

/-! ## Screen sets and editions (spec/05) -/

/-- The content of a screen set (R83); the tile's S × S thresholds stand in tile row order. -/
structure ScreenSet where
  knots : Vector Nat 17
  floorF : Nat
  ceilG : Nat
  side : Nat
  yoff : Nat
  xoff : Nat
  xshift : Nat
  tile : List Nat
deriving DecidableEq, Repr

/-- A screen set with its in-use count (R83). -/
structure ScreenSlot where
  content : ScreenSet
  inUse : Nat
deriving DecidableEq, Repr

/-- An edition entry (R89). -/
structure Edition where
  deadline : Option Seconds
  sets : Seps (Fin 8)
  remakeLimit : Nat
  resendWait : Nat
  passed : Bool
deriving DecidableEq, Repr, Inhabited

/-! ## The plate table (spec/06) -/

/-- The line choice of a plate record (R97). -/
inductive LineChoice where
  | a | b | either
deriving DecidableEq, Repr, Inhabited

/-- What created a plate record (R97). -/
inductive Origin where
  | order | supersede
deriving DecidableEq, Repr, Inhabited

/-- A live plate record (R97). -/
structure Plate where
  label : Label
  page : Option (Fin 64)
  sep : Sep
  choice : LineChoice
  copies : Nat
  toExpose : Nat
  exposing : Nat
  awaiting : Nat
  verified : Nat
  failed : Nat
  withdrawn : Nat
  attempts : Nat
  step : Nat
  remake : Bool
  cancelled : Bool
  obsolete : Bool
  origin : Origin
  arrival : BitVec 32
  lateRisk : Bool
  channel : Option Line
deriving DecidableEq, Repr, Inhabited

/-- The derived states of a live record (R98). -/
inductive PlateState where
  | waiting | active | verifying
deriving DecidableEq, Repr, Inhabited

/-! ## Imaging channels and the render engine (spec/07) -/

/-- The states of an imaging channel that holds a record; a channel with no exposure is IDLE (R118). -/
inductive Phase where
  | loaded | running | finishing
deriving DecidableEq, Repr, Inhabited

/-- The copy in exposure (R118). -/
structure Copy where
  serial : Nat
  index : Nat
  level : Nat
  markCode : BitVec 48
deriving DecidableEq, Repr, Inhabited

/-- What a channel holds in LOADED, RUNNING and FINISHING and does not hold in IDLE (R118). -/
structure Exposure where
  phase : Phase
  plate : Fin 128
  copy : Copy
  mapping : Seps (Fin 8)
  group : List (Fin 8)
deriving DecidableEq, Repr, Inhabited

/-- A running stall timer: elapsed milliseconds and limit (R131). -/
structure StallTimer where
  elapsed : Nat
  limit : Nat
deriving DecidableEq, Repr, Inhabited

/-- A slot of a band ring (R119). -/
inductive Slot where
  | free
  | rendering (band : Nat)
  | filled (band : Nat) (rows : List Row)
deriving DecidableEq, Repr, Inhabited

/-- A render context (R121): the line-work cursor, the carry row, the running row count and the patch cursors. -/
structure RenderContext where
  segment : Option Nat
  offset : Nat
  rowsLeft : Nat
  carry : Row
  rowCount : Nat
  patchCursors : List Nat
deriving DecidableEq, Repr, Inhabited

/-- The empty render context of a channel that holds no copy (R118, R139). What its parts then hold is the model's (log
entry 30). -/
def RenderContext.empty : RenderContext :=
  { segment := none, offset := 0, rowsLeft := 0, carry := [], rowCount := 0, patchCursors := [] }

/-- An imaging channel (R118). Rows delivered is also the read position (R120). -/
structure Channel where
  held : Bool
  underrun : Bool
  exposure : Option Exposure
  rowsDelivered : Nat
  nextBand : Nat
  stall : Option StallTimer
  ring : Vector Slot 4
  context : RenderContext
deriving DecidableEq, Repr

/-- A render task in flight: its channel, its band, and whether it has been discarded (R123, R125). -/
structure Task where
  line : Line
  band : Nat
  discarded : Bool
deriving DecidableEq, Repr, Inhabited

/-- The arbitration modes (R123), in the order of their codes (R191). -/
inductive ArbMode where
  | fixed | rotating | leastFilled
deriving DecidableEq, Repr, Inhabited

/-! ## Line settings, mark decoders and verify queues (spec/08, spec/10) -/

/-- A bar window: its min `lo` and max `hi` in mark ticks (R145). -/
structure Window where
  lo : Nat
  hi : Nat
deriving DecidableEq, Repr, Inhabited

/-- The mark settings a decoder holds in force while it reads a strip (R146). -/
structure MarkTiming where
  inverted : Bool
  filter : Bool
  tick : Nat
  start : Window
  zero : Window
  one : Window
deriving DecidableEq, Repr, Inhabited

/-- The settings of a line as written by LINE SET (R186, R145). -/
structure LineSettings where
  overhead : Nat
  rowTime : Nat
  stallLimit : Nat
  mark : MarkTiming
  verification : Bool
  verifyWindow : Nat
deriving DecidableEq, Repr, Inhabited

/-- The open run of a strip: its bits in the order received and its two markers (R150). -/
structure Run where
  bits : List Bool
  barFault : Bool
  overlong : Bool
deriving DecidableEq, Repr, Inhabited

/-- A strip being read (R150): the open run, absent in HUNT and present in DATA; the strip code; the disagreement
marker; and whether a measurement has been made (R153). -/
structure Strip where
  run : Option Run
  code : Option (BitVec 48)
  disagree : Bool
  measured : Bool
deriving DecidableEq, Repr, Inhabited

/-- A mark decoder (R147, R148, R150). The seen level is absent until the first sample after power-on, or after the level
is taken afresh; a decoder with no strip is IDLE. -/
structure Decoder where
  seen : Option Bool
  filterCount : Nat
  count : Nat
  inForce : MarkTiming
  strip : Option Strip
deriving DecidableEq, Repr, Inhabited

/-- An entry of a verify queue (R157). -/
structure VerifyEntry where
  serial : Nat
  plate : Fin 128
  copyIndex : Nat
  label : Label
  version : Nat
  sep : Sep
  age : Nat
deriving DecidableEq, Repr, Inhabited

/-! ## The incident list (spec/09) -/

/-- The incident kinds, in the order of their codes (R191). -/
inductive IncidentKind where
  | segmentBad | pageIncomplete | contentFault | orderMismatch | orderLost
  | underrun | exposeFault | shortExposure | aborted | unreadable | missing
  | foreign | strayStrip | lateRisk | deadlineMissed
deriving DecidableEq, Repr, Inhabited

/-- The dispositions, in the order of their codes (R191). -/
inductive Disposition where
  | resendNeeded | remakeQueued | remakeLimit | held | noted
deriving DecidableEq, Repr, Inhabited

/-- The fault detail of a CONTENT FAULT incident (R166). -/
structure FaultDetail where
  count : Nat
  kind : FaultKind
  row : Nat
deriving DecidableEq, Repr, Inhabited

/-- An incident record (R166). -/
structure Incident where
  kind : IncidentKind
  time : Seconds
  label : Option Label := none
  version : Option Nat := none
  handle : Option (Fin 64) := none
  sep : Option Sep := none
  segment : Option Nat := none
  plate : Option (Fin 128) := none
  serial : Option Nat := none
  copyIndex : Option Nat := none
  attempts : Option Nat := none
  repeats : Nat := 1
  disposition : Disposition
  resolved : Bool := false
  detail : Option FaultDetail := none
deriving DecidableEq, Repr, Inhabited

/-! ## Why a command stops -/

/-- No command of this controller faults: the manual answers every request with a status and gives every event its
effect, so this type has no constructor. -/
inductive Fault where
deriving DecidableEq, Repr

/-- Why a command has no meaning. -/
inductive Refusal where
  /-- Raised by `exec` for a command not modelled yet (none is left). Safe: the model stops. -/
  | notModelled (mnemonic : String)
deriving DecidableEq, Repr

/-! ## The whole state -/

/-- The state of the controller. -/
structure State where
  /-- The 64 page entries; `none` is FREE (R1). -/
  pages : Vector (Option Page) 64
  /-- The live entries in the order their PAGE OPENs were accepted, oldest first (R36, R3). -/
  openOrder : List (Fin 64)
  /-- The link profile (R28). -/
  link : LinkProfile
  /-- The free-cell count (R25). -/
  freeCells : Nat
  /-- The index queue, oldest first (R44). -/
  indexQueue : List (Fin 64)
  /-- The page being indexed; absent while the indexer is IDLE (R45). -/
  indexer : Option (Fin 64)
  /-- The eight screen sets with their in-use counts (R83). -/
  screens : Vector ScreenSlot 8
  /-- The sixteen edition entries (R89). -/
  editions : Vector Edition 16
  /-- The plant clock (R92). -/
  clock : Seconds
  /-- The 128 plate records; `none` is free (R97). -/
  plates : Vector (Option Plate) 128
  /-- The arrival counter (R102). -/
  arrival : BitVec 32
  /-- The serial counter: the next candidate serial (R110). -/
  serialNext : Nat
  /-- The two imaging channels (R118). -/
  channels : Lines Channel
  /-- The render engine's task; absent while it is idle (R123). -/
  engine : Option Task
  /-- The arbiter's last-chosen marker (R123). -/
  lastChosen : Line
  /-- The arbitration mode (R123, R187). -/
  mode : ArbMode
  /-- The render unit in microseconds (R187). -/
  renderUnit : Nat
  /-- The exposure table (R180). -/
  exposureTable : Vector Nat 16
  /-- The settings of each line as written (R186). -/
  settings : Lines LineSettings
  /-- The two mark decoders (R150). -/
  decoders : Lines Decoder
  /-- The two verify queues, oldest first (R157). -/
  queues : Lines (List VerifyEntry)
  /-- The incident list, oldest first (R167). -/
  incidents : List Incident
  /-- The lost count (R168). -/
  lost : Nat
  /-- The reply last formed on each port (R182). -/
  replies : Replies
  /-- Whether the power-on reset input is asserted (R190). -/
  resetAsserted : Bool
  /-- The model's own: how many free values have been taken (log entry 2). -/
  freeCount : Nat
  /-- The model's own: the commands that wait, first in first out. -/
  pending : List Instr
deriving DecidableEq, Repr

/-! ## Power-on values -/

/-- The power-on content of every screen set (R88). -/
def ScreenSet.powerOn : ScreenSet :=
  { knots := #v[0, 256, 512, 768, 1024, 1280, 1536, 1792, 2048, 2304, 2560, 2816, 3072, 3328, 3584, 3840, 4095]
    floorF := 0, ceilG := 4095, side := 8, yoff := 0, xoff := 0, xshift := 0, tile := List.replicate 64 2047 }

/-- The power-on value of every edition entry (R89). -/
def Edition.powerOn : Edition :=
  { deadline := none, sets := { k := 0, c := 1, m := 2, y := 3 }, remakeLimit := 3, resendWait := 0, passed := false }

/-- A channel at power-on (R118, R144). That the next band to render is 0, for which no rule gives a power-on value, is the
model's (log entry 30). -/
def Channel.powerOn : Channel :=
  { held := false, underrun := false, exposure := none, rowsDelivered := 0, nextBand := 0, stall := none
    ring := Vector.replicate 4 .free, context := RenderContext.empty }

/-- The mark settings in force at power-on (R145). -/
def MarkTiming.powerOn : MarkTiming :=
  { inverted := false, filter := true, tick := 10
    start := { lo := 0, hi := 0 }, zero := { lo := 0, hi := 0 }, one := { lo := 0, hi := 0 } }

/-- The settings of a line at power-on (R186, R145). -/
def LineSettings.powerOn : LineSettings :=
  { overhead := 0, rowTime := 1000, stallLimit := 50, mark := MarkTiming.powerOn, verification := false
    verifyWindow := 0 }

/-- A mark decoder at power-on (R165). The tick count's value is the model's (log entry 3). -/
def Decoder.powerOn : Decoder :=
  { seen := none, filterCount := 0, count := 0, inForce := MarkTiming.powerOn, strip := none }

/-- The controller right after power-on reset: every block at its power-on values and the reset input negated (R190). -/
def State.reset : State :=
  { pages := Vector.replicate 64 none
    openOrder := []
    link := { length := 16, poly := 0x1021 }
    freeCells := Config.cellCount
    indexQueue := []
    indexer := none
    screens := Vector.replicate 8 { content := ScreenSet.powerOn, inUse := 0 }
    editions := Vector.replicate 16 Edition.powerOn
    clock := 0
    plates := Vector.replicate 128 none
    arrival := 0
    serialNext := 1
    channels := { a := Channel.powerOn, b := Channel.powerOn }
    engine := none
    lastChosen := .b
    mode := .leastFilled
    renderUnit := 100
    exposureTable := Vector.replicate 16 128
    settings := { a := LineSettings.powerOn, b := LineSettings.powerOn }
    decoders := { a := Decoder.powerOn, b := Decoder.powerOn }
    queues := { a := [], b := [] }
    incidents := []
    lost := 0
    replies := { feed := none, plan := none, imageA := none, imageB := none }
    resetAsserted := false
    freeCount := 0
    pending := [] }

end Sys2Proof.Machine
end

