-- ==== Sys2Proof/Machine/Layout.lean ====
section
/-! DEFINITION. The encodings of frames (spec/11, R191): numbers, labels, separation sets, bytes, enumerations, flags
and absent optional fields, in both directions. -/

namespace Sys2Proof.Machine

/-! ## Selecting by separation and by line -/

/-- The component of a separation. -/
def Seps.get {α : Type} (x : Seps α) : Sep → α
  | .k => x.k
  | .c => x.c
  | .m => x.m
  | .y => x.y

/-- The separations in the order K, C, M, Y (spec/00, Conventions). -/
def Sep.all : List Sep := [.k, .c, .m, .y]

/-- The separations of a set, in the order K, C, M, Y. -/
def Seps.members (x : Seps Bool) : List Sep := Sep.all.filter x.get

/-- The component of a line. -/
def Lines.get {α : Type} (x : Lines α) : Line → α
  | .a => x.a
  | .b => x.b

/-- The components with one line's replaced. -/
def Lines.set {α : Type} (x : Lines α) (l : Line) (v : α) : Lines α :=
  match l with
  | .a => { x with a := v }
  | .b => { x with b := v }

/-- The reply slot of a port (R182). -/
def Replies.get (r : Replies) : Port → Option Reply
  | .feed => r.feed
  | .plan => r.plan
  | .imageA => r.imageA
  | .imageB => r.imageB

/-- The reply slots with one port's replaced. -/
def Replies.set (r : Replies) (p : Port) (v : Option Reply) : Replies :=
  match p with
  | .feed => { r with feed := v }
  | .plan => { r with plan := v }
  | .imageA => { r with imageA := v }
  | .imageB => { r with imageB := v }

/-! ## Codes of the enumerated fields (R191) -/

/-- The code of a separation. -/
def Sep.code : Sep → Nat
  | .k => 0
  | .c => 1
  | .m => 2
  | .y => 3

/-- The separation of a code. -/
def Sep.ofCode : Nat → Option Sep
  | 0 => some .k
  | 1 => some .c
  | 2 => some .m
  | 3 => some .y
  | _ => none

/-- The segment kind of a code. -/
def SegKind.ofCode : Nat → Option SegKind
  | 0 => some .line
  | 1 => some .patchHead
  | 2 => some .patchData
  | _ => none

/-- The code of a live page state; FREE has code 0. -/
def PageState.code : PageState → Nat
  | .receiving => 1
  | .waiting => 2
  | .indexing => 3
  | .complete => 4
  | .faulted => 5
  | .superseded => 6

/-- The code of a line choice. -/
def LineChoice.code : LineChoice → Nat
  | .a => 0
  | .b => 1
  | .either => 2

/-- The line choice of a code. -/
def LineChoice.ofCode : Nat → Option LineChoice
  | 0 => some .a
  | 1 => some .b
  | 2 => some .either
  | _ => none

/-- The code of a channel's state: IDLE where it holds no exposure. -/
def Channel.stateCode (c : Channel) : Nat :=
  match c.exposure with
  | none => 0
  | some e =>
    match e.phase with
    | .loaded => 1
    | .running => 2
    | .finishing => 3

/-- The code of a record's derived state. -/
def PlateState.code : PlateState → Nat
  | .waiting => 0
  | .active => 1
  | .verifying => 2

/-- The code of an origin. -/
def Origin.code : Origin → Nat
  | .order => 0
  | .supersede => 1

/-- The code of an arbitration mode. -/
def ArbMode.code : ArbMode → Nat
  | .fixed => 0
  | .rotating => 1
  | .leastFilled => 2

/-- The arbitration mode of a code. -/
def ArbMode.ofCode : Nat → Option ArbMode
  | 0 => some .fixed
  | 1 => some .rotating
  | 2 => some .leastFilled
  | _ => none

/-- The two-valued enumerations coded 0 and 1: polarity NORMAL, INVERTED; filter OFF, ON; verification OFF, ON. -/
def twoOfCode : Nat → Option Bool
  | 0 => some false
  | 1 => some true
  | _ => none

/-- The code of a status. -/
def Status.code : Status → Nat
  | .done => 0
  | .noPage => 1
  | .badValue => 2
  | .state => 3
  | .full => 4
  | .inUse => 5
  | .checkFailed => 6
  | .duplicate => 7
  | .notReady => 8
  | .unknown => 9

/-- The code of an incident kind. -/
def IncidentKind.code : IncidentKind → Nat
  | .segmentBad => 0
  | .pageIncomplete => 1
  | .contentFault => 2
  | .orderMismatch => 3
  | .orderLost => 4
  | .underrun => 5
  | .exposeFault => 6
  | .shortExposure => 7
  | .aborted => 8
  | .unreadable => 9
  | .missing => 10
  | .foreign => 11
  | .strayStrip => 12
  | .lateRisk => 13
  | .deadlineMissed => 14

/-- The code of a disposition. -/
def Disposition.code : Disposition → Nat
  | .resendNeeded => 0
  | .remakeQueued => 1
  | .remakeLimit => 2
  | .held => 3
  | .noted => 4

/-- The code of a content-fault kind. -/
def FaultKind.code : FaultKind → Nat
  | .shortRow => 0
  | .longRow => 1
  | .syntaxDefect => 2
  | .rowSequence => 3
  | .shortPage => 4
  | .longPage => 5
  | .tooManyPatches => 6
  | .patchOrphan => 7
  | .patchDataShort => 8
  | .patchDataLong => 9

/-! ## Forming words (R191) -/

/-- The word that marks an absent one-word field. -/
def absentWord : Word := 0xFFFF

/-- A number in one word. -/
def word (n : Nat) : Word := BitVec.ofNat 16 n

/-- A 32-bit number in two words, the more significant first. -/
def words32 (n : Nat) : List Word := [word (n / 65536), word n]

/-- A 48-bit number in three words, the more significant first. -/
def words48 (n : Nat) : List Word := [word (n / 4294967296), word (n / 65536), word n]

/-- An optional one-word field. -/
def optWord : Option Nat → Word
  | none => absentWord
  | some n => word n

/-- A flag. -/
def flagWord (b : Bool) : Word := if b then 1 else 0

/-- An optional 32-bit field: a presence word and the value, 0 where absent. That the presence word formed for a present
field is 1 is the model's (log entry 28). -/
def optWords32 : Option Seconds → List Word
  | none => [0, 0, 0]
  | some t => 1 :: words32 t.toNat

/-- A label in two words. -/
def labelWords (l : Label) : List Word := [word (l.edition.val * 256 + l.section_.val), word l.page.val]

/-- A separation set in one word. -/
def sepsWord (x : Seps Bool) : Word :=
  word ((if x.k then 1 else 0) + (if x.c then 2 else 0) + (if x.m then 4 else 0) + (if x.y then 8 else 0))

/-! ## Reading words (R191) -/

/-- An optional one-word field as received: FFFF is absent. -/
def readOpt (w : Word) : Option Nat := if w = absentWord then none else some w.toNat

/-- A 32-bit field as received. -/
def read32 (hi lo : Word) : BitVec 32 := hi ++ lo

/-- An optional 32-bit field as received: a presence word other than 0 means present. -/
def readOpt32 (presence hi lo : Word) : Option Seconds := if presence = 0 then none else some (read32 hi lo)

/-- A label as received; none where a field is outside its range. -/
def readLabel (w0 w1 : Word) : Option Label :=
  let e := w0.toNat / 256
  let s := w0.toNat % 256
  let p := w1.toNat
  if h : e < 16 ∧ s < 32 ∧ p < 256 ∧ 0 < p then some ⟨⟨e, h.1⟩, ⟨s, h.2.1⟩, ⟨p, h.2.2.1⟩⟩ else none

/-- A separation set as received: the bits above Y's are ignored. -/
def readSeps (w : Word) : Seps Bool :=
  { k := w.getLsbD 0, c := w.getLsbD 1, m := w.getLsbD 2, y := w.getLsbD 3 }

/-- The bytes a list of words carries, the first of each pair the more significant half. -/
def bytesOf (ws : List Word) : List Byte := ws.flatMap fun w => [w.extractLsb' 8 8, w.extractLsb' 0 8]

/-- The number two bytes carry, the more significant first. -/
def twoBytes (hi lo : Byte) : Nat := hi.toNat * 256 + lo.toNat

/-- A number as a handle, where it names an entry. -/
def readHandle (n : Nat) : Option (Fin 64) := if h : n < 64 then some ⟨n, h⟩ else none

/-- A number as a plate id, where it names a record. -/
def readPlateId (n : Nat) : Option (Fin 128) := if h : n < 128 then some ⟨n, h⟩ else none

/-! ## Replies -/

/-- A reply with a status and no results (R184). -/
def Reply.bare (st : Status) : Reply := { status := st, results := [] }

/-- The reply DONE with results. -/
def Reply.ok (ws : List Word) : Reply := { status := .done, results := ws }

/-- The words of a reply frame: the status code, the result word count and the result words (R183, R192). -/
def Reply.frame (r : Reply) : List Word := word r.status.code :: word r.results.length :: r.results

/-- The reply frame that stands on a port for delivery (R182, R192). -/
def State.replyFrame (s : State) (p : Port) : Option (List Word) := (s.replies.get p).map Reply.frame

end Sys2Proof.Machine
end

