-- ==== Sys2Proof/Machine/Ops.lean ====
section
/-! DEFINITION. The shared operations over the state: reading and replacing an entry, raising and resolving incidents,
freeing page entries and plate records, moving copies between stages, issuing serials, the in-use counts of the screen
sets, and how a command is taken. -/

namespace Sys2Proof.Machine

open Sys2Proof

/-! ## Reading and replacing entries -/

/-- The page entry of a handle; none is FREE (R1). -/
def State.page (s : State) (h : Fin 64) : Option Page := s.pages[h]

/-- The state with a handle's page entry replaced. -/
def State.setPage (s : State) (h : Fin 64) (v : Option Page) : State := { s with pages := s.pages.set h v }

/-- The plate record of an id; none is free (R97). -/
def State.plate (s : State) (i : Fin 128) : Option Plate := s.plates[i]

/-- The state with a plate record replaced. -/
def State.setPlate (s : State) (i : Fin 128) (v : Option Plate) : State := { s with plates := s.plates.set i v }

/-- The imaging channel of a line (R118). -/
def State.channel (s : State) (l : Line) : Channel := s.channels.get l

/-- The state with a line's channel replaced. -/
def State.setChannel (s : State) (l : Line) (c : Channel) : State := { s with channels := s.channels.set l c }

/-- The mark decoder of a line (R150). -/
def State.decoder (s : State) (l : Line) : Decoder := s.decoders.get l

/-- The state with a line's mark decoder replaced. -/
def State.setDecoder (s : State) (l : Line) (d : Decoder) : State := { s with decoders := s.decoders.set l d }

/-- The verify queue of a line (R157). -/
def State.queue (s : State) (l : Line) : List VerifyEntry := s.queues.get l

/-- The state with a line's verify queue replaced. -/
def State.setQueue (s : State) (l : Line) (q : List VerifyEntry) : State := { s with queues := s.queues.set l q }

/-- The settings of a line as written (R186). -/
def State.lineSettings (s : State) (l : Line) : LineSettings := s.settings.get l

/-- The edition entry a label belongs to (R89). -/
def State.editionOf (s : State) (l : Label) : Edition := s.editions[l.edition]

/-- The state with a live page entry changed; a FREE entry stays as it is. -/
def State.modifyPage (s : State) (h : Fin 64) (f : Page → Page) : State :=
  match s.page h with
  | some p => s.setPage h (some (f p))
  | none => s

/-- The state with a live plate record changed; a free record stays as it is. -/
def State.modifyPlate (s : State) (i : Fin 128) (f : Plate → Plate) : State :=
  match s.plate i with
  | some r => s.setPlate i (some (f r))
  | none => s

/-- The state with a reply formed on a port (R182). -/
def State.setReply (s : State) (p : Port) (r : Reply) : State := { s with replies := s.replies.set p (some r) }

/-- The handles in ascending order. -/
def handles : List (Fin 64) := List.finRange 64

/-- The plate ids in ascending order. -/
def plateIds : List (Fin 128) := List.finRange 128

/-! ## How a command is taken (R182, R190) -/

/-- A request taken on a port: it has its effect and its reply is formed. While the power-on reset input is asserted,
the port receives no frame (R190). -/
def State.request (s : State) (p : Port) (f : State → State × Reply) : Host.Outcome State Fault Refusal :=
  if s.resetAsserted then .next s else .next ((f s).1.setReply p (f s).2)

/-- An event of the controller. While the power-on reset input is asserted, every block is held in its power-on state
and no event occurs (R190). -/
def State.event (s : State) (f : State → State) : Host.Outcome State Fault Refusal :=
  if s.resetAsserted then .next s else .next (f s)

/-! ## The incident list (R167 to R170) -/

/-- A record is made at the tail, or dropped into the lost count on a full list (R167, R168). -/
def State.raise (s : State) (i : Incident) : State :=
  if s.incidents.length < Config.maxIncidents then { s with incidents := s.incidents ++ [i] }
  else { s with lost := min (s.lost + 1) Config.maxCount }

/-- Whether a record is the unresolved SEGMENT BAD of a handle and segment number (R169). -/
def Incident.isBadSegment (h : Fin 64) (n : Nat) (i : Incident) : Bool :=
  i.kind == .segmentBad && !i.resolved && i.handle == some h && i.segment == some n

/-- A record with its repeat count raised, holding at 255 (R169). -/
def Incident.repeated (i : Incident) : Incident := { i with repeats := min (i.repeats + 1) 255 }

/-- A SEGMENT BAD is coalesced into the unresolved record of its handle and number, or raised (R169). -/
def State.raiseBadSegment (s : State) (h : Fin 64) (n : Nat) (i : Incident) : State :=
  if s.incidents.any (Incident.isBadSegment h n) then
    { s with incidents := s.incidents.map fun j => if j.isBadSegment h n then j.repeated else j }
  else s.raise i

/-- The records that satisfy a test are marked resolved (R170). -/
def State.resolve (s : State) (q : Incident → Bool) : State :=
  { s with incidents := s.incidents.map fun i => if q i then { i with resolved := true } else i }

/-! ## Segments and pages -/

/-- The cells a segment occupies: ceil((16 + payload length) / 4,096) (R24). -/
def cellsFor (payloadLength : Nat) : Nat := (16 + payloadLength + 4095) / Config.cellBytes

/-- The cells of a held segment (R24). -/
def Segment.cells (g : Segment) : Nat := cellsFor g.payload.length

/-- The cells of a list of held segments. -/
def cellsOf (gs : List Segment) : Nat := (gs.map Segment.cells).sum

/-- Whether a page holds a segment number. -/
def Page.holds (p : Page) (n : Nat) : Bool := p.held.any fun g => g.number == n

/-- The segment numbers below a bound that a page does not hold, in ascending order (R36). -/
def Page.notHeld (p : Page) (bound : Nat) : List Nat := (List.range bound).filter fun n => !p.holds n

/-- The count of numbers below N not held, absent while N is absent (R34). -/
def Page.missingCount (p : Page) : Option Nat := p.expected.map fun n => (p.notHeld n).length

/-- The band count B of a page (R1). -/
def Page.bands (p : Page) : Nat := (p.height + 255) / Config.bandRows

/-- The rows of a band: 256, but fewer for the last band of most pages (R1). -/
def Page.bandHeight (p : Page) (b : Nat) : Nat := min Config.bandRows (p.height - Config.bandRows * b)

/-- The current entry of a label: its live entry that is not SUPERSEDED (spec/01). -/
def State.currentEntry (s : State) (l : Label) : Option (Fin 64) :=
  handles.find? fun h =>
    match s.page h with
    | some p => p.label == l && p.state != .superseded
    | none => false

/-- The lowest FREE handle (R2). -/
def State.freeHandle (s : State) : Option (Fin 64) := handles.find? fun h => (s.page h).isNone

/-! ## The indexer (R44, R45) -/

/-- An IDLE indexer takes the handle at the head of a queue that is not empty (R45). -/
def State.takeForIndexing (s : State) : State :=
  match s.indexer, s.indexQueue with
  | none, h :: rest => { s with indexer := some h, indexQueue := rest }
  | _, _ => s

/-- A handle leaves the index queue, and indexing of its page stops with no result; the indexer then takes the next
handle at once (R44, R45). -/
def State.stopIndexing (s : State) (h : Fin 64) : State :=
  let s := { s with indexQueue := s.indexQueue.filter (· != h) }
  if s.indexer = some h then { s with indexer := none }.takeForIndexing else s

/-! ## Retention and freeing (R16 to R18, R114) -/

/-- An entry is freed (R17). Its resend needs and its timer go with the entry. Every incident that names it is marked
resolved, a DEADLINE MISSED too: R17, R169 and R170 are followed, and not R95 (log entry 27). -/
def State.freeEntry (s : State) (h : Fin 64) : State :=
  match s.page h with
  | none => s
  | some p =>
    let s := { s with freeCells := s.freeCells + cellsOf p.held, openOrder := s.openOrder.filter (· != h) }
    ((s.stopIndexing h).resolve fun i => i.handle == some h).setPage h none

/-- An entry's retention count rises by 1 (R16). -/
def State.retain (s : State) (h : Fin 64) : State := s.modifyPage h fun p => { p with retention := p.retention + 1 }

/-- A SUPERSEDED entry whose retention count is 0 frees itself (R18). -/
def State.freeIfUnused (s : State) (h : Fin 64) : State :=
  match s.page h with
  | some p => if p.state = .superseded ∧ p.retention = 0 then s.freeEntry h else s
  | none => s

/-- An entry's retention count falls by 1, and a SUPERSEDED entry that no record names any longer frees itself
(R16, R18). -/
def State.release (s : State) (h : Fin 64) : State :=
  (s.modifyPage h fun p => { p with retention := p.retention - 1 }).freeIfUnused h

/-- A plate record is freed, and the entry it names loses one retention (R114). -/
def State.freePlate (s : State) (i : Fin 128) : State :=
  match s.plate i with
  | none => s
  | some r =>
    match r.page with
    | none => s.setPlate i none
    | some h => (s.setPlate i none).release h

/-- Whether a record has nothing left to expose, exposing or awaiting and is not on a channel (R114). -/
def Plate.spent (r : Plate) : Bool :=
  r.channel.isNone && r.toExpose == 0 && r.exposing == 0 && r.awaiting == 0

/-- A spent record is freed within the event that leaves it so (R114). -/
def State.freeIfSpent (s : State) (i : Fin 128) : State :=
  match s.plate i with
  | some r => if r.spent then s.freePlate i else s
  | none => s

/-- The version of the page entry a record names. -/
def State.versionOf (s : State) (r : Plate) : Option Nat := (r.page.bind s.page).map Page.version

/-! ## Plate records and their copies (R97 to R99, R175 to R177) -/

/-- A newly created record (R97, R14). -/
def Plate.create (label : Label) (page : Option (Fin 64)) (sep : Sep) (choice : LineChoice) (copies step : Nat)
    (origin : Origin) (arrival : BitVec 32) : Plate :=
  { label, page, sep, choice, copies, toExpose := copies, exposing := 0, awaiting := 0, verified := 0, failed := 0
    withdrawn := 0, attempts := 0, step, remake := false, cancelled := false, obsolete := false, origin, arrival
    lateRisk := false, channel := none }

/-- The derived state of a live record (R98). -/
def Plate.derived (r : Plate) : PlateState :=
  if r.channel.isSome then .active else if 0 < r.toExpose then .waiting else .verifying

/-- The free ids, in ascending order. -/
def State.freePlateIds (s : State) : List (Fin 128) := plateIds.filter fun i => (s.plate i).isNone

/-- The to_expose copies move into withdrawn (R103, R14). -/
def Plate.withdrawAll (r : Plate) : Plate := { r with withdrawn := r.withdrawn + r.toExpose, toExpose := 0 }

/-- The to_expose copies move into failed (R101, R6, R13). -/
def Plate.failAll (r : Plate) : Plate := { r with failed := r.failed + r.toExpose, toExpose := 0 }

/-- One copy moves from to_expose to exposing (R109, R138). -/
def Plate.beginCopy (r : Plate) : Plate :=
  if 0 < r.toExpose then { r with toExpose := r.toExpose - 1, exposing := r.exposing + 1 } else r

/-- One copy moves from exposing to awaiting (R136). -/
def Plate.awaitCopy (r : Plate) : Plate :=
  if 0 < r.exposing then { r with exposing := r.exposing - 1, awaiting := r.awaiting + 1 } else r

/-- One copy of a LOADED channel returns from exposing to to_expose, or to withdrawn for a cancelled or obsolete
record (R140, R15, R104). -/
def Plate.returnCopy (r : Plate) : Plate :=
  if 0 < r.exposing then
    if r.cancelled || r.obsolete then { r with exposing := r.exposing - 1, withdrawn := r.withdrawn + 1 }
    else { r with exposing := r.exposing - 1, toExpose := r.toExpose + 1 }
  else r

/-- The stage a settled copy leaves (R175, R160). -/
inductive Stage where
  | exposing | awaiting
deriving DecidableEq, Repr

/-- The copies a record has in a stage. -/
def Plate.inStage (r : Plate) : Stage → Nat
  | .exposing => r.exposing
  | .awaiting => r.awaiting

/-- A record with one copy taken out of a stage. -/
def Plate.takeOut (r : Plate) : Stage → Plate
  | .exposing => { r with exposing := r.exposing - 1 }
  | .awaiting => { r with awaiting := r.awaiting - 1 }

/-- A good copy leaves its stage for verified, or for withdrawn where the record is obsolete (R136, R160, R15). -/
def Plate.settleGood (st : Stage) (r : Plate) : Plate :=
  if 0 < r.inStage st then
    let q := r.takeOut st
    if r.obsolete then { q with withdrawn := q.withdrawn + 1 } else { q with verified := q.verified + 1 }
  else r

/-- The disposition of a damaged copy by the remake decision (R176). -/
def Plate.decision (limit : Nat) (r : Plate) : Disposition :=
  if r.obsolete || r.cancelled then .noted else if r.attempts < limit then .remakeQueued else .remakeLimit

/-- The exposure step after a remake: UNREADABLE and EXPOSE FAULT raise it to at most 7 (R177). -/
def stepAfter (kind : IncidentKind) (step : Nat) : Nat :=
  match kind with
  | .unreadable | .exposeFault => min (step + 1) 7
  | _ => step

/-- A damaged copy leaves its stage and the remake decision is carried out (R175 to R177). -/
def Plate.settleDamaged (st : Stage) (kind : IncidentKind) (limit : Nat) (r : Plate) : Plate :=
  if 0 < r.inStage st then
    let q := r.takeOut st
    match r.decision limit with
    | .noted => { q with withdrawn := q.withdrawn + 1 }
    | .remakeQueued =>
      { q with
        failed := q.failed + 1, attempts := q.attempts + 1, toExpose := q.toExpose + 1, remake := true
        step := stepAfter kind q.step }
    | _ => { q with failed := q.failed + 1 }
  else r

/-- What identifies a damaged copy in its incident (R178). -/
structure CopyIdentity where
  serial : Nat
  index : Nat
  label : Label
  version : Option Nat
  sep : Sep

/-- A copy of a record is damaged: the remake decision under the limit that stands, then the incident (R175 to R178). -/
def State.damageCopy (s : State) (i : Fin 128) (st : Stage) (kind : IncidentKind) (c : CopyIdentity) :
    State × Disposition :=
  match s.plate i with
  | none => (s, .noted)
  | some r =>
    let limit := (s.editionOf r.label).remakeLimit
    let q := r.settleDamaged st kind limit
    ((s.setPlate i (some q)).raise
      { kind, time := s.clock, label := some c.label, version := c.version, handle := r.page, sep := some c.sep
        plate := some i, serial := some c.serial, copyIndex := some c.index, attempts := some q.attempts
        disposition := r.decision limit },
     r.decision limit)

/-! ## Serials (R110) -/

/-- The serials of the live copies: in exposing on a channel or in a verify queue (R110). -/
def State.liveSerials (s : State) : List Nat :=
  (s.channels.a.exposure.map (·.copy.serial)).toList ++ (s.channels.b.exposure.map (·.copy.serial)).toList ++
    s.queues.a.map (·.serial) ++ s.queues.b.map (·.serial)

/-- The candidate after a serial: 65,535 is followed by 1 (R110). -/
def serialAfter (n : Nat) : Nat := if n < 65535 then n + 1 else 1

/-- The first candidate that no live copy carries (R110). -/
def firstUnused (live : List Nat) : Nat → Nat → Nat
  | 0, n => n
  | fuel + 1, n => if live.contains n then firstUnused live fuel (serialAfter n) else n

/-- The serial the dispatcher issues next (R110). -/
def State.nextSerial (s : State) : Nat := firstUnused s.liveSerials (s.liveSerials.length + 1) s.serialNext

/-! ## The mark code (R154, R194) -/

/-- What a mark code identifies (R154). -/
structure MarkIdentity where
  serial : Nat
  label : Label
  sep : Sep
  index : Nat
deriving DecidableEq, Repr

/-- The 10-bit check of an identity (R154). -/
def MarkIdentity.check (m : MarkIdentity) : Nat :=
  (m.serial + m.label.edition.val + m.label.section_.val + m.label.page.val + m.sep.code + m.index) % 1024

/-- The 48-bit mark code of an identity (R194). -/
def MarkIdentity.code (m : MarkIdentity) : BitVec 48 :=
  BitVec.ofNat 10 m.check ++ BitVec.ofNat 3 m.index ++ BitVec.ofNat 2 m.sep.code ++
    BitVec.ofNat 8 m.label.page.val ++ BitVec.ofNat 5 m.label.section_.val ++
    BitVec.ofNat 4 m.label.edition.val ++ BitVec.ofNat 16 m.serial

/-- The separation of a two-bit code. -/
def sepOfBits (b : BitVec 2) : Sep := if b = 0 then .k else if b = 1 then .c else if b = 2 then .m else .y

/-- The identity a code carries, read by the bit positions of R194. -/
def markIdentity (c : BitVec 48) : MarkIdentity :=
  { serial := (c.extractLsb' 0 16).toNat
    label := ⟨(c.extractLsb' 16 4).toFin, (c.extractLsb' 20 5).toFin, (c.extractLsb' 25 8).toFin⟩
    sep := sepOfBits (c.extractLsb' 33 2)
    index := (c.extractLsb' 35 3).toNat }

/-- The check field of a code (R194). -/
def markCheck (c : BitVec 48) : Nat := (c.extractLsb' 38 10).toNat

/-! ## Screen sets in use (R86, R87) -/

/-- The in-use counts of a group of screen sets changed. -/
def State.countSets (s : State) (f : Nat → Nat) (group : List (Fin 8)) : State :=
  { s with screens := group.foldl (fun v (i : Fin 8) => v.set i { v[i] with inUse := f v[i].inUse }) s.screens }

end Sys2Proof.Machine
end

