-- ==== Sys2Proof/Machine/Flags.lean ====
section
/-! DEFINITION. The conditions computed from the state whenever they are read: the resend view (R36), the queue order
and eligibility of plate records (R105, R106), the render requests (R122), the mark windows (R149) and the attention
lines (R185). -/

namespace Sys2Proof.Machine

open Sys2Proof

/-! ## The resend view (R36) -/

/-- The segment numbers a live entry contributes to the resend view (R36). -/
def Page.resendNeeds (p : Page) : List Nat :=
  match p.state with
  | .waiting => p.notHeld (p.expected.getD 0)
  | .receiving => p.damaged
  | _ => []

/-- The resend view: pages in the order of their openings, numbers ascending within a page (R36). -/
def State.resendView (s : State) : List (Label × Nat) :=
  s.openOrder.flatMap fun h =>
    match s.page h with
    | some p => p.resendNeeds.map fun n => (p.label, n)
    | none => []

/-! ## Queue order and eligibility (R105, R106) -/

/-- A record's deadline as a key: a record of an edition with no deadline comes last (R105). -/
def State.deadlineKey (s : State) (r : Plate) : Nat :=
  match (s.editionOf r.label).deadline with
  | some d => d.toNat
  | none => 4294967296

/-- Whether one WAITING record comes before another, by deadline, remake flag, arrival sequence and plate id (R105). -/
def State.before (s : State) (i : Fin 128) (r : Plate) (j : Fin 128) (q : Plate) : Bool :=
  if s.deadlineKey r ≠ s.deadlineKey q then s.deadlineKey r < s.deadlineKey q
  else if r.remake ≠ q.remake then r.remake
  else if r.arrival ≠ q.arrival then r.arrival.toNat < q.arrival.toNat
  else i.val < j.val

/-- Whether a line choice allows a line (R106). -/
def LineChoice.allows : LineChoice → Line → Bool
  | .either, _ => true
  | .a, .a => true
  | .b, .b => true
  | _, _ => false

/-- Whether a record is WAITING and eligible for a line (R106). -/
def State.eligible (s : State) (r : Plate) (l : Line) : Bool :=
  r.derived == .waiting && r.choice.allows l &&
    match r.page.bind s.page with
    | some p => p.state == .complete
    | none => false

/-- The first of two candidates in queue order; either may be missing. -/
def State.firstOf (s : State) (best : Option (Fin 128)) (i : Fin 128) : Option (Fin 128) :=
  match (best.bind fun j => (s.plate j).map fun q => (j, q)), s.plate i with
  | some (j, q), some r => if s.before i r j q then some i else some j
  | none, some _ => some i
  | some (j, _), none => some j
  | none, none => none

/-- The ids of the records eligible for a line, in ascending order. -/
def State.eligibleIds (s : State) (l : Line) : List (Fin 128) :=
  plateIds.filter fun i =>
    match s.plate i with
    | some r => s.eligible r l
    | none => false

/-- The first record in queue order that is eligible for a line (R108). -/
def State.firstEligible (s : State) (l : Line) : Option (Fin 128) := (s.eligibleIds l).foldl s.firstOf none

/-- The position of a WAITING record in the queue order, counted from 0 (R116). -/
def State.queuePosition (s : State) (i : Fin 128) (r : Plate) : Option Nat :=
  if r.derived = .waiting then
    some ((plateIds.filter fun j =>
      match s.plate j with
      | some q => q.derived == .waiting && s.before j q i r
      | none => false).length)
  else none

/-! ## Render requests (R122) -/

/-- The page entry a channel's record names, with the record. -/
def State.loadedPage (s : State) (l : Line) : Option (Plate × Page) :=
  (s.channel l).exposure.bind fun e =>
    (s.plate e.plate).bind fun r => (r.page.bind s.page).map fun p => (r, p)

/-- The slot a band goes into (R119). -/
def slotOf (b : Nat) : Fin 4 := ⟨b % 4, Nat.mod_lt _ (by decide)⟩

/-- The slots of a ring that are FILLED (R123). -/
def Channel.filledCount (c : Channel) : Nat :=
  (c.ring.toList.filter fun x =>
    match x with
    | .filled _ _ => true
    | _ => false).length

/-- Whether a channel has a render request pending (R122). -/
def State.renderRequest (s : State) (l : Line) : Bool :=
  let c := s.channel l
  match c.exposure, s.loadedPage l with
  | some e, some (_, p) =>
    e.phase != .finishing && !c.underrun && c.nextBand < p.bands && c.ring[slotOf c.nextBand] == .free
  | _, _ => false

/-! ## Mark windows (R145, R149) -/

/-- A window is enabled where its min is below its max (R145). -/
def Window.enabled (w : Window) : Bool := w.lo < w.hi

/-- Whether a tick count lies in an enabled window (R149). -/
def Window.contains (w : Window) (n : Nat) : Bool := w.enabled && w.lo ≤ n && n ≤ w.hi

/-- Whether two enabled windows share a tick count (R145). -/
def Window.overlaps (w v : Window) : Bool := w.enabled && v.enabled && max w.lo v.lo ≤ min w.hi v.hi

/-- The greatest max among the enabled windows in force; none where no window is enabled (R149). -/
def MarkTiming.largestMax (m : MarkTiming) : Option Nat :=
  (([m.start, m.zero, m.one].filter Window.enabled).map Window.hi).max?

/-- The classes of a measurement (R149). -/
inductive BarClass where
  | start | zero | one | fault
deriving DecidableEq, Repr

/-- The class of a measurement under the windows in force (R149). -/
def MarkTiming.classify (m : MarkTiming) (n : Nat) : BarClass :=
  if m.start.contains n then .start else if m.zero.contains n then .zero else if m.one.contains n then .one else .fault

/-! ## The attention lines (R185) -/

/-- ATTN-FEED: the resend view holds a pair; negated under reset (R185, R190). -/
def State.attnFeed (s : State) : Bool := !s.resetAsserted && !s.resendView.isEmpty

/-- ATTN-PLAN: the incident list holds a record or the lost count is above 0 (R173). -/
def State.attnPlan (s : State) : Bool := !s.resetAsserted && (!s.incidents.isEmpty || 0 < s.lost)

/-- ATTN-A and ATTN-B: the channel is IDLE and not held and a record is eligible for its line (R185). -/
def State.attnLine (s : State) (l : Line) : Bool :=
  !s.resetAsserted && (s.channel l).exposure.isNone && !(s.channel l).held && !(s.eligibleIds l).isEmpty

/-- The attention line of a port (R185). -/
def State.attention (s : State) : Port → Bool
  | .feed => s.attnFeed
  | .plan => s.attnPlan
  | .imageA => s.attnLine .a
  | .imageB => s.attnLine .b

end Sys2Proof.Machine
end

