-- ==== Sys2Proof/Machine/Operands.lean ====
section
/-! DEFINITION. The parameters of the longer requests, read from the words of their frames (spec/11, R192, R193). A reader
answers none where the parameter word count does not fit the request: a framing error, answered BAD_VALUE (R183). -/

namespace Sys2Proof.Machine

open Sys2Proof

/-! ## SEGMENT (R23, R193) -/

/-- A segment as carried: the header fields, the sixteen header bytes and the payload bytes, without the pad byte. -/
structure SegmentFrame where
  handle : Nat
  kind : Nat
  sep : Nat
  number : Nat
  length : Nat
  check : BitVec 32
  header : List Byte
  payload : List Byte
deriving DecidableEq, Repr

/-- The parameter words of a SEGMENT: 8 and half the payload length, rounded up (R23). -/
def readSegment : List Word → Option SegmentFrame
  | w0 :: w1 :: w2 :: w3 :: w4 :: w5 :: w6 :: w7 :: data =>
    if data.length = (w3.toNat + 1) / 2 then
      some { handle := w0.toNat / 256, kind := w0.toNat % 256, sep := w1.toNat / 256, number := w2.toNat
             length := w3.toNat, check := read32 w6 w7, header := bytesOf [w0, w1, w2, w3, w4, w5, w6, w7]
             payload := (bytesOf data).take w3.toNat }
    else none
  | _ => none

/-! ## LINE SET (R186, R145) -/

/-- The fields of a LINE SET as carried. -/
structure LineSetFields where
  line : Nat
  overhead : Nat
  rowTime : Nat
  stallLimit : Nat
  polarity : Nat
  filter : Nat
  tick : Nat
  start : Window
  zero : Window
  one : Window
  verification : Nat
  verifyWindow : Nat
deriving DecidableEq, Repr

/-- The 15 parameter words of a LINE SET (R192). -/
def readLineSet : List Word → Option LineSetFields
  | [l, ov, rt, sl, po, fi, ti, s0, s1, z0, z1, o0, o1, ve, vw] =>
    some { line := l.toNat, overhead := ov.toNat, rowTime := rt.toNat, stallLimit := sl.toNat, polarity := po.toNat
           filter := fi.toNat, tick := ti.toNat, start := ⟨s0.toNat, s1.toNat⟩, zero := ⟨z0.toNat, z1.toNat⟩
           one := ⟨o0.toNat, o1.toNat⟩, verification := ve.toNat, verifyWindow := vw.toNat }
  | _ => none

/-- The settings a LINE SET writes, with the stall limit clamped to 1 to 1,000; none where a check of R186 or R145 refuses
it. -/
def LineSetFields.settings (f : LineSetFields) : Option (Line × LineSettings) :=
  match Line.ofCode f.line, twoOfCode f.polarity, twoOfCode f.filter, twoOfCode f.verification with
  | some l, some inverted, some filter, some verification =>
    if f.rowTime = 0 ∨ f.tick = 0 ∨ 255 < f.tick ∨ 600 < f.verifyWindow ∨ f.start.overlaps f.zero = true ∨
        f.start.overlaps f.one = true ∨ f.zero.overlaps f.one = true then none
    else
      some (l, { overhead := f.overhead, rowTime := f.rowTime, stallLimit := min (max f.stallLimit 1) 1000
                 mark := { inverted, filter, tick := f.tick, start := f.start, zero := f.zero, one := f.one }
                 verification, verifyWindow := f.verifyWindow })
  | _, _, _, _ => none

/-- The settings of a line as words, in the order LINE SET carries them (R186). -/
def LineSettings.words (x : LineSettings) : List Word :=
  [word x.overhead, word x.rowTime, word x.stallLimit, flagWord x.mark.inverted, flagWord x.mark.filter,
    word x.mark.tick, word x.mark.start.lo, word x.mark.start.hi, word x.mark.zero.lo, word x.mark.zero.hi,
    word x.mark.one.lo, word x.mark.one.hi, flagWord x.verification, word x.verifyWindow]

/-! ## GENERAL SET (R187) -/

/-- What a GENERAL SET writes. -/
structure GeneralSettings where
  renderUnit : Nat
  mode : ArbMode
  table : Vector Nat 16
deriving DecidableEq, Repr

/-- The 18 parameter words of a GENERAL SET, checked by R187: the outer none is a framing error, the inner none a value
refused. -/
def readGeneralSet : List Word → Option (Option GeneralSettings)
  | unit :: mode :: entries =>
    if h : entries.length = 16 then
      some (match ArbMode.ofCode mode.toNat with
        | some m =>
          if unit.toNat = 0 ∨ 4095 < unit.toNat ∨ (entries.any fun e => 255 < e.toNat) = true then none
          else some { renderUnit := unit.toNat, mode := m, table := ⟨(entries.map BitVec.toNat).toArray, by simp [h]⟩ }
        | none => none)
    else none
  | _ => none

/-! ## EDITION SET (R90) -/

/-- The edition number and fields of an EDITION SET; the deadline-passed marker is not carried. -/
structure EditionFields where
  edition : Fin 16
  deadline : Option Seconds
  sets : Seps (Fin 8)
  remakeLimit : Nat
  resendWait : Nat
deriving DecidableEq, Repr

/-- A number as a screen-set number, where it names one. -/
def readSet (n : Nat) : Option (Fin 8) := if h : n < 8 then some ⟨n, h⟩ else none

/-- A number as an edition number, where it names one. -/
def readEdition (n : Nat) : Option (Fin 16) := if h : n < 16 then some ⟨n, h⟩ else none

/-- The 10 parameter words of an EDITION SET, checked by R90: the outer none is a framing error, the inner none a value
refused. A remake limit carried as 0 is taken as 8. -/
def readEditionSet : List Word → Option (Option EditionFields)
  | [e, pr, hi, lo, k, c, m, y, limit, wait] =>
    some (match readEdition e.toNat, readSet k.toNat, readSet c.toNat, readSet m.toNat, readSet y.toNat with
      | some e, some k, some c, some m, some y =>
        if 8 < limit.toNat ∨ 3600 < wait.toNat then none
        else some { edition := e, deadline := readOpt32 pr hi lo, sets := ⟨k, c, m, y⟩
                    remakeLimit := if limit.toNat = 0 then 8 else limit.toNat, resendWait := wait.toNat }
      | _, _, _, _, _ => none)
  | _ => none

/-- An edition entry as words: every field of R89 in its order (R91). -/
def Edition.words (x : Edition) : List Word :=
  optWords32 x.deadline ++
    [word x.sets.k.val, word x.sets.c.val, word x.sets.m.val, word x.sets.y.val, word x.remakeLimit,
      word x.resendWait, flagWord x.passed]

/-! ## SCREEN LOAD (R84) -/

/-- The five tile sides (R83). -/
def tileSides : List Nat := [8, 12, 16, 24, 32]

/-- A SCREEN LOAD as carried: the set number, the content with its thresholds as carried, and whether the checks 1 to 6
of R84 pass. -/
structure ScreenLoadFields where
  set : Nat
  content : ScreenSet
  valid : Bool
deriving DecidableEq, Repr

/-- The parameter words of a SCREEN LOAD: 24 and the thresholds of the carried side, or of side 32 where the carried side
is not one of the five; none is a framing error (R84, R183). -/
def readScreenLoad (ws : List Word) : Option ScreenLoadFields :=
  let at_ (i : Nat) : Nat := (ws.getD i 0).toNat
  let side := at_ 20
  let fits := if side ∈ tileSides then side * side else 1024
  if ws.length = 24 + fits then
    let tile := (ws.drop 24).map BitVec.toNat
    let knots : Vector Nat 17 := Vector.ofFn fun i => at_ (1 + i.val)
    some
      { set := at_ 0
        content := { knots, floorF := at_ 18, ceilG := at_ 19, side, yoff := at_ 21, xoff := at_ 22
                     xshift := at_ 23, tile }
        valid := at_ 0 < 8 && tileSides.contains side && at_ 21 < side && at_ 22 < side && at_ 23 < side &&
          at_ 18 ≤ 2047 && 2048 ≤ at_ 19 && at_ 19 ≤ 4095 && knots.toList.all (· ≤ 4095) && tile.all (· ≤ 4095) }
  else none

end Sys2Proof.Machine
end

