-- ==== Sys2Proof/Machine/Catalogue.lean ====
section
/-! DEFINITION. The page catalogue (spec/01): opening with attachment and supersede, closing, abandoning, retiring,
releasing and reading page entries. -/

namespace Sys2Proof.Machine

open Sys2Proof

/-! ## Opening (R2 to R6) -/

/-- The version of a newly opened entry: one more than that of the label's live entry opened last, at most 255 (R3). -/
def State.nextVersion (s : State) (l : Label) : Nat :=
  match ((s.openOrder.filterMap s.page).filter fun p => p.label == l).getLast? with
  | some p => min (p.version + 1) 255
  | none => 1

/-- A newly opened entry (R1, R5). -/
def Page.create (label : Label) (version : Nat) (seps : Seps Bool) (width height : Nat) (expected : Option Nat)
    (now : Seconds) : Page :=
  { state := .receiving, label, version, seps, width, height, expected, held := [], damaged := []
    results := ⟨SepResult.opening, SepResult.opening, SepResult.opening, SepResult.opening⟩, clip := 0, released := false
    retention := 0, opened := now, closed := none, completed := none, timer := none }

/-- The ORDER MISMATCH or ORDER LOST incident of a record against a page entry (R6, R13, R14, R101). -/
def State.orderIncident (s : State) (kind : IncidentKind) (h : Fin 64) (r : Plate) (i : Fin 128) : State :=
  s.raise { kind, time := s.clock, label := some r.label, version := (s.page h).map Page.version, handle := some h
            sep := some r.sep, plate := some i, disposition := .noted }

/-- Whether a page entry's separation set holds a separation. -/
def State.pageHas (s : State) (h : Fin 64) (sp : Sep) : Bool :=
  match s.page h with
  | some p => p.seps.get sp
  | none => false

/-- One waiting label-only record is attached to a newly opened entry, or fails as a mismatch (R6). -/
def State.attachOne (h : Fin 64) (l : Label) (s : State) (i : Fin 128) : State :=
  match s.plate i with
  | some r =>
    if r.page = none ∧ r.label = l ∧ r.derived = .waiting then
      if s.pageHas h r.sep then (s.setPlate i (some { r with page := some h })).retain h
      else (s.orderIncident .orderMismatch h r i).freePlate i
    else s
  | none => s

/-- The waiting label-only records are attached in ascending plate id (R6). -/
def State.attachWaiting (s : State) (h : Fin 64) (l : Label) : State := plateIds.foldl (State.attachOne h l) s

/-! ## Supersede (R12 to R14) -/

/-- The new record of a replaced one, on the new entry, or the incident raised in its place (R14). Where the new set lacks
the separation and the plate table is full too, the set is tested first (log entry 25). -/
def State.replaceBy (s : State) (new : Fin 64) (i : Fin 128) (r : Plate) : State :=
  if r.cancelled then s
  else if s.pageHas new r.sep then
    match s.freePlateIds.head? with
    | some j =>
      ({ s.setPlate j (some (Plate.create r.label (some new) r.sep r.choice (r.toExpose + r.exposing + r.awaiting) r.step
          .supersede s.arrival)) with arrival := s.arrival + 1 }).retain new
    | none => s.orderIncident .orderLost new r i
  else s.orderIncident .orderMismatch new r i

/-- An ACTIVE or VERIFYING record of a superseded entry is replaced and becomes obsolete (R14). -/
def State.replaceOne (old new : Fin 64) (s : State) (i : Fin 128) : State :=
  match s.plate i with
  | some r =>
    if r.page = some old ∧ r.derived ≠ .waiting then
      (s.replaceBy new i r).setPlate i (some { r.withdrawAll with obsolete := true })
    else s
  | none => s

/-- A WAITING record of a superseded entry is re-pointed to the new entry, or fails as a mismatch (R13). -/
def State.repointOne (old new : Fin 64) (s : State) (i : Fin 128) : State :=
  match s.plate i with
  | some r =>
    if r.page = some old ∧ r.derived = .waiting then
      if s.pageHas new r.sep then ((s.setPlate i (some { r with page := some new })).retain new).release old
      else
        ((s.orderIncident .orderMismatch new r i).setPlate i (some { r.failAll with obsolete := true })).freeIfSpent i
    else s
  | none => s

/-- The kinds of incident that a supersede of their page resolves (R12). -/
def IncidentKind.ofPage : IncidentKind → Bool
  | .segmentBad | .pageIncomplete | .contentFault => true
  | _ => false

/-- The current entry of a label is superseded by a newly opened one (R12). -/
def State.supersede (s : State) (old new : Fin 64) : State :=
  let s := s.modifyPage old fun p => { p with state := .superseded, timer := none }
  let s := (s.stopIndexing old).resolve fun i => i.kind.ofPage && i.handle == some old
  let s := plateIds.foldl (State.replaceOne old new) s
  (plateIds.foldl (State.repointOne old new) s).freeIfUnused old

/-- The parameters of PAGE OPEN are in range (R4). -/
def openValid (seps : Seps Bool) (width height : Nat) (expected : Option Nat) : Bool :=
  !seps.members.isEmpty && 512 ≤ width && width ≤ 16384 && width % 32 == 0 && 256 ≤ height && height ≤ 24576 &&
    match expected with
    | some n => 1 ≤ n && n ≤ Config.maxSegments
    | none => true

/-- An accepted PAGE OPEN on the FREE entry it takes (R5). -/
def State.openPage (s : State) (h : Fin 64) (l : Label) (seps : Seps Bool) (width height : Nat)
    (expected : Option Nat) : State × Reply :=
  let version := s.nextVersion l
  let old := s.currentEntry l
  let t := { s.setPage h (some (Page.create l version seps width height expected s.clock)) with
    openOrder := s.openOrder ++ [h] }
  let t := t.attachWaiting h l
  (match old with
    | some o => t.supersede o h
    | none => t,
   Reply.ok [word h.val, word version, optWord (old.map Fin.val)])

/-- PAGE OPEN on FEED (R4, R5). -/
def execPageOpen (ws : List Word) (s : State) : Host.Outcome State Fault Refusal :=
  s.request .feed fun s =>
    match ws with
    | [l0, l1, sw, w, h, n] =>
      match readLabel l0 l1 with
      | some l =>
        if openValid (readSeps sw) w.toNat h.toNat (readOpt n) then
          match s.freeHandle with
          | some i => s.openPage i l (readSeps sw) w.toNat h.toNat (readOpt n)
          | none => (s, Reply.bare .full)
        else (s, Reply.bare .badValue)
      | none => (s, Reply.bare .badValue)
    | _ => (s, Reply.bare .badValue)

/-! ## Closing (R7, R8) -/

/-- The page that an accepted PAGE CLOSE leaves before it moves on: N and the closed time set, and everything numbered N
or more discarded (R8). -/
def Page.closeAt (p : Page) (n : Nat) (now : Seconds) : Page :=
  { p with
    expected := some n, closed := some now, held := p.held.filter fun g => g.number < n
    damaged := p.damaged.filter (· < n) }

/-- The resend-wait timer of a page that becomes WAITING; a wait of 0 starts none (R38). -/
def startTimer (wait : Nat) : Option ResendTimer := if wait = 0 then none else some { count := 0, wait }

/-- An accepted PAGE CLOSE of a page (R8). -/
def State.closePage (s : State) (h : Fin 64) (p : Page) (n : Nat) : State × Reply :=
  let q := p.closeAt n s.clock
  let s := { s with freeCells := s.freeCells + cellsOf (p.held.filter fun g => !decide (g.number < n)) }
  let s := s.resolve fun i => i.kind == .segmentBad && i.handle == some h && decide (n ≤ i.segment.getD 0)
  let missing := q.notHeld n
  if missing.isEmpty then
    (({ s with indexQueue := s.indexQueue ++ [h] }).setPage h (some { q with state := .indexing }),
      Reply.ok [word PageState.indexing.code, 0])
  else
    (s.setPage h (some { q with state := .waiting, timer := startTimer (s.editionOf p.label).resendWait }),
      Reply.ok [word PageState.waiting.code, word missing.length])

/-- PAGE CLOSE on FEED (R7, R8). -/
def execPageClose (ws : List Word) (s : State) : Host.Outcome State Fault Refusal :=
  s.request .feed fun s =>
    match ws with
    | [hw, nw] =>
      match readHandle hw.toNat with
      | none => (s, Reply.bare .badValue)
      | some h =>
        match s.page h with
        | none => (s, Reply.bare .noPage)
        | some p =>
          if p.state ≠ .receiving then (s, Reply.bare .state)
          else
            match readOpt nw, p.expected with
            | some n, some m =>
              if n < 1 ∨ Config.maxSegments < n ∨ n ≠ m then (s, Reply.bare .badValue) else s.closePage h p n
            | some n, none =>
              if n < 1 ∨ Config.maxSegments < n then (s, Reply.bare .badValue) else s.closePage h p n
            | none, some m => s.closePage h p m
            | none, none => (s, Reply.bare .badValue)
    | _ => (s, Reply.bare .badValue)

/-! ## Abandoning, retiring and releasing (R11, R19) -/

/-- An entry that no record names is freed at the request of FEED or PLAN (R19). -/
def State.dropPage (s : State) (ws : List Word) : State × Reply :=
  match ws with
  | [hw] =>
    match readHandle hw.toNat with
    | none => (s, Reply.bare .badValue)
    | some h =>
      match s.page h with
      | none => (s, Reply.bare .noPage)
      | some p => if 0 < p.retention then (s, Reply.bare .inUse) else (s.freeEntry h, Reply.ok [])
  | _ => (s, Reply.bare .badValue)

/-- PAGE ABANDON on FEED (R19). -/
def execPageAbandon (ws : List Word) (s : State) : Host.Outcome State Fault Refusal :=
  s.request .feed fun s => s.dropPage ws

/-- PAGE RETIRE on PLAN (R19). -/
def execPageRetire (ws : List Word) (s : State) : Host.Outcome State Fault Refusal :=
  s.request .plan fun s => s.dropPage ws

/-- PAGE RELEASE on PLAN (R11). -/
def execPageRelease (ws : List Word) (s : State) : Host.Outcome State Fault Refusal :=
  s.request .plan fun s =>
    match ws with
    | [hw] =>
      match readHandle hw.toNat with
      | none => (s, Reply.bare .badValue)
      | some h =>
        match s.page h with
        | none => (s, Reply.bare .noPage)
        | some p =>
          if p.state ≠ .faulted then (s, Reply.bare .state)
          else
            ((s.setPage h (some { p with state := .complete, released := true })).resolve
                (fun i => i.kind == .contentFault && i.handle == some h),
              Reply.ok [])
    | _ => (s, Reply.bare .badValue)

/-! ## Reading (R21) -/

/-- The words PAGE READ gives for one separation (R21, R191). -/
def SepResult.words (x : SepResult) : List Word :=
  word x.tally.count ::
    (match x.tally.first with
      | some (kind, row) => [word kind.code, word row]
      | none => [absentWord, 0]) ++
    [word x.patches.length] ++ words32 x.runValues ++ words48 x.photoDots ++ words32 x.weight

/-- The words PAGE READ gives for an entry (R21). -/
def Page.words (h : Fin 64) (p : Page) : List Word :=
  [word h.val, word p.state.code] ++ labelWords p.label ++
    [word p.version, sepsWord p.seps, word p.width, word p.height, word p.bands, optWord p.expected,
      word p.held.length, word p.damaged.length, optWord p.missingCount, flagWord p.released, word p.retention] ++
    optWords32 (some p.opened) ++ optWords32 p.closed ++ optWords32 p.completed ++
    (p.seps.members.flatMap fun sp => (p.results.get sp).words) ++ words48 p.clip

/-- The reply of PAGE READ for the entry it names, if there is one (R21). -/
def State.readPage (s : State) (h : Option (Fin 64)) : Reply :=
  match h.bind fun i => (s.page i).map fun p => (i, p) with
  | some (i, p) => Reply.ok (p.words i)
  | none => Reply.bare .noPage

/-- PAGE READ on FEED or PLAN: by handle in one word, by label in two (R21, R183). -/
def execPageRead (port : ReadPort) (ws : List Word) (s : State) : Host.Outcome State Fault Refusal :=
  s.request port.port fun s =>
    match ws with
    | [hw] =>
      match readHandle hw.toNat with
      | some h => (s, s.readPage (some h))
      | none => (s, Reply.bare .badValue)
    | [l0, l1] =>
      match readLabel l0 l1 with
      | some l => (s, s.readPage (s.currentEntry l))
      | none => (s, Reply.bare .badValue)
    | _ => (s, Reply.bare .badValue)

end Sys2Proof.Machine
end

