-- ==== Sys2Proof/Machine/LineWork.lean ====
section
/-! DEFINITION. The line stream of a separation: row records, the rows they build, the faults they are charged
(spec/03, R47 to R53), and the same decode row by row through a render context (R60, R121). -/

namespace Sys2Proof.Machine

open Sys2Proof

/-! ## Row records (R49, R51, R193) -/

/-- A row record (R49). -/
inductive RowRecord where
  | white (n : Nat)
  | repeatRow (n : Nat)
  | runs (values : List Nat)
deriving DecidableEq, Repr

/-- The k run values at the head of a payload and the bytes after them; none where the payload ends within them or a value
is above 16,384 (R51). -/
def takeRuns : Nat → List Byte → Option (List Nat × List Byte)
  | 0, bs => some ([], bs)
  | k + 1, hi :: lo :: bs =>
    if twoBytes hi lo ≤ 16384 then (takeRuns k bs).map fun x => (twoBytes hi lo :: x.1, x.2) else none
  | _ + 1, _ => none

/-- The row record at the head of a payload and the bytes after it; none is a defect of R51, or no byte left. -/
def parseRecord : List Byte → Option (RowRecord × List Byte)
  | code :: hi :: lo :: bs =>
    let n := twoBytes hi lo
    if code = 1 then if 1 ≤ n ∧ n ≤ 256 then some (.white n, bs) else none
    else if code = 2 then if 1 ≤ n ∧ n ≤ 256 then some (.repeatRow n, bs) else none
    else if code = 3 then
      if 1 ≤ n ∧ n ≤ 1024 then (takeRuns n bs).map fun x => (.runs x.1, x.2) else none
    else none
  | _ => none

/-- The all-white row of a page of width W. -/
def whiteRow (w : Nat) : Row := List.replicate w false

/-- The row of a RUNS record over the dots that are left: runs alternate in colour, dots beyond the last are white, and
runs beyond the last dot are discarded (R50). -/
def buildRow : Nat → Bool → List Nat → Row
  | left, _, [] => whiteRow left
  | left, ink, v :: vs => List.replicate (min v left) ink ++ buildRow (left - v) (!ink) vs

/-! ## Fault tallies (R53) -/

/-- The row recorded for a fault: 0 to 65,535, and a free value where the row is above that (R53, log entry 1). -/
def recordedRow (row : Nat) : Nat := if row ≤ Config.maxCount then row else (Config.rowBeyond row).toNat

/-- A tally with one more content fault charged (R53). -/
def Tally.charge (t : Tally) (kind : FaultKind) (row : Nat) : Tally :=
  { count := min (t.count + 1) Config.maxCount
    first := some (t.first.getD (kind, recordedRow row)) }

/-- The tally before any fault. -/
def Tally.empty : Tally := { count := 0, first := none }

/-! ## The walk of a line stream (R48 to R52) -/

/-- Where the walk of a line stream stands: the running row count, the reference row, the run-value count and the
tally (R48 to R50, R53). -/
structure LineWalk where
  rowCount : Nat
  reference : Row
  runValues : Nat
  tally : Tally
deriving DecidableEq, Repr

/-- The walk at the start of a line stream (R48, R49). -/
def LineWalk.start (w : Nat) : LineWalk :=
  { rowCount := 0, reference := whiteRow w, runValues := 0, tally := Tally.empty }

/-- The walk with a fault charged at the running row count. -/
def LineWalk.charge (x : LineWalk) (kind : FaultKind) : LineWalk := { x with tally := x.tally.charge kind x.rowCount }

/-- The walk after one row record (R49, R50). -/
def LineWalk.record (w : Nat) (x : LineWalk) : RowRecord → LineWalk
  | .white n => { x with rowCount := x.rowCount + n, reference := whiteRow w }
  | .repeatRow n => { x with rowCount := x.rowCount + n }
  | .runs vs =>
    let y := if vs.sum < w then x.charge .shortRow else if w < vs.sum then x.charge .longRow else x
    { y with
      rowCount := x.rowCount + 1, reference := buildRow w false vs, runValues := x.runValues + vs.length }

/-- The walk over the records of one payload; the first defect is charged and the rest is not read (R51). The first
argument bounds the records, each of which takes at least one byte. -/
def LineWalk.records (w : Nat) : Nat → LineWalk → List Byte → LineWalk
  | 0, x, _ => x
  | _ + 1, x, [] => x
  | fuel + 1, x, b :: bs =>
    match parseRecord (b :: bs) with
    | none => x.charge .syntaxDefect
    | some (r, rest) => LineWalk.records w fuel (x.record w r) rest

/-- The walk over one LINE segment: its stated first row is compared, then its records are read (R48). -/
def LineWalk.segment (w : Nat) (x : LineWalk) : List Byte → LineWalk
  | hi :: lo :: bs =>
    LineWalk.records w bs.length (if twoBytes hi lo = x.rowCount then x else x.charge .rowSequence) bs
  | _ => x.charge .syntaxDefect

/-- The segments of one kind and separation of a page, in ascending segment number (R47). -/
def Page.stream (p : Page) (k : SegKind) (sp : Sep) : List Segment :=
  p.held.filter fun g => g.kind == k && g.sep == sp

/-- The numbers and payloads of a separation's LINE segments. -/
def Page.linePayloads (p : Page) (sp : Sep) : List (Nat × List Byte) :=
  (p.stream .line sp).map fun g => (g.number, g.payload)

/-- The walk over a separation's whole line stream, with the page-length faults of its end (R52). -/
def Page.lineWalk (p : Page) (sp : Sep) : LineWalk :=
  let segs := p.linePayloads sp
  let x := segs.foldl (fun x g => LineWalk.segment p.width x g.2) (LineWalk.start p.width)
  if segs.isEmpty then x
  else if x.rowCount < p.height then { x with tally := x.tally.charge .shortPage x.rowCount }
  else if p.height < x.rowCount then { x with tally := x.tally.charge .longPage p.height }
  else x

/-! ## Decode through a render context (R60, R121) -/

/-- The context of a copy just loaded: the cursor at the lowest-numbered LINE segment, before its first record; the carry
row white; no row counted; every patch cursor at sample row 0 (R121). -/
def RenderContext.start (p : Page) (sp : Sep) : RenderContext :=
  { segment := ((p.linePayloads sp).head?).map (·.1), offset := 2, rowsLeft := 0, carry := whiteRow p.width
    rowCount := 0, patchCursors := List.replicate (p.results.get sp).patches.length 0 }

/-- The next row record from a payload offset on: the segment it stands in, the offset after it, and the record. A
segment's defect or end passes to the next segment, whose records begin at byte 2 (R51, R193); that the cursor passes to it
only as a record of it is read is the model's (log entry 31). -/
def nextRecord (offset : Nat) : List (Nat × List Byte) → Option (Nat × Nat × RowRecord)
  | [] => none
  | (n, payload) :: segs =>
    match parseRecord (payload.drop offset) with
    | some (r, rest) => some (n, payload.length - rest.length, r)
    | none => nextRecord 2 segs

/-- The next row of a separation and the context after it (R60). The running row count rises by the rows of each record
as it is decoded (R48, R121). After the last record of a segment, and before a record of a later one is read, the cursor
stands in that segment just after the record, the model's choice (log entry 31). Past the end of the stream rows are white;
that the cursor then stands at no segment, with its last offset, is the model's (log entry 26). -/
def RenderContext.nextRow (segs : List (Nat × List Byte)) (w : Nat) (x : RenderContext) : Row × RenderContext :=
  if 0 < x.rowsLeft then (x.carry, { x with rowsLeft := x.rowsLeft - 1 })
  else
    match x.segment.bind fun n => nextRecord x.offset (segs.dropWhile fun g => g.1 < n) with
    | none => (whiteRow w, { x with segment := none })
    | some (n, off, .white k) =>
      (whiteRow w,
        { x with segment := some n, offset := off, rowsLeft := k - 1, carry := whiteRow w, rowCount := x.rowCount + k })
    | some (n, off, .repeatRow k) =>
      (x.carry, { x with segment := some n, offset := off, rowsLeft := k - 1, rowCount := x.rowCount + k })
    | some (n, off, .runs vs) =>
      (buildRow w false vs,
        { x with segment := some n, offset := off, carry := buildRow w false vs, rowCount := x.rowCount + 1 })

/-- The next k rows of a separation and the context after them (R60). -/
def RenderContext.rows (segs : List (Nat × List Byte)) (w : Nat) : Nat → RenderContext → List Row × RenderContext
  | 0, x => ([], x)
  | k + 1, x =>
    let y := x.nextRow segs w
    let z := RenderContext.rows segs w k y.2
    (y.1 :: z.1, z.2)

end Sys2Proof.Machine
end

