-- ==== Sys2Proof/Machine/Patches.lean ====
section
/-! DEFINITION. The patch stream of a separation (spec/03, R54 to R57), the render weight (R58) and the results of
indexing a page (R59). -/

namespace Sys2Proof.Machine

open Sys2Proof

/-- Where the samples of an open patch lie: segment number, payload offset, count. -/
structure Piece where
  segment : Nat
  offset : Nat
  count : Nat
deriving DecidableEq, Repr

/-- The states of a patch stream (R54). -/
inductive PatchStream where
  | noPatch
  | opened (head : PatchHead) (segment : Nat) (pieces : List Piece)
  | discarding
deriving DecidableEq, Repr

/-- Where the walk of a patch stream stands. -/
structure PatchWalk where
  stream : PatchStream
  patches : List Patch
  photoDots : Nat
  clip : Nat
  tally : Tally
deriving DecidableEq, Repr

/-- The part of an extent from a start that lies below a bound (R56). -/
def clippedSide (start extent bound : Nat) : Nat := if start < bound then min (start + extent) bound - start else 0

/-- The clipped area of a patch (R56). -/
def PatchHead.clippedArea (p : PatchHead) (width height : Nat) : Nat :=
  clippedSide p.x0 (p.w * p.f) width * clippedSide p.y0 (p.h * p.f) height

/-- The dots of a patch's full rectangle (R56). -/
def PatchHead.fullArea (p : PatchHead) : Nat := p.w * p.f * (p.h * p.f)

/-- The segment and offset of the k-th sample of a patch; none where it was not received (R57). -/
def locate : List Piece → Nat → Option (Nat × Nat)
  | [], _ => none
  | q :: qs, k => if k < q.count then some (q.segment, q.offset + k) else locate qs (k - q.count)

/-- The patch record of a closed patch (R57). -/
def PatchHead.close (p : PatchHead) (segment : Nat) (pieces : List Piece) (width height : Nat) : Patch :=
  { head := p, headSegment := segment, received := (pieces.map (·.count)).sum
    clippedArea := p.clippedArea width height
    locator := (List.range p.h).map fun r => locate pieces (r * p.w) }

/-- An OPEN patch closes and its sample count is compared; every stream returns to NO PATCH (R55, R56). -/
def PatchWalk.close (width height : Nat) (x : PatchWalk) : PatchWalk :=
  match x.stream with
  | .opened hd n pieces =>
    let q := hd.close n pieces width height
    { stream := .noPatch, patches := x.patches ++ [q], photoDots := x.photoDots + q.clippedArea
      clip := x.clip + (hd.fullArea - q.clippedArea)
      tally :=
        if q.received < hd.w * hd.h then x.tally.charge .patchDataShort hd.y0
        else if hd.w * hd.h < q.received then x.tally.charge .patchDataLong hd.y0
        else x.tally }
  | _ => { x with stream := .noPatch }

/-- The head fields of a PATCH HEAD payload and its first samples; none where R54 refuses the head. -/
def parseHead : List Byte → Option (PatchHead × List Byte)
  | x1 :: x0 :: y1 :: y0 :: w1 :: w0 :: h1 :: h0 :: f :: mode :: ov :: _ :: samples =>
    let w := twoBytes w1 w0
    let h := twoBytes h1 h0
    if 1 ≤ w ∧ w ≤ 4096 ∧ 1 ≤ h ∧ h ≤ 4096 ∧ 1 ≤ f.toNat ∧ f.toNat ≤ 16 ∧ mode.toNat ≤ 1 ∧
        (ov.toNat < 8 ∨ ov = 0xFF) then
      some ({ x0 := twoBytes x1 x0, y0 := twoBytes y1 y0, w, h, f := f.toNat
              mode := if mode = 0 then .knockout else .overprint
              override_ := if hov : ov.toNat < 8 then some ⟨ov.toNat, hov⟩ else none }, samples)
    else none
  | _ => none

/-- The y0 a refused head is charged at: its own, or 0 where it is too short to give one (R53). -/
def headRow : List Byte → Nat
  | _ :: _ :: y1 :: y0 :: _ => twoBytes y1 y0
  | _ => 0

/-- The walk over one segment of the patch stream (R54, R55). -/
def PatchWalk.segment (width height : Nat) (x : PatchWalk) (g : Segment) : PatchWalk :=
  match g.kind with
  | .patchHead =>
    let y := x.close width height
    match parseHead g.payload with
    | none => { y with stream := .discarding, tally := y.tally.charge .syntaxDefect (headRow g.payload) }
    | some (hd, samples) =>
      if y.patches.length < Config.maxPatches then
        { y with stream := .opened hd g.number [⟨g.number, 12, samples.length⟩] }
      else { y with stream := .discarding, tally := y.tally.charge .tooManyPatches hd.y0 }
  | .patchData =>
    match x.stream with
    | .opened hd n pieces => { x with stream := .opened hd n (pieces ++ [⟨g.number, 0, g.payload.length⟩]) }
    | .discarding => x
    | .noPatch => { x with tally := x.tally.charge .patchOrphan 0 }
  | .line => x

/-- The walk over a separation's whole patch stream, which begins with the tally of its line stream (R47). -/
def Page.patchWalk (p : Page) (sp : Sep) (t : Tally) : PatchWalk :=
  ((p.held.filter fun g => g.kind != .line && g.sep == sp).foldl (PatchWalk.segment p.width p.height)
    { stream := .noPatch, patches := [], photoDots := 0, clip := 0, tally := t }).close p.width p.height

/-- a / b rounded up. -/
def ceilDiv (a b : Nat) : Nat := (a + b - 1) / b

/-- The render weight of a separation (R58). -/
def renderWeight (bands runValues photoDots : Nat) : Nat := 8 * bands + ceilDiv runValues 16 + ceilDiv photoDots 4096

/-- What indexing finds of a separation, and the dots of its patches clipped away (R47, R59). -/
def Page.indexSep (p : Page) (sp : Sep) : SepResult × Nat :=
  let x := p.lineWalk sp
  let y := p.patchWalk sp x.tally
  ({ tally := y.tally, patches := y.patches, runValues := x.runValues, photoDots := y.photoDots
     weight := renderWeight p.bands x.runValues y.photoDots }, y.clip)

/-- What indexing finds of a separation in the page's set, and the opening value of one outside it. -/
def Page.resultOf (p : Page) (sp : Sep) : SepResult :=
  if p.seps.get sp then (p.indexSep sp).1 else SepResult.opening

/-- The page with the results of indexing handed to it (R10, R59). -/
def Page.indexed (p : Page) : Page :=
  { p with
    results := { k := p.resultOf .k, c := p.resultOf .c, m := p.resultOf .m, y := p.resultOf .y }
    clip := (p.seps.members.map fun sp => (p.indexSep sp).2).sum }

end Sys2Proof.Machine
end

