-- ==== Sys2Proof/Machine/Screening.lean ====
section
/-! DEFINITION. Screening and compositing (spec/04, R61 to R77): from the sample over a dot to the dot's value, and the
rows of a band. -/

namespace Sys2Proof.Machine

open Sys2Proof

/-- Tone transfer through the knots, with floor division (R67, R68). -/
def ScreenSet.tone (c : ScreenSet) (v : Nat) : Nat :=
  let k := v / 16
  let lo : Int := (c.knots.toList.getD k 0 : Nat)
  let hi : Int := (c.knots.toList.getD (k + 1) 0 : Nat)
  (lo + ((hi - lo) * (v % 16 : Nat) + 8) / 16).toNat

/-- The end clamps (R69). -/
def ScreenSet.clamp (c : ScreenSet) (t : Nat) : Nat :=
  if t < c.floorF then 0 else if c.ceilG < t then 4095 else t

/-- The tile course of a plate row (R70). -/
def ScreenSet.course (c : ScreenSet) (y : Nat) : Nat := (y + c.yoff) / c.side

/-- The threshold the tile places at a dot (R70, R71). -/
def ScreenSet.threshold (c : ScreenSet) (x y : Nat) : Nat :=
  c.tile.getD ((y + c.yoff) % c.side * c.side + (x + c.xoff + c.course y * c.xshift) % c.side) 0

/-- Whether a dot of a sample value is inked (R72). -/
def ScreenSet.inked (c : ScreenSet) (v x y : Nat) : Bool := c.threshold x y < c.clamp (c.tone v)

/-- Whether a patch covers a dot of the page (R62). Rows and dots outside the page are never asked about. -/
def PatchHead.covers (p : PatchHead) (x y : Nat) : Bool :=
  p.x0 ≤ x && x < p.x0 + p.w * p.f && p.y0 ≤ y && y < p.y0 + p.h * p.f

/-- The PATCH DATA bytes of a separation that follow a segment, in order. -/
def Page.dataAfter (p : Page) (sp : Sep) (n : Nat) : List Byte :=
  ((p.stream .patchData sp).filter fun g => n < g.number).flatMap Segment.payload

/-- The payload bytes from a segment and offset on, followed into the later PATCH DATA segments (R64). -/
def Page.samplesFrom (p : Page) (sp : Sep) (n offset : Nat) : List Byte :=
  ((p.held.find? fun g => g.number == n).map fun g => g.payload.drop offset).getD [] ++ p.dataAfter sp n

/-- The sample of a patch at a sample row and column, read through the locator; a sample not received reads as 0
(R64). -/
def Page.sample (p : Page) (sp : Sep) (q : Patch) (row col : Nat) : Nat :=
  if row * q.head.w + col < q.received then
    match q.locator.getD row none with
    | some (n, offset) => ((p.samplesFrom sp n offset).getD col 0).toNat
    | none => 0
  else 0

/-- The screen set a patch is screened with: its override, or the loaded mapping's set (R65). -/
def Patch.screen (q : Patch) (mapped : Fin 8) : Fin 8 := q.head.override_.getD mapped

/-- The screened value of a dot under a patch (R63, R72). -/
def Page.screened (p : Page) (sp : Sep) (screens : Vector ScreenSlot 8) (mapped : Fin 8) (q : Patch) (x y : Nat) :
    Bool :=
  (screens[q.screen mapped]).content.inked
    (p.sample sp q ((y - q.head.y0) / q.head.f) ((x - q.head.x0) / q.head.f)) x y

/-- A dot after one patch: KNOCKOUT replaces it, OVERPRINT adds ink, and a dot not covered is kept (R73, R74). -/
def Page.composite (p : Page) (sp : Sep) (screens : Vector ScreenSlot 8) (mapped : Fin 8) (x y : Nat) (dot : Bool)
    (q : Patch) : Bool :=
  if q.head.covers x y then
    match q.head.mode with
    | .knockout => p.screened sp screens mapped q x y
    | .overprint => dot || p.screened sp screens mapped q x y
  else dot

/-- A dot after every patch of the separation in list order (R75). -/
def Page.dot (p : Page) (sp : Sep) (screens : Vector ScreenSlot 8) (mapped : Fin 8) (x y : Nat) (line : Bool) : Bool :=
  (p.results.get sp).patches.foldl (p.composite sp screens mapped x y) line

/-- A row after every patch (R61). -/
def Page.screenRow (p : Page) (sp : Sep) (screens : Vector ScreenSlot 8) (mapped : Fin 8) (y : Nat) (row : Row) : Row :=
  row.zipIdx.map fun d => p.dot sp screens mapped d.2 y d.1

/-- The first sample row of a patch not yet reached once plate rows 0 to y − 1 are built (R121). -/
def PatchHead.cursor (p : PatchHead) (y : Nat) : Nat := min p.h (ceilDiv (y - p.y0) p.f)

/-- The rows of a band and the render context after it: the line work, then the patches (R60, R61, R121). -/
def Page.renderBand (p : Page) (sp : Sep) (screens : Vector ScreenSlot 8) (mapped : Fin 8) (b : Nat)
    (x : RenderContext) : List Row × RenderContext :=
  let lines := x.rows (p.linePayloads sp) p.width (p.bandHeight b)
  (lines.1.zipIdx.map fun d => p.screenRow sp screens mapped (Config.bandRows * b + d.2) d.1,
    { lines.2 with
      patchCursors := (p.results.get sp).patches.map fun q =>
        q.head.cursor (Config.bandRows * b + p.bandHeight b) })

end Sys2Proof.Machine
end

