-- ==== Sys2Proof/Machine/Render.lean ====
section
/-! DEFINITION. The render engine and its arbiter (spec/07, R119, R122 to R126) and the stall timer (R131, R132). -/

namespace Sys2Proof.Machine

open Sys2Proof

/-! ## The ring -/

/-- A slot once its channel leaves the copy or underruns: FILLED becomes FREE, and RENDERING stays until its task ends
(R119, R132, R139). -/
def Slot.emptied : Slot → Slot
  | .rendering b => .rendering b
  | _ => .free

/-- A ring with one slot replaced. -/
def Channel.setSlot (c : Channel) (b : Nat) (x : Slot) : Channel := { c with ring := c.ring.set (slotOf b) x }

/-! ## The arbiter's choice (R123) -/

/-- The channel chosen when both have a request pending (R123). -/
def State.chosenOfBoth (s : State) : Line :=
  match s.mode with
  | .fixed => .a
  | .rotating => s.lastChosen.other
  | .leastFilled =>
    if s.channels.a.filledCount < s.channels.b.filledCount then .a
    else if s.channels.b.filledCount < s.channels.a.filledCount then .b
    else s.lastChosen.other

/-- The channel the arbiter chooses; none where no request is pending (R123). -/
def State.chosen (s : State) : Option Line :=
  match s.renderRequest .a, s.renderRequest .b with
  | true, true => some s.chosenOfBoth
  | true, false => some .a
  | false, true => some .b
  | false, false => none

/-- The chosen channel's next band is given to the engine (R123). -/
def State.startTask (s : State) (l : Line) : State :=
  let c := s.channel l
  { (s.setChannel l { c.setSlot c.nextBand (.rendering c.nextBand) with nextBand := c.nextBand + 1 }) with
    engine := some { line := l, band := c.nextBand, discarded := false }, lastChosen := l }

/-- RENDER_ARBITER_CHOICE (R123): an idle engine is given to a channel with a request pending. -/
def execRenderArbiterChoice (s : State) : Host.Outcome State Fault Refusal :=
  s.event fun s =>
    match s.engine, s.chosen with
    | none, some l => s.startTask l
    | _, _ => s

/-! ## The end of a task (R124, R125) -/

/-- A finished band is put into its slot, the context moves on, and the engine becomes idle (R124). -/
def State.finishTask (s : State) (t : Task) (e : Exposure) (r : Plate) (p : Page) : State :=
  let c := s.channel t.line
  let x := p.renderBand r.sep s.screens (e.mapping.get r.sep) t.band c.context
  { (s.setChannel t.line { c.setSlot t.band (.filled t.band x.1) with context := x.2 }) with engine := none }

/-- RENDER_TASK_COMPLETION (R124): the task in flight, if it is not discarded, completes. -/
def execRenderTaskCompletion (s : State) : Host.Outcome State Fault Refusal :=
  s.event fun s =>
    match s.engine with
    | some t =>
      if t.discarded then s
      else
        match (s.channel t.line).exposure, s.loadedPage t.line with
        | some e, some (r, p) => s.finishTask t e r p
        | _, _ => s
    | none => s

/-- DISCARDED_TASK_END (R125): a discarded task reaches its end, its slot becomes FREE and the engine idle. -/
def execDiscardedTaskEnd (s : State) : Host.Outcome State Fault Refusal :=
  s.event fun s =>
    match s.engine with
    | some t =>
      if t.discarded then
        { (s.setChannel t.line ((s.channel t.line).setSlot t.band .free)) with engine := none }
      else s
    | none => s

/-- Whether a task in flight, not yet discarded, is a line's. -/
def State.taskOf (s : State) (l : Line) : Bool :=
  match s.engine with
  | some t => t.line == l && !t.discarded
  | none => false

/-- A task in flight for a channel is discarded (R125). -/
def State.discardTask (s : State) (l : Line) : State :=
  { s with engine := s.engine.map fun t => if t.line = l then { t with discarded := true } else t }

/-! ## The stall timer (R131, R132) -/

/-- The context a discarded task leaves: a free value in every part (R121, log entry 2). -/
def lostContext (n : Nat) : RenderContext :=
  { segment := Config.lostSegment n, offset := Config.lostOffset n, rowsLeft := Config.lostRowsLeft n
    carry := Config.lostCarry n, rowCount := Config.lostRowCount n, patchCursors := Config.lostPatchCursors n }

/-- The stall timer of a channel expires: underrun (R132). -/
def State.underrun (s : State) (l : Line) : State :=
  let c := s.channel l
  let lost := s.taskOf l
  let c := { c with
    underrun := true, stall := none, ring := c.ring.map Slot.emptied
    context := if lost then lostContext s.freeCount else c.context }
  ({ s with freeCount := if lost then s.freeCount + 1 else s.freeCount }.setChannel l c).discardTask l

/-- STALL_TIMER_EXPIRY of a line (R132): a running stall timer reaches its limit. -/
def execStallTimerExpiry (l : Line) (s : State) : Host.Outcome State Fault Refusal :=
  s.event fun s => if (s.channel l).stall.isSome then s.underrun l else s

/-- One millisecond passes for a line's stall timer, which expires where it reaches its limit (R131, R132). -/
def State.countStall (s : State) (l : Line) : State :=
  match (s.channel l).stall with
  | some t =>
    if t.limit ≤ t.elapsed + 1 then s.underrun l
    else s.setChannel l { s.channel l with stall := some { t with elapsed := t.elapsed + 1 } }
  | none => s

/-- One millisecond passes with no command waiting: the stall timers count (R131). Under reset no timer counts (R190).
That time passes when no command waits is the model's (log entry 7). -/
def State.millisecond (s : State) : State := if s.resetAsserted then s else (s.countStall .a).countStall .b

end Sys2Proof.Machine
end

