-- ==== Sys2Proof/Machine/Verify.lean ====
section
/-! DEFINITION. The verify queues (spec/08, R157 to R160): settling the copies removed from them, the overdue test, the
push of a good exposure and the settlement of a judged strip. -/

namespace Sys2Proof.Machine

open Sys2Proof

/-- A copy removed from a verify queue as verified (R160). -/
def State.settleVerified (s : State) (e : VerifyEntry) : State :=
  (s.modifyPlate e.plate (Plate.settleGood .awaiting)).freeIfSpent e.plate

/-- A copy removed from a verify queue as MISSING or UNREADABLE (R160, R178). -/
def State.settleLost (s : State) (e : VerifyEntry) (kind : IncidentKind) : State :=
  (s.damageCopy e.plate .awaiting kind
    { serial := e.serial, index := e.copyIndex, label := e.label, version := some e.version, sep := e.sep }).1.freeIfSpent
      e.plate

/-- Whether an entry's age exceeds a verify window above 0 (R159). -/
def VerifyEntry.overdue (w : Nat) (e : VerifyEntry) : Bool := 0 < w && w < e.age

/-- Overdue heads are removed one after another, at most as many as the first argument (R159). -/
def State.removeOverdue (l : Line) : Nat → State → State
  | 0, s => s
  | fuel + 1, s =>
    match s.queue l with
    | e :: rest =>
      if e.overdue (s.lineSettings l).verifyWindow then
        State.removeOverdue l fuel ((s.setQueue l rest).settleLost e .missing)
      else s
    | [] => s

/-- The overdue test of a line: heads are removed until the queue is empty or its head is not overdue (R159). -/
def State.overdueTest (s : State) (l : Line) : State := State.removeOverdue l (s.queue l).length s

/-- Room is made in a full queue: the head is expelled as MISSING and the new head is tested (R157). -/
def State.expel (s : State) (l : Line) : State :=
  match s.queue l with
  | e :: rest =>
    if Config.maxQueue ≤ (s.queue l).length then ((s.setQueue l rest).settleLost e .missing).overdueTest l else s
  | [] => s

/-- A copy is pushed onto the tail of a line's verify queue (R136, R157). -/
def State.pushCopy (s : State) (l : Line) (e : VerifyEntry) : State :=
  (s.expel l).setQueue l ((s.expel l).queue l ++ [e])

/-- Whether a strip's identity matches an entry (R158). -/
def VerifyEntry.answers (m : MarkIdentity) (e : VerifyEntry) : Bool :=
  e.serial == m.serial && e.label == m.label && e.sep == m.sep && e.copyIndex == m.index

/-- The k oldest entries are removed as MISSING, and the entry then at the head is verified (R158). -/
def State.passOver (l : Line) : Nat → State → State
  | 0, s =>
    match s.queue l with
    | e :: rest => (s.setQueue l rest).settleVerified e
    | [] => s
  | k + 1, s =>
    match s.queue l with
    | e :: rest => State.passOver l k ((s.setQueue l rest).settleLost e .missing)
    | [] => s

/-- A readable strip is settled against its line's queue (R158). -/
def State.settleReadable (s : State) (l : Line) (code : BitVec 48) : State :=
  let m := markIdentity code
  match (s.queue l).findIdx? (VerifyEntry.answers m) with
  | some k => (State.passOver l k s).overdueTest l
  | none =>
    s.raise { kind := .foreign, time := s.clock, label := some m.label, sep := some m.sep, serial := some m.serial
              copyIndex := some m.index, disposition := .noted }

/-- An unreadable strip is settled against its line's queue (R158). -/
def State.settleUnreadable (s : State) (l : Line) : State :=
  match s.queue l with
  | e :: rest => ((s.setQueue l rest).settleLost e .unreadable).overdueTest l
  | [] => s.raise { kind := .strayStrip, time := s.clock, disposition := .noted }

/-- An entry one advance of the plant clock older, holding at 65,535 (R157). -/
def VerifyEntry.older (e : VerifyEntry) : VerifyEntry := { e with age := min (e.age + 1) Config.maxCount }

/-- Every entry of both queues ages by 1 (R157, R159). -/
def State.ageQueues (s : State) : State :=
  { s with queues := { a := s.queues.a.map VerifyEntry.older, b := s.queues.b.map VerifyEntry.older } }

/-! ## VERIFY_TIMEOUT -/

/-- VERIFY_TIMEOUT of a line (R159). The test is also made within every event that R159 names, so that a head is overdue
at this event only where none of them has tested it (log entry 4). -/
def execVerifyTimeout (l : Line) (s : State) : Host.Outcome State Fault Refusal := s.event fun s => s.overdueTest l

end Sys2Proof.Machine
end

