-- ==== Sys2Proof/Machine/Imaging.lean ====
section
/-! DEFINITION. The imaging channels (spec/07, R118 to R121, R127 to R141): loading a copy, delivering rows, ending,
aborting and resetting. -/

namespace Sys2Proof.Machine

open Sys2Proof

/-! ## The plate header (R128, R194) -/

/-- The 14 words of the plate header of the copy on a channel (R128, R194); none in IDLE. -/
def State.headerWords (s : State) (l : Line) : List Word :=
  match (s.channel l).exposure, s.loadedPage l with
  | some e, some (r, p) =>
    [word e.copy.serial, word e.plate.val] ++ labelWords r.label ++
      [word p.version, word r.sep.code, word p.width, word p.height, word e.copy.level, word e.copy.index,
        word r.copies, e.copy.markCode.extractLsb' 0 16, e.copy.markCode.extractLsb' 16 16,
        e.copy.markCode.extractLsb' 32 16]
  | _, _ => []

/-! ## Loading a copy (R127, R128, R138) -/

/-- The exposure level of the next copy of a record: entry step × 2 + e of the exposure table (R128, R180). -/
def State.levelOf (s : State) (r : Plate) : Nat :=
  s.exposureTable.toList.getD (r.step * 2 + if r.sep = .k then 0 else 1) 0

/-- A copy of a record is loaded on a channel: a copy moves to exposing, a serial is issued, level and mark code are
fixed, and the ring positions, context, timer and underrun flag start afresh (R109, R110, R127, R128, R138). The serial
of a copy that the channel held before is live only if that copy sits in a verify queue. -/
def State.loadCopy (s : State) (l : Line) (i : Fin 128) (r : Plate) (p : Page) (index : Nat) (mapping : Seps (Fin 8))
    (group : List (Fin 8)) : State :=
  let c := s.channel l
  let n := (s.setChannel l { c with exposure := none }).nextSerial
  let copy : Copy :=
    { serial := n, index, level := s.levelOf r
      markCode := MarkIdentity.code { serial := n, label := r.label, sep := r.sep, index } }
  (({ s with serialNext := serialAfter n }).setPlate i (some { r.beginCopy with channel := some l })).setChannel l
    { c with
      underrun := false, exposure := some { phase := .loaded, plate := i, copy, mapping, group }, rowsDelivered := 0
      nextBand := 0, stall := none, ring := c.ring.map Slot.emptied, context := RenderContext.start p r.sep }

/-! ## Dispatch (R108, R109, R111, R112) -/

/-- The estimate per copy in milliseconds (R111). -/
def State.estimate (s : State) (l : Line) (p : Page) (weight : Nat) : Nat :=
  let x := s.lineSettings l
  x.overhead + ceilDiv (max (p.height * x.rowTime) (weight * s.renderUnit)) 1000

/-- The projected finish in plant seconds, without wrapping (R111). -/
def State.projectedFinish (s : State) (l : Line) (r : Plate) (p : Page) : Nat :=
  s.clock.toNat + ceilDiv (s.estimate l p (p.results.get r.sep).weight * r.toExpose) 1000

/-- The late check: a projected finish later than the edition's deadline marks the record and raises LATE RISK (R112). -/
def State.lateCheck (s : State) (i : Fin 128) (r : Plate) (finish serial : Nat) : State :=
  match (s.editionOf r.label).deadline with
  | some d =>
    if !r.lateRisk && d.toNat < finish then
      (s.modifyPlate i fun q => { q with lateRisk := true }).raise
        { kind := .lateRisk, time := s.clock, label := some r.label, version := s.versionOf r, handle := r.page
          sep := some r.sep, plate := some i, serial := some serial, copyIndex := some 0, attempts := some r.attempts
          disposition := .noted }
    else s
  | none => s

/-- The group of screen sets of a record: the mapped set of its separation and the overrides of its patch list, each
once (R86). -/
def setGroup (mapping : Seps (Fin 8)) (r : Plate) (p : Page) : List (Fin 8) :=
  (mapping.get r.sep :: (p.results.get r.sep).patches.filterMap fun q => q.head.override_).eraseDups

/-- A record is handed to a channel (R109, R127). -/
def State.handOver (s : State) (l : Line) (i : Fin 128) (r : Plate) (p : Page) : State :=
  let mapping := (s.editionOf r.label).sets
  let group := setGroup mapping r p
  let serial := s.nextSerial
  ((s.loadCopy l i r p 0 mapping group).lateCheck i r (s.projectedFinish l r p) serial).countSets (· + 1) group

/-- PLATE REQUEST on the IMAGE port of a line (R127). -/
def execPlateRequest (l : Line) (ws : List Word) (s : State) : Host.Outcome State Fault Refusal :=
  s.request l.imagePort fun s =>
    match ws with
    | [] =>
      if (s.channel l).exposure.isSome then (s, Reply.bare .state)
      else if (s.channel l).held then (s, Reply.bare .notReady)
      else
        match (s.firstEligible l).bind fun i =>
            (s.plate i).bind fun r => (r.page.bind s.page).map fun p => (i, r, p) with
        | some (i, r, p) => (s.handOver l i r p, Reply.ok ((s.handOver l i r p).headerWords l))
        | none => (s, Reply.bare .notReady)
    | _ => (s, Reply.bare .badValue)

/-- PLATE START on the IMAGE port of a line (R129). -/
def execPlateStart (l : Line) (ws : List Word) (s : State) : Host.Outcome State Fault Refusal :=
  s.request l.imagePort fun s =>
    match ws with
    | [] =>
      match (s.channel l).exposure with
      | some e =>
        if e.phase = .loaded then
          (s.setChannel l { s.channel l with exposure := some { e with phase := .running } }, Reply.ok [])
        else (s, Reply.bare .state)
      | none => (s, Reply.bare .state)
    | _ => (s, Reply.bare .badValue)

/-! ## Delivering rows (R130, R131, R133, R195) -/

/-- A row of a plate, where the slot of its band is FILLED with that band (R119, R130). -/
def Channel.rowAt (c : Channel) (y : Nat) : Option Row :=
  match c.ring[slotOf (y / Config.bandRows)] with
  | .filled b rows => if b = y / Config.bandRows then rows[y % Config.bandRows]? else none
  | _ => none

/-- The contiguous rows available from a row on, at most n (R130). -/
def Channel.rowsFrom (c : Channel) : Nat → Nat → List Row
  | 0, _ => []
  | n + 1, y =>
    match c.rowAt y with
    | some row => row :: c.rowsFrom n (y + 1)
    | none => []

/-- A slot once the read position stands at a row: FREE where its band's last row has been delivered (R130). -/
def Slot.readTo (y : Nat) : Slot → Slot
  | .filled b rows => if Config.bandRows * b + rows.length ≤ y then .free else .filled b rows
  | x => x

/-- A channel after the delivery of m rows of a page of height H (R130, R133). -/
def Channel.deliver (c : Channel) (e : Exposure) (m height : Nat) : Channel :=
  { c with
    rowsDelivered := c.rowsDelivered + m, stall := none, ring := c.ring.map (Slot.readTo (c.rowsDelivered + m))
    exposure := some { e with phase := if height ≤ c.rowsDelivered + m then .finishing else e.phase } }

/-- The words of a row: dot 0 is the most significant bit of the first word (R195). -/
def rowWords (row : Row) : List Word :=
  (List.range (row.length / 16)).map fun i =>
    word (((row.drop (16 * i)).take 16).foldl (fun n dot => 2 * n + dot.toNat) 0)

/-- The reply of a ROWS READ that delivers rows (R195). -/
def rowsReply (first : Nat) (fill : Bool) (rows : List Row) : Reply :=
  Reply.ok ([word first, word rows.length, flagWord fill] ++ rows.flatMap rowWords)

/-- A ROWS READ of n rows, 1 to 8, in RUNNING (R130, R131, R133). -/
def State.readRows (s : State) (l : Line) (e : Exposure) (p : Page) (n : Nat) : State × Reply :=
  let c := s.channel l
  if c.underrun then
    let m := min n (p.height - c.rowsDelivered)
    (s.setChannel l (c.deliver e m p.height), rowsReply c.rowsDelivered true (List.replicate m (whiteRow p.width)))
  else
    let rows := c.rowsFrom n c.rowsDelivered
    if rows.isEmpty then
      (s.setChannel l { c with
        stall := some (c.stall.getD { elapsed := 0, limit := (s.lineSettings l).stallLimit }) }, Reply.bare .notReady)
    else (s.setChannel l (c.deliver e rows.length p.height), rowsReply c.rowsDelivered false rows)

/-- ROWS READ on the IMAGE port of a line (R130). -/
def execRowsRead (l : Line) (ws : List Word) (s : State) : Host.Outcome State Fault Refusal :=
  s.request l.imagePort fun s =>
    match ws with
    | [nw] =>
      if nw.toNat < 1 ∨ 8 < nw.toNat then (s, Reply.bare .badValue)
      else
        match (s.channel l).exposure, s.loadedPage l with
        | some e, some (_, p) =>
          if e.phase = .running then s.readRows l e p nw.toNat else (s, Reply.bare .state)
        | _, _ => (s, Reply.bare .state)
    | _ => (s, Reply.bare .badValue)

/-! ## Ending a copy (R135 to R139) -/

/-- What became of an ended copy, in the order of the codes (R191). -/
inductive Settlement where
  | queuedForVerify | verified | withdrawn | damaged | returned
deriving DecidableEq, Repr

/-- The code of a settlement. -/
def Settlement.code : Settlement → Nat
  | .queuedForVerify => 0
  | .verified => 1
  | .withdrawn => 2
  | .damaged => 3
  | .returned => 4

/-- An ended copy's settlement, with the kind and disposition of its damage (R135). -/
structure Ending where
  settlement : Settlement
  kind : Option IncidentKind
  disposition : Option Disposition
deriving DecidableEq, Repr

/-- The damage of a copy by the state it ended in (R135); none is a good exposure. -/
def endingDamage (phase : Phase) (underrun fault : Bool) : Option IncidentKind :=
  match phase with
  | .finishing => if underrun then some .underrun else if fault then some .exposeFault else none
  | _ => some .shortExposure

/-- The copy in exposure is damaged (R137, R178). -/
def State.damageExposed (s : State) (e : Exposure) (kind : IncidentKind) : State × Disposition :=
  match s.plate e.plate with
  | some r =>
    s.damageCopy e.plate .exposing kind
      { serial := e.copy.serial, index := e.copy.index, label := r.label, version := s.versionOf r, sep := r.sep }
  | none => (s, .noted)

/-- A good exposure is queued for verification, or settled at once where the line's verification is off (R136). -/
def State.settleExposed (s : State) (l : Line) (e : Exposure) : State × Ending :=
  match s.plate e.plate with
  | some r =>
    if (s.lineSettings l).verification then
      ((s.pushCopy l
          { serial := e.copy.serial, plate := e.plate, copyIndex := e.copy.index, label := r.label
            version := (s.versionOf r).getD 0, sep := r.sep, age := 0 }).modifyPlate e.plate Plate.awaitCopy,
        { settlement := .queuedForVerify, kind := none, disposition := none })
    else
      (s.modifyPlate e.plate (Plate.settleGood .exposing),
        { settlement := if r.obsolete then .withdrawn else .verified, kind := none, disposition := none })
  | none => (s, { settlement := .verified, kind := none, disposition := none })

/-- The copy in exposure is settled at PLATE END (R135). -/
def State.settleEnded (s : State) (l : Line) (e : Exposure) (fault : Bool) : State × Ending :=
  match endingDamage e.phase (s.channel l).underrun fault with
  | some kind =>
    let x := s.damageExposed e kind
    (x.1, { settlement := .damaged, kind := some kind, disposition := some x.2 })
  | none => s.settleExposed l e

/-- Whether a channel reloads after a copy has been settled (R138). -/
def Plate.reloads (r : Plate) (index : Nat) : Bool := 0 < r.toExpose && !r.cancelled && !r.obsolete && index < 7

/-- A channel returns to IDLE (R139). The values of the cleared ring positions and context are the model's (log entry
30). -/
def State.returnToIdle (s : State) (l : Line) : State :=
  match (s.channel l).exposure with
  | some e =>
    let c := s.channel l
    ((((s.modifyPlate e.plate fun r => { r with channel := none }).countSets (· - 1) e.group).discardTask l).setChannel l
      { c with
        underrun := false, exposure := none, rowsDelivered := 0, nextBand := 0, stall := none
        ring := c.ring.map Slot.emptied, context := RenderContext.empty }).freeIfSpent e.plate
  | none => s

/-- The channel reloads the record's next copy, or returns to IDLE (R138). -/
def State.reloadOrIdle (s : State) (l : Line) (e : Exposure) : State :=
  match (s.plate e.plate).bind fun r => (r.page.bind s.page).map fun p => (r, p) with
  | some (r, p) =>
    if r.reloads e.copy.index then
      (s.discardTask l).loadCopy l e.plate r p (e.copy.index + 1) e.mapping e.group
    else s.returnToIdle l
  | none => s.returnToIdle l

/-- The words of an ended copy's settlement in a PLATE END reply, with the state after it and the header of a further copy
(R135, R194). -/
def State.endWords (s : State) (l : Line) (e : Exposure) (x : Ending) : List Word :=
  let further := (s.channel l).exposure.isSome
  [word e.copy.serial, word e.copy.index, word x.settlement.code, optWord (x.kind.map IncidentKind.code),
    optWord (x.disposition.map Disposition.code), word (s.channel l).stateCode, flagWord further] ++ s.headerWords l

/-- PLATE END on the IMAGE port of a line (R135). -/
def execPlateEnd (l : Line) (ws : List Word) (s : State) : Host.Outcome State Fault Refusal :=
  s.request l.imagePort fun s =>
    match ws with
    | [rw] =>
      match twoOfCode rw.toNat, (s.channel l).exposure with
      | some fault, some e =>
        let x := s.settleEnded l e fault
        let t := x.1.reloadOrIdle l e
        (t, Reply.ok (t.endWords l e x.2))
      | some _, none => (s, Reply.bare .state)
      | none, _ => (s, Reply.bare .badValue)
    | _ => (s, Reply.bare .badValue)

/-! ## Abort and reset (R140, R141) -/

/-- The copy in exposure is given up: returned from LOADED, damaged as ABORTED from RUNNING and FINISHING (R140). -/
def State.abandonCopy (s : State) (e : Exposure) : State × Ending :=
  match e.phase with
  | .loaded =>
    (s.modifyPlate e.plate Plate.returnCopy,
      { settlement := if (s.plate e.plate).any fun r => r.cancelled || r.obsolete then .withdrawn else .returned
        kind := none, disposition := none })
  | _ =>
    let x := s.damageExposed e .aborted
    (x.1, { settlement := .damaged, kind := some .aborted, disposition := some x.2 })

/-- The copy on a channel is given up and the channel returns to IDLE; the result words give the copy and what became of
it, all absent where the channel was IDLE (R140, R141, R194, log entry 8). -/
def State.abortLine (s : State) (l : Line) : State × List Word :=
  match (s.channel l).exposure with
  | some e =>
    let x := s.abandonCopy e
    (x.1.returnToIdle l,
      [word e.copy.serial, word e.copy.index, word x.2.settlement.code,
        optWord (x.2.disposition.map Disposition.code)])
  | none => (s, [0, absentWord, absentWord, absentWord])

/-- LINE ABORT on the IMAGE port of a line (R140). -/
def execLineAbort (l : Line) (ws : List Word) (s : State) : Host.Outcome State Fault Refusal :=
  s.request l.imagePort fun s =>
    match ws with
    | [] =>
      if (s.channel l).exposure.isSome then ((s.abortLine l).1, Reply.ok (s.abortLine l).2)
      else (s, Reply.bare .state)
    | _ => (s, Reply.bare .badValue)

end Sys2Proof.Machine
end

