-- ==== Sys2Proof/Machine/Intake.lean ====
section
/-! DEFINITION. Segment intake (spec/02): the link check, the SEGMENT request and its outcomes, RESEND LIST, LINK SET and
the resend wait. -/

namespace Sys2Proof.Machine

open Sys2Proof

/-! ## The link check (R29, R30) -/

/-- The low L bits of a 32-bit value. -/
def lowBits (len : Nat) (v : BitVec 32) : BitVec 32 := v &&& BitVec.ofNat 32 (2 ^ len - 1)

/-- The check register after one data bit (R29, steps 3 and 4). -/
def crcBit (k : LinkProfile) (reg : BitVec 32) (b : Bool) : BitVec 32 :=
  let shifted := lowBits k.length (reg <<< 1)
  if reg.getLsbD (k.length - 1) != b then shifted ^^^ lowBits k.length k.poly else shifted

/-- The bits of a byte, the most significant first (R29, step 2). -/
def byteBits (b : Byte) : List Bool := [7, 6, 5, 4, 3, 2, 1, 0].map b.getLsbD

/-- The check of a list of bytes: the register starts with all L bits set (R29). -/
def crc (k : LinkProfile) (bs : List Byte) : BitVec 32 :=
  (bs.flatMap byteBits).foldl (crcBit k) (lowBits k.length 0xFFFFFFFF)

/-- Whether a segment passes its check; with L = 0 every segment passes (R30). -/
def checkPasses (k : LinkProfile) (f : SegmentFrame) : Bool :=
  k.length == 0 || crc k (f.header.take 12 ++ f.payload) == lowBits k.length f.check

/-! ## SEGMENT (R27, R31 to R34) -/

/-- Whether the free cells admit a segment of k cells for a page (R27). Only a RECEIVING or WAITING page takes
segments. -/
def admits (free : Nat) (st : PageState) (k : Nat) : Bool :=
  match st with
  | .receiving => k + Config.reserveCells ≤ free
  | .waiting => k ≤ free
  | _ => false

/-- A held list with a segment inserted at the place its number gives (R24). -/
def insertSegment (g : Segment) : List Segment → List Segment
  | [] => [g]
  | x :: xs => if g.number < x.number then g :: x :: xs else x :: insertSegment g xs

/-- An ascending list of numbers with one added, if it is absent (R35). -/
def insertNumber (n : Nat) : List Nat → List Nat
  | [] => [n]
  | x :: xs => if n = x then x :: xs else if n < x then n :: x :: xs else x :: insertNumber n xs

/-- The result words of a SEGMENT reply, from the state after the request (R34). -/
def State.segmentWords (s : State) (h : Fin 64) (n : Nat) : List Word :=
  match s.page h with
  | some p => [word h.val, word n, word p.state.code, optWord p.missingCount, word s.freeCells]
  | none => []

/-- A segment that fails its check: its number joins the damaged set and a SEGMENT BAD is raised or coalesced (R32). -/
def State.segmentBad (s : State) (h : Fin 64) (p : Page) (sp : Sep) (n : Nat) : State :=
  (s.setPage h (some { p with damaged := insertNumber n p.damaged })).raiseBadSegment h n
    { kind := .segmentBad, time := s.clock, label := some p.label, version := some p.version, handle := some h
      sep := some sp, segment := some n, disposition := .resendNeeded }

/-- A WAITING page that holds every number below N moves to the index queue, its timer stops and its PAGE INCOMPLETE is
resolved (R9). -/
def State.completeIntake (s : State) (h : Fin 64) : State :=
  match s.page h with
  | some p =>
    if p.state = .waiting ∧ p.missingCount = some 0 then
      let s := { s with indexQueue := s.indexQueue ++ [h] }
      (s.setPage h (some { p with state := .indexing, timer := none })).resolve fun i =>
        i.kind == .pageIncomplete && i.handle == some h
    else s
  | none => s

/-- A segment is stored (R33). -/
def State.storeSegment (s : State) (h : Fin 64) (p : Page) (g : Segment) : State :=
  let s := { s with freeCells := s.freeCells - g.cells }
  let s := s.setPage h (some { p with
    held := insertSegment g p.held, damaged := p.damaged.filter (· != g.number) })
  (s.resolve (Incident.isBadSegment h g.number)).completeIntake h

/-- The effect and status of a correctly framed SEGMENT (R31). -/
def State.intake (s : State) (f : SegmentFrame) : State × Reply :=
  match readHandle f.handle with
  | none => (s, Reply.bare .noPage)
  | some h =>
    match s.page h with
    | none => (s, Reply.bare .noPage)
    | some p =>
      if p.state = .superseded then (s, Reply.bare .noPage)
      else
        match SegKind.ofCode f.kind, Sep.ofCode f.sep with
        | some kind, some sp =>
          if Config.maxSegments ≤ f.number ∨ p.expected.getD Config.maxSegments ≤ f.number ∨ p.seps.get sp = false ∨
              Config.maxPayload < f.length then (s, Reply.bare .badValue)
          else
            let answer (t : State) (st : Status) : State × Reply :=
              (t, { status := st, results := t.segmentWords h f.number })
            if p.holds f.number then answer s .duplicate
            else if !checkPasses s.link f then answer (s.segmentBad h p sp f.number) .checkFailed
            else if !admits s.freeCells p.state (cellsFor f.payload.length) then answer s .full
            else
              answer (s.storeSegment h p
                { number := f.number, kind, sep := sp, header := f.header, payload := f.payload }) .done
        | _, _ => (s, Reply.bare .badValue)

/-- SEGMENT on FEED (R23, R31). -/
def execSegment (ws : List Word) (s : State) : Host.Outcome State Fault Refusal :=
  s.request .feed fun s =>
    if Config.maxParameterWords < ws.length then (s, Reply.bare .badValue)
    else
      match readSegment ws with
      | some f => s.intake f
      | none => (s, Reply.bare .badValue)

/-! ## RESEND LIST and LINK SET -/

/-- RESEND LIST on FEED (R37). -/
def execResendList (ws : List Word) (s : State) : Host.Outcome State Fault Refusal :=
  s.request .feed fun s =>
    match ws with
    | [hi, lo] =>
      (s, Reply.ok (words32 s.resendView.length ++ [word s.freeCells] ++
        ((s.resendView.drop (read32 hi lo).toNat).take 64).flatMap fun x => labelWords x.1 ++ [word x.2]))
    | _ => (s, Reply.bare .badValue)

/-- LINK SET on PLAN (R28, R188). -/
def execLinkSet (ws : List Word) (s : State) : Host.Outcome State Fault Refusal :=
  s.request .plan fun s =>
    match ws with
    | [l, hi, lo] =>
      if 32 < l.toNat then (s, Reply.bare .badValue)
      else
        ({ s with link := { length := l.toNat, poly := read32 hi lo } },
          Reply.ok ([word l.toNat] ++ words32 (read32 hi lo).toNat))
    | _ => (s, Reply.bare .badValue)

/-! ## The resend wait (R38 to R40) -/

/-- The resend-wait timer of a WAITING page expires where its count has reached its wait: one PAGE INCOMPLETE is raised
and the timer stops (R39). -/
def State.expireResend (s : State) (h : Fin 64) : State :=
  match s.page h with
  | some p =>
    match p.timer with
    | some t =>
      if p.state = .waiting ∧ t.wait ≤ t.count then
        (s.setPage h (some { p with timer := none })).raise
          { kind := .pageIncomplete, time := s.clock, label := some p.label, version := some p.version
            handle := some h, segment := (p.notHeld (p.expected.getD 0)).head?, disposition := .resendNeeded }
      else s
    | none => s
  | none => s

/-- A page whose running resend-wait timer counts one advance of the plant clock (R38). -/
def Page.countAdvance (p : Page) : Page :=
  { p with timer := p.timer.map fun t => { t with count := t.count + 1 } }

/-- Every running resend-wait timer counts one advance, and those that reach their wait expire (R38, R39). -/
def State.countResends (s : State) : State :=
  handles.foldl (fun s h => (s.modifyPage h Page.countAdvance).expireResend h) s

/-- RESEND_WAIT_EXPIRY of a page (R39). The advance that brings the count to its wait expires the timer itself (R38), so
that an expiry is due at this event only where none has (log entry 4). -/
def execResendWaitExpiry (h : Fin 64) (s : State) : Host.Outcome State Fault Refusal := s.event fun s => s.expireResend h

end Sys2Proof.Machine
end

