-- ==== Sys2Proof/Machine/Indexer.lean ====
section
/-! DEFINITION. The indexer's events (spec/03, R44 to R46, R59; spec/01, R10). -/

namespace Sys2Proof.Machine

open Sys2Proof

/-- INDEXER_TAKE (R45): an IDLE indexer takes the handle at the head of the index queue. -/
def execIndexerTake (s : State) : Host.Outcome State Fault Refusal := s.event State.takeForIndexing

/-- Whether indexing found a content fault in any separation of a page's set (R10). -/
def Page.faulty (p : Page) : Bool := p.seps.members.any fun sp => 0 < (p.results.get sp).tally.count

/-- The CONTENT FAULT incident of one separation with a non-zero count (R10). -/
def State.contentFault (h : Fin 64) (p : Page) (s : State) (sp : Sep) : State :=
  let t := (p.results.get sp).tally
  if t.count = 0 then s
  else
    s.raise { kind := .contentFault, time := s.clock, label := some p.label, version := some p.version, handle := some h
              sep := some sp, disposition := .held
              detail := t.first.map fun x => { count := t.count, kind := x.1, row := x.2 } }

/-- Indexing of a page completes: its results are stored, it becomes COMPLETE or FAULTED, and its CONTENT FAULTs are
raised in the order K, C, M, Y (R10, R59). -/
def State.completeIndexing (s : State) (h : Fin 64) (p : Page) : State :=
  let q := p.indexed
  let q := { q with completed := some s.clock, state := if q.faulty then .faulted else .complete }
  q.seps.members.foldl (State.contentFault h q) (s.setPage h (some q))

/-- INDEXING_COMPLETION (R59): the page being indexed receives its results; the indexer becomes IDLE and takes the next
handle at once (R45). -/
def execIndexingCompletion (s : State) : Host.Outcome State Fault Refusal :=
  s.event fun s =>
    match s.indexer.bind fun h => (s.page h).map fun p => (h, p) with
    | some (h, p) => { s.completeIndexing h p with indexer := none }.takeForIndexing
    | none => s

end Sys2Proof.Machine
end

