-- ==== Sys2Proof/Machine/Incidents.lean ====
section
/-! DEFINITION. Reading and clearing the incident list (spec/09, R171, R172; spec/11, R196). -/

namespace Sys2Proof.Machine

open Sys2Proof

/-- One bit of a presence word (R196). -/
def presenceBit {α : Type} (weight : Nat) (x : Option α) : Nat := if x.isSome then weight else 0

/-- The presence word of a record (R196). -/
def Incident.presence (i : Incident) : Nat :=
  presenceBit 1 i.label + presenceBit 2 i.version + presenceBit 4 i.handle + presenceBit 8 i.sep +
    presenceBit 16 i.segment + presenceBit 32 i.plate + presenceBit 64 i.serial + presenceBit 128 i.copyIndex +
    presenceBit 256 i.attempts + presenceBit 512 i.detail

/-- The 20 words of a record as read; an absent field's words read 0 (R196). -/
def Incident.words (i : Incident) : List Word :=
  [word i.kind.code, word i.presence, flagWord i.resolved] ++ words32 i.time.toNat ++
    (match i.label with
      | some l => labelWords l
      | none => [0, 0]) ++
    [word (i.version.getD 0), word ((i.handle.map Fin.val).getD 0), word ((i.sep.map Sep.code).getD 0),
      word (i.segment.getD 0), word ((i.plate.map Fin.val).getD 0), word (i.serial.getD 0), word (i.copyIndex.getD 0),
      word (i.attempts.getD 0), word i.repeats, word i.disposition.code] ++
    (match i.detail with
      | some d => [word d.count, word d.kind.code, word d.row]
      | none => [0, 0, 0])

/-- The reply of INCIDENT READ from a start position (R171, R196). -/
def State.readIncidents (s : State) (start : Nat) : Reply :=
  let r := (s.incidents.drop start).take 8
  Reply.ok ([word s.incidents.length, word s.lost, word r.length] ++ r.flatMap Incident.words)

/-- INCIDENT READ on FEED or PLAN (R171). -/
def execIncidentRead (port : ReadPort) (ws : List Word) (s : State) : Host.Outcome State Fault Refusal :=
  s.request port.port fun s =>
    match ws with
    | [n] => (s, s.readIncidents n.toNat)
    | _ => (s, Reply.bare .badValue)

/-- The list with its oldest n records removed, or the lost count set to 0 where n is 0 (R172). -/
def State.clearIncidents (s : State) (n : Nat) : State :=
  if n = 0 then { s with lost := 0 } else { s with incidents := s.incidents.drop n }

/-- INCIDENT CLEAR on PLAN (R172). -/
def execIncidentClear (ws : List Word) (s : State) : Host.Outcome State Fault Refusal :=
  s.request .plan fun s =>
    match ws with
    | [n] =>
      (s.clearIncidents n.toNat,
        Reply.ok [word (min n.toNat s.incidents.length), word (s.clearIncidents n.toNat).incidents.length,
          word (s.clearIncidents n.toNat).lost])
    | _ => (s, Reply.bare .badValue)

end Sys2Proof.Machine
end

