-- ==== Sys2Proof/Machine/Marks.lean ====
section
/-! DEFINITION. The mark decoders (spec/08, R146 to R156): sampling, measurement, the runs of a strip, and its end. -/

namespace Sys2Proof.Machine

open Sys2Proof

/-! ## Settings in force (R146) -/

/-- The seen level is to be taken from the next sample (R147). -/
def Decoder.afresh (d : Decoder) : Decoder := { d with seen := none, filterCount := 0 }

/-- The settings as written come into force; where polarity, filter or tick differ, the seen level is taken afresh
(R146). -/
def Decoder.adopt (d : Decoder) (m : MarkTiming) : Decoder :=
  let d' := { d with inForce := m }
  if m.inverted = d.inForce.inverted ∧ m.filter = d.inForce.filter ∧ m.tick = d.inForce.tick then d' else d'.afresh

/-- A decoder returned to IDLE by LINE RESET (R162). -/
def Decoder.resetWith (d : Decoder) (m : MarkTiming) : Decoder := { d with strip := none, inForce := m }.afresh

/-! ## Sampling (R147) -/

/-- The decoder after one sample of its input, and whether a rising edge is seen at this tick (R147). -/
def Decoder.see (d : Decoder) (level : Bool) : Decoder × Bool :=
  let sample := level != d.inForce.inverted
  match d.seen with
  | none => ({ d with seen := some sample, filterCount := 0 }, false)
  | some v =>
    if d.inForce.filter then
      if sample = v then ({ d with filterCount := 0 }, false)
      else if d.filterCount < 2 then ({ d with filterCount := d.filterCount + 1 }, false)
      else ({ d with seen := some sample, filterCount := 0 }, sample)
    else ({ d with seen := some sample }, sample && !v)

/-! ## Runs (R152, R155, R156) -/

/-- A run just opened (R151). -/
def Run.empty : Run := { bits := [], barFault := false, overlong := false }

/-- A strip just begun (R150). -/
def Strip.begin : Strip := { run := none, code := none, disagree := false, measured := false }

/-- The code of a run's bits, the first appended as code bit 0 (R152, R194). -/
def Run.code (r : Run) : BitVec 48 := BitVec.ofNat 48 (r.bits.foldr (fun b n => 2 * n + b.toNat) 0)

/-- Whether a closed run is valid (R155). -/
def Run.valid (r : Run) : Bool :=
  r.bits.length == 48 && !r.barFault && !r.overlong && markCheck r.code == (markIdentity r.code).check

/-- A run with a bit received: the 49th and later bits mark it overlong (R152). -/
def Run.push (r : Run) (b : Bool) : Run :=
  if r.bits.length < 48 then { r with bits := r.bits ++ [b] } else { r with overlong := true }

/-- A closed run is evaluated and compared with the strip code (R155, R156). -/
def Strip.close (t : Strip) (r : Run) : Strip :=
  if r.valid then
    match t.code with
    | none => { t with code := some r.code }
    | some c => if c = r.code then t else { t with disagree := true }
  else t

/-- The run and strip code after one measurement: in HUNT only a START acts (R151); in DATA a START closes the open run and
opens the next, and a bit or a bar fault goes to the open run (R152). -/
def Strip.act (t : Strip) (c : BarClass) : Strip :=
  match t.run, c with
  | none, .start => { t with run := some Run.empty }
  | none, _ => t
  | some r, .start => { t.close r with run := some Run.empty }
  | some r, .zero => { t with run := some (r.push false) }
  | some r, .one => { t with run := some (r.push true) }
  | some r, .fault => { t with run := some { r with barFault := true } }

/-- The strip after one measurement (R148, R151, R152). -/
def Strip.measure (t : Strip) (c : BarClass) : Strip := { t.act c with measured := true }

/-- The strip at its end: the open run, if there is one, closes (R153). -/
def Strip.finish (t : Strip) : Strip :=
  match t.run with
  | some r => { t.close r with run := none }
  | none => t

/-- The code of a finished strip that is readable (R156). -/
def Strip.readable (t : Strip) : Option (BitVec 48) := if t.disagree then none else t.code

/-! ## Strip end (R153) -/

/-- A finished strip is judged and settled; one with no measurement is not judged (R153, R158). -/
def State.judge (s : State) (l : Line) (t : Strip) : State :=
  if t.measured then
    match t.readable with
    | some c => s.settleReadable l c
    | none => s.settleUnreadable l
  else s

/-- The end of the strip of a line: it is judged and settled, and the decoder returns to IDLE under the settings as
written (R153, R146). -/
def State.endStrip (s : State) (l : Line) : State :=
  match (s.decoder l).strip with
  | none => s
  | some t =>
    let u := s.judge l t.finish
    u.setDecoder l ({ s.decoder l with strip := none }.adopt (s.lineSettings l).mark)

/-- Whether a strip's end is due: the tick count has passed the largest enabled maximum (R153). A count that stands at a
maximum of 65,535 ends its strip only at the next tick, which is a MARK_TICK's. -/
def Decoder.endDue (d : Decoder) : Bool := d.strip.isSome && d.inForce.largestMax.getD 0 < d.count

/-! ## MARK_TICK and STRIP_END -/

/-- The tick count after a tick with no edge, holding at 65,535 (R148). -/
def Decoder.counted (d : Decoder) : Nat := min (d.count + 1) Config.maxCount

/-- Whether a strip ends at this tick (R153): a count that stood at a largest maximum of 65,535 ends it whether or not an
edge is seen; otherwise it ends where the count passes the maximum without an edge. -/
def Decoder.endsNow (d : Decoder) (edge : Bool) : Bool :=
  let m := d.inForce.largestMax.getD 0
  if m = Config.maxCount then d.count == Config.maxCount else !edge && m < d.counted

/-- The decoder after one mark tick, and whether its strip ends at it (R147, R148, R150 to R153). -/
def Decoder.tick (d : Decoder) (level : Bool) : Decoder × Bool :=
  let x := d.see level
  let n := if x.2 then 0 else d.counted
  match d.strip with
  | none =>
    if x.2 = true ∧ d.inForce.largestMax.isSome = true then ({ x.1 with count := 0, strip := some Strip.begin }, false)
    else ({ x.1 with count := n }, false)
  | some t =>
    if d.endsNow x.2 then ({ x.1 with count := n }, true)
    else if x.2 then ({ x.1 with count := 0, strip := some (t.measure (d.inForce.classify d.counted)) }, false)
    else ({ x.1 with count := n }, false)

/-- MARK_TICK of a line (R147): a strip that ends at this tick is judged within it (R153). -/
def execMarkTick (l : Line) (level : Bool) (s : State) : Host.Outcome State Fault Refusal :=
  s.event fun s =>
    let x := (s.decoder l).tick level
    if x.2 then (s.setDecoder l x.1).endStrip l else s.setDecoder l x.1

/-- STRIP_END of a line (R153); it occurs where the end is due (log entry 4). -/
def execStripEnd (l : Line) (s : State) : Host.Outcome State Fault Refusal :=
  s.event fun s => if (s.decoder l).endDue then s.endStrip l else s

end Sys2Proof.Machine
end

