-- ==== Sys2Proof/Machine/Plates.lean ====
section
/-! DEFINITION. The plate table's requests (spec/06): ordering, cancelling and reading plate records, and holding a
line. -/

namespace Sys2Proof.Machine

open Sys2Proof

/-! ## PLATE ORDER (R100 to R102) -/

/-- The copies of an order as taken: 0 is taken as 1, and a count above 8 as 8 (R100). -/
def copiesTaken (n : Nat) : Nat := if n = 0 then 1 else min n 8

/-- The record of one ordered separation is created, not yet treated (R101, R102). -/
def State.createOrdered (l : Label) (choice : LineChoice) (copies : Nat) (s : State) (x : Sep × Fin 128) : State :=
  { s.setPlate x.2 (some (Plate.create l none x.1 choice copies 0 .order s.arrival)) with arrival := s.arrival + 1 }

/-- A created record is treated by the label's current entry: attached, left waiting, or failed as a mismatch (R101). -/
def State.treatOrdered (current : Option (Fin 64)) (s : State) (x : Sep × Fin 128) : State :=
  match current, s.plate x.2 with
  | some h, some r =>
    if s.pageHas h x.1 then (s.setPlate x.2 (some { r with page := some h })).retain h
    else (s.orderIncident .orderMismatch h r x.2).freePlate x.2
  | _, _ => s

/-- The code of a record's outcome: ATTACHED, WAITING FOR PAGE or MISMATCH (R191). -/
def State.orderOutcome (s : State) (current : Option (Fin 64)) (sp : Sep) : Nat :=
  match current with
  | some h => if s.pageHas h sp then 0 else 2
  | none => 1

/-- The entry the records of an order are attached to: the current one, where its set holds a separation ordered (R101). -/
def State.attachedTo (s : State) (current : Option (Fin 64)) (seps : Seps Bool) : Option (Fin 64) :=
  current.filter fun h => seps.members.any (s.pageHas h)

/-- An accepted PLATE ORDER: every record is created, then each is treated, in the order K, C, M, Y (R101). -/
def State.orderPlates (s : State) (l : Label) (seps : Seps Bool) (copies : Nat) (choice : LineChoice) : State × Reply :=
  let pairs := seps.members.zip s.freePlateIds
  let current := s.currentEntry l
  (pairs.foldl (State.treatOrdered current) (pairs.foldl (State.createOrdered l choice copies) s),
    Reply.ok ([word copies, optWord ((s.attachedTo current seps).map Fin.val)] ++
      pairs.flatMap fun x => [word x.2.val, word (s.orderOutcome current x.1)]))

/-- PLATE ORDER on PLAN (R100, R101). -/
def execPlateOrder (ws : List Word) (s : State) : Host.Outcome State Fault Refusal :=
  s.request .plan fun s =>
    match ws with
    | [l0, l1, sw, n, cw] =>
      match readLabel l0 l1, LineChoice.ofCode cw.toNat with
      | some l, some choice =>
        let seps := readSeps sw
        if seps.members.isEmpty then (s, Reply.bare .badValue)
        else if s.freePlateIds.length < seps.members.length then (s, Reply.bare .full)
        else s.orderPlates l seps (copiesTaken n.toNat) choice
      | _, _ => (s, Reply.bare .badValue)
    | _ => (s, Reply.bare .badValue)

/-! ## PLATE CANCEL (R103, R104) -/

/-- A live record is cancelled (R103). -/
def State.cancelPlate (s : State) (i : Fin 128) : State :=
  (s.modifyPlate i fun r => { r.withdrawAll with cancelled := true }).freeIfSpent i

/-- The copies a record has to expose; 0 for a free record. -/
def State.toExposeOf (s : State) (i : Fin 128) : Nat := ((s.plate i).map Plate.toExpose).getD 0

/-- The ids of the live records of a label, in ascending order. -/
def State.platesOf (s : State) (l : Label) : List (Fin 128) :=
  plateIds.filter fun i => (s.plate i).any fun r => r.label == l

/-- PLATE CANCEL by plate id (R103). That the last word is 1 for a freed record and 0 otherwise is the model's (log
entry 29). -/
def State.cancelById (s : State) (i : Fin 128) : State × Reply :=
  match s.plate i with
  | none => (s, Reply.bare .noPage)
  | some r =>
    let t := s.cancelPlate i
    (t, Reply.ok [word i.val, word r.toExpose, word r.exposing, word r.awaiting, flagWord (t.plate i).isNone])

/-- PLATE CANCEL by label (R104). -/
def State.cancelByLabel (s : State) (l : Label) : State × Reply :=
  let ids := s.platesOf l
  let t := ids.foldl State.cancelPlate s
  if ids.isEmpty then (s, Reply.bare .noPage)
  else
    (t, Reply.ok [word ids.length, word (ids.map s.toExposeOf).sum,
      word ((ids.filter fun i => (t.plate i).isNone).length)])

/-- PLATE CANCEL on PLAN: by id in one word, by label in two (R103, R104, R183). -/
def execPlateCancel (ws : List Word) (s : State) : Host.Outcome State Fault Refusal :=
  s.request .plan fun s =>
    match ws with
    | [iw] =>
      match readPlateId iw.toNat with
      | some i => s.cancelById i
      | none => (s, Reply.bare .badValue)
    | [l0, l1] =>
      match readLabel l0 l1 with
      | some l => s.cancelByLabel l
      | none => (s, Reply.bare .badValue)
    | _ => (s, Reply.bare .badValue)

/-! ## PLATE READ (R116) -/

/-- The copy of a record in exposing, on the channel that holds it (R116). -/
def State.copyOf (s : State) (i : Fin 128) (r : Plate) : Option Copy :=
  (r.channel.bind fun l => (s.channel l).exposure).bind fun e => if e.plate = i then some e.copy else none

/-- The words PLATE READ gives for a record (R116, R191). -/
def State.plateWords (s : State) (i : Fin 128) (r : Plate) : List Word :=
  [word i.val] ++ labelWords r.label ++
    [optWord (r.page.map Fin.val), word r.sep.code, word r.choice.code, word r.copies, word r.toExpose, word r.exposing,
      word r.awaiting, word r.verified, word r.failed, word r.withdrawn, word r.attempts, word r.step,
      flagWord r.remake, flagWord r.cancelled, flagWord r.obsolete, word r.origin.code] ++
    words32 r.arrival.toNat ++
    [flagWord r.lateRisk, optWord (r.channel.map Line.code), word r.derived.code, optWord (s.versionOf r),
      optWord ((r.page.bind s.page).map fun p => p.state.code), optWord (s.queuePosition i r),
      flagWord (s.eligible r .a), flagWord (s.eligible r .b), word (((s.copyOf i r).map Copy.serial).getD 0),
      optWord ((s.copyOf i r).map Copy.index)]

/-- The live record PLATE READ reports: the named one in mode EXACT, the first at or above it in mode NEXT (R116). -/
def State.plateFor (s : State) (i : Fin 128) (next : Bool) : Option (Fin 128) :=
  if next then plateIds.find? fun j => decide (i.val ≤ j.val) && (s.plate j).isSome
  else if (s.plate i).isSome then some i else none

/-- PLATE READ on PLAN (R116). -/
def execPlateRead (ws : List Word) (s : State) : Host.Outcome State Fault Refusal :=
  s.request .plan fun s =>
    match ws with
    | [iw, mw] =>
      match readPlateId iw.toNat, twoOfCode mw.toNat with
      | some i, some next =>
        match (s.plateFor i next).bind fun j => (s.plate j).map fun r => (j, r) with
        | some (j, r) => (s, Reply.ok (s.plateWords j r))
        | none => (s, Reply.bare .noPage)
      | _, _ => (s, Reply.bare .badValue)
    | _ => (s, Reply.bare .badValue)

/-! ## LINE HOLD and LINE RELEASE (R107) -/

/-- The held flag of the line a request names, set or cleared (R107). -/
def State.holdLine (s : State) (ws : List Word) (held : Bool) : State × Reply :=
  match ws with
  | [lw] =>
    match Line.ofCode lw.toNat with
    | some l =>
      (s.setChannel l { s.channel l with held }, Reply.ok [flagWord held, word (s.channel l).stateCode])
    | none => (s, Reply.bare .badValue)
  | _ => (s, Reply.bare .badValue)

/-- LINE HOLD on PLAN (R107). -/
def execLineHold (ws : List Word) (s : State) : Host.Outcome State Fault Refusal :=
  s.request .plan fun s => s.holdLine ws true

/-- LINE RELEASE on PLAN (R107). -/
def execLineRelease (ws : List Word) (s : State) : Host.Outcome State Fault Refusal :=
  s.request .plan fun s => s.holdLine ws false

end Sys2Proof.Machine
end

