-- ==== Sys2Proof/Machine/Settings.lean ====
section
/-! DEFINITION. The settings requests and the plant clock (spec/05; spec/10, R186, R187): LINE SET, GENERAL SET,
EDITION SET, SCREEN LOAD, CLOCK SET, CLOCK READ, the clock's advance and deadline expiry. -/

namespace Sys2Proof.Machine

open Sys2Proof

/-! ## LINE SET and GENERAL SET -/

/-- The settings of a line written; an IDLE decoder takes the mark settings into force at once, and the overdue test is
made on the line's queue (R186, R146, R159). -/
def State.setLine (s : State) (l : Line) (x : LineSettings) : State :=
  let s := { s with settings := s.settings.set l x }
  let d := s.decoder l
  (if d.strip.isNone then s.setDecoder l (d.adopt x.mark) else s).overdueTest l

/-- LINE SET on PLAN (R186). -/
def execLineSet (ws : List Word) (s : State) : Host.Outcome State Fault Refusal :=
  s.request .plan fun s =>
    match (readLineSet ws).bind LineSetFields.settings with
    | some (l, x) => (s.setLine l x, Reply.ok x.words)
    | none => (s, Reply.bare .badValue)

/-- GENERAL SET on PLAN (R187). -/
def execGeneralSet (ws : List Word) (s : State) : Host.Outcome State Fault Refusal :=
  s.request .plan fun s =>
    match readGeneralSet ws with
    | some (some g) =>
      ({ s with renderUnit := g.renderUnit, mode := g.mode, exposureTable := g.table },
        Reply.ok ([word g.renderUnit, word g.mode.code] ++ g.table.toList.map word))
    | _ => (s, Reply.bare .badValue)

/-! ## Deadlines (R94, R95) -/

/-- Whether an edition's deadline is to expire: it is present, its marker is clear, and the clock stands at or beyond it
(R94). -/
def Edition.due (now : Seconds) (e : Edition) : Bool :=
  !e.passed &&
    match e.deadline with
    | some d => d.toNat ≤ now.toNat
    | none => false

/-- The DEADLINE MISSED incident of one live record of an edition (R95). No event resolves it but the
freeing of the entry it names (R17, R170; log entry 27). -/
def State.deadlineMissed (e : Fin 16) (s : State) (i : Fin 128) : State :=
  match s.plate i with
  | some r =>
    if r.label.edition = e then
      s.raise { kind := .deadlineMissed, time := s.clock, label := some r.label, version := s.versionOf r, handle := r.page
                sep := some r.sep, plate := some i, attempts := some r.attempts, disposition := .noted }
    else s
  | none => s

/-- An edition's deadline, where it is due, expires: the marker is set and its incidents are raised (R94, R95). -/
def State.expireDeadline (s : State) (e : Fin 16) : State :=
  if (s.editions[e]).due s.clock then
    plateIds.foldl (State.deadlineMissed e)
      { s with editions := s.editions.set e { s.editions[e] with passed := true } }
  else s

/-- The deadline check of every edition, in ascending edition number (R94). -/
def State.deadlineCheck (s : State) : State := (List.finRange 16).foldl State.expireDeadline s

/-- DEADLINE_EXPIRY of an edition (R94). The check is also made within every event that R94 names, so that a deadline is
due at this event only where none of them has tested it (log entry 4). -/
def execDeadlineExpiry (e : Fin 16) (s : State) : Host.Outcome State Fault Refusal := s.event fun s => s.expireDeadline e

/-! ## EDITION SET -/

/-- The entry an EDITION SET writes; the deadline-passed marker is cleared where the deadline differs (R91). -/
def EditionFields.entry (f : EditionFields) (old : Edition) : Edition :=
  { deadline := f.deadline, sets := f.sets, remakeLimit := f.remakeLimit, resendWait := f.resendWait
    passed := if f.deadline = old.deadline then old.passed else false }

/-- An edition entry is written, and its deadline may expire within the request (R91). -/
def State.setEdition (s : State) (f : EditionFields) : State :=
  { s with editions := s.editions.set f.edition (f.entry s.editions[f.edition]) }.expireDeadline f.edition

/-- EDITION SET on PLAN (R90, R91). -/
def execEditionSet (ws : List Word) (s : State) : Host.Outcome State Fault Refusal :=
  s.request .plan fun s =>
    match readEditionSet ws with
    | some (some f) => (s.setEdition f, Reply.ok ((s.setEdition f).editions[f.edition]).words)
    | _ => (s, Reply.bare .badValue)

/-! ## SCREEN LOAD -/

/-- A content as stored: a threshold of 4,095 is stored as 4,094 (R85). -/
def ScreenSet.stored (c : ScreenSet) : ScreenSet := { c with tile := c.tile.map fun t => min t 4094 }

/-- SCREEN LOAD on PLAN (R84, R85). -/
def execScreenLoad (ws : List Word) (s : State) : Host.Outcome State Fault Refusal :=
  s.request .plan fun s =>
    match readScreenLoad ws with
    | some f =>
      match if f.valid then readSet f.set else none with
      | some i =>
        if 0 < (s.screens[i]).inUse then (s, Reply.bare .inUse)
        else
          ({ s with screens := s.screens.set i { s.screens[i] with content := f.content.stored } },
            Reply.ok [word i.val, word (f.content.tile.count 4095)])
      | none => (s, Reply.bare .badValue)
    | none => (s, Reply.bare .badValue)

/-! ## The plant clock (R92, R93) -/

/-- CLOCK SET on PLAN (R93). The restart of the current second bears only on when the next advance comes (log entry 5). -/
def execClockSet (ws : List Word) (s : State) : Host.Outcome State Fault Refusal :=
  s.request .plan fun s =>
    match ws with
    | [hi, lo] => ({ s with clock := read32 hi lo }.deadlineCheck, Reply.ok (words32 (read32 hi lo).toNat))
    | _ => (s, Reply.bare .badValue)

/-- CLOCK READ on PLAN (R93). -/
def execClockRead (ws : List Word) (s : State) : Host.Outcome State Fault Refusal :=
  s.request .plan fun s =>
    match ws with
    | [] => (s, Reply.ok (words32 s.clock.toNat))
    | _ => (s, Reply.bare .badValue)

/-- One advance of the plant clock: the value rises by 1 and wraps; the resend-wait timers count; the deadlines are
checked, in the order of R94; the verify queues age and are tested (R92). The order among the three, among the pages
and between the lines is the model's (log entry 6). -/
def State.advanceClock (s : State) : State :=
  let s := ({ s with clock := s.clock + 1 }.countResends).deadlineCheck
  (s.ageQueues.overdueTest .a).overdueTest .b

/-- CLOCK_ADVANCE (R92). -/
def execClockAdvance (s : State) : Host.Outcome State Fault Refusal := s.event State.advanceClock

end Sys2Proof.Machine
end

