-- ==== Sys2Proof/Machine/Power.lean ====
section
/-! DEFINITION. What acts on several blocks at once: LINE RESET (R141, R162), FLUSH (R189), frames whose code is not
served (R183) and the power-on reset input (R190). -/

namespace Sys2Proof.Machine

open Sys2Proof

/-- A line is reset: its copy is given up, the held flag cleared and the mark decoder returned to IDLE (R141, R162). -/
def State.resetLine (s : State) (l : Line) : State :=
  let t := (s.abortLine l).1
  (t.setChannel l { t.channel l with held := false }).setDecoder l ((s.decoder l).resetWith (s.lineSettings l).mark)

/-- LINE RESET on PLAN (R141). -/
def execLineReset (ws : List Word) (s : State) : Host.Outcome State Fault Refusal :=
  s.request .plan fun s =>
    match ws with
    | [lw] =>
      match Line.ofCode lw.toNat with
      | some l => (s.resetLine l, Reply.ok ([word (s.channel l).stateCode] ++ (s.abortLine l).2 ++ [0]))
      | none => (s, Reply.bare .badValue)
    | _ => (s, Reply.bare .badValue)

/-- The state after an accepted FLUSH (R189). -/
def State.flushed (s : State) : State :=
  { s with
    pages := Vector.replicate 64 none, openOrder := [], freeCells := Config.cellCount, indexQueue := [], indexer := none
    plates := Vector.replicate 128 none, arrival := 0, queues := { a := [], b := [] }, incidents := [], lost := 0 }

/-- FLUSH on PLAN (R189). -/
def execFlush (ws : List Word) (s : State) : Host.Outcome State Fault Refusal :=
  s.request .plan fun s =>
    match ws with
    | [] =>
      if s.channels.a.exposure.isSome ∨ s.channels.b.exposure.isSome then (s, Reply.bare .state)
      else
        (s.flushed,
          Reply.ok [word ((handles.filter fun h => (s.page h).isSome).length),
            word ((plateIds.filter fun i => (s.plate i).isSome).length), word s.incidents.length])
    | _ => (s, Reply.bare .badValue)

/-- UNKNOWN_REQUEST (R183, check 1): a frame whose code is not served on its port is answered UNKNOWN. A frame whose code
is served is another command, so this event does not occur for it (log entry 4). -/
def execUnknownRequest (port : Port) (code : Word) (_ws : List Word) (s : State) :
    Host.Outcome State Fault Refusal :=
  if served port code then .next s else s.request port fun s => (s, Reply.bare .unknown)

/-- Every block at its power-on values, the commands that wait and the model's count of free values kept. -/
def State.powerOn (s : State) (asserted : Bool) : State :=
  { State.reset with resetAsserted := asserted, freeCount := s.freeCount, pending := s.pending }

/-- POWER_ON_RESET_ASSERTED (R190): every block is held in its power-on state and no reply is left to deliver. -/
def execPowerOnResetAsserted (s : State) : Host.Outcome State Fault Refusal := .next (s.powerOn true)

/-- POWER_ON_RESET_NEGATED (R190): every block stands at its power-on values and the clock begins to advance. An input
that is not asserted cannot be negated. -/
def execPowerOnResetNegated (s : State) : Host.Outcome State Fault Refusal :=
  .next (if s.resetAsserted then s.powerOn false else s)

end Sys2Proof.Machine
end

