-- ==== Sys2Proof/Machine/Dispatch.lean ====
section
/-! DEFINITION. The meaning of every command: one arm for each constructor of `Instr`, each a call of its own meaning. -/

namespace Sys2Proof.Machine

open Sys2Proof

def exec (i : Instr) (s : State) : Host.Outcome State Fault Refusal :=
  match i with
  | .pageOpen ws => Sys2Proof.Machine.execPageOpen ws s
  | .segment ws => Sys2Proof.Machine.execSegment ws s
  | .pageClose ws => Sys2Proof.Machine.execPageClose ws s
  | .pageAbandon ws => Sys2Proof.Machine.execPageAbandon ws s
  | .resendList ws => Sys2Proof.Machine.execResendList ws s
  | .pageRead p ws => Sys2Proof.Machine.execPageRead p ws s
  | .incidentRead p ws => Sys2Proof.Machine.execIncidentRead p ws s
  | .linkSet ws => Sys2Proof.Machine.execLinkSet ws s
  | .lineSet ws => Sys2Proof.Machine.execLineSet ws s
  | .generalSet ws => Sys2Proof.Machine.execGeneralSet ws s
  | .editionSet ws => Sys2Proof.Machine.execEditionSet ws s
  | .screenLoad ws => Sys2Proof.Machine.execScreenLoad ws s
  | .clockSet ws => Sys2Proof.Machine.execClockSet ws s
  | .clockRead ws => Sys2Proof.Machine.execClockRead ws s
  | .plateOrder ws => Sys2Proof.Machine.execPlateOrder ws s
  | .plateCancel ws => Sys2Proof.Machine.execPlateCancel ws s
  | .plateRead ws => Sys2Proof.Machine.execPlateRead ws s
  | .pageRelease ws => Sys2Proof.Machine.execPageRelease ws s
  | .pageRetire ws => Sys2Proof.Machine.execPageRetire ws s
  | .lineHold ws => Sys2Proof.Machine.execLineHold ws s
  | .lineRelease ws => Sys2Proof.Machine.execLineRelease ws s
  | .lineReset ws => Sys2Proof.Machine.execLineReset ws s
  | .incidentClear ws => Sys2Proof.Machine.execIncidentClear ws s
  | .flush ws => Sys2Proof.Machine.execFlush ws s
  | .plateRequest l ws => Sys2Proof.Machine.execPlateRequest l ws s
  | .plateStart l ws => Sys2Proof.Machine.execPlateStart l ws s
  | .rowsRead l ws => Sys2Proof.Machine.execRowsRead l ws s
  | .plateEnd l ws => Sys2Proof.Machine.execPlateEnd l ws s
  | .lineAbort l ws => Sys2Proof.Machine.execLineAbort l ws s
  | .unknownRequest p code ws => Sys2Proof.Machine.execUnknownRequest p code ws s
  | .powerOnResetAsserted => Sys2Proof.Machine.execPowerOnResetAsserted s
  | .powerOnResetNegated => Sys2Proof.Machine.execPowerOnResetNegated s
  | .clockAdvance => Sys2Proof.Machine.execClockAdvance s
  | .resendWaitExpiry h => Sys2Proof.Machine.execResendWaitExpiry h s
  | .deadlineExpiry e => Sys2Proof.Machine.execDeadlineExpiry e s
  | .verifyTimeout l => Sys2Proof.Machine.execVerifyTimeout l s
  | .stallTimerExpiry l => Sys2Proof.Machine.execStallTimerExpiry l s
  | .indexerTake => Sys2Proof.Machine.execIndexerTake s
  | .indexingCompletion => Sys2Proof.Machine.execIndexingCompletion s
  | .renderArbiterChoice => Sys2Proof.Machine.execRenderArbiterChoice s
  | .renderTaskCompletion => Sys2Proof.Machine.execRenderTaskCompletion s
  | .discardedTaskEnd => Sys2Proof.Machine.execDiscardedTaskEnd s
  | .stripEnd l => Sys2Proof.Machine.execStripEnd l s
  | .markTick l level => Sys2Proof.Machine.execMarkTick l level s

end Sys2Proof.Machine
end

