-- ==== Sys2Proof/Safety.lean ====
section
/-! DEFINITION. What the manual says stays true of the controller whatever it is asked: the conditions on one state that
every step keeps, and the conditions that relate a state to the one after a shared operation. -/

namespace Sys2Proof

open Machine

/-! ## Conditions on the frame of a request -/

/-- The parameter word count fits the request (R192; R183, check 3). -/
def Instr.fits : Instr → Bool
  | .pageOpen ws => ws.length == 6
  | .segment ws => decide (ws.length ≤ 8206) && ws.length == 8 + ((ws.getD 3 0).toNat + 1) / 2
  | .pageClose ws | .resendList ws | .clockSet ws | .plateRead ws => ws.length == 2
  | .pageRead _ ws | .plateCancel ws => ws.length == 1 || ws.length == 2
  | .pageAbandon ws | .incidentRead _ ws | .pageRelease ws | .pageRetire ws | .lineHold ws | .lineRelease ws
  | .lineReset ws | .incidentClear ws | .rowsRead _ ws | .plateEnd _ ws => ws.length == 1
  | .linkSet ws => ws.length == 3
  | .lineSet ws => ws.length == 15
  | .generalSet ws => ws.length == 18
  | .editionSet ws => ws.length == 10
  | .screenLoad ws =>
    let side := (ws.getD 20 0).toNat
    ws.length == 24 + if [8, 12, 16, 24, 32].contains side then side * side else 1024
  | .plateOrder ws => ws.length == 5
  | .clockRead ws | .flush ws | .plateRequest _ ws | .plateStart _ ws | .lineAbort _ ws => ws.length == 0
  | .unknownRequest _ _ _ => true
  | .powerOnResetAsserted | .powerOnResetNegated | .clockAdvance | .resendWaitExpiry _ | .deadlineExpiry _
  | .verifyTimeout _ | .stallTimerExpiry _ | .indexerTake | .indexingCompletion | .renderArbiterChoice
  | .renderTaskCompletion | .discardedTaskEnd | .stripEnd _ | .markTick _ _ => true

end Sys2Proof

namespace Sys2Proof.Machine

open Sys2Proof

/-! ## Conditions that every step keeps -/

/-- The incident list never holds more than 255 records, nor two unresolved SEGMENT BAD records for the same page and
segment number, and the lost count holds at 65,535 (R168). -/
def State.incidentsFit (s : State) : Prop :=
  s.incidents.length ≤ 255 ∧ s.lost ≤ 65535 ∧
    s.incidents.Pairwise fun i j => ∀ (h : Fin 64) (n : Nat), i.isBadSegment h n = true → j.isBadSegment h n = false

/-- The cells held by the segments of live page entries. -/
def State.cellsHeld (s : State) : Nat :=
  (handles.map fun h =>
    match s.page h with
    | some p => cellsOf p.held
    | none => 0).sum

/-- Free cells plus cells held by retained segments always equal 32,768 (R25). -/
def State.cellsConserved (s : State) : Prop := s.freeCells + s.cellsHeld = 32768

/-- The accounting law of one record (R99). -/
def Plate.accounted (r : Plate) : Prop :=
  r.toExpose + r.exposing + r.awaiting + r.verified + r.failed + r.withdrawn = r.copies + r.attempts

/-- Every live record keeps the accounting law (R99). -/
def State.accounted (s : State) : Prop := ∀ (i : Fin 128) (r : Plate), s.plate i = some r → r.accounted

/-- The number of live plate records whose handle names an entry (R16). -/
def State.recordsNaming (s : State) (h : Fin 64) : Nat :=
  (plateIds.filter fun i =>
    match s.plate i with
    | some r => r.page == some h
    | none => false).length

/-- An entry's retention count is the number of live records that name it, no record names a FREE entry, and a SUPERSEDED
entry is named by at least one (R16, R18). -/
def State.retained (s : State) : Prop :=
  ∀ h : Fin 64,
    match s.page h with
    | some p => p.retention = s.recordsNaming h ∧ (p.state = .superseded → 0 < p.retention)
    | none => s.recordsNaming h = 0

/-- At most one live entry of a label is in a state other than SUPERSEDED (spec/01, from R5 and R12). -/
def State.singleCurrent (s : State) : Prop :=
  ∀ (h k : Fin 64) (p q : Page), s.page h = some p → s.page k = some q → p.label = q.label → p.state ≠ .superseded →
    q.state ≠ .superseded → h = k

/-- The opening order lists exactly the live entries, each once (R36); the index queue lists each handle once, and an
entry is in INDEXING exactly if it is on the queue or being indexed, never both (R44). -/
def State.queuesOfPages (s : State) : Prop :=
  s.openOrder.Nodup ∧ (∀ h, h ∈ s.openOrder ↔ (s.page h).isSome = true) ∧ s.indexQueue.Nodup ∧
    (∀ h, s.indexer = some h → h ∉ s.indexQueue) ∧
    ∀ h, (h ∈ s.indexQueue ∨ s.indexer = some h) ↔ (s.page h).map Page.state = some .indexing

/-- Each verify queue holds at most 16 entries; no two live copies carry the same serial; serial 0 is never issued; and
the serial counter holds 1 to 65,535 (R157, R110). -/
def State.serialsDistinct (s : State) : Prop :=
  s.queues.a.length ≤ 16 ∧ s.queues.b.length ≤ 16 ∧ s.liveSerials.Nodup ∧
    (∀ n ∈ s.liveSerials, 1 ≤ n ∧ n ≤ 65535) ∧ 1 ≤ s.serialNext ∧ s.serialNext ≤ 65535

/-- The group of screen sets a channel holds in use; empty in IDLE (R86, R87). -/
def Channel.group (c : Channel) : List (Fin 8) := (c.exposure.map Exposure.group).getD []

/-- A set's in-use count is the number of channels whose group holds it, and a group names each set once (R83, R86). -/
def State.setsCounted (s : State) : Prop :=
  s.channels.a.group.Nodup ∧ s.channels.b.group.Nodup ∧
    ∀ i : Fin 8, (s.screens[i]).inUse = s.channels.a.group.count i + s.channels.b.group.count i

/-- A channel that is not IDLE holds a live record that names it and has one copy exposing; a record that names a channel
is the one it holds; and a record on no channel has no copy exposing (R98, R109, R118). -/
def State.channelsHold (s : State) : Prop :=
  (∀ (l : Line) (e : Exposure), (s.channel l).exposure = some e →
      ∃ r, s.plate e.plate = some r ∧ r.channel = some l ∧ r.exposing = 1) ∧
    (∀ (i : Fin 128) (r : Plate) (l : Line), s.plate i = some r → r.channel = some l →
      ∃ e, (s.channel l).exposure = some e ∧ e.plate = i) ∧
    ∀ (i : Fin 128) (r : Plate), s.plate i = some r → r.channel = none → r.exposing = 0

/-! ## Conditions on the operands of a command -/

/-- A handle is the lowest FREE one (R2). -/
def State.lowestFree (s : State) (h : Fin 64) : Prop := s.page h = none ∧ ∀ k, k < h → s.page k ≠ none

/-- An entry is the one current entry of a label (spec/01). -/
def State.isCurrent (s : State) (l : Label) (h : Fin 64) : Prop :=
  (∃ p, s.page h = some p ∧ p.label = l ∧ p.state ≠ .superseded) ∧
    ∀ (k : Fin 64) (q : Page), s.page k = some q → q.label = l → q.state ≠ .superseded → k = h

/-- A label has no current entry (spec/01). -/
def State.noCurrent (s : State) (l : Label) : Prop :=
  ∀ (k : Fin 64) (q : Page), s.page k = some q → q.label = l → q.state = .superseded

/-- Two words carry a label: the edition in the high byte and the section in the low byte of the first, the page number in
the second (R191). -/
def labelCarried (l0 l1 : Word) (l : Label) : Prop :=
  l0.toNat = l.edition.val * 256 + l.section_.val ∧ l1.toNat = l.page.val ∧ l.page ≠ 0

/-- Two words carry a label with a field outside its range (R4, R21, R100). A page number above 255 is one (log entry 17). -/
def badLabel (l0 l1 : Word) : Prop := 15 < l0.toNat / 256 ∨ 31 < l0.toNat % 256 ∨ l1 = 0 ∨ 255 < l1.toNat

/-- The separation set a word carries: K in bit 0, C in bit 1, M in bit 2, Y in bit 3, other bits ignored (R191). -/
def setCarried (sw : Word) : Seps Bool := ⟨sw.getLsbD 0, sw.getLsbD 1, sw.getLsbD 2, sw.getLsbD 3⟩

/-- The number an optional one-word field carries; FFFF is absent (R191). -/
def numberCarried (n : Word) : Option Nat := if n = 0xFFFF then none else some n.toNat

/-- The parameters of a PAGE OPEN are refused BAD_VALUE (R4). -/
def openRefused (l0 l1 sw w h n : Word) : Prop :=
  badLabel l0 l1 ∨ sw.toNat % 16 = 0 ∨ w.toNat < 512 ∨ 16384 < w.toNat ∨ w.toNat % 32 ≠ 0 ∨ h.toNat < 256 ∨
    24576 < h.toNat ∨ n ≠ 0xFFFF ∧ (n.toNat < 1 ∨ 4096 < n.toNat)

/-- The version of an entry of a label opened now: 1 where no live entry has the label, and otherwise one more than that of
the live entry of the label, SUPERSEDED ones included, opened most recently, at most 255 (R3). -/
def State.versionAfter (s : State) (l : Label) (v : Nat) : Prop :=
  (v = 1 ∧ ∀ (k : Fin 64) (q : Page), s.page k = some q → q.label ≠ l) ∨
    ∃ (before after : List (Fin 64)) (o : Fin 64) (p : Page), s.openOrder = before ++ o :: after ∧ s.page o = some p ∧
      p.label = l ∧ (∀ k ∈ after, ∀ q, s.page k = some q → q.label ≠ l) ∧ v = min (p.version + 1) 255

/-- The fields of a SEGMENT as its parameter words carry them: eight words of header, then the payload's bytes two to a
word, the first of each pair the more significant half, without the pad byte (R23, R191, R193). -/
def SegmentFrame.carriedIn (f : SegmentFrame) (ws : List Word) : Prop :=
  ∃ (w0 w1 w2 w3 w4 w5 w6 w7 : Word) (data : List Word),
    ws = [w0, w1, w2, w3, w4, w5, w6, w7] ++ data ∧ data.length = (w3.toNat + 1) / 2 ∧ f.handle = w0.toNat / 256 ∧
      f.kind = w0.toNat % 256 ∧ f.sep = w1.toNat / 256 ∧ f.number = w2.toNat ∧ f.length = w3.toNat ∧
      f.check = w6 ++ w7 ∧
      f.header = [w0, w1, w2, w3, w4, w5, w6, w7].flatMap (fun w => [w.extractLsb' 8 8, w.extractLsb' 0 8]) ∧
      f.payload = (data.flatMap fun w => [w.extractLsb' 8 8, w.extractLsb' 0 8]).take f.length

/-- The fields of a SEGMENT for a page entry are refused BAD_VALUE (R31, test 2). -/
def SegmentFrame.refusedFor (f : SegmentFrame) (p : Page) : Prop :=
  4096 ≤ f.number ∨ (∃ n, p.expected = some n ∧ n ≤ f.number) ∨ 2 < f.kind ∨ 3 < f.sep ∨
    (∃ sp, [Sep.k, .c, .m, .y][f.sep]? = some sp ∧ p.seps.get sp = false) ∨ 16368 < f.length

/-- The parameter words of a SCREEN LOAD, as many as its side asks for, fail one of the checks 1 to 6 of R84. Word 0 is the
set, words 1 to 17 the knots, then F, G, S, Yoff, Xoff, Xshift and the thresholds (R192). -/
def screenRefused (ws : List Word) : Prop :=
  ∃ (set : Word) (knots : List Word) (f g side yoff xoff xshift : Word) (tile : List Word),
    ws = [set] ++ knots ++ [f, g, side, yoff, xoff, xshift] ++ tile ∧ knots.length = 17 ∧
      tile.length = (if side.toNat ∈ [8, 12, 16, 24, 32] then side.toNat * side.toNat else 1024) ∧
      (7 < set.toNat ∨ side.toNat ∉ [8, 12, 16, 24, 32] ∨ side.toNat ≤ yoff.toNat ∨ side.toNat ≤ xoff.toNat ∨
        side.toNat ≤ xshift.toNat ∨ 2047 < f.toNat ∨ g.toNat < 2048 ∨ 4095 < g.toNat ∨ (∃ k ∈ knots, 4095 < k.toNat) ∨
        ∃ t ∈ tile, 4095 < t.toNat)

/-- The content a SCREEN LOAD carries passes the checks 2 to 6 of R84. -/
def ScreenSet.loadable (c : ScreenSet) : Prop :=
  c.side ∈ tileSides ∧ c.tile.length = c.side * c.side ∧ c.yoff < c.side ∧ c.xoff < c.side ∧ c.xshift < c.side ∧
    c.floorF ≤ 2047 ∧ 2048 ≤ c.ceilG ∧ c.ceilG ≤ 4095 ∧ (∀ k ∈ c.knots.toList, k ≤ 4095) ∧ ∀ t ∈ c.tile, t ≤ 4095

/-- Two windows share no tick count that both span (R145). -/
def Window.apart (w v : Window) : Prop := ∀ n : Nat, w.lo < w.hi → v.lo < v.hi → w.lo ≤ n → n ≤ w.hi → n < v.lo ∨ v.hi < n

/-- The settings a LINE SET carries pass the checks of R186 and R145. -/
def LineSettings.acceptable (x : LineSettings) : Prop :=
  x.overhead ≤ 65535 ∧ 1 ≤ x.rowTime ∧ x.rowTime ≤ 65535 ∧ x.stallLimit ≤ 65535 ∧ 1 ≤ x.mark.tick ∧ x.mark.tick ≤ 255 ∧
    x.mark.start.lo ≤ 65535 ∧ x.mark.start.hi ≤ 65535 ∧ x.mark.zero.lo ≤ 65535 ∧ x.mark.zero.hi ≤ 65535 ∧
    x.mark.one.lo ≤ 65535 ∧ x.mark.one.hi ≤ 65535 ∧ x.mark.start.apart x.mark.zero ∧ x.mark.start.apart x.mark.one ∧
    x.mark.zero.apart x.mark.one ∧ x.verifyWindow ≤ 600

/-- The record and page entry of the copy on a channel (R118, R97). -/
def State.exposes (s : State) (l : Line) (e : Exposure) (r : Plate) (h : Fin 64) (p : Page) : Prop :=
  (s.channel l).exposure = some e ∧ s.plate e.plate = some r ∧ r.page = some h ∧ s.page h = some p

/-- A serial is carried by a live copy: one in exposing on a channel, or one in a verify queue (R110). -/
def State.carried (s : State) (n : Nat) : Prop :=
  (∃ l e, (s.channel l).exposure = some e ∧ e.copy.serial = n) ∨ ∃ l, ∃ f ∈ s.queue l, f.serial = n

/-- The serial issued next: the first candidate from the serial counter on, 65,535 followed by 1, that no live copy carries
(R110). -/
def State.issues (s : State) (n : Nat) : Prop :=
  ∃ k, n = (s.serialNext - 1 + k) % 65535 + 1 ∧ ¬s.carried n ∧
    ∀ j, j < k → s.carried ((s.serialNext - 1 + j) % 65535 + 1)

/-! ## Conditions that the render engine and the channels meet -/

/-- A channel has a render request pending: it is LOADED or RUNNING, its underrun flag is clear, its next band to render is
below B, and the slot of that band is FREE (R122). -/
def State.requests (s : State) (l : Line) : Prop :=
  ∃ e r h p, s.exposes l e r h p ∧ (e.phase = .loaded ∨ e.phase = .running) ∧ (s.channel l).underrun = false ∧
    (s.channel l).nextBand < (p.height + 255) / 256 ∧
    (s.channel l).ring[(s.channel l).nextBand % 4]? = some .free

/-- The number of slots of a ring that are FILLED (R123). -/
def Channel.slotsFilled (c : Channel) : Nat :=
  (List.range 4).countP fun k =>
    match c.ring[k]? with
    | some (.filled _ _) => true
    | _ => false

/-- The arbiter gives the engine to a line: its request is pending, and the other's is not or the mode prefers it
(R123). -/
def State.arbiterPicks (s : State) (l : Line) : Prop :=
  s.requests l ∧
    (s.requests l.other →
      match s.mode with
      | .fixed => l = .a
      | .rotating => l ≠ s.lastChosen
      | .leastFilled =>
        (s.channel l).slotsFilled < (s.channel l.other).slotsFilled ∨
          ((s.channel l).slotsFilled = (s.channel l.other).slotsFilled ∧ l ≠ s.lastChosen))

/-- A channel as it stands in IDLE after leaving a copy: every slot but those RENDERING is FREE (R139). The values of the
cleared next band and render context are the model's (log entry 30). -/
def Channel.leftIdle (c : Channel) : Channel :=
  { c with
    underrun := false, exposure := none, rowsDelivered := 0, nextBand := 0, stall := none
    ring := c.ring.map Slot.emptied, context := RenderContext.empty }

/-- A channel has underrun: the flag is set, the stall timer stopped and every FILLED slot FREE; the render context is kept
unless a task in flight for the channel is discarded (R121, R132). -/
def State.underran (s t : State) (l : Line) : Prop :=
  t.channel l = { s.channel l with
    underrun := true, stall := none, context := (t.channel l).context
    ring := (s.channel l).ring.map fun
      | .rendering b => .rendering b
      | _ => .free } ∧
    ((∀ b, s.engine ≠ some { line := l, band := b, discarded := false }) →
      (t.channel l).context = (s.channel l).context)

/-- The tasks in flight of a line are discarded (R125). -/
def State.tasksDiscarded (s : State) (l : Line) : Option Task :=
  s.engine.map fun k => if k.line = l then { k with discarded := true } else k

/-- A group of screen sets has been released by a channel, and no content has changed (R87). -/
def State.groupReleased (s t : State) (g : List (Fin 8)) : Prop :=
  ∀ k : Fin 8, (t.screens[k]).content = (s.screens[k]).content ∧
    (t.screens[k]).inUse = (s.screens[k]).inUse - (if k ∈ g then 1 else 0)

/-! ## What the reads report (R21, R116, R191, R196)

The layouts of the reply words, spelled field by field. -/

/-- The code of a value of an enumerated field: its place in the list of the field, from 0 (R191). -/
def codeIn {α : Type} [BEq α] (values : List α) (x : α) : Word := word (values.idxOf x)

/-- The separations in the order of their codes (R191). -/
def sepList : List Sep := [.k, .c, .m, .y]

/-- The page states in the order of their codes, which begin at 1 after FREE (R191). -/
def pageStateList : List PageState := [.receiving, .waiting, .indexing, .complete, .faulted, .superseded]

/-- The content-fault kinds in the order of their codes (R191). -/
def faultKindList : List FaultKind :=
  [.shortRow, .longRow, .syntaxDefect, .rowSequence, .shortPage, .longPage, .tooManyPatches, .patchOrphan,
    .patchDataShort, .patchDataLong]

/-- The incident kinds in the order of their codes (R191). -/
def incidentKindList : List IncidentKind :=
  [.segmentBad, .pageIncomplete, .contentFault, .orderMismatch, .orderLost, .underrun, .exposeFault, .shortExposure,
    .aborted, .unreadable, .missing, .foreign, .strayStrip, .lateRisk, .deadlineMissed]

/-- The dispositions in the order of their codes (R191). -/
def dispositionList : List Disposition := [.resendNeeded, .remakeQueued, .remakeLimit, .held, .noted]

/-- The statuses in the order of their codes (R191). -/
def statusList : List Status :=
  [.done, .noPage, .badValue, .state, .full, .inUse, .checkFailed, .duplicate, .notReady, .unknown]

/-- A label in two words (R191). -/
def Label.asRead (l : Label) : List Word := [word (l.edition.val * 256 + l.section_.val), word l.page.val]

/-- An optional one-word field: FFFF where absent (R191). -/
def numberAsRead (x : Option Nat) : Word :=
  match x with
  | some n => word n
  | none => 0xFFFF

/-- A flag: 0 for clear and 1 for set (R191). -/
def flagAsRead (b : Bool) : Word := if b = true then 1 else 0

/-- A number of 32 bits in two words, the more significant first (R191). -/
def asRead32 (v : BitVec 32) : List Word := [v.extractLsb' 16 16, v.extractLsb' 0 16]

/-- A number of 48 bits in three words, the more significant first (R191). -/
def asRead48 (v : BitVec 48) : List Word := [v.extractLsb' 32 16, v.extractLsb' 16 16, v.extractLsb' 0 16]

/-- An optional 32-bit field: a presence word, then the value, 0 where absent (R191). That the presence word of a present
field is 1 is the model's (log entry 28). -/
def timeAsRead (t : Option Seconds) : List Word :=
  match t with
  | some v => 1 :: asRead32 v
  | none => [0, 0, 0]

/-- The count of segment numbers below N that a page does not hold; absent while N is (R21, R34). -/
def Page.lacking (p : Page) : Option Nat :=
  p.expected.map fun n => ((List.range n).filter fun k => decide (∀ g ∈ p.held, g.number ≠ k)).length

/-- A page state in one word (R191). -/
def PageState.asRead (x : PageState) : Word := codeIn pageStateList x + 1

/-- A channel state in one word: IDLE where the channel holds no copy (R118, R191). -/
def Channel.stateAsRead (c : Channel) : Word :=
  match c.exposure with
  | some e => codeIn [.loaded, .running, .finishing] e.phase + 1
  | none => 0

/-- The settings of a line in the order LINE SET carries them, without the line (R186, R192). -/
def LineSettings.asRead (x : LineSettings) : List Word :=
  [word x.overhead, word x.rowTime, word x.stallLimit, flagAsRead x.mark.inverted, flagAsRead x.mark.filter,
    word x.mark.tick, word x.mark.start.lo, word x.mark.start.hi, word x.mark.zero.lo, word x.mark.zero.hi,
    word x.mark.one.lo, word x.mark.one.hi, flagAsRead x.verification, word x.verifyWindow]

/-- An edition entry in the order of R89 (R91, R191). -/
def Edition.asRead (x : Edition) : List Word :=
  timeAsRead x.deadline ++
    [word x.sets.k.val, word x.sets.c.val, word x.sets.m.val, word x.sets.y.val, word x.remakeLimit,
      word x.resendWait, flagAsRead x.passed]

/-- The group of one separation in PAGE READ: the content-fault count, the first fault kind and row, the patch count, the
run-value count, the photo-dot count and the render weight (R21, R191). -/
def SepResult.asRead (x : SepResult) : List Word :=
  [word x.tally.count] ++
    (match x.tally.first with
      | some f => [codeIn faultKindList f.1, word f.2]
      | none => [0xFFFF, 0]) ++
    [word x.patches.length] ++ asRead32 (BitVec.ofNat 32 x.runValues) ++ asRead48 (BitVec.ofNat 48 x.photoDots) ++
    asRead32 (BitVec.ofNat 32 x.weight)

/-- The words PAGE READ gives of an entry (R21, R191). -/
def Page.asRead (p : Page) (h : Fin 64) : List Word :=
  [word h.val, p.state.asRead] ++ p.label.asRead ++
    [word p.version,
      (if p.seps.k then 1 else 0) + (if p.seps.c then 2 else 0) + (if p.seps.m then 4 else 0) +
        (if p.seps.y then 8 else 0),
      word p.width, word p.height, word ((p.height + 255) / 256), numberAsRead p.expected, word p.held.length,
      word p.damaged.length,
      numberAsRead p.lacking, flagAsRead p.released, word p.retention] ++
    timeAsRead (some p.opened) ++ timeAsRead p.closed ++ timeAsRead p.completed ++
    (if p.seps.k then p.results.k.asRead else []) ++ (if p.seps.c then p.results.c.asRead else []) ++
    (if p.seps.m then p.results.m.asRead else []) ++ (if p.seps.y then p.results.y.asRead else []) ++
    asRead48 (BitVec.ofNat 48 p.clip)

/-- A record is WAITING (R98). -/
abbrev Plate.waits (r : Plate) : Prop := r.channel = none ∧ 0 < r.toExpose

/-- The words PLATE READ gives of a record: the fields of R97 in their order, then what R116 adds (R191). The entry state
FFFF of a record with no entry is the model's (log entry 8). -/
def State.plateAsRead (s : State) (i : Fin 128) (r : Plate) : List Word :=
  let entry := r.page.bind s.page
  let copy := (r.channel.bind fun l => (s.channel l).exposure).filter fun e => e.plate == i
  [word i.val] ++ r.label.asRead ++
    [numberAsRead (r.page.map Fin.val), codeIn sepList r.sep, codeIn [.a, .b, .either] r.choice, word r.copies,
      word r.toExpose, word r.exposing, word r.awaiting, word r.verified, word r.failed, word r.withdrawn,
      word r.attempts, word r.step, flagAsRead r.remake, flagAsRead r.cancelled, flagAsRead r.obsolete,
      codeIn [.order, .supersede] r.origin] ++
    asRead32 r.arrival ++
    [flagAsRead r.lateRisk,
      (match r.channel with
        | some l => codeIn [.a, .b] l
        | none => 0xFFFF),
      (if r.channel ≠ none then 1 else if 0 < r.toExpose then 0 else 2), numberAsRead (entry.map Page.version),
      (match entry with
        | some p => p.state.asRead
        | none => 0xFFFF),
      numberAsRead (if r.waits then some ((plateIds.filter fun j =>
        (s.plate j).any fun q => decide q.waits && s.before j q i r).length) else none),
      flagAsRead (s.eligible r .a), flagAsRead (s.eligible r .b),
      (match copy with
        | some e => word e.copy.serial
        | none => 0),
      numberAsRead (copy.map fun e => e.copy.index)]

/-- The 20 words of an incident record; an absent field's words read 0 (R196). -/
def Incident.asRead (i : Incident) : List Word :=
  [codeIn incidentKindList i.kind,
    BitVec.ofBoolListLE [i.label.isSome, i.version.isSome, i.handle.isSome, i.sep.isSome, i.segment.isSome,
      i.plate.isSome, i.serial.isSome, i.copyIndex.isSome, i.attempts.isSome, i.detail.isSome, false, false, false,
      false, false, false],
    flagAsRead i.resolved] ++
    asRead32 i.time ++
    (match i.label with
      | some l => l.asRead
      | none => [0, 0]) ++
    [word (i.version.getD 0),
      (match i.handle with
        | some h => word h.val
        | none => 0),
      (match i.sep with
        | some sp => codeIn sepList sp
        | none => 0),
      word (i.segment.getD 0),
      (match i.plate with
        | some k => word k.val
        | none => 0),
      word (i.serial.getD 0), word (i.copyIndex.getD 0), word (i.attempts.getD 0), word i.repeats,
      codeIn dispositionList i.disposition] ++
    match i.detail with
    | some d => [word d.count, codeIn faultKindList d.kind, word d.row]
    | none => [0, 0, 0]

/-- The plate header of the copy of a record (R128, R194). -/
def Copy.header (c : Copy) (i : Fin 128) (r : Plate) (p : Page) : List Word :=
  [word c.serial, word i.val] ++ r.label.asRead ++
    [word p.version, codeIn sepList r.sep, word p.width, word p.height, word c.level, word c.index, word r.copies,
      c.markCode.extractLsb' 0 16, c.markCode.extractLsb' 16 16, c.markCode.extractLsb' 32 16]

/-! ## What the line stream of a separation says (R48 to R53, R193)

These read a payload against the byte form of the records it holds, where the machine parses it byte by byte. -/

/-- A number as two bytes, the more significant first (R191). -/
def twoByteForm (n : Nat) : List Byte := [BitVec.ofNat 8 (n / 256), BitVec.ofNat 8 n]

/-- The bytes of a row record (R193). -/
def RowRecord.bytes : RowRecord → List Byte
  | .white n => 1 :: twoByteForm n
  | .repeatRow n => 2 :: twoByteForm n
  | .runs vs => 3 :: (twoByteForm vs.length ++ vs.flatMap twoByteForm)

/-- A row record whose numbers are in their ranges (R49, R51). -/
def RowRecord.inRange : RowRecord → Prop
  | .white n => 1 ≤ n ∧ n ≤ 256
  | .repeatRow n => 1 ≤ n ∧ n ≤ 256
  | .runs vs => 1 ≤ vs.length ∧ vs.length ≤ 1024 ∧ ∀ v ∈ vs, v ≤ 16384

/-- The rows a record gives after a reference row (R49, R50). -/
def RowRecord.rows (w : Nat) (reference : Row) : RowRecord → List Row
  | .white n => List.replicate n (whiteRow w)
  | .repeatRow n => List.replicate n reference
  | .runs vs => [buildRow w false vs]

/-- The number of rows a record gives (R49). -/
def RowRecord.count : RowRecord → Nat
  | .white n => n
  | .repeatRow n => n
  | .runs _ => 1

/-- The run values of a record (R50). -/
def RowRecord.values : RowRecord → List Nat
  | .runs vs => vs
  | _ => []

/-- The content faults of a record whose first row has a number (R50). -/
def RowRecord.faults (w row : Nat) : RowRecord → List (FaultKind × Nat)
  | .runs vs => if vs.sum < w then [(.shortRow, row)] else if w < vs.sum then [(.longRow, row)] else []
  | _ => []

/-- What a LINE payload says: the stated first row, the records before the first defect, and whether a defect follows
them (R48, R51). -/
structure LineText where
  first : Nat
  records : List RowRecord
  defective : Bool
deriving DecidableEq, Repr

/-- A LINE payload says a text: what follows its last record is nothing, or a defect, which no record in its ranges
begins. A payload too short for the stated first row says none (R48, R51). -/
def readsAsLine (payload : List Byte) : Option LineText → Prop
  | none => payload.length < 2
  | some t =>
    t.first ≤ 65535 ∧ (∀ r ∈ t.records, r.inRange) ∧
      ∃ rest : List Byte, payload = twoByteForm t.first ++ t.records.flatMap RowRecord.bytes ++ rest ∧
        (t.defective = true ↔ rest ≠ []) ∧
        ∀ (r : RowRecord) (tail : List Byte), r.inRange → rest ≠ r.bytes ++ tail

/-- The records of a LINE segment that are decoded (R51). -/
def recordsOf (t : Option LineText) : List RowRecord := (t.map LineText.records).getD []

/-- The rows of a run of records from the start of a line stream: the reference row of each is the last row decoded before
it, white at the start (R49). -/
def decodedRows (w : Nat) (rs : List RowRecord) : List Row :=
  rs.foldl (fun rows r => rows ++ r.rows w (rows.getLast?.getD (whiteRow w))) []

/-- The content faults of a run of records from a running row count on (R50). -/
def recordFaults (w : Nat) : Nat → List RowRecord → List (FaultKind × Nat)
  | _, [] => []
  | row, r :: rs => r.faults w row ++ recordFaults w (row + r.count) rs

/-- The content faults of the LINE segments of a separation from a running row count on, in walk order (R48 to R51). -/
def lineFaults (w : Nat) : Nat → List (Option LineText) → List (FaultKind × Nat)
  | _, [] => []
  | row, none :: ts => (.syntaxDefect, row) :: lineFaults w row ts
  | row, some t :: ts =>
    (if t.first = row then [] else [(.rowSequence, row)]) ++ recordFaults w row t.records ++
      (if t.defective then [(.syntaxDefect, row + (t.records.map RowRecord.count).sum)] else []) ++
      lineFaults w (row + (t.records.map RowRecord.count).sum) ts

/-! ## What the patch stream of a separation says (R54 to R57, R193) -/

/-- The twelve bytes of a patch head (R193). -/
def PatchHead.bytes (p : PatchHead) (unused : Byte) : List Byte :=
  twoByteForm p.x0 ++ twoByteForm p.y0 ++ twoByteForm p.w ++ twoByteForm p.h ++
    [BitVec.ofNat 8 p.f,
      match p.mode with
      | .knockout => 0
      | .overprint => 1,
      match p.override_ with
      | some n => BitVec.ofNat 8 n.val
      | none => 0xFF,
      unused]

/-- A patch head whose fields are in their ranges (R54). -/
def PatchHead.inRange (p : PatchHead) : Prop :=
  p.x0 ≤ 65535 ∧ p.y0 ≤ 65535 ∧ 1 ≤ p.w ∧ p.w ≤ 4096 ∧ 1 ≤ p.h ∧ p.h ≤ 4096 ∧ 1 ≤ p.f ∧ p.f ≤ 16

/-- The clipped area of a patch: its clipped width times its clipped height (R56). -/
def PatchHead.areaOnPage (p : PatchHead) (width height : Nat) : Nat :=
  (min (p.x0 + p.w * p.f) width - min p.x0 width) * (min (p.y0 + p.h * p.f) height - min p.y0 height)

/-- A PATCH HEAD segment with the PATCH DATA segments up to the next head, and the head fields it carries; none where the
head is refused (R54, R55). -/
structure PatchText where
  segment : Segment
  data : List Segment
  head : Option PatchHead
deriving DecidableEq, Repr

/-- The segments of a patch text are of their kinds, and its payload carries the head fields, or none that are in their
ranges (R54). -/
def PatchText.sound (t : PatchText) : Prop :=
  t.segment.kind = .patchHead ∧ (∀ g ∈ t.data, g.kind = .patchData) ∧
    match t.head with
    | some p => p.inRange ∧ ∃ (unused : Byte) (samples : List Byte), t.segment.payload = p.bytes unused ++ samples
    | none => ∀ (p : PatchHead) (unused : Byte) (samples : List Byte), p.inRange →
        t.segment.payload ≠ p.bytes unused ++ samples

/-- The samples of a patch, from the head's payload onward (R55). -/
def PatchText.samples (t : PatchText) : List Byte := t.segment.payload.drop 12 ++ t.data.flatMap Segment.payload

/-- Where each sample of a patch lies: its segment number and payload offset (R57). -/
def PatchText.places (t : PatchText) : List (Nat × Nat) :=
  ((List.range t.segment.payload.length).drop 12).map (fun k => (t.segment.number, k)) ++
    t.data.flatMap fun g => (List.range g.payload.length).map fun k => (g.number, k)

/-- The patch record of a patch taken into the list (R57): the locator gives the place of each row's first sample. -/
def PatchText.patch (width height : Nat) (t : PatchText) (p : PatchHead) : Patch :=
  { head := p, headSegment := t.segment.number, received := t.samples.length
    clippedArea := p.areaOnPage width height
    locator := (List.range p.h).map fun r => t.places[r * p.w]? }

/-- The patches taken into the list, with their heads: the first 32 whose head is not refused (R54). -/
def patchesTaken (ts : List PatchText) : List (PatchText × PatchHead) :=
  (ts.filterMap fun t => t.head.map fun p => (t, p)).take 32

/-- The content faults of the patches of a separation, with a number of heads not refused before them: of each, the one of
its head or the one of its close (R53 to R55). -/
def patchFaults : Nat → List PatchText → List (FaultKind × Nat)
  | _, [] => []
  | n, t :: ts =>
    match t.head with
    | none =>
      (.syntaxDefect,
        match t.segment.payload with
        | _ :: _ :: hi :: lo :: _ => hi.toNat * 256 + lo.toNat
        | _ => 0) :: patchFaults n ts
    | some p =>
      (if 32 ≤ n then [(.tooManyPatches, p.y0)]
        else if t.samples.length < p.w * p.h then [(.patchDataShort, p.y0)]
        else if p.w * p.h < t.samples.length then [(.patchDataLong, p.y0)]
        else []) ++ patchFaults (n + 1) ts

/-! ## What a separation says, and what indexing finds in it (R47, R52, R53, R58) -/

/-- The two streams of a separation (R47): its LINE segments, the PATCH DATA segments before its first head, and its
patches. -/
structure SepText where
  lines : List (Option LineText)
  orphans : List Segment
  patches : List PatchText
deriving DecidableEq, Repr

/-- The held segments of a separation say a text. -/
def Page.readsAs (p : Page) (sp : Sep) (x : SepText) : Prop :=
  List.Forall₂ readsAsLine ((p.held.filter fun g => g.kind == .line && g.sep == sp).map Segment.payload) x.lines ∧
    (p.held.filter fun g => g.kind != .line && g.sep == sp) =
      x.orphans ++ x.patches.flatMap (fun t => t.segment :: t.data) ∧
    (∀ g ∈ x.orphans, g.kind = .patchData) ∧ ∀ t ∈ x.patches, t.sound

/-- The rows of a separation's line stream, rows beyond the page included (R48 to R51). -/
def SepText.rows (x : SepText) (w : Nat) : List Row := decodedRows w (x.lines.flatMap recordsOf)

/-- The content faults of a separation, in walk order (R47, R52, R53). -/
def SepText.faults (x : SepText) (w height : Nat) : List (FaultKind × Nat) :=
  lineFaults w 0 x.lines ++
    (if x.lines = [] then []
      else if (x.rows w).length < height then [(.shortPage, (x.rows w).length)]
      else if height < (x.rows w).length then [(.longPage, height)] else []) ++
    x.orphans.map (fun _ => (.patchOrphan, 0)) ++ patchFaults 0 x.patches

/-- The run-value count of a separation (R50). -/
def SepText.runValues (x : SepText) : Nat := ((x.lines.flatMap recordsOf).flatMap RowRecord.values).length

/-- The photo-dot count of a separation (R56). -/
def SepText.photoDots (x : SepText) (w height : Nat) : Nat :=
  ((patchesTaken x.patches).map fun t => t.2.areaOnPage w height).sum

/-- The dots of a separation's patches that are clipped away (R56). -/
def SepText.clipped (x : SepText) (w height : Nat) : Nat :=
  ((patchesTaken x.patches).map fun t => t.2.w * t.2.f * (t.2.h * t.2.f) - t.2.areaOnPage w height).sum

/-- What indexing finds in a separation that says a text. The row of a first fault above 65,535 is a free value (log
entry 1). -/
def SepText.foundAs (x : SepText) (w height : Nat) (res : SepResult) : Prop :=
  res.tally.count = min (x.faults w height).length 65535 ∧
    res.tally.first.map Prod.fst = (x.faults w height).head?.map Prod.fst ∧
    (∀ f ∈ (x.faults w height).head?, f.2 ≤ 65535 → res.tally.first = some f) ∧
    res.patches = (patchesTaken x.patches).map (fun t => t.1.patch w height t.2) ∧
    res.runValues = x.runValues ∧ res.photoDots = x.photoDots w height ∧
    res.weight = 8 * ((height + 255) / 256) + (x.runValues + 15) / 16 + (x.photoDots w height + 4095) / 4096

/-- A render context stands at a row of a separation (R60, R121): the records up to its cursor give every row before that
row, and after those the rows left, each equal to the carry row; or the line stream gives no row from that row on.
Between two segments it holds of the cursor after the last record of the one and at the first of the other (log entry
31). -/
def RenderContext.standsAt (x : RenderContext) (p : Page) (sp : Sep) (t : SepText) (y : Nat) : Prop :=
  (x.segment = none ∧ x.rowsLeft = 0 ∧ (t.rows p.width).length ≤ y) ∨
    ∃ (before after : List (Option LineText)) (now : Option LineText) (g : Segment) (read unread : List RowRecord)
      (rows : List Row),
      t.lines = before ++ now :: after ∧
        (p.held.filter fun g => g.kind == .line && g.sep == sp)[before.length]? = some g ∧ x.segment = some g.number ∧
        recordsOf now = read ++ unread ∧ x.offset = 2 + (read.flatMap RowRecord.bytes).length ∧
        rows = decodedRows p.width (before.flatMap recordsOf ++ read) ∧ rows.length = y + x.rowsLeft ∧
        rows.drop y = List.replicate x.rowsLeft x.carry ∧ x.carry = rows.getLast?.getD (whiteRow p.width) ∧
        x.rowCount = rows.length

/-! ## Conditions that relate two states -/

/-- The records of a list with those that satisfy a test marked resolved (R170). -/
def resolvedWhere (q : Incident → Bool) (is : List Incident) : List Incident :=
  is.map fun i => if q i then { i with resolved := true } else i

/-- A handle has left the index queue and the indexer: the handles after it close up in order, and where its page was the
one being indexed, the next handle is taken at once (R17, R44, R45). -/
def State.leftIndexing (s t : State) (h : Fin 64) : Prop :=
  if s.indexer = some h then
    t.indexer = (s.indexQueue.filter (· != h)).head? ∧ t.indexQueue = (s.indexQueue.filter (· != h)).tail
  else t.indexer = s.indexer ∧ t.indexQueue = s.indexQueue.filter (· != h)

/-- An entry has been freed: it is FREE, its cells are back in the free pool, it has left the opening order, the index
queue and the indexer, every incident that names it is resolved, and nothing else has changed (R17; that a DEADLINE
MISSED is resolved too, against R95, is the model's choice: log entry 27). -/
def State.entryFreed (s t : State) (h : Fin 64) (p : Page) : Prop :=
  t.page h = none ∧ (∀ k, k ≠ h → t.page k = s.page k) ∧ t.freeCells = s.freeCells + cellsOf p.held ∧
    t.openOrder = s.openOrder.filter (· != h) ∧ s.leftIndexing t h ∧
    t.incidents = resolvedWhere (fun i => i.handle == some h) s.incidents ∧
    t = { s with
      pages := t.pages, freeCells := t.freeCells, openOrder := t.openOrder, indexQueue := t.indexQueue
      indexer := t.indexer, incidents := t.incidents }

/-- A record made at the tail of the list, or dropped into the lost count where the list is full (R167, R168). -/
def State.recorded (s t : State) (i : Incident) : Prop :=
  (s.incidents.length < 255 → t.incidents = s.incidents ++ [i] ∧ t.lost = s.lost) ∧
    (255 ≤ s.incidents.length → t.incidents = s.incidents ∧ t.lost = min (s.lost + 1) 65535)

/-- The incident list with records made in order; those that find 255 records in it are dropped (R167, R168). -/
def State.incidentsWith (s : State) (is : List Incident) : List Incident :=
  s.incidents ++ is.take (255 - s.incidents.length)

/-- The lost count with the records dropped of those made in order, holding at 65,535 (R168). -/
def State.lostWith (s : State) (is : List Incident) : Nat :=
  if is.length ≤ 255 - s.incidents.length then s.lost
  else min (s.lost + (is.length - (255 - s.incidents.length))) 65535

/-- Records made in order, each at the tail of the list or dropped into the lost count (R167, R168). -/
def State.recordedAll (s t : State) (is : List Incident) : Prop := t.incidents = s.incidentsWith is ∧ t.lost = s.lostWith is

/-- The cells, the opening order, the index queue and the indexer are as they were. -/
def State.catalogueKept (s t : State) : Prop :=
  t.freeCells = s.freeCells ∧ t.openOrder = s.openOrder ∧ t.indexQueue = s.indexQueue ∧ t.indexer = s.indexer

/-- Record i, of page entry h, has become q by the settlement of a copy, and records have been made. A record with nothing
left is freed, and its entry loses one retention; a SUPERSEDED entry that loses its last is freed, and every incident that
names it is resolved (R16 to R18, R114; log entry 27). -/
def State.recordSettled (s t : State) (i : Fin 128) (q : Plate) (h : Fin 64) (p : Page) (is : List Incident) : Prop :=
  (∀ j, j ≠ i → t.plate j = s.plate j) ∧ (∀ k, k ≠ h → t.page k = s.page k) ∧ t.lost = s.lostWith is ∧
    if q.channel = none ∧ q.toExpose = 0 ∧ q.exposing = 0 ∧ q.awaiting = 0 then
      t.plate i = none ∧
        if p.state = .superseded ∧ p.retention ≤ 1 then
          t.page h = none ∧ t.freeCells = s.freeCells + cellsOf p.held ∧
            t.openOrder = s.openOrder.filter (· != h) ∧ s.leftIndexing t h ∧
            t.incidents = resolvedWhere (fun x => x.handle == some h) (s.incidentsWith is)
        else
          t.page h = some { p with retention := p.retention - 1 } ∧ s.catalogueKept t ∧
            t.incidents = s.incidentsWith is
    else t.plate i = some q ∧ t.page h = some p ∧ s.catalogueKept t ∧ t.incidents = s.incidentsWith is

/-- What becomes of a damaged copy of a record r, already out of its stage, by the remake decision under a limit: the record
q, with the exposure step as given where a remake is queued, and the disposition (R176, R177). -/
def Plate.damagedAs (r q : Plate) (limit step : Nat) (d : Disposition) : Prop :=
  if r.cancelled ∨ r.obsolete then d = .noted ∧ q = { r with withdrawn := r.withdrawn + 1 }
  else if r.attempts < limit then
    d = .remakeQueued ∧
      q = { r with
        failed := r.failed + 1, attempts := r.attempts + 1, toExpose := r.toExpose + 1, remake := true, step := step }
  else d = .remakeLimit ∧ q = { r with failed := r.failed + 1 }

/-- What becomes of a record r whose copy in exposure is given up in a phase, under a remake limit: the record q, the code
and disposition word of the reply, and the disposition of the ABORTED incident (R15, R104, R140, R176, R191). -/
def Plate.givenUpAs (r q : Plate) (phase : Phase) (limit : Nat) (code disposition : Word) (d : Option Disposition) : Prop :=
  if phase = .loaded then
    d = none ∧ disposition = 0xFFFF ∧
      if r.cancelled ∨ r.obsolete then
        code = 2 ∧ q = { r with exposing := 0, channel := none, withdrawn := r.withdrawn + 1 }
      else code = 4 ∧ q = { r with exposing := 0, channel := none, toExpose := r.toExpose + 1 }
  else
    ∃ x, code = 3 ∧ d = some x ∧ disposition = codeIn dispositionList x ∧
      { r with exposing := 0, channel := none }.damagedAs q limit r.step x

/-- The ABORTED incident of the copy of a record r, now q, that is given up (R178). -/
def State.abortedAs (s : State) (e : Exposure) (r q : Plate) (h : Fin 64) (p : Page) (d : Disposition) : Incident :=
  { kind := .aborted, time := s.clock, label := some r.label, version := some p.version, handle := some h
    sep := some r.sep, plate := some e.plate, serial := some e.copy.serial, copyIndex := some e.copy.index
    attempts := some q.attempts, disposition := d }

/-- The verify-queue entry of the copy in exposure (R157). -/
def Exposure.entry (e : Exposure) (r : Plate) (p : Page) : VerifyEntry :=
  { serial := e.copy.serial, plate := e.plate, copyIndex := e.copy.index, label := r.label, version := p.version
    sep := r.sep, age := 0 }

/-- What becomes at PLATE END of the copy e of a record r: the record q, the settlement, kind and disposition words of the
reply, the incidents made and the entries pushed. A good exposure is settled as verified, or as withdrawn for an obsolete
record, with verification off, and joins a queue of fewer than 16 entries with it on; every other ending is damage, of the
kind its phase, the underrun flag and the result give (R15, R135 to R137, R176 to R178, R191). -/
def State.endedAs (s : State) (l : Line) (e : Exposure) (r : Plate) (h : Fin 64) (p : Page) (fault : Word) (q : Plate)
    (words : List Word) (is : List Incident) (added : List VerifyEntry) : Prop :=
  (e.phase = .finishing ∧ (s.channel l).underrun = false ∧ fault = 0 ∧ is = [] ∧
      ((s.lineSettings l).verification = false ∧ added = [] ∧
          (r.obsolete = true ∧ words = [2, 0xFFFF, 0xFFFF] ∧
              q = { r with exposing := 0, withdrawn := r.withdrawn + 1 } ∨
            r.obsolete = false ∧ words = [1, 0xFFFF, 0xFFFF] ∧
              q = { r with exposing := 0, verified := r.verified + 1 }) ∨
        (s.lineSettings l).verification = true ∧ (s.queue l).length < 16 ∧ added = [e.entry r p] ∧
          words = [0, 0xFFFF, 0xFFFF] ∧ q = { r with exposing := 0, awaiting := r.awaiting + 1 })) ∨
    ∃ (kind : IncidentKind) (step : Nat) (d : Disposition), added = [] ∧ fault.toNat < 2 ∧
      (e.phase ≠ .finishing ∧ kind = .shortExposure ∧ step = r.step ∨
        e.phase = .finishing ∧ (s.channel l).underrun = true ∧ kind = .underrun ∧ step = r.step ∨
        e.phase = .finishing ∧ (s.channel l).underrun = false ∧ fault = 1 ∧ kind = .exposeFault ∧
          step = min (r.step + 1) 7) ∧
      { r with exposing := 0 }.damagedAs q (s.editionOf r.label).remakeLimit step d ∧
      words = [3, codeIn incidentKindList kind, codeIn dispositionList d] ∧
      is = [{ kind := kind, time := s.clock, label := some r.label, version := some p.version, handle := some h
              sep := some r.sep, plate := some e.plate, serial := some e.copy.serial
              copyIndex := some e.copy.index, attempts := some q.attempts, disposition := d }]

/-- The DEADLINE MISSED incidents of an edition at a time: one for each live record of the edition, in ascending plate id
(R95). -/
def State.deadlinesMissed (s : State) (now : Seconds) (e : Fin 16) : List Incident :=
  plateIds.filterMap fun i =>
    ((s.plate i).filter fun r => r.label.edition == e).map fun r =>
      { kind := .deadlineMissed, time := now, label := some r.label
        version := (r.page.bind s.page).map Page.version, handle := r.page, sep := some r.sep, plate := some i
        attempts := some r.attempts, disposition := .noted }

/-- An edition whose deadline expires at a time: present, its marker clear, and reached (R94). -/
def Edition.reached (x : Edition) (now : Seconds) : Bool :=
  !x.passed && x.deadline.any fun d => decide (d.toNat ≤ now.toNat)

/-- The copy of a queue entry, damaged as MISSING or UNREADABLE, is remade: its record u is neither cancelled nor obsolete
and its edition's limit allows it (R176). -/
def State.remakes (s : State) (f : VerifyEntry) (u : Plate) : Prop :=
  s.plate f.plate = some u ∧ 0 < u.awaiting ∧ u.obsolete = false ∧ u.cancelled = false ∧
    u.attempts < (s.editionOf u.label).remakeLimit

/-- Every entry that has gone is remade in its record, the exposure step as it stands, and no other record has changed
(R160, R176, R177). -/
def State.remadeAsMissing (s t : State) (gone : List VerifyEntry) : Prop :=
  (∀ f ∈ gone, ∀ u, s.plate f.plate = some u →
      t.plate f.plate = some { u with
        awaiting := u.awaiting - 1, failed := u.failed + 1, attempts := u.attempts + 1, toExpose := u.toExpose + 1
        remake := true }) ∧
    ∀ j, (∀ f ∈ gone, f.plate ≠ j) → t.plate j = s.plate j

/-- The MISSING incident of an entry that is remade (R178). -/
def State.missingOf (s : State) (f : VerifyEntry) : Option Incident :=
  (s.plate f.plate).map fun u =>
    { kind := .missing, time := s.clock, label := some f.label, version := some f.version, handle := u.page
      sep := some f.sep, plate := some f.plate, serial := some f.serial, copyIndex := some f.copyIndex
      attempts := some (u.attempts + 1), disposition := .remakeQueued }

/-- The copy of an entry removed from a verify queue has been settled in its record u, which names the live page entry h:
with no kind given it is verified, or withdrawn of an obsolete record; as MISSING or UNREADABLE it is damaged, by the remake
decision as the record then stands, UNREADABLE raising the step of a remake, and its incident is made. The record is freed
where nothing is left, and nothing else has changed (R15, R114, R160, R175 to R178). -/
def State.copySettled (s t : State) (f : VerifyEntry) (kind : Option IncidentKind) : Prop :=
  ∃ (u q : Plate) (h : Fin 64) (p : Page) (is : List Incident),
    s.plate f.plate = some u ∧ 0 < u.awaiting ∧ u.page = some h ∧ s.page h = some p ∧
      (match kind with
        | none =>
          is = [] ∧
            q = { u with
              awaiting := u.awaiting - 1, verified := if u.obsolete then u.verified else u.verified + 1
              withdrawn := if u.obsolete then u.withdrawn + 1 else u.withdrawn }
        | some k =>
          ∃ d, { u with awaiting := u.awaiting - 1 }.damagedAs q (s.editionOf u.label).remakeLimit
              (if k = IncidentKind.unreadable then min (u.step + 1) 7 else u.step) d ∧
            is = [{ kind := k, time := s.clock, label := some f.label, version := some f.version, handle := some h
                    sep := some f.sep, plate := some f.plate, serial := some f.serial, copyIndex := some f.copyIndex
                    attempts := some q.attempts, disposition := d }]) ∧
      s.recordSettled t f.plate q h p is ∧
      t = { s with
        plates := t.plates, pages := t.pages, freeCells := t.freeCells, openOrder := t.openOrder
        indexQueue := t.indexQueue, indexer := t.indexer, incidents := t.incidents, lost := t.lost }

/-- The copies of entries removed from a verify queue, each with the kind it is damaged as or none, have been settled in the
order given, each completing before the next (R160). -/
def State.settledInTurn : List (VerifyEntry × Option IncidentKind) → State → State → Prop
  | [], s, t => t = s
  | x :: xs, s, t => ∃ m, s.copySettled m x.1 x.2 ∧ State.settledInTurn xs m t

/-- An entry removed as MISSING. -/
def VerifyEntry.asMissing (f : VerifyEntry) : VerifyEntry × Option IncidentKind := (f, some .missing)

/-- Each of some queue entries names a live record that names a page entry, and awaiting counts them (R157). -/
def State.awaitsEach (s : State) (gone : List VerifyEntry) : Prop :=
  ∀ f ∈ gone, ∃ u, s.plate f.plate = some u ∧ u.page ≠ none ∧ gone.countP (fun g => g.plate == f.plate) ≤ u.awaiting

/-- Two states agree in all that the settlement of a copy can change. -/
def State.copiesAs (t m : State) : Prop :=
  t.plates = m.plates ∧ t.pages = m.pages ∧ t.freeCells = m.freeCells ∧ t.openOrder = m.openOrder ∧
    t.indexQueue = m.indexQueue ∧ t.indexer = m.indexer ∧ t.incidents = m.incidents ∧ t.lost = m.lost

/-- Entries that have gone overdue are settled as MISSING, the exposure step left as it stands: in the order removed, each
completing before the next, whatever the outcomes. Where every one is remade, each in a record of its own, the records and
the incidents are all that changes; a single one has any outcome, and its record is freed where nothing is left (R114,
R159, R160, R176 to R178). -/
def State.overdueSettled (s t : State) (gone : List VerifyEntry) : Prop :=
  (∀ m, s.settledInTurn (gone.map VerifyEntry.asMissing) m → t.copiesAs m) ∧
  ((∀ f ∈ gone, ∃ u, s.remakes f u) → (gone.map VerifyEntry.plate).Nodup →
      s.remadeAsMissing t gone ∧ t.pages = s.pages ∧ s.catalogueKept t ∧
        s.recordedAll t (gone.filterMap s.missingOf)) ∧
    ∀ (f : VerifyEntry) (u q : Plate) (h : Fin 64) (p : Page) (d : Disposition), gone = [f] →
      s.plate f.plate = some u → 0 < u.awaiting → u.page = some h → s.page h = some p →
      { u with awaiting := u.awaiting - 1 }.damagedAs q (s.editionOf u.label).remakeLimit u.step d →
      s.recordSettled t f.plate q h p
        [{ kind := .missing, time := s.clock, label := some f.label, version := some f.version, handle := u.page
           sep := some f.sep, plate := some f.plate, serial := some f.serial, copyIndex := some f.copyIndex
           attempts := some q.attempts, disposition := d }]

/-- The entries that a line's overdue test removes of a queue, and those it keeps: every one removed is overdue under the
verify window, and the new head is not (R159). -/
def overdueSplit (w : Nat) (queue gone kept : List VerifyEntry) : Prop :=
  queue = gone ++ kept ∧ (∀ f ∈ gone, 0 < w ∧ w < f.age) ∧ ∀ f ∈ kept.head?, w = 0 ∨ f.age ≤ w

/-- Room has been made on a line for the good exposure e, with verification on and 16 entries in the queue: its head is
expelled as MISSING and the overdue test is made on the new head; b is s with the copies removed settled in turn
and the queue as it is left (R157, R159, R160). -/
def State.madeRoom (s b : State) (l : Line) (e : Exposure) : Prop :=
  e.phase = .finishing ∧ (s.channel l).underrun = false ∧ (s.lineSettings l).verification = true ∧
    ∃ (f : VerifyEntry) (rest gone kept : List VerifyEntry) (m : State), s.queue l = f :: rest ∧ rest.length = 15 ∧
      overdueSplit (s.lineSettings l).verifyWindow rest gone kept ∧
      s.settledInTurn ((f :: gone).map VerifyEntry.asMissing) m ∧ b = { m with queues := s.queues.set l kept }

/-- The command c ends the strip that a line's decoder d reads, and x is the decoder as the strip's end finds it: the tick
without an edge after the count equals the largest enabled maximum; the tick after the count stands at a maximum of
65,535, with an edge or without; or STRIP_END where the count has passed the maximum (R153). -/
def Decoder.stripEndsBy (d x : Decoder) (l : Line) (c : Instr) : Prop :=
  ∃ m, d.inForce.largestMax = some m ∧
    ((c = .stripEnd l ∧ x = d ∧ m < d.count) ∨
      ∃ level, c = .markTick l level ∧
        (m < 65535 ∧ d.count = m ∧ (d.see level).2 = false ∧ x = { (d.see level).1 with count := m + 1 } ∨
          m = 65535 ∧ d.count = 65535 ∧
            x = { (d.see level).1 with count := if (d.see level).2 then 0 else 65535 }))

/-- A decoder in IDLE after a strip, under the settings as written: the seen level is taken afresh where polarity, filter
or tick differ (R146, R153). -/
def Decoder.idleUnder (x : Decoder) (m : MarkTiming) : Decoder :=
  { x with
    strip := none, inForce := m
    seen := if m.inverted = x.inForce.inverted ∧ m.filter = x.inForce.filter ∧ m.tick = x.inForce.tick then x.seen
      else none
    filterCount := if m.inverted = x.inForce.inverted ∧ m.filter = x.inForce.filter ∧ m.tick = x.inForce.tick
      then x.filterCount else 0 }

/-! ## Conditions on the records that a PAGE OPEN treats -/

/-- A record waits, with no page, for a page of a label (R6). -/
abbrev Plate.waitsFor (r : Plate) (l : Label) : Prop :=
  r.page = none ∧ r.label = l ∧ r.channel = none ∧ 0 < r.toExpose

/-- A record of an entry is on a channel, or has nothing to expose: ACTIVE or VERIFYING (R98, R14). -/
abbrev Plate.begun (r : Plate) (o : Fin 64) : Prop := r.page = some o ∧ (r.channel ≠ none ∨ r.toExpose = 0)

/-- The records that a supersede of an entry replaces by a new one, in ascending plate id, where the table has room: ACTIVE
or VERIFYING, not cancelled, and of a separation that the new set holds (R14). -/
def State.replaced (s : State) (o : Fin 64) (seps : Seps Bool) : List Plate :=
  plateIds.filterMap fun k =>
    (s.plate k).filter fun r => decide (r.begun o) && !r.cancelled && seps.get r.sep

/-- The incident of a record that a newly opened or current entry h of version v does not take (R6, R13, R14, R101). -/
def Plate.untaken (r : Plate) (kind : IncidentKind) (now : Seconds) (v : Nat) (h : Fin 64) (k : Fin 128) : Incident :=
  { kind, time := now, label := some r.label, version := some v, handle := some h, sep := some r.sep, plate := some k
    disposition := .noted }

end Sys2Proof.Machine
end

