-- ==== Sys2Proof/WellFormed.lean ====
section
/-! DEFINITION. Which terms of `Instr` are commands a master or the plant can send. -/

namespace Sys2Proof

/-- A request frame announces its parameter words in one 16-bit word (R183). -/
def announced (ws : List Word) : Bool := ws.length ≤ 65535

/-- The well-formed commands: a request's parameter words can be announced by its header, and an UNKNOWN_REQUEST's code
is not served on its port (R183). Events name what they name by type. -/
def Instr.wf : Instr → Bool
  | .unknownRequest p code ws => announced ws && !served p code
  | i =>
    match encodeFrame i with
    | some (_, _, ws) => announced ws
    | none => true

end Sys2Proof
end

