-- ==== Sys2Proof/Certificates/Slice0/Obligations.lean ====
section
/-! DEFINITION. The statements for the provers. Each docstring names the rule of spec/ it formalises. -/

open Sys2Proof Sys2Proof.Machine

/-! ## The machine as a whole -/

/-- A step takes the command at the front of the queue and runs it with the queue's rest. -/
def Obligations.StepRunsFrontCommand : Prop :=
  ∀ (c : Instr) (rest : List Instr) (s : State), s.pending = c :: rest → step s = exec c { s with pending := rest }

/-- Every request's frame, its request code, its parameter word count and its parameters, reads back as that request, and
every frame a port receives is the frame of the command it reads as (R183, R192). -/
def Obligations.RequestFramesReadBack : Prop :=
  (∀ (i : Instr) (p : Port) (code : Word) (ws : List Word),
      i.wf = true → encodeFrame i = some (p, code, ws) → decodeFrame p code ws = i) ∧
    (∀ (p : Port) (code : Word) (ws : List Word), encodeFrame (decodeFrame p code ws) = some (p, code, ws)) ∧
    (∀ (i : Instr) (p : Port) (f : List Word), i.wf = true → sendFrame i = some (p, f) → receiveFrame p f = some i) ∧
    (∀ (i : Instr) (p : Port) (f : List Word), receiveFrame p f = some i → sendFrame i = some (p, f)) ∧
    ∀ (i : Instr) (p : Port) (f : List Word), sendFrame i = some (p, f) →
      ∃ code ws, encodeFrame i = some (p, code, ws) ∧ f = [code, word ws.length] ++ ws

/-- Every request is answered by one reply on its own port, a frame of the status code, the result word count and the
results, and an event forms no reply (R182, R183, R192). -/
def Obligations.EveryRequestIsAnsweredOnItsPort : Prop :=
  ∀ (i : Instr) (s : State), s.resetAsserted = false → i.wf = true →
    (∀ (p : Port) (code : Word) (ws : List Word), encodeFrame i = some (p, code, ws) →
      ∃ (t : State) (r : Reply), exec i s = .next t ∧ t.replies = s.replies.set p (some r) ∧ t.pending = s.pending ∧
        t.replyFrame p = some ([codeIn statusList r.status, word r.results.length] ++ r.results)) ∧
    (encodeFrame i = none → i ≠ .powerOnResetAsserted → i ≠ .powerOnResetNegated →
      ∃ t : State, exec i s = .next t ∧ t.replies = s.replies ∧ t.pending = s.pending)

/-- A request code not served on its port is answered UNKNOWN, status code 9; a frame whose parameter count does not fit
its request is answered BAD_VALUE, status code 2; neither carries results or changes anything else (R183, R191, R192). -/
def Obligations.FramesThatDoNotFitAreRefused : Prop :=
  (∀ (p : Port) (code : Word) (ws : List Word) (s : State), s.resetAsserted = false → served p code = false →
      exec (.unknownRequest p code ws) s = .next (s.setReply p { status := .unknown, results := [] }) ∧
        (s.setReply p { status := .unknown, results := [] }).replyFrame p = some [9, 0]) ∧
    ∀ (i : Instr) (p : Port) (code : Word) (ws : List Word) (s : State), s.resetAsserted = false →
      encodeFrame i = some (p, code, ws) → i.fits = false →
      exec i s = .next (s.setReply p { status := .badValue, results := [] }) ∧
        (s.setReply p { status := .badValue, results := [] }).replyFrame p = some [2, 0]

/-- While the power-on reset input is asserted, no request is received and no event occurs (R190). -/
def Obligations.NothingHappensUnderReset : Prop :=
  ∀ (i : Instr) (s : State), s.resetAsserted = true → i ≠ .powerOnResetAsserted → i ≠ .powerOnResetNegated →
    exec i s = .next s ∧ ∀ p, s.attention p = false

/-- Asserting the power-on reset input, and negating it after, leave every block at its power-on values and no reply to
deliver (R190). Of the power-on values, the tick count 0 of both decoders (log entry 3), the next band 0 and the parts of
the empty render context (log entry 30) are the model's; and the commands that wait and the count of free values are the
model's own, and that they stay is its choice (log entries 2 and 23). -/
def Obligations.PowerOnResetRestoresEveryBlock : Prop :=
  (∀ s : State, exec .powerOnResetAsserted s =
      .next { State.reset with resetAsserted := true, freeCount := s.freeCount, pending := s.pending }) ∧
    ∀ s : State, s.resetAsserted = true → exec .powerOnResetNegated s =
      .next { State.reset with freeCount := s.freeCount, pending := s.pending }

/-- The power-on values the manual gives (R22, R28, R43 to R45, R88, R89, R92, R97, R102, R110, R118, R123, R145, R150, R157,
R165, R181, R186, R187), and the conditions on every state, hold right after reset. No reply stands on a port; that the
reset input is negated (log entry 23), that the next band is 0, and how the empty render context is written (log entry 30)
is the model's. -/
def Obligations.PowerOnState : Prop :=
  ((∀ h, State.reset.page h = none) ∧ State.reset.openOrder = [] ∧ State.reset.indexQueue = [] ∧
      State.reset.indexer = none ∧ State.reset.resendView = [] ∧ State.reset.freeCells = 32768 ∧
      State.reset.link = { length := 16, poly := 0x1021 }) ∧
    (∀ i : Fin 8, (State.reset.screens[i]).inUse = 0 ∧ (State.reset.screens[i]).content.floorF = 0 ∧
      (State.reset.screens[i]).content.ceilG = 4095 ∧ (State.reset.screens[i]).content.side = 8 ∧
      (State.reset.screens[i]).content.tile = List.replicate 64 2047 ∧
      (∀ k : Fin 17, (State.reset.screens[i]).content.knots[k] = min (256 * k.val) 4095) ∧
      (State.reset.screens[i]).content.yoff = 0 ∧ (State.reset.screens[i]).content.xoff = 0 ∧
      (State.reset.screens[i]).content.xshift = 0) ∧
    (∀ e : Fin 16, State.reset.editions[e] =
      { deadline := none, sets := ⟨0, 1, 2, 3⟩, remakeLimit := 3, resendWait := 0, passed := false }) ∧
    (State.reset.clock = 0 ∧ (∀ i, State.reset.plate i = none) ∧ State.reset.arrival = 0 ∧ State.reset.serialNext = 1) ∧
    (∀ l, (State.reset.channel l).exposure = none ∧ (State.reset.channel l).held = false ∧
      (State.reset.channel l).underrun = false ∧ (State.reset.channel l).stall = none ∧
      (∀ k : Fin 4, (State.reset.channel l).ring[k] = Slot.free) ∧ (State.reset.decoder l).strip = none ∧
      (State.reset.decoder l).seen = none ∧ (State.reset.decoder l).filterCount = 0 ∧ State.reset.queue l = [] ∧
      (State.reset.lineSettings l).overhead = 0 ∧ (State.reset.lineSettings l).rowTime = 1000 ∧
      (State.reset.lineSettings l).stallLimit = 50 ∧ (State.reset.lineSettings l).verification = false ∧
      (State.reset.lineSettings l).verifyWindow = 0 ∧ (State.reset.lineSettings l).mark.tick = 10 ∧
      (State.reset.lineSettings l).mark.filter = true ∧ (State.reset.lineSettings l).mark.inverted = false ∧
      (State.reset.lineSettings l).mark.start = ⟨0, 0⟩ ∧ (State.reset.lineSettings l).mark.zero = ⟨0, 0⟩ ∧
      (State.reset.lineSettings l).mark.one = ⟨0, 0⟩ ∧
      (State.reset.decoder l).inForce = (State.reset.lineSettings l).mark ∧
      (State.reset.channel l).rowsDelivered = 0 ∧ (State.reset.channel l).nextBand = 0 ∧
      (State.reset.channel l).context.segment = none ∧ (State.reset.channel l).context.rowsLeft = 0 ∧
      (State.reset.channel l).context.carry = [] ∧ (State.reset.channel l).context.rowCount = 0 ∧
      (State.reset.channel l).context.patchCursors = []) ∧
    ((∀ p, State.reset.replyFrame p = none) ∧ State.reset.resetAsserted = false) ∧
    (State.reset.engine = none ∧ State.reset.lastChosen = .b ∧ State.reset.mode = .leastFilled ∧
      State.reset.renderUnit = 100 ∧ (∀ i : Fin 16, State.reset.exposureTable[i] = 128)) ∧
    (State.reset.incidents = [] ∧ State.reset.lost = 0 ∧ ∀ p, State.reset.attention p = false) ∧
    State.reset.incidentsFit ∧ State.reset.cellsConserved ∧ State.reset.accounted ∧ State.reset.retained ∧
    State.reset.singleCurrent ∧ State.reset.queuesOfPages ∧ State.reset.serialsDistinct ∧ State.reset.setsCounted ∧
    State.reset.channelsHold

/-! ## What every step keeps -/

/-- The incident list never holds more than 255 records, nor two unresolved SEGMENT BAD records for one page and segment
number; the lost count holds at 65,535 (R168). -/
def Obligations.EveryStepKeepsTheIncidentBounds : Prop :=
  ∀ s t : State, s.incidentsFit → step s = .next t → t.incidentsFit

/-- Free cells plus cells held by retained segments always equal 32,768 (R25). -/
def Obligations.EveryStepConservesCells : Prop :=
  ∀ s t : State, s.cellsConserved → step s = .next t → t.cellsConserved

/-- The accounting law of every live record is kept by every step (R99). -/
def Obligations.EveryStepKeepsTheAccountingLaw : Prop :=
  ∀ s t : State, s.accounted → step s = .next t → t.accounted

/-- An entry's retention count stays the number of live records that name it, no record names a FREE entry, and a
SUPERSEDED entry stays named by a record (R16, R18). -/
def Obligations.EveryStepKeepsRetention : Prop :=
  ∀ s t : State, s.retained → step s = .next t → t.retained

/-- At most one live entry of a label is in a state other than SUPERSEDED (spec/01, from R5 and R12). The page queues are
taken to agree with the page states, which every step keeps too: so the page being indexed is not a SUPERSEDED one. -/
def Obligations.EveryStepKeepsOneCurrentEntry : Prop :=
  ∀ s t : State, s.singleCurrent → s.queuesOfPages → step s = .next t → t.singleCurrent

/-- The opening order, the index queue and the indexer stay in agreement with the page states (R36, R44). -/
def Obligations.EveryStepKeepsThePageQueues : Prop :=
  ∀ s t : State, s.queuesOfPages → step s = .next t → t.queuesOfPages

/-- No two live copies carry the same serial, serial 0 is never issued, and a verify queue never holds more than 16
entries (R110, R157). -/
def Obligations.EveryStepKeepsSerialsDistinct : Prop :=
  ∀ s t : State, s.serialsDistinct → step s = .next t → t.serialsDistinct

/-- A screen set's in-use count stays the number of channels that hold it in use (R83, R86, R87). -/
def Obligations.EveryStepKeepsTheInUseCounts : Prop :=
  ∀ s t : State, s.setsCounted → step s = .next t → t.setsCounted

/-- The channels and the records on them stay in agreement (R98, R109, R118). -/
def Obligations.EveryStepKeepsChannelsAndRecords : Prop :=
  ∀ s t : State, s.channelsHold → step s = .next t → t.channelsHold

/-! ## The page catalogue -/

/-- PAGE OPEN of a label with no current entry takes the lowest FREE entry (R2, R5), as version 1, or one more than the
label's live SUPERSEDED entry opened most recently, at most 255 (R3). The waiting records of the label are attached to it
where its set holds their separation, and otherwise freed as ORDER MISMATCHes in ascending plate id; every other record is
unchanged (R6). With parameters out of their ranges it is refused BAD_VALUE, and with valid ones and no FREE entry FULL; a
refusal changes nothing (R4; that a page number above 255 is out of range is read from R191, log entry 17). -/
def Obligations.PageOpenTakesTheLowestFreeEntry : Prop :=
  (∀ (s : State) (l0 l1 sw w h n : Word), s.resetAsserted = false → openRefused l0 l1 sw w h n →
    exec (.pageOpen [l0, l1, sw, w, h, n]) s = .next (s.setReply .feed { status := .badValue, results := [] })) ∧
  ∀ (s : State) (l0 l1 sw w h n : Word) (l : Label) (v : Nat), s.resetAsserted = false → labelCarried l0 l1 l →
    ¬openRefused l0 l1 sw w h n → s.versionAfter l v →
    (∀ i : Fin 64, s.lowestFree i → s.noCurrent l → (∀ k r, s.plate k = some r → ¬r.waitsFor l) →
      exec (.pageOpen [l0, l1, sw, w, h, n]) s =
        .next ({ s.setPage i (some
            { state := .receiving, label := l, version := v, seps := setCarried sw, width := w.toNat, height := h.toNat
              expected := numberCarried n, held := [], damaged := []
              results := ⟨SepResult.opening, SepResult.opening, SepResult.opening, SepResult.opening⟩, clip := 0
              released := false, retention := 0, opened := s.clock, closed := none, completed := none, timer := none })
            with openOrder := s.openOrder ++ [i] }.setReply .feed
          { status := .done, results := [word i.val, word v, 0xFFFF] })) ∧
    (∀ (i : Fin 64) (is : List Incident), s.lowestFree i → s.noCurrent l →
      (∀ k r, s.plate k = some r → r.page ≠ some i) →
      is = plateIds.filterMap (fun k =>
        ((s.plate k).filter fun r => decide (r.waitsFor l) && !(setCarried sw).get r.sep).map fun r =>
          r.untaken .orderMismatch s.clock v i k) →
      ∃ t : State, exec (.pageOpen [l0, l1, sw, w, h, n]) s = .next t ∧
        (∀ k, t.plate k = (s.plate k).bind fun r =>
          if r.waitsFor l then if (setCarried sw).get r.sep then some { r with page := some i } else none else some r) ∧
        t.page i = some
          { state := .receiving, label := l, version := v, seps := setCarried sw, width := w.toNat, height := h.toNat
            expected := numberCarried n, held := [], damaged := []
            results := ⟨SepResult.opening, SepResult.opening, SepResult.opening, SepResult.opening⟩, clip := 0
            released := false, retention := t.recordsNaming i, opened := s.clock, closed := none, completed := none
            timer := none } ∧
        (∀ k, k ≠ i → t.page k = s.page k) ∧
        s.recordedAll t is ∧
        t.replies = s.replies.set .feed (some { status := .done, results := [word i.val, word v, 0xFFFF] }) ∧
        t = { s with
          pages := t.pages, openOrder := s.openOrder ++ [i], plates := t.plates, incidents := t.incidents
          lost := t.lost, replies := t.replies }) ∧
    ((∀ i : Fin 64, s.page i ≠ none) →
      exec (.pageOpen [l0, l1, sw, w, h, n]) s = .next (s.setReply .feed { status := .full, results := [] }))

/-- PAGE OPEN of a label whose current entry no record names supersedes that entry and frees it within the request; the
new entry's version is one more than that of the label's live entry opened most recently, SUPERSEDED entries counted, at most
255, and those entries stay as they are (R3, R5, R12, R17, R18, R45). That the freeing resolves a DEADLINE MISSED too follows
R17 and R170 and not R95, the model's choice (log entry 27). -/
def Obligations.PageOpenSupersedesAndFreesTheUnusedEntry : Prop :=
  ∀ (s : State) (l0 l1 sw w h n : Word) (l : Label) (i o : Fin 64) (p : Page) (v : Nat), s.resetAsserted = false →
    labelCarried l0 l1 l → ¬openRefused l0 l1 sw w h n → s.lowestFree i → s.isCurrent l o → s.page o = some p →
    p.retention = 0 → s.versionAfter l v → (∀ k r, s.plate k = some r → r.page ≠ some o ∧ ¬r.waitsFor l) →
    ∃ t : State, exec (.pageOpen [l0, l1, sw, w, h, n]) s = .next t ∧
      t.page i = some
        { state := .receiving, label := l, version := v, seps := setCarried sw, width := w.toNat, height := h.toNat
          expected := numberCarried n, held := [], damaged := []
          results := ⟨SepResult.opening, SepResult.opening, SepResult.opening, SepResult.opening⟩, clip := 0
          released := false, retention := 0, opened := s.clock, closed := none, completed := none, timer := none } ∧
      t.page o = none ∧ (∀ k, k ≠ i → k ≠ o → t.page k = s.page k) ∧ t.freeCells = s.freeCells + cellsOf p.held ∧
      t.openOrder = (s.openOrder ++ [i]).filter (· != o) ∧ s.leftIndexing t o ∧
      t.incidents = resolvedWhere (fun x => x.handle == some o) s.incidents ∧
      t.replies = s.replies.set .feed
        (some { status := .done, results := [word i.val, word v, word o.val] }) ∧
      t = { s with
        pages := t.pages, freeCells := t.freeCells, openOrder := t.openOrder, indexQueue := t.indexQueue
        indexer := t.indexer, incidents := t.incidents, replies := t.replies }

/-- After a PAGE OPEN has superseded an entry, every live record that still names it is obsolete (R13, R14). WAITING
records are re-pointed to the new entry, or fail as ORDER MISMATCH; ACTIVE and VERIFYING ones become obsolete with their
copies to expose withdrawn, and each that is not cancelled is replaced by a new record on the new entry, on the lowest
free id, with the copies it still owed (R13, R14), or by ORDER LOST where the table is full; the old entry stays while a
record names it and is freed otherwise (R12, R16 to R18). Where the table runs full and the new set lacks a separation
too, the order of the two is the model's (log entry 25) and nothing is said. The version is one more than that of the
label's live entry opened most recently, SUPERSEDED entries counted, at most 255 (R3). That a freeing resolves a
DEADLINE MISSED too follows R17 and R170 and not R95, the model's choice (log entry 27). -/
def Obligations.SupersededEntryKeepsOnlyObsoleteRecords : Prop :=
  (∀ (s t : State) (ws : List Word) (o : Fin 64) (p q : Page), exec (.pageOpen ws) s = .next t → s.page o = some p →
    p.state ≠ .superseded → t.page o = some q → q.state = .superseded →
    ∀ (i : Fin 128) (r : Plate), t.plate i = some r → r.page = some o → r.obsolete = true) ∧
  ∀ (s : State) (l0 l1 sw w h n : Word) (l : Label) (i o : Fin 64) (p : Page) (v : Nat) (new : List Plate)
    (is js : List Incident), s.resetAsserted = false → labelCarried l0 l1 l → ¬openRefused l0 l1 sw w h n →
    s.lowestFree i → s.isCurrent l o → s.page o = some p → p.retention = s.recordsNaming o →
    (∀ k r, s.plate k = some r → r.page ≠ some i ∧ ¬r.waitsFor l) →
    s.versionAfter l v → new = s.replaced o (setCarried sw) →
    (new.length < s.freePlateIds.length ∨
      s.freePlateIds = [] ∧ ∀ k r, s.plate k = some r → r.page = some o → (setCarried sw).get r.sep = true) →
    is = plateIds.filterMap (fun k => (s.plate k).bind fun r =>
      if r.begun o ∧ r.cancelled = false then
        if (setCarried sw).get r.sep = false then some (r.untaken .orderMismatch s.clock v i k)
        else if s.freePlateIds = [] then some (r.untaken .orderLost s.clock v i k) else none
      else none) →
    js = plateIds.filterMap (fun k =>
      ((s.plate k).filter fun r => decide (r.page = some o ∧ ¬r.begun o) && !(setCarried sw).get r.sep).map fun r =>
        r.untaken .orderMismatch s.clock v i k) →
    ∃ t : State, exec (.pageOpen [l0, l1, sw, w, h, n]) s = .next t ∧
      (∀ k r, s.plate k = some r → r.page = some o → t.plate k =
        if r.begun o then some { r with toExpose := 0, withdrawn := r.withdrawn + r.toExpose, obsolete := true }
        else if (setCarried sw).get r.sep then some { r with page := some i }
        else if r.exposing = 0 ∧ r.awaiting = 0 then none
        else some { r with toExpose := 0, failed := r.failed + r.toExpose, obsolete := true }) ∧
      (∀ k r, s.plate k = some r → r.page ≠ some o → t.plate k = some r) ∧
      (∀ (m : Nat) (r : Plate) (f : Fin 128), new[m]? = some r → s.freePlateIds[m]? = some f →
        t.plate f = some
          { label := r.label, page := some i, sep := r.sep, choice := r.choice
            copies := r.toExpose + r.exposing + r.awaiting, toExpose := r.toExpose + r.exposing + r.awaiting
            exposing := 0, awaiting := 0, verified := 0, failed := 0, withdrawn := 0, attempts := 0, step := r.step
            remake := false, cancelled := false, obsolete := false, origin := .supersede
            arrival := s.arrival + BitVec.ofNat 32 m, lateRisk := false, channel := none }) ∧
      (∀ k, s.plate k = none → k ∉ s.freePlateIds.take new.length → t.plate k = none) ∧
      t.arrival = s.arrival + BitVec.ofNat 32 (min new.length s.freePlateIds.length) ∧
      t.page i = some
        { state := .receiving, label := l, version := v, seps := setCarried sw, width := w.toNat, height := h.toNat
          expected := numberCarried n, held := [], damaged := []
          results := ⟨SepResult.opening, SepResult.opening, SepResult.opening, SepResult.opening⟩, clip := 0
          released := false, retention := t.recordsNaming i, opened := s.clock, closed := none, completed := none
          timer := none } ∧
      t.page o = (if t.recordsNaming o = 0 then none
        else some { p with state := .superseded, timer := none, retention := t.recordsNaming o }) ∧
      (∀ k, k ≠ i → k ≠ o → t.page k = s.page k) ∧
      t.freeCells = s.freeCells + (if t.recordsNaming o = 0 then cellsOf p.held else 0) ∧
      t.openOrder = (s.openOrder ++ [i]).filter (fun k => k != o || decide (0 < t.recordsNaming o)) ∧
      s.leftIndexing t o ∧
      (s.incidents.length + is.length + js.length ≤ 255 → t.lost = s.lost ∧
        t.incidents = resolvedWhere (fun x => x.handle == some o &&
          (x.kind == .segmentBad || x.kind == .pageIncomplete || x.kind == .contentFault ||
            decide (t.recordsNaming o = 0))) s.incidents ++ is ++ js) ∧
      t.replies = s.replies.set .feed (some { status := .done, results := [word i.val, word v, word o.val] }) ∧
      t = { s with
        pages := t.pages, freeCells := t.freeCells, openOrder := t.openOrder, indexQueue := t.indexQueue
        indexer := t.indexer, plates := t.plates, arrival := t.arrival, incidents := t.incidents, lost := t.lost
        replies := t.replies }

/-- PAGE CLOSE of a RECEIVING entry discards what is numbered N or more and moves the entry to INDEXING where every number
below N is held, and otherwise to WAITING with its resend-wait timer started (R8, R38). A handle above 63 is refused
BAD_VALUE, a FREE entry NO_PAGE, a live one not RECEIVING STATE, and then BAD_VALUE an N outside 1 to 4,096, one absent from
both request and entry, and one that differs from the entry's; a refusal changes nothing (R7). -/
def Obligations.PageCloseMovesTheEntryOn : Prop :=
  ∀ (s : State) (hw nw : Word), s.resetAsserted = false →
    (63 < hw.toNat →
      exec (.pageClose [hw, nw]) s = .next (s.setReply .feed { status := .badValue, results := [] })) ∧
    ∀ h : Fin 64, hw.toNat = h.val →
      (s.page h = none →
        exec (.pageClose [hw, nw]) s = .next (s.setReply .feed { status := .noPage, results := [] })) ∧
      ∀ p : Page, s.page h = some p →
        (p.state ≠ .receiving →
          exec (.pageClose [hw, nw]) s = .next (s.setReply .feed { status := .state, results := [] })) ∧
        (p.state = .receiving →
          (nw ≠ 0xFFFF ∧ (nw.toNat < 1 ∨ 4096 < nw.toNat) ∨ nw = 0xFFFF ∧ p.expected = none ∨
            nw ≠ 0xFFFF ∧ ∃ m, p.expected = some m ∧ m ≠ nw.toNat) →
          exec (.pageClose [hw, nw]) s = .next (s.setReply .feed { status := .badValue, results := [] })) ∧
        ∀ n : Nat, p.state = .receiving → 1 ≤ n → n ≤ 4096 →
          ((numberCarried nw = some n ∧ (p.expected = none ∨ p.expected = some n)) ∨
            (numberCarried nw = none ∧ p.expected = some n)) →
          ∃ t : State, exec (.pageClose [hw, nw]) s = .next t ∧
            (∀ k, k ≠ h → t.page k = s.page k) ∧
            t.freeCells = s.freeCells + cellsOf (p.held.filter fun g => decide (n ≤ g.number)) ∧
            t.incidents = resolvedWhere
              (fun i => i.kind == .segmentBad && i.handle == some h && decide (n ≤ i.segment.getD 0)) s.incidents ∧
            t = { s with
              pages := t.pages, freeCells := t.freeCells, indexQueue := t.indexQueue, incidents := t.incidents
              replies := t.replies } ∧
            ((∀ k, k < n → ∃ g ∈ p.held, g.number = k) →
              t.page h = some { p with
                state := .indexing, expected := some n, closed := some s.clock
                held := p.held.filter fun g => decide (g.number < n)
                damaged := p.damaged.filter fun k => decide (k < n) } ∧
              t.indexQueue = s.indexQueue ++ [h] ∧
              t.replies = s.replies.set .feed (some { status := .done, results := [3, 0] })) ∧
            ((∃ k, k < n ∧ ∀ g ∈ p.held, g.number ≠ k) →
              t.page h = some { p with
                state := .waiting, expected := some n, closed := some s.clock
                held := p.held.filter fun g => decide (g.number < n)
                damaged := p.damaged.filter fun k => decide (k < n)
                timer := if (s.editionOf p.label).resendWait = 0 then none
                  else some { count := 0, wait := (s.editionOf p.label).resendWait } } ∧
              t.indexQueue = s.indexQueue ∧
              t.replies = s.replies.set .feed (some
                { status := .done
                  results := [2, word ((List.range n).filter fun k => decide (∀ g ∈ p.held, g.number ≠ k)).length] }))

/-- PAGE ABANDON on FEED and PAGE RETIRE on PLAN free an entry that no record names, and are refused IN_USE where one
does, NO_PAGE of a FREE entry and BAD_VALUE with a handle above 63 (R17, R19, R44, R45). That the freeing resolves a
DEADLINE MISSED too follows R17 and R170 and not R95, the model's choice (log entry 27). -/
def Obligations.PageAbandonAndRetireFreeTheEntry : Prop :=
  (∀ (s : State) (hw : Word), s.resetAsserted = false →
    (63 < hw.toNat →
      exec (.pageAbandon [hw]) s = .next (s.setReply .feed { status := .badValue, results := [] }) ∧
      exec (.pageRetire [hw]) s = .next (s.setReply .plan { status := .badValue, results := [] })) ∧
    ∀ h : Fin 64, hw.toNat = h.val → s.page h = none →
      exec (.pageAbandon [hw]) s = .next (s.setReply .feed { status := .noPage, results := [] }) ∧
      exec (.pageRetire [hw]) s = .next (s.setReply .plan { status := .noPage, results := [] })) ∧
  ∀ (s : State) (hw : Word) (h : Fin 64) (p : Page), s.resetAsserted = false → hw.toNat = h.val →
    s.page h = some p →
    (p.retention = 0 →
      (∃ t : State, exec (.pageAbandon [hw]) s = .next (t.setReply .feed { status := .done, results := [] }) ∧
        s.entryFreed t h p) ∧
      ∃ t : State, exec (.pageRetire [hw]) s = .next (t.setReply .plan { status := .done, results := [] }) ∧
        s.entryFreed t h p) ∧
    (0 < p.retention →
      exec (.pageAbandon [hw]) s = .next (s.setReply .feed { status := .inUse, results := [] }) ∧
      exec (.pageRetire [hw]) s = .next (s.setReply .plan { status := .inUse, results := [] }))

/-- PAGE RELEASE makes a FAULTED entry COMPLETE, marks it released with faults and resolves its CONTENT FAULTs; in any other
live state it is refused STATE, of a FREE entry NO_PAGE, and with a handle above 63 BAD_VALUE (R11). -/
def Obligations.PageReleaseMakesAFaultedEntryComplete : Prop :=
  (∀ (s : State) (hw : Word), s.resetAsserted = false →
    (63 < hw.toNat → exec (.pageRelease [hw]) s = .next (s.setReply .plan { status := .badValue, results := [] })) ∧
    ∀ h : Fin 64, hw.toNat = h.val → s.page h = none →
      exec (.pageRelease [hw]) s = .next (s.setReply .plan { status := .noPage, results := [] })) ∧
  ∀ (s : State) (hw : Word) (h : Fin 64) (p : Page), s.resetAsserted = false → hw.toNat = h.val →
    s.page h = some p →
    (p.state = .faulted →
      exec (.pageRelease [hw]) s =
        .next ({ s.setPage h (some { p with state := .complete, released := true }) with
            incidents := resolvedWhere (fun i => i.kind == IncidentKind.contentFault && i.handle == some h) s.incidents }.setReply
          .plan { status := .done, results := [] })) ∧
    (p.state ≠ .faulted →
      exec (.pageRelease [hw]) s = .next (s.setReply .plan { status := .state, results := [] }))

/-- The five reads change no state but their reply: PAGE READ and INCIDENT READ on both their ports, RESEND LIST, CLOCK READ
and PLATE READ (R21, R37, R93, R116, R171). The words they give are those of the layouts, field by field (Page.asRead,
State.plateAsRead, Incident.asRead: R21, R97, R116, R191, R196). PAGE READ is refused BAD_VALUE with a handle above 63 or a
label out of range, and NO_PAGE of a FREE entry or a label with no current entry, SUPERSEDED ones or not (R21); PLATE READ
BAD_VALUE with an id above 127 or another mode, and NO_PAGE of a free record or where no record is live at the id or above
(R116). The resend view that RESEND LIST reads holds, page by page in opening order, the numbers that a WAITING page lacks
below its N and the damaged numbers of a RECEIVING page, and ATTN-FEED is asserted while it holds a pair (R36, R185). Of the
words they give, the entry state FFFF of a record with no page entry (log entry 8) and the presence word 1 of a time that is
present (log entry 28) are the model's; a page number above 255 is out of range by log entry 17. -/
def Obligations.ReadsReportAndChangeNothing : Prop :=
  ∀ s : State, s.resetAsserted = false →
    (∀ (port : ReadPort) (hw : Word),
      (63 < hw.toNat →
        exec (.pageRead port [hw]) s = .next (s.setReply port.port { status := .badValue, results := [] })) ∧
      ∀ h : Fin 64, hw.toNat = h.val →
        (s.page h = none →
          exec (.pageRead port [hw]) s = .next (s.setReply port.port { status := .noPage, results := [] })) ∧
        ∀ p, s.page h = some p →
          exec (.pageRead port [hw]) s = .next (s.setReply port.port { status := .done, results := p.asRead h })) ∧
    (∀ (port : ReadPort) (l0 l1 : Word),
      (badLabel l0 l1 →
        exec (.pageRead port [l0, l1]) s = .next (s.setReply port.port { status := .badValue, results := [] })) ∧
      ∀ l : Label, labelCarried l0 l1 l →
        (s.noCurrent l →
          exec (.pageRead port [l0, l1]) s = .next (s.setReply port.port { status := .noPage, results := [] })) ∧
        ∀ (h : Fin 64) (p : Page), s.isCurrent l h → s.page h = some p →
          exec (.pageRead port [l0, l1]) s =
            .next (s.setReply port.port { status := .done, results := p.asRead h })) ∧
    (∀ (port : ReadPort) (n : Word),
      exec (.incidentRead port [n]) s =
        .next (s.setReply port.port
          { status := .done
            results := [word s.incidents.length, word s.lost, word ((s.incidents.drop n.toNat).take 8).length] ++
              ((s.incidents.drop n.toNat).take 8).flatMap Incident.asRead })) ∧
    (∀ hi lo : Word,
      exec (.resendList [hi, lo]) s =
        .next (s.setReply .feed
          { status := .done
            results := [word (s.resendView.length / 65536), word s.resendView.length, word s.freeCells] ++
              ((s.resendView.drop (hi ++ lo).toNat).take 64).flatMap fun x => x.1.asRead ++ [word x.2] })) ∧
    s.resendView = s.openOrder.flatMap (fun h =>
      match s.page h with
      | some p =>
        (match p.state with
          | .waiting => (List.range (p.expected.getD 0)).filter fun n => decide (∀ g ∈ p.held, g.number ≠ n)
          | .receiving => p.damaged
          | _ => []).map fun n => (p.label, n)
      | none => []) ∧
    ((∀ h, h ∈ s.openOrder ↔ (s.page h).isSome = true) →
      ∀ (l : Label) (n : Nat), (l, n) ∈ s.resendView ↔
        ∃ (h : Fin 64) (p : Page), s.page h = some p ∧ p.label = l ∧
          (p.state = .waiting ∧ n < p.expected.getD 0 ∧ (∀ g ∈ p.held, g.number ≠ n) ∨
            p.state = .receiving ∧ n ∈ p.damaged)) ∧
    (s.attention .feed = true ↔ s.resendView ≠ []) ∧
    exec (.clockRead []) s =
      .next (s.setReply .plan
        { status := .done, results := [s.clock.extractLsb' 16 16, s.clock.extractLsb' 0 16] }) ∧
    (∀ iw mw : Word, 127 < iw.toNat ∨ 1 < mw.toNat →
      exec (.plateRead [iw, mw]) s = .next (s.setReply .plan { status := .badValue, results := [] })) ∧
    (∀ (iw : Word) (i : Fin 128), iw.toNat = i.val →
      (s.plate i = none →
        exec (.plateRead [iw, 0]) s = .next (s.setReply .plan { status := .noPage, results := [] })) ∧
      (∀ r, s.plate i = some r →
        exec (.plateRead [iw, 0]) s =
          .next (s.setReply .plan { status := .done, results := s.plateAsRead i r })) ∧
      ((∀ k, i ≤ k → s.plate k = none) →
        exec (.plateRead [iw, 1]) s = .next (s.setReply .plan { status := .noPage, results := [] })) ∧
      ∀ (j : Fin 128) (r : Plate), i ≤ j → s.plate j = some r → (∀ k, i ≤ k → k < j → s.plate k = none) →
        exec (.plateRead [iw, 1]) s =
          .next (s.setReply .plan { status := .done, results := s.plateAsRead j r }))

/-! ## Segment intake -/

/-- A segment that passes every test of R31 is stored: its cells, ceil((16 + payload length) / 4,096), leave the free pool,
it is listed, its number leaves the damaged set, its SEGMENT BAD is resolved, and the one that completes a WAITING page sends
it to the index queue (R9, R24, R33). The cells of a list of segments are the sum of theirs. Its fields and bytes are those
that the words carry, and every frame of a fitting length carries some (R23, R193). The check passes, with L = 0, always;
with L from 1 to 32, where the low L bits of the check value are those of a register that starts with L ones and takes the
bits of the words before the check value and of the payload's bytes, the most significant first: each bit, combined with the
top bit, decides whether the register, shifted left, is combined with the low L bits of P (R29, R30). -/
def Obligations.SegmentIsStored : Prop :=
  (∀ (k : LinkProfile) (ws : List Word) (f : SegmentFrame), f.carriedIn ws →
    (k.length = 0 → checkPasses k f = true) ∧
    (1 ≤ k.length → k.length ≤ 32 →
      ∀ register : Nat → Nat → Bool, (∀ i, i < k.length → register 0 i = true) →
        (∀ n i, n < 8 * (12 + f.length) → i < k.length →
          register (n + 1) i =
            ((decide (0 < i) && register n (i - 1)) !=
              ((register n (k.length - 1) != ((ws.take 6 ++ ws.drop 8).getD (n / 16) 0).getLsbD (15 - n % 16)) &&
                k.poly.getLsbD i))) →
        (checkPasses k f = true ↔
          ∀ i, i < k.length → register (8 * (12 + f.length)) i = (ws.getD 6 0 ++ ws.getD 7 0).getLsbD i))) ∧
  (∀ gs : List Segment, cellsOf gs = (gs.map fun g => (16 + g.payload.length + 4095) / 4096).sum) ∧
  (∀ ws : List Word, (∃ f : SegmentFrame, f.carriedIn ws) ↔
    ws.length = 8 + ((ws.getD 3 0).toNat + 1) / 2) ∧
  ∀ (s : State) (ws : List Word) (f : SegmentFrame) (h : Fin 64) (p : Page) (kind : SegKind)
    (sp : Sys2Proof.Machine.Sep) (st : PageState) (k : Nat), s.resetAsserted = false → ws.length ≤ 8206 →
    f.carriedIn ws → f.handle = h.val → s.page h = some p → p.state = st →
    [SegKind.line, .patchHead, .patchData][f.kind]? = some kind → sepList[f.sep]? = some sp → ¬f.refusedFor p →
    (∀ g ∈ p.held, g.number ≠ f.number) → checkPasses s.link f = true → k = (16 + f.length + 4095) / 4096 →
    ((st = .receiving ∧ k + 2048 ≤ s.freeCells) ∨ (st = .waiting ∧ k ≤ s.freeCells)) →
    ∃ (t : State) (q : Page), exec (.segment ws) s = .next t ∧
      q = { p with
        held := insertSegment { number := f.number, kind, sep := sp, header := f.header, payload := f.payload } p.held
        damaged := p.damaged.filter fun n => n != f.number } ∧
      t.freeCells = s.freeCells - k ∧ (∀ k, k ≠ h → t.page k = s.page k) ∧
      ((st = .receiving ∨ q.lacking ≠ some 0) →
        t.page h = some q ∧ t.indexQueue = s.indexQueue ∧
        t.incidents = resolvedWhere (Incident.isBadSegment h f.number) s.incidents) ∧
      (st = .waiting ∧ q.lacking = some 0 →
        t.page h = some { q with state := .indexing, timer := none } ∧ t.indexQueue = s.indexQueue ++ [h] ∧
        t.incidents = resolvedWhere
          (fun i => i.isBadSegment h f.number || (i.kind == .pageIncomplete && i.handle == some h)) s.incidents) ∧
      (∃ r : Reply, t.replies = s.replies.set .feed (some r) ∧ r.status = .done ∧
        r.results = [word h.val, word f.number,
          if st = .waiting ∧ q.lacking = some 0 then 3 else if st = .receiving then 1 else 2,
          numberAsRead q.lacking, word (s.freeCells - k)]) ∧
      t = { s with
        pages := t.pages, freeCells := t.freeCells, indexQueue := t.indexQueue, incidents := t.incidents
        replies := t.replies }

/-- A segment that fails its check joins the damaged set, which holds its numbers in ascending order, each once (R35), and a
SEGMENT BAD is raised, or coalesced into the unresolved record of its page and number (R32, R169). It leaves no data in the
store: the held list, the free cells and every other entry stay as they are. -/
def Obligations.DamagedSegmentIsRecorded : Prop :=
  (∀ (n : Nat) (ns : List Nat), (∀ k, k ∈ insertNumber n ns ↔ k = n ∨ k ∈ ns) ∧
    (ns.Pairwise (· < ·) → (insertNumber n ns).Pairwise (· < ·)) ∧ (n ∈ ns → ns.Pairwise (· < ·) → insertNumber n ns = ns)) ∧
  (∀ (i : Incident) (h : Fin 64) (n : Nat), i.isBadSegment h n = true ↔
    i.kind = .segmentBad ∧ i.resolved = false ∧ i.handle = some h ∧ i.segment = some n) ∧
  ∀ (s : State) (ws : List Word) (f : SegmentFrame) (h : Fin 64) (p : Page) (sp : Sys2Proof.Machine.Sep),
    s.resetAsserted = false → ws.length ≤ 8206 → f.carriedIn ws → f.handle = h.val → s.page h = some p →
    p.state ≠ .superseded → sepList[f.sep]? = some sp → ¬f.refusedFor p → (∀ g ∈ p.held, g.number ≠ f.number) →
    checkPasses s.link f = false →
    ∃ t : State, exec (.segment ws) s = .next t ∧
      t.page h = some { p with damaged := insertNumber f.number p.damaged } ∧ (∀ k, k ≠ h → t.page k = s.page k) ∧
      ((∀ i ∈ s.incidents, i.isBadSegment h f.number = false) →
        s.recorded t
          { kind := .segmentBad, time := s.clock, label := some p.label, version := some p.version, handle := some h
            sep := some sp, segment := some f.number, disposition := .resendNeeded }) ∧
      ((∃ i ∈ s.incidents, i.isBadSegment h f.number = true) →
        t.lost = s.lost ∧ t.incidents = s.incidents.map fun i =>
          if i.isBadSegment h f.number then { i with repeats := min (i.repeats + 1) 255 } else i) ∧
      (∃ r : Reply, t.replies = s.replies.set .feed (some r) ∧ r.status = .checkFailed ∧
        r.results = [word h.val, word f.number, p.state.asRead, numberAsRead p.lacking, word s.freeCells]) ∧
      t = { s with pages := t.pages, incidents := t.incidents, lost := t.lost, replies := t.replies }

/-- A segment answered NO_PAGE, BAD_VALUE, DUPLICATE or FULL changes nothing, in the order of the tests: the handle, then the
number, kind, separation and length, then a number held, and, where the check passes, the free cells, those of the segment
being ceil((16 + payload length) / 4,096) (R24, R27, R31). -/
def Obligations.SegmentsTurnedAwayChangeNothing : Prop :=
  ∀ (s : State) (ws : List Word) (f : SegmentFrame), s.resetAsserted = false → ws.length ≤ 8206 →
    f.carriedIn ws →
    ((63 < f.handle ∨ ∃ h : Fin 64, h.val = f.handle ∧ (s.page h).map Page.state ∈ [none, some .superseded]) →
      exec (.segment ws) s = .next (s.setReply .feed { status := .noPage, results := [] })) ∧
    ∀ (h : Fin 64) (p : Page) (k : Nat), f.handle = h.val → s.page h = some p → p.state ≠ .superseded →
      k = (16 + f.length + 4095) / 4096 →
      (f.refusedFor p →
        exec (.segment ws) s = .next (s.setReply .feed { status := .badValue, results := [] })) ∧
      (¬f.refusedFor p → (∃ g ∈ p.held, g.number = f.number) →
        exec (.segment ws) s = .next (s.setReply .feed
          { status := .duplicate
            results := [word h.val, word f.number, p.state.asRead, numberAsRead p.lacking, word s.freeCells] })) ∧
      (¬f.refusedFor p → (∀ g ∈ p.held, g.number ≠ f.number) → checkPasses s.link f = true →
        (p.state = .receiving ∧ s.freeCells < k + 2048 ∨ p.state = .waiting ∧ s.freeCells < k) →
        exec (.segment ws) s = .next (s.setReply .feed
          { status := .full
            results := [word h.val, word f.number, p.state.asRead, numberAsRead p.lacking, word s.freeCells] }))

/-- A segment stored under a number is inserted at the place its number gives (R24). -/
def Obligations.HeldSegmentsStayInAscendingOrder : Prop :=
  ∀ (g : Segment) (gs : List Segment), gs.Pairwise (fun x y => x.number < y.number) →
    (∀ x ∈ gs, x.number ≠ g.number) →
    (insertSegment g gs).Pairwise (fun x y => x.number < y.number) ∧ ∀ x, x ∈ insertSegment g gs ↔ x = g ∨ x ∈ gs

/-- A resend-wait timer that has reached its wait expires: one PAGE INCOMPLETE is raised and the timer stops; the page
stays WAITING (R39). -/
def Obligations.ResendWaitExpiryRaisesPageIncomplete : Prop :=
  ∀ (s : State) (h : Fin 64) (p : Page) (x : ResendTimer) (n m : Nat), s.resetAsserted = false → s.page h = some p →
    p.state = .waiting → p.timer = some x → x.wait ≤ x.count → p.expected = some n → m < n →
    (∀ g ∈ p.held, g.number ≠ m) → (∀ k, k < m → ∃ g ∈ p.held, g.number = k) →
    ∃ t : State, exec (.resendWaitExpiry h) s = .next t ∧ t.page h = some { p with timer := none } ∧
      (∀ k, k ≠ h → t.page k = s.page k) ∧
      s.recorded t
        { kind := .pageIncomplete, time := s.clock, label := some p.label, version := some p.version, handle := some h
          segment := some m, disposition := .resendNeeded } ∧
      t = { s with pages := t.pages, incidents := t.incidents, lost := t.lost }

/-! ## Indexing and line work -/

/-- The row of a RUNS record: its runs alternate white and black from white, dots beyond their sum are white, and runs
beyond dot W − 1 are discarded (R50). -/
def Obligations.RunsAlternateWithinTheWidth : Prop :=
  ∀ (w : Nat) (vs : List Nat),
    (buildRow w false vs).length = w ∧
      (∀ k x, x < w → (vs.take k).sum ≤ x → x < (vs.take (k + 1)).sum →
        (buildRow w false vs)[x]? = some (decide (k % 2 = 1))) ∧
      ∀ x, x < w → vs.sum ≤ x → (buildRow w false vs)[x]? = some false

/-- The indexer takes the head of its queue; at completion the page receives its results and becomes COMPLETE or FAULTED
with its CONTENT FAULTs raised, and the next handle is taken at once (R10, R45, R59). Every separation of a page says some
text: the records of each LINE segment before its first defect, and the patches of its patch stream. Of a separation in the
set, indexing finds the text's content faults, counted to 65,535, with the first in walk order (R47 to R55); the patch
records of its first 32 heads not refused, with their clipped areas and locators (R54 to R57); the run-value and photo-dot
counts and the render weight (R50, R56, R58); and of the page, the clip count. The row of a first fault above 65,535 is a
free value (log entry 1), of which nothing is said. -/
def Obligations.IndexerTakesAndCompletesPages : Prop :=
  (∀ (p : Page) (sp : Sys2Proof.Machine.Sep), ∃ x : SepText, p.readsAs sp x) ∧
  ∀ s : State, s.resetAsserted = false →
    (∀ (h : Fin 64) (rest : List (Fin 64)), s.indexer = none → s.indexQueue = h :: rest →
      exec .indexerTake s = .next { s with indexer := some h, indexQueue := rest }) ∧
    ∀ (h : Fin 64) (p : Page) (text : Sys2Proof.Machine.Sep → SepText), s.indexer = some h → s.page h = some p →
      (∀ sp, p.readsAs sp (text sp)) →
      ∃ (t : State) (q : Page), exec .indexingCompletion s = .next t ∧ (∀ k, k ≠ h → t.page k = s.page k) ∧
        q = { p with results := q.results, clip := q.clip } ∧
        (∀ sp, p.seps.get sp = true → (text sp).foundAs p.width p.height (q.results.get sp)) ∧
        (∀ sp, p.seps.get sp = false → q.results.get sp = SepResult.opening) ∧
        q.clip = (p.seps.members.map fun sp => (text sp).clipped p.width p.height).sum ∧
        t.indexer = s.indexQueue.head? ∧ t.indexQueue = s.indexQueue.tail ∧
        ((∀ sp, q.seps.get sp = true → (q.results.get sp).tally.count = 0) →
          t.page h = some { q with state := .complete, completed := some s.clock } ∧ t.incidents = s.incidents ∧
          t.lost = s.lost) ∧
        ((∃ sp, q.seps.get sp = true ∧ 0 < (q.results.get sp).tally.count) →
          t.page h = some { q with state := .faulted, completed := some s.clock } ∧
          s.recordedAll t
            ((q.seps.members.filter fun sp => 0 < (q.results.get sp).tally.count).map fun sp =>
              { kind := .contentFault, time := s.clock, label := some q.label, version := some q.version
                handle := some h, sep := some sp, disposition := .held
                detail := (q.results.get sp).tally.first.map fun x =>
                  { count := (q.results.get sp).tally.count, kind := x.1, row := x.2 } })) ∧
        t = { s with
          pages := t.pages, indexer := t.indexer, indexQueue := t.indexQueue, incidents := t.incidents
          lost := t.lost }

/-! ## Screening -/

/-- The sample is converted through the knots with floor division, and the tone lies between the two knots (R67, R68). -/
def Obligations.ToneFollowsTheKnots : Prop :=
  ∀ (c : ScreenSet) (v k : Nat) (lo hi : Nat), (∀ x ∈ c.knots.toList, x ≤ 4095) → v < 256 → k = v / 16 →
    c.knots[k]? = some lo → c.knots[k + 1]? = some hi →
    (c.tone v : Int) = lo + (((hi : Int) - lo) * (v % 16 : Nat) + 8) / 16 ∧ min lo hi ≤ c.tone v ∧
      c.tone v ≤ max lo hi

/-- A tone below F becomes 0, a tone above G becomes 4,095, and a tone from F to G is unchanged; the two clamps never act
on the same tone; under a tile as stored, a clamped tone of 0 inks no dot and one of 4,095 inks every dot (R69). -/
def Obligations.EndClampsActOnTheirOwnTones : Prop :=
  ∀ (c : ScreenSet) (t : Nat), c.floorF ≤ 2047 → 2048 ≤ c.ceilG → c.ceilG ≤ 4095 → (∀ n ∈ c.tile, n ≤ 4094) →
    (t < c.floorF → c.clamp t = 0) ∧ (c.ceilG < t → c.clamp t = 4095) ∧
      (c.floorF ≤ t → t ≤ c.ceilG → c.clamp t = t) ∧ ¬(t < c.floorF ∧ c.ceilG < t) ∧
      ∀ v x y : Nat, (c.clamp (c.tone v) = 0 → c.inked v x y = false) ∧
        (c.clamp (c.tone v) = 4095 → c.inked v x y = true)

/-- KNOCKOUT sets each dot it covers to the dot's screened value; OVERPRINT adds ink and removes none; a dot outside is
not touched (R73, R74). -/
def Obligations.PatchesKnockOutOrOverprint : Prop :=
  ∀ (p : Page) (sp : Sys2Proof.Machine.Sep) (screens : Vector ScreenSlot 8) (mapped : Fin 8) (x y : Nat) (dot : Bool)
    (q : Patch),
    (q.head.covers x y = false → p.composite sp screens mapped x y dot q = dot) ∧
    (q.head.covers x y = true → q.head.mode = .knockout →
      p.composite sp screens mapped x y dot q = p.screened sp screens mapped q x y) ∧
    (q.head.covers x y = true → q.head.mode = .overprint →
      (p.composite sp screens mapped x y dot q = true ↔ dot = true ∨ p.screened sp screens mapped q x y = true))

/-- A dot depends only on the last KNOCKOUT patch covering it, or on the line work if none does, together with the
OVERPRINT patches that follow in the list (R75). -/
def Obligations.LastKnockoutDecidesTheDot : Prop :=
  ∀ (p : Page) (sp : Sys2Proof.Machine.Sep) (screens : Vector ScreenSlot 8) (mapped : Fin 8) (x y : Nat) (line : Bool),
    (∀ (before after : List Patch) (q : Patch), (p.results.get sp).patches = before ++ q :: after →
      q.head.covers x y = true → q.head.mode = .knockout →
      (∀ u ∈ after, u.head.covers x y = true → u.head.mode = .overprint) →
      (p.dot sp screens mapped x y line = true ↔
        p.screened sp screens mapped q x y = true ∨
          ∃ u ∈ after, u.head.covers x y = true ∧ p.screened sp screens mapped u x y = true)) ∧
    ((∀ u ∈ (p.results.get sp).patches, u.head.covers x y = true → u.head.mode = .overprint) →
      (p.dot sp screens mapped x y line = true ↔
        line = true ∨
          ∃ u ∈ (p.results.get sp).patches, u.head.covers x y = true ∧ p.screened sp screens mapped u x y = true))

/-! ## Settings and the plant clock -/

/-- LINK SET writes the link profile, and GENERAL SET the render unit, the mode and the exposure table; each reply carries
the settings as written. A LINK SET with L above 32 is refused BAD_VALUE, and so is a GENERAL SET with a render unit of 0 or
above 4,095, another mode, or an entry above 255; a refusal changes no setting (R28, R180, R187, R188). -/
def Obligations.LinkSetAndGeneralSetWriteTheirSettings : Prop :=
  ∀ s : State, s.resetAsserted = false →
    (∀ len hi lo : Word, len.toNat ≤ 32 →
      exec (.linkSet [len, hi, lo]) s =
        .next ({ s with link := { length := len.toNat, poly := hi ++ lo } }.setReply .plan
          { status := .done, results := [len, hi, lo] })) ∧
    (∀ len hi lo : Word, 32 < len.toNat →
      exec (.linkSet [len, hi, lo]) s = .next (s.setReply .plan { status := .badValue, results := [] })) ∧
    (∀ (unit mode : Word) (entries : List Word), entries.length = 16 →
      (unit = 0 ∨ 4095 < unit.toNat ∨ 2 < mode.toNat ∨ ∃ x ∈ entries, 255 < x.toNat) →
      exec (.generalSet ([unit, mode] ++ entries)) s =
        .next (s.setReply .plan { status := .badValue, results := [] })) ∧
    ∀ (unit : Nat) (mode : ArbMode) (table : Vector Nat 16), 1 ≤ unit → unit ≤ 4095 → (∀ x ∈ table.toList, x ≤ 255) →
      exec (.generalSet ([word unit, codeIn [ArbMode.fixed, .rotating, .leastFilled] mode] ++ table.toList.map word)) s =
        .next ({ s with renderUnit := unit, mode := mode, exposureTable := table }.setReply .plan
          { status := .done
            results := [word unit, codeIn [ArbMode.fixed, .rotating, .leastFilled] mode] ++ table.toList.map word })

/-- LINE SET writes every setting of a line at once, the stall limit taken as 1 to 1,000; an IDLE decoder takes the mark
settings into force at once and takes its seen level afresh where polarity, filter or tick differ; a decoder reading a
strip keeps its own (R146, R147, R186). Heads that the window as written makes overdue are removed within the request as
MISSING and settled in the order removed, each completing before the next (R114, R159, R160, R176 to R178). A line,
polarity, filter or verification word above 1, a row time of 0, a mark tick of 0 or above 255, a verify window above
600, or two windows that share a tick count refuse it BAD_VALUE, changing nothing (R145, R186). That the reply's words
are the settings in the request's order, without the line, is the model's (log entry 8), and so is that an entry freed
with its last record has its DEADLINE MISSED resolved (log entry 27). -/
def Obligations.LineSetWritesTheLine : Prop :=
  (∀ (s : State) (line ov row limit pol fil tick s0 s1 z0 z1 o0 o1 ver win : Word), s.resetAsserted = false →
    (1 < line.toNat ∨ row = 0 ∨ 1 < pol.toNat ∨ 1 < fil.toNat ∨ tick = 0 ∨ 255 < tick.toNat ∨ 1 < ver.toNat ∨
      600 < win.toNat ∨ ¬Window.apart ⟨s0.toNat, s1.toNat⟩ ⟨z0.toNat, z1.toNat⟩ ∨
      ¬Window.apart ⟨s0.toNat, s1.toNat⟩ ⟨o0.toNat, o1.toNat⟩ ∨
      ¬Window.apart ⟨z0.toNat, z1.toNat⟩ ⟨o0.toNat, o1.toNat⟩) →
    exec (.lineSet [line, ov, row, limit, pol, fil, tick, s0, s1, z0, z1, o0, o1, ver, win]) s =
      .next (s.setReply .plan { status := .badValue, results := [] })) ∧
  ∀ (s : State) (l : Line) (x y : LineSettings) (gone kept : List VerifyEntry), s.resetAsserted = false → x.acceptable →
    y = { x with stallLimit := min (max x.stallLimit 1) 1000 } →
    overdueSplit x.verifyWindow (s.queue l) gone kept →
    ∃ t : State, exec (.lineSet (codeIn [Line.a, .b] l :: x.asRead)) s = .next t ∧ t.settings = s.settings.set l y ∧
      t.decoder l.other = s.decoder l.other ∧ ((s.decoder l).strip ≠ none → t.decoder l = s.decoder l) ∧
      ((s.decoder l).strip = none → (t.decoder l).inForce = x.mark ∧ (t.decoder l).strip = none ∧
        (t.decoder l).count = (s.decoder l).count ∧
        ((s.decoder l).inForce.inverted = x.mark.inverted ∧ (s.decoder l).inForce.filter = x.mark.filter ∧
            (s.decoder l).inForce.tick = x.mark.tick →
          (t.decoder l).seen = (s.decoder l).seen ∧ (t.decoder l).filterCount = (s.decoder l).filterCount) ∧
        ((s.decoder l).inForce.inverted ≠ x.mark.inverted ∨ (s.decoder l).inForce.filter ≠ x.mark.filter ∨
            (s.decoder l).inForce.tick ≠ x.mark.tick →
          (t.decoder l).seen = none ∧ (t.decoder l).filterCount = 0)) ∧
      t.queue l = kept ∧ t.queue l.other = s.queue l.other ∧ s.overdueSettled t gone ∧
      t.replies = s.replies.set .plan (some { status := .done, results := y.asRead }) ∧
      t = { s with
        settings := t.settings, decoders := t.decoders, queues := t.queues, plates := t.plates, pages := t.pages
        freeCells := t.freeCells, openOrder := t.openOrder, indexQueue := t.indexQueue, indexer := t.indexer
        incidents := t.incidents, lost := t.lost, replies := t.replies }

/-- EDITION SET writes an entry's fields; a remake limit of 0 is taken as 8; the deadline-passed marker is kept where the
deadline is unchanged, cleared where it differs, and set where the deadline then already stands passed; where it expires
so, its DEADLINE MISSED incidents are made, and otherwise none (R90, R91, R94, R95). An edition above 15, a set above 7, a
remake limit above 8 or a resend wait above 3,600 refuses it BAD_VALUE, changing nothing (R90). That the reply's words are
the fields in the order of R89, without the edition number (log entry 8), and that a present deadline's presence word is 1
(log entry 28), is the model's. -/
def Obligations.EditionSetWritesTheEntry : Prop :=
  ∀ (s : State) (e : Fin 16) (pr hi lo lim wt : Word) (k c m y : Fin 8), s.resetAsserted = false →
    (lim.toNat ≤ 8 → wt.toNat ≤ 3600 →
      ∃ (t : State) (d : Option Seconds) (b : Bool),
        exec (.editionSet [word e.val, pr, hi, lo, word k.val, word c.val, word m.val, word y.val, lim, wt]) s =
          .next t ∧
        d = (if pr = 0 then none else some (hi ++ lo)) ∧
        b = ((decide (d = (s.editions[e]).deadline) && (s.editions[e]).passed) ||
          match d with
          | some x => decide (x.toNat ≤ s.clock.toNat)
          | none => false) ∧
        t.editions[e] =
          { deadline := d, sets := ⟨k, c, m, y⟩, remakeLimit := if lim.toNat = 0 then 8 else lim.toNat
            resendWait := wt.toNat, passed := b } ∧
        (∀ f, f ≠ e → t.editions[f] = s.editions[f]) ∧
        s.recordedAll t
          (if b = true ∧ ¬(d = (s.editions[e]).deadline ∧ (s.editions[e]).passed = true) then
            s.deadlinesMissed s.clock e else []) ∧
        (∃ r : Reply, t.replies = s.replies.set .plan (some r) ∧ r.status = .done ∧
          r.results = (t.editions[e]).asRead) ∧
        t = { s with editions := t.editions, incidents := t.incidents, lost := t.lost, replies := t.replies }) ∧
    ∀ en kw cw mw yw : Word,
      (15 < en.toNat ∨ 7 < kw.toNat ∨ 7 < cw.toNat ∨ 7 < mw.toNat ∨ 7 < yw.toNat ∨ 8 < lim.toNat ∨ 3600 < wt.toNat) →
      exec (.editionSet [en, pr, hi, lo, kw, cw, mw, yw, lim, wt]) s =
        .next (s.setReply .plan { status := .badValue, results := [] })

/-- SCREEN LOAD replaces the whole content of a set that is not in use, a threshold of 4,095 stored as 4,094, and is refused
IN_USE where a channel holds the set (R84, R85). A request of a fitting length that fails one of the checks 1 to 6 of R84 is
refused BAD_VALUE, whether or not the set is in use; a refusal changes nothing. -/
def Obligations.ScreenLoadReplacesAnUnusedSet : Prop :=
  (∀ (s : State) (ws : List Word), s.resetAsserted = false → screenRefused ws →
    exec (.screenLoad ws) s = .next (s.setReply .plan { status := .badValue, results := [] })) ∧
  ∀ (s : State) (i : Fin 8) (c : ScreenSet) (ws : List Word), s.resetAsserted = false → c.loadable →
    ws = [word i.val] ++ c.knots.toList.map word ++
      [word c.floorF, word c.ceilG, word c.side, word c.yoff, word c.xoff, word c.xshift] ++ c.tile.map word →
    ((s.screens[i]).inUse = 0 →
      exec (.screenLoad ws) s =
        .next ({ s with
            screens := s.screens.set i { content := { c with tile := c.tile.map fun t => min t 4094 }, inUse := 0 }
            }.setReply .plan { status := .done, results := [word i.val, word (c.tile.count 4095)] })) ∧
    (0 < (s.screens[i]).inUse →
      exec (.screenLoad ws) s = .next (s.setReply .plan { status := .inUse, results := [] }))

/-- CLOCK SET loads the clock and makes the deadline check against the new value: every present deadline at or below it
has its marker set, and each that expires raises its DEADLINE MISSED incidents, in ascending edition number (R93 to R95).
-/
def Obligations.ClockSetLoadsTheClock : Prop :=
  ∀ (s : State) (hi lo : Word), s.resetAsserted = false →
    ∃ t : State, exec (.clockSet [hi, lo]) s = .next t ∧ t.clock = hi ++ lo ∧
      (∀ e : Fin 16, t.editions[e] = { s.editions[e] with
        passed := (s.editions[e]).passed ||
          match (s.editions[e]).deadline with
          | some d => decide (d.toNat ≤ (hi ++ lo).toNat)
          | none => false }) ∧
      s.recordedAll t ((List.finRange 16).flatMap fun e =>
        if (s.editions[e]).reached (hi ++ lo) then s.deadlinesMissed (hi ++ lo) e else []) ∧
      t.replies = s.replies.set .plan (some { status := .done, results := [hi, lo] }) ∧
      t = { s with
        clock := t.clock, editions := t.editions, incidents := t.incidents, lost := t.lost, replies := t.replies }

/-- An advance of the plant clock: the clock rises by 1 and wraps, every running resend-wait timer counts and expires at
its wait with a PAGE INCOMPLETE, every deadline reached has its marker set and raises its DEADLINE MISSED incidents,
every entry of both verify queues ages by 1, holding at 65,535, and the heads then overdue are removed as MISSING and
settled in the order removed, each completing before the next (R38, R39, R92, R94, R95, R114, R157, R159, R160, R176 to
R178). The state m is the one before the removals. The order of the incidents among these three, among pages and between
the two lines is the model's (log entry 6), and so is that an entry freed with its last record has its DEADLINE MISSED
resolved (log entry 27). -/
def Obligations.ClockAdvanceDrivesTheTimers : Prop :=
  ∀ (s : State) (gone kept : Line → List VerifyEntry), s.resetAsserted = false →
    (∀ l, overdueSplit (s.lineSettings l).verifyWindow
      ((s.queue l).map fun e => { e with age := min (e.age + 1) 65535 }) (gone l) (kept l)) →
    ∃ m t : State, exec .clockAdvance s = .next t ∧ m.clock = s.clock + 1 ∧
      (∀ (h : Fin 64), m.page h = (s.page h).map fun p =>
        match p.timer with
        | some x =>
          if p.state = .waiting ∧ x.wait ≤ x.count + 1 then { p with timer := none }
          else { p with timer := some { x with count := x.count + 1 } }
        | none => p) ∧
      (∀ e : Fin 16, m.editions[e] = { s.editions[e] with
        passed := (s.editions[e]).passed ||
          match (s.editions[e]).deadline with
          | some d => decide (d.toNat ≤ (s.clock + 1).toNat)
          | none => false }) ∧
      (∀ l, m.queue l = kept l) ∧
      s.recordedAll m
        (handles.filterMap (fun h =>
            ((s.page h).filter fun p =>
              p.state == .waiting && p.timer.any fun x => decide (x.wait ≤ x.count + 1)).map fun p =>
              { kind := .pageIncomplete, time := s.clock + 1, label := some p.label, version := some p.version
                handle := some h
                segment := ((List.range (p.expected.getD 0)).filter fun n =>
                  decide (∀ g ∈ p.held, g.number ≠ n)).head?
                disposition := .resendNeeded }) ++
          (List.finRange 16).flatMap fun e =>
            if (s.editions[e]).reached (s.clock + 1) then s.deadlinesMissed (s.clock + 1) e else []) ∧
      m = { s with
        clock := m.clock, pages := m.pages, editions := m.editions, queues := m.queues, incidents := m.incidents
        lost := m.lost } ∧
      m.overdueSettled t (gone .a ++ gone .b) ∧
      t = { m with
        plates := t.plates, pages := t.pages, freeCells := t.freeCells, openOrder := t.openOrder
        indexQueue := t.indexQueue, indexer := t.indexer, incidents := t.incidents, lost := t.lost }

/-- The expiry of a deadline that the clock has reached sets its marker and raises one DEADLINE MISSED for each live record
of the edition, in ascending plate id (R94, R95). -/
def Obligations.DeadlineExpiryRaisesItsIncidents : Prop :=
  ∀ (s : State) (e : Fin 16) (d : Seconds), s.resetAsserted = false → (s.editions[e]).deadline = some d →
    (s.editions[e]).passed = false → d.toNat ≤ s.clock.toNat →
    ∃ t : State, exec (.deadlineExpiry e) s = .next t ∧
      t.editions = s.editions.set e { s.editions[e] with passed := true } ∧
      s.recordedAll t (s.deadlinesMissed s.clock e) ∧
      t = { s with editions := t.editions, incidents := t.incidents, lost := t.lost }

/-! ## The plate table and dispatch -/

/-- PLATE ORDER creates its records in the order K, C, M, Y on the lowest free ids, with consecutive arrival sequences:
waiting for their page where the label has no current entry, attached to the current entry where its set holds the
separation, and failed as ORDER MISMATCH and freed where it does not; the reply names the entry records were attached to,
or FFFF where none was; too few free records refuse it FULL (R100 to R102). A label out of range, an empty set and a line
choice above EITHER refuse it BAD_VALUE; a refusal creates no record and changes nothing (R100; that a page number above 255
is out of range is read from R191, log entry 17). -/
def Obligations.PlateOrderCreatesItsRecords : Prop :=
  (∀ (s : State) (l0 l1 sw n cw : Word), s.resetAsserted = false →
    (badLabel l0 l1 ∨ sw.toNat % 16 = 0 ∨ 2 < cw.toNat) →
    exec (.plateOrder [l0, l1, sw, n, cw]) s = .next (s.setReply .plan { status := .badValue, results := [] })) ∧
  (∀ x : Seps Bool, x.members = (if x.k then [.k] else []) ++ (if x.c then [.c] else []) ++
    (if x.m then [.m] else []) ++ if x.y then [.y] else []) ∧
  (∀ (s : State) (i : Fin 128), (i ∈ s.freePlateIds ↔ s.plate i = none) ∧ s.freePlateIds.Pairwise (· < ·)) ∧
  ∀ (s : State) (l0 l1 sw n cw : Word) (l : Label) (choice : LineChoice) (copies : Nat), s.resetAsserted = false →
    labelCarried l0 l1 l → [LineChoice.a, .b, .either][cw.toNat]? = some choice → copies = max 1 (min n.toNat 8) →
    (setCarried sw).members ≠ [] →
    (s.freePlateIds.length < (setCarried sw).members.length →
      exec (.plateOrder [l0, l1, sw, n, cw]) s = .next (s.setReply .plan { status := .full, results := [] })) ∧
    ((setCarried sw).members.length ≤ s.freePlateIds.length → s.noCurrent l →
      ∃ t : State, exec (.plateOrder [l0, l1, sw, n, cw]) s = .next t ∧
        (∀ (k : Nat) (sp : Sys2Proof.Machine.Sep) (i : Fin 128), (setCarried sw).members[k]? = some sp →
          s.freePlateIds[k]? = some i →
          t.plate i = some
            { label := l, page := none, sep := sp, choice := choice, copies := copies, toExpose := copies, exposing := 0
              awaiting := 0, verified := 0, failed := 0, withdrawn := 0, attempts := 0, step := 0, remake := false
              cancelled := false, obsolete := false, origin := .order, arrival := s.arrival + BitVec.ofNat 32 k
              lateRisk := false, channel := none }) ∧
        (∀ i, i ∉ s.freePlateIds.take (setCarried sw).members.length → t.plate i = s.plate i) ∧
        t.arrival = s.arrival + BitVec.ofNat 32 (setCarried sw).members.length ∧
        t.replies = s.replies.set .plan (some
          { status := .done
            results := [word copies, 0xFFFF] ++
              (s.freePlateIds.take (setCarried sw).members.length).flatMap fun i => [word i.val, 1] }) ∧
        t = { s with plates := t.plates, arrival := t.arrival, replies := t.replies }) ∧
    ∀ (h : Fin 64) (p : Page) (is : List Incident), (setCarried sw).members.length ≤ s.freePlateIds.length →
      s.isCurrent l h → s.page h = some p →
      is = ((setCarried sw).members.zip s.freePlateIds).filterMap (fun x =>
        if p.seps.get x.1 then none
        else some
          { kind := .orderMismatch, time := s.clock, label := some l, version := some p.version, handle := some h
            sep := some x.1, plate := some x.2, disposition := .noted }) →
      ∃ t : State, exec (.plateOrder [l0, l1, sw, n, cw]) s = .next t ∧
        (∀ (k : Nat) (sp : Sys2Proof.Machine.Sep) (i : Fin 128), (setCarried sw).members[k]? = some sp →
          s.freePlateIds[k]? = some i →
          t.plate i =
            if p.seps.get sp then some
              { label := l, page := some h, sep := sp, choice := choice, copies := copies, toExpose := copies
                exposing := 0, awaiting := 0, verified := 0, failed := 0, withdrawn := 0, attempts := 0, step := 0
                remake := false, cancelled := false, obsolete := false, origin := .order
                arrival := s.arrival + BitVec.ofNat 32 k, lateRisk := false, channel := none }
            else none) ∧
        (∀ i, i ∉ s.freePlateIds.take (setCarried sw).members.length → t.plate i = s.plate i) ∧
        t.page h = some { p with retention := p.retention + ((setCarried sw).members.filter p.seps.get).length } ∧
        (∀ k, k ≠ h → t.page k = s.page k) ∧ t.arrival = s.arrival + BitVec.ofNat 32 (setCarried sw).members.length ∧
        s.recordedAll t is ∧
        t.replies = s.replies.set .plan (some
          { status := .done
            results := [word copies,
                if ∃ sp ∈ (setCarried sw).members, p.seps.get sp = true then word h.val else 0xFFFF] ++
              ((setCarried sw).members.zip s.freePlateIds).flatMap fun x =>
                [word x.2.val, if p.seps.get x.1 then 0 else 2] }) ∧
        t = { s with
          plates := t.plates, pages := t.pages, arrival := t.arrival, incidents := t.incidents, lost := t.lost
          replies := t.replies }

/-- PLATE CANCEL by id withdraws the copies not yet exposing and frees a record with nothing left; by label it does so
to every live record of the label, and its reply counts the records, the copies withdrawn and the records freed; an
entry loses one retention for each record freed, and a SUPERSEDED one that loses its last is freed (R16 to R18, R103,
R104, R114). Where no live record is named it is refused NO_PAGE, and BAD_VALUE with an id above 127 or a label out of
range (a page number above 255 by log entry 17); a refusal changes nothing. That a freed entry's DEADLINE MISSED is
resolved is the model's (log entry 27). That the last word of the reply by id is 1 for a freed record and 0 otherwise is
the model's (log entry 29). -/
def Obligations.PlateCancelWithdrawsTheCopies : Prop :=
  ∀ s : State, s.resetAsserted = false →
    (∀ iw : Word, 127 < iw.toNat →
      exec (.plateCancel [iw]) s = .next (s.setReply .plan { status := .badValue, results := [] })) ∧
    (∀ l0 l1 : Word, badLabel l0 l1 →
      exec (.plateCancel [l0, l1]) s = .next (s.setReply .plan { status := .badValue, results := [] })) ∧
    (∀ (i : Fin 128) (r : Plate), s.plate i = some r → (r.channel ≠ none ∨ 0 < r.exposing ∨ 0 < r.awaiting) →
      exec (.plateCancel [word i.val]) s =
        .next ((s.setPlate i (some
            { r with toExpose := 0, withdrawn := r.withdrawn + r.toExpose, cancelled := true })).setReply .plan
          { status := .done, results := [word i.val, word r.toExpose, word r.exposing, word r.awaiting, 0] })) ∧
    (∀ (i : Fin 128) (r : Plate), s.plate i = some r → r.channel = none → r.exposing = 0 → r.awaiting = 0 →
      (r.page = none →
        exec (.plateCancel [word i.val]) s =
          .next ((s.setPlate i none).setReply .plan
            { status := .done, results := [word i.val, word r.toExpose, 0, 0, 1] })) ∧
      ∀ (h : Fin 64) (p : Page), r.page = some h → s.page h = some p →
        ∃ t : State, exec (.plateCancel [word i.val]) s = .next t ∧
          s.recordSettled t i { r with toExpose := 0, withdrawn := r.withdrawn + r.toExpose, cancelled := true } h p [] ∧
          t.replies = s.replies.set .plan (some
            { status := .done, results := [word i.val, word r.toExpose, 0, 0, 1] }) ∧
          t = { s with
            plates := t.plates, pages := t.pages, freeCells := t.freeCells, openOrder := t.openOrder
            indexQueue := t.indexQueue, indexer := t.indexer, incidents := t.incidents, lost := t.lost
            replies := t.replies }) ∧
    (∀ i : Fin 128, s.plate i = none →
      exec (.plateCancel [word i.val]) s = .next (s.setReply .plan { status := .noPage, results := [] })) ∧
    (∀ (l0 l1 : Word) (l : Label), labelCarried l0 l1 l → (∀ i r, s.plate i = some r → r.label ≠ l) →
      exec (.plateCancel [l0, l1]) s = .next (s.setReply .plan { status := .noPage, results := [] })) ∧
    ∀ (l0 l1 : Word) (l : Label) (ids gone : List (Fin 128)), labelCarried l0 l1 l →
      (∃ i r, s.plate i = some r ∧ r.label = l) →
      ids = plateIds.filter (fun i => (s.plate i).any fun r => r.label == l) →
      gone = ids.filter (fun i => (s.plate i).any fun r =>
        r.channel.isNone && r.exposing == 0 && r.awaiting == 0) →
      ∃ t : State, exec (.plateCancel [l0, l1]) s = .next t ∧
        (∀ i, t.plate i =
          if i ∈ gone then none
          else if i ∈ ids then (s.plate i).map fun r =>
            { r with toExpose := 0, withdrawn := r.withdrawn + r.toExpose, cancelled := true }
          else s.plate i) ∧
        (∀ h, t.page h = (s.page h).bind fun p =>
          if p.state = .superseded ∧ (gone.filter fun i => (s.plate i).any fun r => r.page == some h) ≠ [] ∧
              p.retention ≤ (gone.filter fun i => (s.plate i).any fun r => r.page == some h).length then none
          else some { p with
            retention := p.retention - (gone.filter fun i => (s.plate i).any fun r => r.page == some h).length }) ∧
        t.freeCells = s.freeCells + (handles.map fun h =>
          match s.page h, t.page h with
          | some p, none => cellsOf p.held
          | _, _ => 0).sum ∧
        t.openOrder = s.openOrder.filter (fun h => (s.page h).isNone || (t.page h).isSome) ∧
        t.incidents = resolvedWhere (fun x => x.handle.any fun h => (s.page h).isSome && (t.page h).isNone)
          s.incidents ∧
        ((∀ h, (s.page h).isSome = true → t.page h = none → h ∉ s.indexQueue ∧ s.indexer ≠ some h) →
          t.indexQueue = s.indexQueue ∧ t.indexer = s.indexer) ∧
        t.replies = s.replies.set .plan (some
          { status := .done
            results := [word ids.length, word (ids.map fun i => ((s.plate i).map Plate.toExpose).getD 0).sum,
              word gone.length] }) ∧
        t = { s with
          plates := t.plates, pages := t.pages, freeCells := t.freeCells, openOrder := t.openOrder
          indexQueue := t.indexQueue, indexer := t.indexer, incidents := t.incidents, replies := t.replies }

/-- The queue order is decided by the edition's deadline, the remake flag, the arrival sequence and the plate id in turn, and
is total (R105); a record is eligible for a line where it is WAITING, its entry is COMPLETE and its line choice allows the
line (R106); the dispatcher takes the first eligible record of the order (R108). ATTN-A and ATTN-B are asserted while the
channel is IDLE, the line is not held and a record is eligible for it (R185). -/
def Obligations.DispatcherTakesTheFirstEligibleRecord : Prop :=
  ∀ s : State,
    (∀ (i j : Fin 128) (r q : Plate), i ≠ j → (s.before i r j q = true ↔ s.before j q i r = false)) ∧
    (∀ (i j k : Fin 128) (r q u : Plate), s.before i r j q = true → s.before j q k u = true →
      s.before i r k u = true) ∧
    (∀ (i j : Fin 128) (r q : Plate) (d e : Option Seconds), d = (s.editionOf r.label).deadline →
      e = (s.editionOf q.label).deadline →
      (s.before i r j q = true ↔
        (match d, e with
          | some x, some y => x.toNat < y.toNat
          | some _, none => True
          | none, _ => False) ∨
        d = e ∧
          (r.remake = true ∧ q.remake = false ∨
            r.remake = q.remake ∧ (r.arrival.toNat < q.arrival.toNat ∨ r.arrival = q.arrival ∧ i < j)))) ∧
    (∀ (r : Plate) (l : Line), s.eligible r l = true ↔
      (r.channel = none ∧ 0 < r.toExpose) ∧ (r.choice = .either ∨ r.choice = .a ∧ l = .a ∨ r.choice = .b ∧ l = .b) ∧
        ∃ (h : Fin 64) (p : Page), r.page = some h ∧ s.page h = some p ∧ p.state = .complete) ∧
    ∀ l : Line,
      (s.firstEligible l = none ↔ ∀ i r, s.plate i = some r → s.eligible r l = false) ∧
      (∀ i, s.firstEligible l = some i → ∃ r, s.plate i = some r ∧ s.eligible r l = true ∧
        ∀ j q, s.plate j = some q → s.eligible q l = true → j ≠ i → s.before i r j q = true) ∧
      (s.resetAsserted = false →
        (s.attention l.imagePort = true ↔
          (s.channel l).exposure = none ∧ (s.channel l).held = false ∧
            ∃ i r, s.plate i = some r ∧ s.eligible r l = true))

/-- LINE HOLD sets a line's held flag and LINE RELEASE clears it, in every state of the channel, which the reply carries with
the flag; a line word above 1 is refused BAD_VALUE, changing nothing (R107). -/
def Obligations.LineHoldAndReleaseMoveTheHeldFlag : Prop :=
  ∀ s : State, s.resetAsserted = false →
    (∀ w : Word, 1 < w.toNat →
      exec (.lineHold [w]) s = .next (s.setReply .plan { status := .badValue, results := [] }) ∧
      exec (.lineRelease [w]) s = .next (s.setReply .plan { status := .badValue, results := [] })) ∧
    ∀ l : Line,
      exec (.lineHold [codeIn [Line.a, .b] l]) s =
        .next ((s.setChannel l { s.channel l with held := true }).setReply .plan
          { status := .done, results := [1, (s.channel l).stateAsRead] }) ∧
      exec (.lineRelease [codeIn [Line.a, .b] l]) s =
        .next ((s.setChannel l { s.channel l with held := false }).setReply .plan
          { status := .done, results := [0, (s.channel l).stateAsRead] })

/-- PLATE REQUEST on an IDLE channel that is not held hands it the first eligible record: one copy begins exposing, a
serial is issued, level and mark code are fixed, the edition's mapping and the group are taken in use, and a projected
finish later than the deadline raises LATE RISK once (R109 to R112, R127, R128, R86). The level is the entry step × 2 of
the exposure table for K and the one after it for the other separations (R128, R180). The group is the mapped set of the
separation and the overrides of its patches, each once (R86). The serial is the first candidate from the counter on that
no live copy carries, and the counter then stands at the value after it, 65,535 followed by 1 (R110). A slot that is
RENDERING stays, and every other is FREE (R119, R139). The context stands at the lowest LINE segment, before its first
record (R121); that of a separation with no LINE segment it holds no segment and the offset 2 is the model's (log entry
26). The reply is the plate header, 14 words (R128, R194). On a channel that is not IDLE it is refused STATE, and on an
IDLE one NOT_READY where the line is held or no record is eligible (R107, R108, R127); neither changes anything but the
reply. -/
def Obligations.PlateRequestLoadsTheFirstEligibleRecord : Prop :=
  (∀ (s : State) (r : Plate) (v : Nat),
    s.exposureTable.toList[r.step * 2 + if r.sep = .k then 0 else 1]? = some v → s.levelOf r = v) ∧
  (∀ (mapping : Seps (Fin 8)) (r : Plate) (p : Page), (setGroup mapping r p).Nodup ∧
    ∀ k, k ∈ setGroup mapping r p ↔
      k = mapping.get r.sep ∨ ∃ q ∈ (p.results.get r.sep).patches, q.head.override_ = some k) ∧
  (∀ s : State, 1 ≤ s.serialNext → s.serialNext ≤ 65535 → (∀ l, (s.queue l).length ≤ 16) → s.issues s.nextSerial) ∧
  (∀ n, n ≤ 65535 → serialAfter n = if n = 65535 then 1 else n + 1) ∧
  (∀ x : Slot, x.emptied =
    match x with
    | .rendering b => .rendering b
    | _ => .free) ∧
  (∀ (p : Page) (sp : Sys2Proof.Machine.Sep), RenderContext.start p sp =
    { segment := ((p.held.filter fun g => g.kind == .line && g.sep == sp).head?).map Segment.number, offset := 2
      rowsLeft := 0, carry := List.replicate p.width false, rowCount := 0
      patchCursors := (p.results.get sp).patches.map fun _ => 0 }) ∧
  (∀ (s : State) (l : Line), s.resetAsserted = false →
    ((s.channel l).exposure ≠ none →
      exec (.plateRequest l []) s = .next (s.setReply l.imagePort { status := .state, results := [] })) ∧
    ((s.channel l).exposure = none →
      ((s.channel l).held = true ∨ ∀ i r, s.plate i = some r → s.eligible r l = false) →
      exec (.plateRequest l []) s = .next (s.setReply l.imagePort { status := .notReady, results := [] }))) ∧
  ∀ (s : State) (l : Line) (i : Fin 128) (r : Plate) (h : Fin 64) (p : Page) (late : Bool) (finish : Nat)
    (group : List (Fin 8)) (copy : Copy), s.resetAsserted = false → (s.channel l).exposure = none →
    (s.channel l).held = false → s.firstEligible l = some i → s.plate i = some r → r.page = some h → s.page h = some p →
    finish = s.clock.toNat + (((s.lineSettings l).overhead +
      (max (p.height * (s.lineSettings l).rowTime) ((p.results.get r.sep).weight * s.renderUnit) + 999) / 1000) *
        r.toExpose + 999) / 1000 →
    late = (match (s.editionOf r.label).deadline with
      | some d => !r.lateRisk && decide (d.toNat < finish)
      | none => false) →
    group = setGroup (s.editionOf r.label).sets r p →
    copy =
      { serial := s.nextSerial, index := 0, level := s.levelOf r
        markCode := MarkIdentity.code { serial := s.nextSerial, label := r.label, sep := r.sep, index := 0 } } →
    ∃ t : State, exec (.plateRequest l []) s = .next t ∧
      t.plate i = some { r with
        toExpose := r.toExpose - 1, exposing := r.exposing + 1, channel := some l, lateRisk := r.lateRisk || late } ∧
      (∀ j, j ≠ i → t.plate j = s.plate j) ∧
      (t.channel l).exposure = some
        { phase := .loaded, plate := i, mapping := (s.editionOf r.label).sets, group := group, copy := copy } ∧
      (t.channel l).rowsDelivered = 0 ∧ (t.channel l).nextBand = 0 ∧ (t.channel l).underrun = false ∧
      (t.channel l).stall = none ∧ (t.channel l).held = false ∧
      (t.channel l).ring = (s.channel l).ring.map Slot.emptied ∧
      (t.channel l).context = RenderContext.start p r.sep ∧ t.channel l.other = s.channel l.other ∧
      t.serialNext = serialAfter s.nextSerial ∧
      (∀ k : Fin 8, (t.screens[k]).content = (s.screens[k]).content ∧
        (t.screens[k]).inUse = (s.screens[k]).inUse + (if k ∈ group then 1 else 0)) ∧
      (late = false → t.incidents = s.incidents ∧ t.lost = s.lost) ∧
      (late = true → s.recorded t
        { kind := .lateRisk, time := s.clock, label := some r.label, version := some p.version, handle := some h
          sep := some r.sep, plate := some i, serial := some s.nextSerial, copyIndex := some 0
          attempts := some r.attempts, disposition := .noted }) ∧
      t.replies = s.replies.set l.imagePort (some { status := .done, results := copy.header i r p }) ∧
      t = { s with
        plates := t.plates, channels := t.channels, serialNext := t.serialNext, screens := t.screens
        incidents := t.incidents, lost := t.lost, replies := t.replies }

/-! ## Imaging channels and the render engine -/

/-- PLATE START moves a LOADED channel to RUNNING and changes nothing else; in IDLE, RUNNING and FINISHING it is refused
STATE (R129). -/
def Obligations.PlateStartRunsALoadedChannel : Prop :=
  ∀ (s : State) (l : Line), s.resetAsserted = false →
    (∀ e, (s.channel l).exposure = some e → e.phase = .loaded →
      exec (.plateStart l []) s =
        .next ((s.setChannel l { s.channel l with exposure := some { e with phase := .running } }).setReply l.imagePort
          { status := .done, results := [] })) ∧
    ((∀ e, (s.channel l).exposure = some e → e.phase ≠ .loaded) →
      exec (.plateStart l []) s = .next (s.setReply l.imagePort { status := .state, results := [] }))

/-- ROWS READ in RUNNING: rows of the current read band and the FILLED bands after it are delivered and the stall timer
stops; with none available it is answered NOT_READY and starts the timer if it is stopped; after underrun white rows are
delivered at once; the delivery of row H − 1 makes the channel FINISHING (R130, R131, R133, R195). A row stands ready where
the slot of its band, band mod 4, is FILLED with that band, and a FILLED slot becomes FREE once its band's last row is
delivered (R119, R130). Each row takes a sixteenth of its dots in words, dot x at bit 15 − x mod 16 of word x / 16 (R195). A
count outside 1 to 8 is refused BAD_VALUE whatever the channel's state, and one of 1 to 8 STATE in any state but RUNNING;
neither changes anything but the reply (R130). -/
def Obligations.RowsReadDeliversRows : Prop :=
  (∀ (s : State) (l : Line) (nw : Word), s.resetAsserted = false →
    (nw.toNat < 1 ∨ 8 < nw.toNat →
      exec (.rowsRead l [nw]) s = .next (s.setReply l.imagePort { status := .badValue, results := [] })) ∧
    (1 ≤ nw.toNat → nw.toNat ≤ 8 → (∀ e, (s.channel l).exposure = some e → e.phase ≠ .running) →
      exec (.rowsRead l [nw]) s = .next (s.setReply l.imagePort { status := .state, results := [] }))) ∧
  (∀ (c : Channel) (y : Nat) (row : Row), c.rowAt y = some row ↔
    ∃ rows, c.ring[y / 256 % 4]? = some (.filled (y / 256) rows) ∧ rows[y % 256]? = some row) ∧
  (∀ (y : Nat) (x : Slot), x.readTo y =
    match x with
    | .filled b rows => if 256 * b + rows.length ≤ y then .free else .filled b rows
    | _ => x) ∧
  (∀ row : Row, row.length % 16 = 0 → (rowWords row).length = row.length / 16 ∧
    ∀ (x : Nat) (dot : Bool), row[x]? = some dot →
      ((rowWords row)[x / 16]?).map (fun w => w.getLsbD (15 - x % 16)) = some dot) ∧
  ∀ (s : State) (l : Line) (e : Exposure) (r : Plate) (h : Fin 64) (p : Page) (n m : Nat) (rows : List Row) (c : Channel),
    s.resetAsserted = false → s.exposes l e r h p → e.phase = .running → 1 ≤ n → n ≤ 8 → c = s.channel l →
    m = rows.length →
    (∀ k, k < m → c.rowAt (c.rowsDelivered + k) = rows[k]?) →
    (m < n → c.rowAt (c.rowsDelivered + m) = none) → m ≤ n →
    (c.underrun = false → 0 < m →
      exec (.rowsRead l [word n]) s =
        .next ((s.setChannel l { c with
            rowsDelivered := c.rowsDelivered + m, stall := none, ring := c.ring.map (Slot.readTo (c.rowsDelivered + m))
            exposure := some { e with phase := if p.height ≤ c.rowsDelivered + m then .finishing else .running }
            }).setReply l.imagePort
          { status := .done
            results := [word c.rowsDelivered, word m, 0] ++ rows.flatMap rowWords })) ∧
    (c.underrun = false → m = 0 →
      exec (.rowsRead l [word n]) s =
        .next ((s.setChannel l { c with
            stall := some (c.stall.getD { elapsed := 0, limit := (s.lineSettings l).stallLimit }) }).setReply
          l.imagePort { status := .notReady, results := [] })) ∧
    (c.underrun = true → ∀ w, w = min n (p.height - c.rowsDelivered) →
      exec (.rowsRead l [word n]) s =
        .next ((s.setChannel l { c with
            rowsDelivered := c.rowsDelivered + w, stall := none, ring := c.ring.map (Slot.readTo (c.rowsDelivered + w))
            exposure := some { e with phase := if p.height ≤ c.rowsDelivered + w then .finishing else .running }
            }).setReply l.imagePort
          { status := .done
            results := [word c.rowsDelivered, word w, 1] ++
              (List.replicate w (List.replicate p.width false)).flatMap rowWords }))

/-- The expiry of a running stall timer sets the underrun flag, stops the timer, frees every FILLED slot and discards the
channel's task in flight; the copy, the rows delivered and every other part of the controller are unchanged (R125, R132).
The render context a discarded task leaves is a free value (log entry 2), of which nothing is said. That
STALL_TIMER_EXPIRY is the expiry whatever the count stands at, and that a step with no command waiting is a millisecond,
in which each running timer counts and one that reaches its limit expires (R131, R132), is the model's (log entry 7). -/
def Obligations.StallTimerExpiryUnderruns : Prop :=
  (∀ (s : State) (l : Line) (x : StallTimer), s.resetAsserted = false → (s.channel l).stall = some x →
    ∃ t : State, exec (.stallTimerExpiry l) s = .next t ∧ s.underran t l ∧
      t.channel l.other = s.channel l.other ∧
      t.engine = s.tasksDiscarded l ∧
      t = { s with channels := t.channels, engine := t.engine, freeCount := t.freeCount }) ∧
  ∀ s : State, s.pending = [] →
    (s.resetAsserted = true → step s = .next s) ∧
    (s.resetAsserted = false → ∃ t : State, step s = .next t ∧
      (∀ l, (s.channel l).stall = none → t.channel l = s.channel l) ∧
      (∀ l x, (s.channel l).stall = some x → x.elapsed + 1 < x.limit →
        t.channel l = { s.channel l with stall := some { x with elapsed := x.elapsed + 1 } }) ∧
      (∀ l x, (s.channel l).stall = some x → x.limit ≤ x.elapsed + 1 → s.underran t l) ∧
      t.engine = s.engine.map (fun k =>
        if (s.channel k.line).stall.any (fun x => decide (x.limit ≤ x.elapsed + 1)) then { k with discarded := true }
        else k) ∧
      t = { s with channels := t.channels, engine := t.engine, freeCount := t.freeCount })

/-- PLATE END of a good exposure: the copy is verified at once with verification off, or withdrawn for an obsolete
record, and with verification on it joins the tail of the verify queue; a queue of 16 entries first expels its head as
MISSING, and the heads then overdue, settled in turn, and all that follows is as the records then stand (b; R15, R136,
R157, R159, R160). A copy ended in LOADED or RUNNING is damaged as SHORT EXPOSURE, one in underrun as UNDERRUN, and one
with result EXPOSE FAULT as EXPOSE FAULT, with a remake, after an EXPOSE FAULT with the exposure step raised, failed at
the remake limit, or noted (R135, R137, R176 to R178). With copies then to expose of a record neither cancelled nor
obsolete, and a copy index below 7, the channel reloads, and the reply carries the next copy's header; otherwise it
returns to IDLE, and a record with nothing left is freed (R114, R138, R139, R194). A result above 1 is refused BAD_VALUE
whatever the state, and a valid one STATE in IDLE, changing nothing (R135). That the entry freed with it has its
DEADLINE MISSED resolved (log entry 27), the values of what the return to IDLE clears (log entry 30), and where the
context of a reload stands over a separation with no LINE segment (log entry 26), is the model's. -/
def Obligations.PlateEndSettlesTheCopy : Prop :=
  (∀ (s : State) (l : Line) (w : Word), s.resetAsserted = false →
    (1 < w.toNat →
      exec (.plateEnd l [w]) s = .next (s.setReply l.imagePort { status := .badValue, results := [] })) ∧
    (w.toNat ≤ 1 → (s.channel l).exposure = none →
      exec (.plateEnd l [w]) s = .next (s.setReply l.imagePort { status := .state, results := [] }))) ∧
  ∀ (s b : State) (l : Line) (e : Exposure) (r : Plate) (h : Fin 64) (p : Page), s.resetAsserted = false →
    (b = s ∨ s.madeRoom b l e) → b.exposes l e r h p → r.channel = some l → r.exposing = 1 → e.group.Nodup →
    (∀ (fault : Word) (q : Plate) (words : List Word) (is : List Incident) (added : List VerifyEntry),
      (b = s ∨ fault = 0) → b.endedAs l e r h p fault q words is added →
      (∀ (n : Nat) (copy : Copy), 0 < q.toExpose → r.cancelled = false → r.obsolete = false → e.copy.index < 7 →
        n = ((b.setChannel l { b.channel l with exposure := none }).setQueue l (b.queue l ++ added)).nextSerial →
        copy =
          { serial := n, index := e.copy.index + 1, level := b.levelOf q
            markCode := MarkIdentity.code { serial := n, label := r.label, sep := r.sep, index := e.copy.index + 1 } } →
        ∃ t : State, exec (.plateEnd l [fault]) s = .next t ∧
          t.plate e.plate = some { q with toExpose := q.toExpose - 1, exposing := 1 } ∧
          (∀ j, j ≠ e.plate → t.plate j = b.plate j) ∧ t.queue l = b.queue l ++ added ∧
          t.queue l.other = b.queue l.other ∧
          t.channel l = { b.channel l with
            exposure := some { e with phase := .loaded, copy := copy }, underrun := false, rowsDelivered := 0
            nextBand := 0, stall := none, ring := (b.channel l).ring.map Slot.emptied
            context := RenderContext.start p r.sep } ∧
          t.channel l.other = b.channel l.other ∧ t.engine = b.tasksDiscarded l ∧ t.serialNext = serialAfter n ∧
          b.recordedAll t is ∧
          t.replies = b.replies.set l.imagePort (some
            { status := .done
              results := [word e.copy.serial, word e.copy.index] ++ words ++ [1, 1] ++ copy.header e.plate r p }) ∧
          t = { b with
            channels := t.channels, engine := t.engine, plates := t.plates, queues := t.queues
            serialNext := t.serialNext, incidents := t.incidents, lost := t.lost, replies := t.replies }) ∧
      ((q.toExpose = 0 ∨ r.cancelled = true ∨ r.obsolete = true ∨ 7 ≤ e.copy.index) →
        ∃ t : State, exec (.plateEnd l [fault]) s = .next t ∧ t.channel l = (b.channel l).leftIdle ∧
          t.channel l.other = b.channel l.other ∧ b.groupReleased t e.group ∧ t.engine = b.tasksDiscarded l ∧
          t.queue l = b.queue l ++ added ∧ t.queue l.other = b.queue l.other ∧
          b.recordSettled t e.plate { q with channel := none } h p is ∧
          t.replies = b.replies.set l.imagePort (some
            { status := .done, results := [word e.copy.serial, word e.copy.index] ++ words ++ [0, 0] }) ∧
          t = { b with
            channels := t.channels, engine := t.engine, screens := t.screens, plates := t.plates, queues := t.queues
            pages := t.pages, freeCells := t.freeCells, openOrder := t.openOrder, indexQueue := t.indexQueue
            indexer := t.indexer, incidents := t.incidents, lost := t.lost, replies := t.replies })) ∧
    ∀ (f : VerifyEntry) (rest : List VerifyEntry) (u : Plate), b = s → e.phase = .finishing →
      (s.channel l).underrun = false → (s.lineSettings l).verification = true →
      (r.toExpose = 0 ∨ r.cancelled = true ∨ r.obsolete = true ∨ 7 ≤ e.copy.index) →
      s.queue l = f :: rest → rest.length = 15 →
      (∀ g ∈ rest.head?, (s.lineSettings l).verifyWindow = 0 ∨ g.age ≤ (s.lineSettings l).verifyWindow) →
      f.plate ≠ e.plate → s.plate f.plate = some u → 0 < u.awaiting → u.obsolete = false → u.cancelled = false →
      u.attempts < (s.editionOf u.label).remakeLimit →
      ∃ t : State, exec (.plateEnd l [0]) s = .next t ∧ t.channel l = (s.channel l).leftIdle ∧
        t.channel l.other = s.channel l.other ∧ s.groupReleased t e.group ∧
        t.plate e.plate = some { r with exposing := 0, awaiting := r.awaiting + 1, channel := none } ∧
        t.plate f.plate = some { u with
          awaiting := u.awaiting - 1, failed := u.failed + 1, attempts := u.attempts + 1, toExpose := u.toExpose + 1
          remake := true } ∧
        (∀ j, j ≠ e.plate → j ≠ f.plate → t.plate j = s.plate j) ∧
        t.queue l = rest ++ [e.entry r p] ∧
        t.queue l.other = s.queue l.other ∧ t.engine = s.tasksDiscarded l ∧
        s.recorded t
          { kind := .missing, time := s.clock, label := some f.label, version := some f.version, handle := u.page
            sep := some f.sep, plate := some f.plate, serial := some f.serial, copyIndex := some f.copyIndex
            attempts := some (u.attempts + 1), disposition := .remakeQueued } ∧
        t.replies = s.replies.set l.imagePort (some
          { status := .done
            results := [word e.copy.serial, word e.copy.index, 0, 0xFFFF, 0xFFFF, 0, 0] }) ∧
        t = { s with
          channels := t.channels, engine := t.engine, screens := t.screens, plates := t.plates, queues := t.queues
          incidents := t.incidents, lost := t.lost, replies := t.replies }

/-- LINE ABORT returns a LOADED copy to to_expose, or to withdrawn for a cancelled or obsolete record, and damages a RUNNING
or FINISHING copy as ABORTED: noted, remade, or failed at the remake limit. The channel returns to IDLE, and a record with
nothing left is freed. In IDLE it is refused STATE (R15, R104, R114, R139, R140, R176 to R178). That the entry freed with its
last record has its DEADLINE MISSED resolved (log entry 27), and the values of what the return to IDLE clears (log entry
30), is the model's. -/
def Obligations.LineAbortGivesUpTheCopy : Prop :=
  ∀ (s : State) (l : Line), s.resetAsserted = false →
    ((s.channel l).exposure = none →
      exec (.lineAbort l []) s = .next (s.setReply l.imagePort { status := .state, results := [] })) ∧
    ∀ (e : Exposure) (r q : Plate) (h : Fin 64) (p : Page) (code disposition : Word) (d : Option Disposition),
      s.exposes l e r h p → r.channel = some l → r.exposing = 1 → e.group.Nodup →
      r.givenUpAs q e.phase (s.editionOf r.label).remakeLimit code disposition d →
      ∃ t : State, exec (.lineAbort l []) s = .next t ∧ t.channel l = (s.channel l).leftIdle ∧
        t.channel l.other = s.channel l.other ∧ s.groupReleased t e.group ∧
        s.recordSettled t e.plate q h p (d.toList.map (s.abortedAs e r q h p)) ∧ t.engine = s.tasksDiscarded l ∧
        t.replies = s.replies.set l.imagePort (some
          { status := .done, results := [word e.copy.serial, word e.copy.index, code, disposition] }) ∧
        t = { s with
          channels := t.channels, engine := t.engine, screens := t.screens, plates := t.plates, pages := t.pages
          freeCells := t.freeCells, openOrder := t.openOrder, indexQueue := t.indexQueue, indexer := t.indexer
          incidents := t.incidents, lost := t.lost, replies := t.replies }

/-- LINE RESET clears the held flag and returns the line's decoder to IDLE under the settings as written, discarding any
strip being read; an IDLE channel is otherwise left as it is, and a copy in exposure is given up as LINE ABORT gives it up,
in every phase and for every outcome (R15, R104, R114, R139 to R141, R162, R176 to R178). A line word above 1 is refused
BAD_VALUE, changing nothing (R141). The copy words of the reply from
IDLE are the model's (log entry 8), and so are that the entry freed with its last record has its DEADLINE MISSED resolved
(log entry 27) and the values of what the return to IDLE clears (log entry 30). -/
def Obligations.LineResetIdlesTheLine : Prop :=
  (∀ (s : State) (w : Word), s.resetAsserted = false → 1 < w.toNat →
    exec (.lineReset [w]) s = .next (s.setReply .plan { status := .badValue, results := [] })) ∧
  ∀ (s : State) (l : Line) (d : Decoder), s.resetAsserted = false →
    d = { s.decoder l with
      strip := none, inForce := (s.lineSettings l).mark, seen := none, filterCount := 0 } →
    ((s.channel l).exposure = none →
      exec (.lineReset [codeIn [Line.a, .b] l]) s =
        .next (((s.setChannel l { s.channel l with held := false }).setDecoder l d).setReply .plan
          { status := .done, results := [0, 0, 0xFFFF, 0xFFFF, 0xFFFF, 0] })) ∧
    ∀ (e : Exposure) (r q : Plate) (h : Fin 64) (p : Page) (state code disposition : Word) (x : Option Disposition),
      s.exposes l e r h p → r.channel = some l → r.exposing = 1 → e.group.Nodup →
      (e.phase = .loaded ∧ state = 1 ∨ e.phase = .running ∧ state = 2 ∨ e.phase = .finishing ∧ state = 3) →
      r.givenUpAs q e.phase (s.editionOf r.label).remakeLimit code disposition x →
      ∃ t : State, exec (.lineReset [codeIn [Line.a, .b] l]) s = .next t ∧
        t.channel l = { (s.channel l).leftIdle with held := false } ∧ t.channel l.other = s.channel l.other ∧
        t.decoder l = d ∧ t.decoder l.other = s.decoder l.other ∧ s.groupReleased t e.group ∧
        s.recordSettled t e.plate q h p (x.toList.map (s.abortedAs e r q h p)) ∧ t.engine = s.tasksDiscarded l ∧
        t.replies = s.replies.set .plan (some
          { status := .done, results := [state, word e.copy.serial, word e.copy.index, code, disposition, 0] }) ∧
        t = { s with
          channels := t.channels, decoders := t.decoders, engine := t.engine, screens := t.screens
          plates := t.plates, pages := t.pages, freeCells := t.freeCells, openOrder := t.openOrder
          indexQueue := t.indexQueue, indexer := t.indexer, incidents := t.incidents, lost := t.lost
          replies := t.replies }

/-- The arbiter gives the idle engine to the one channel with a request pending, or to the one its mode prefers: that
channel's slot becomes RENDERING, its next band rises by 1, and the marker names it; with no request nothing changes. A
request is pending while the channel is LOADED or RUNNING, its underrun flag is clear, its next band is below ceil(H / 256),
and the slot of that band, band mod 4, is FREE; LEAST-FILLED counts the FILLED slots (R122, R123). -/
def Obligations.ArbiterGivesTheEngineByItsMode : Prop :=
  ∀ s : State, s.resetAsserted = false → s.engine = none →
    (∀ (l : Line) (c : Channel), s.arbiterPicks l → c = s.channel l →
      exec .renderArbiterChoice s =
        .next { (s.setChannel l { c with
            ring := c.ring.set (c.nextBand % 4) (.rendering c.nextBand), nextBand := c.nextBand + 1 }) with
          engine := some { line := l, band := c.nextBand, discarded := false }, lastChosen := l }) ∧
    ((s.requests .a ∨ s.requests .b) → ∃ l, s.arbiterPicks l) ∧
    (¬s.requests .a → ¬s.requests .b → exec .renderArbiterChoice s = .next s)

/-- A render task that completes puts its band's rows, each of W dots, into its slot and leaves the engine idle; a
discarded task leaves its slot FREE and no rows (R124, R125, R61). From a context that stands at the band's first row,
as a loaded copy's stands at row 0, each dot is the patches' composite over the line-work dot of the text that the
separation says, white where the line stream has ended, and the context then stands at the next band's first row (R60,
R61, R121); that it holds no segment once the stream has ended is the model's (log entry 26). A patch covers the dots of
its rectangle (R62); its sample at a row and column is the byte received for it, or 0 (R63, R64); a dot under it is
inked where the tone of the sample over it, through the curve and clamps of its override or the mapped set, exceeds the
threshold at tile row (y + Yoff) mod S and tile column (x + Xoff + q × Xshift) mod S, with q the tile course of y (R63,
R65, R70 to R72). -/
def Obligations.RenderTasksEnd : Prop :=
  (∀ (p : Page) (sp : Sys2Proof.Machine.Sep) (x : SepText), p.readsAs sp x →
    (RenderContext.start p sp).standsAt p sp x 0) ∧
  (∀ (p : Page) (sp : Sys2Proof.Machine.Sep) (x : SepText) (t : PatchText) (hd : PatchHead) (row col : Nat),
    p.readsAs sp x → (p.held.map Segment.number).Pairwise (· < ·) → (t, hd) ∈ patchesTaken x.patches → row < hd.h →
    col < hd.w →
    p.sample sp (t.patch p.width p.height hd) row col = ((t.samples[row * hd.w + col]?).map BitVec.toNat).getD 0) ∧
  (∀ (p : Page) (sp : Sys2Proof.Machine.Sep) (screens : Vector ScreenSlot 8) (mapped : Fin 8) (q : Patch)
    (x y v threshold : Nat) (c : ScreenSet), c = (screens[q.head.override_.getD mapped]).content →
    (q.head.covers x y = true ↔
      q.head.x0 ≤ x ∧ x < q.head.x0 + q.head.w * q.head.f ∧ q.head.y0 ≤ y ∧ y < q.head.y0 + q.head.h * q.head.f) ∧
    (v = p.sample sp q ((y - q.head.y0) / q.head.f) ((x - q.head.x0) / q.head.f) →
      c.tile[(y + c.yoff) % c.side * c.side + (x + c.xoff + (y + c.yoff) / c.side * c.xshift) % c.side]? =
        some threshold →
      (p.screened sp screens mapped q x y = true ↔ threshold < c.clamp (c.tone v)))) ∧
  ∀ (s : State) (l : Line) (b : Nat), s.resetAsserted = false →
    (∀ (e : Exposure) (r : Plate) (h : Fin 64) (p : Page),
      s.engine = some { line := l, band := b, discarded := false } → s.exposes l e r h p →
      ∃ (t : State) (rows : List Row), exec .renderTaskCompletion s = .next t ∧
        rows = (p.renderBand r.sep s.screens (e.mapping.get r.sep) b (s.channel l).context).1 ∧
        rows.length = min 256 (p.height - 256 * b) ∧
        ((s.channel l).context.carry.length = p.width → ∀ row ∈ rows, row.length = p.width) ∧
        (∀ x : SepText, p.readsAs r.sep x → (p.held.map Segment.number).Pairwise (· < ·) →
          (s.channel l).context.standsAt p r.sep x (256 * b) →
          (∀ (k : Nat) (row : Row), rows[k]? = some row →
            row.length = p.width ∧ ∀ j, j < p.width →
              row[j]? = some (p.dot r.sep s.screens (e.mapping.get r.sep) j (256 * b + k)
                ((((x.rows p.width)[256 * b + k]?).bind fun dots => dots[j]?).getD false))) ∧
          (t.channel l).context.standsAt p r.sep x (256 * b + rows.length)) ∧
        t.channel l = { s.channel l with
          ring := (s.channel l).ring.set (b % 4) (.filled b rows), context := (t.channel l).context } ∧
        t.channel l.other = s.channel l.other ∧ t.engine = none ∧
        t = { s with channels := t.channels, engine := t.engine }) ∧
    (s.engine = some { line := l, band := b, discarded := true } →
      exec .discardedTaskEnd s =
        .next { (s.setChannel l { s.channel l with ring := (s.channel l).ring.set (b % 4) .free }) with
          engine := none })

/-! ## Plate mark verification -/

/-- A mark code carries its identity at the bit positions of R194, the serial in bits 0 to 15, edition 16 to 19, section 20
to 24, page number 25 to 32, separation code 33 and 34, copy index 35 to 37, and the check of R154 in 38 to 47. It reads back
as the identity, from those positions, and a run of its 48 bits with neither marker is valid and reads back as the code
(R152, R154, R155, R194). -/
def Obligations.MarkCodesReadBack : Prop :=
  (∀ c : BitVec 48, (markIdentity c).serial = (c.extractLsb' 0 16).toNat ∧
    (markIdentity c).label.edition.val = (c.extractLsb' 16 4).toNat ∧
    (markIdentity c).label.section_.val = (c.extractLsb' 20 5).toNat ∧
    (markIdentity c).label.page.val = (c.extractLsb' 25 8).toNat ∧
    sepList[(c.extractLsb' 33 2).toNat]? = some (markIdentity c).sep ∧
    (markIdentity c).index = (c.extractLsb' 35 3).toNat ∧ markCheck c = (c.extractLsb' 38 10).toNat) ∧
  ∀ (m : MarkIdentity) (r : Run), m.serial ≤ 65535 → m.index ≤ 7 →
    m.code.extractLsb' 0 16 = BitVec.ofNat 16 m.serial ∧
      m.code.extractLsb' 16 4 = BitVec.ofNat 4 m.label.edition.val ∧
      m.code.extractLsb' 20 5 = BitVec.ofNat 5 m.label.section_.val ∧
      m.code.extractLsb' 25 8 = BitVec.ofNat 8 m.label.page.val ∧
      m.code.extractLsb' 33 2 = BitVec.ofNat 2 (sepList.idxOf m.sep) ∧
      m.code.extractLsb' 35 3 = BitVec.ofNat 3 m.index ∧
      m.code.extractLsb' 38 10 = BitVec.ofNat 10 ((m.serial + m.label.edition.val + m.label.section_.val +
        m.label.page.val + sepList.idxOf m.sep + m.index) % 1024) ∧
      markIdentity m.code = m ∧
      markCheck m.code = (m.serial + m.label.edition.val + m.label.section_.val + m.label.page.val +
        sepList.idxOf m.sep + m.index) % 1024 ∧
      (r = { bits := (List.range 48).map m.code.getLsbD, barFault := false, overlong := false } →
        r.valid = true ∧ r.code = m.code)

/-- MARK_TICK with the filter off: the seen level becomes the sample; in IDLE a rising edge sets the count to 0 and
begins a strip where a window is enabled, and the ticks are counted. With the filter on, a third consecutive differing
sample changes the seen level, up or down, an upward one being an edge as with the filter off, and an earlier one only
counts (R147, R149, R150). A window is enabled where its min is below its max, and takes in both (R145, R149). In a
strip a rising edge is a measurement: in HUNT a START opens a run and any other is passed over; in DATA a ZERO or ONE
appends its bit, or marks a run of 48 bits overlong, a bar fault marks the run, and a START closes and evaluates it and
opens the next (R148 to R152, R155, R156). A tick without an edge below the largest enabled maximum only counts, and
with the filter on raises or clears the filter count or sees a falling level (R147, R148, R153). -/
def Obligations.MarkTicksAreSampledAndMeasured : Prop :=
  (∀ w : Window, (w.enabled = true ↔ w.lo < w.hi) ∧
    ∀ n, w.contains n = true ↔ w.lo < w.hi ∧ w.lo ≤ n ∧ n ≤ w.hi) ∧
  (∀ (m : MarkTiming) (k : Nat), m.largestMax = some k ↔
    (∃ w ∈ [m.start, m.zero, m.one], w.lo < w.hi ∧ w.hi = k) ∧
      ∀ w ∈ [m.start, m.zero, m.one], w.lo < w.hi → w.hi ≤ k) ∧
  ∀ (s : State) (l : Line) (d : Decoder) (level sample v : Bool), s.resetAsserted = false → d = s.decoder l →
    sample = (level != d.inForce.inverted) →
    (d.seen = none → d.strip = none →
      exec (.markTick l level) s =
        .next (s.setDecoder l
          { d with seen := some sample, filterCount := 0, count := min (d.count + 1) 65535 })) ∧
    (d.seen = some v → d.strip = none → d.inForce.filter = false →
      ((sample = false ∨ v = true) →
        exec (.markTick l level) s =
          .next (s.setDecoder l { d with seen := some sample, count := min (d.count + 1) 65535 })) ∧
      (sample = true → v = false →
        (d.inForce.start.enabled = true ∨ d.inForce.zero.enabled = true ∨ d.inForce.one.enabled = true) →
        exec (.markTick l level) s =
          .next (s.setDecoder l { d with
            seen := some true, count := 0
            strip := some { run := none, code := none, disagree := false, measured := false } })) ∧
      (sample = true → v = false → d.inForce.start.enabled = false → d.inForce.zero.enabled = false →
        d.inForce.one.enabled = false →
        exec (.markTick l level) s = .next (s.setDecoder l { d with seen := some true, count := 0 }))) ∧
    (d.seen = some v → d.strip = none → d.inForce.filter = true →
      (sample = v →
        exec (.markTick l level) s =
          .next (s.setDecoder l { d with filterCount := 0, count := min (d.count + 1) 65535 })) ∧
      (sample ≠ v → d.filterCount < 2 →
        exec (.markTick l level) s =
          .next (s.setDecoder l
            { d with filterCount := d.filterCount + 1, count := min (d.count + 1) 65535 })) ∧
      (sample = false → v = true → d.filterCount = 2 →
        exec (.markTick l level) s =
          .next (s.setDecoder l
            { d with seen := some false, filterCount := 0, count := min (d.count + 1) 65535 })) ∧
      (sample = true → v = false → d.filterCount = 2 →
        (d.inForce.start.enabled = true ∨ d.inForce.zero.enabled = true ∨ d.inForce.one.enabled = true) →
        exec (.markTick l level) s =
          .next (s.setDecoder l { d with
            seen := some true, filterCount := 0, count := 0
            strip := some { run := none, code := none, disagree := false, measured := false } })) ∧
      (sample = true → v = false → d.filterCount = 2 → d.inForce.start.enabled = false →
        d.inForce.zero.enabled = false → d.inForce.one.enabled = false →
        exec (.markTick l level) s =
          .next (s.setDecoder l { d with seen := some true, filterCount := 0, count := 0 }))) ∧
    ∀ (x : Strip) (n : Nat) (y : Decoder), d.strip = some x → n = d.count + 1 →
      (d.seen = some false → (d.inForce.filter = false ∨ d.filterCount = 2) → sample = true → d.count < 65535 →
        y = { d with seen := some true, count := 0, filterCount := if d.inForce.filter then 0 else d.filterCount } →
        (x.run = none → d.inForce.start.contains n = true →
          exec (.markTick l level) s =
            .next (s.setDecoder l { y with
              strip := some { x with run := some { bits := [], barFault := false, overlong := false }
                                     measured := true } })) ∧
        (x.run = none → d.inForce.start.contains n = false →
          exec (.markTick l level) s = .next (s.setDecoder l { y with strip := some { x with measured := true } })) ∧
        ∀ r : Run, x.run = some r →
          (d.inForce.start.contains n = false → d.inForce.zero.contains n || d.inForce.one.contains n = true →
            exec (.markTick l level) s =
              .next (s.setDecoder l { y with
                strip := some { x with
                  run := some (if r.bits.length < 48 then { r with bits := r.bits ++ [!(d.inForce.zero.contains n)] }
                    else { r with overlong := true })
                  measured := true } })) ∧
          (d.inForce.start.contains n = false → d.inForce.zero.contains n = false →
            d.inForce.one.contains n = false →
            exec (.markTick l level) s =
              .next (s.setDecoder l { y with
                strip := some { x with run := some { r with barFault := true }, measured := true } })) ∧
          ∀ good : Bool, (good = true ↔ r.bits.length = 48 ∧ r.barFault = false ∧ r.overlong = false ∧
              markCheck r.code = (markIdentity r.code).check) →
            d.inForce.start.contains n = true →
            exec (.markTick l level) s =
              .next (s.setDecoder l { y with
                strip := some
                  { run := some { bits := [], barFault := false, overlong := false }
                    code := if good then some (x.code.getD r.code) else x.code
                    disagree := x.disagree || (good && x.code.any (· != r.code)), measured := true } })) ∧
      (d.seen = some v → d.inForce.filter = false → (sample = false ∨ v = true) →
        (∃ m, d.inForce.largestMax = some m ∧ d.count < m ∧ m ≤ 65535) →
        exec (.markTick l level) s = .next (s.setDecoder l { d with seen := some sample, count := n })) ∧
      ((∃ m, d.inForce.largestMax = some m ∧ d.count < m ∧ m ≤ 65535) →
        (d.seen = none →
          exec (.markTick l level) s =
            .next (s.setDecoder l { d with seen := some sample, filterCount := 0, count := n })) ∧
        (d.seen = some v → d.inForce.filter = true →
          (sample = v →
            exec (.markTick l level) s = .next (s.setDecoder l { d with filterCount := 0, count := n })) ∧
          (sample ≠ v → d.filterCount < 2 →
            exec (.markTick l level) s =
              .next (s.setDecoder l { d with filterCount := d.filterCount + 1, count := n })) ∧
          (sample = false → v = true → d.filterCount = 2 →
            exec (.markTick l level) s =
              .next (s.setDecoder l { d with seen := some false, filterCount := 0, count := n }))))

/-- A strip ends at the MARK_TICK at which its count passes the largest enabled maximum (R153), or at STRIP_END where it
has passed it, which is the model's reading of that event (log entry 4): a strip with no measurement is not judged; a
readable one verifies the copy of the entry that it matches, the entries before it passed over as MISSING, oldest first,
or is FOREIGN where it matches none; an unreadable one settles the head as UNREADABLE, with a remake and the exposure step
raised, failed at the remake limit, or noted, or is a STRAY STRIP on an empty queue; the new heads that are overdue are then
removed as MISSING. All are settled in the order removed, each completing before the next, two of one record too, which can
be done wherever the retention counts hold and awaiting counts the entries; a record with nothing left is freed (R114, R157
to R160, R176 to R178; that the entry freed with it has its DEADLINE MISSED resolved is the model's: log entry 27); the
decoder returns to IDLE under the settings as written, its seen level taken afresh where polarity, filter or tick differ
(R146). That an edge at the tick that ends a strip under a maximum of 65,535 sets the count to 0 and begins no strip is the
model's (log entry 16). -/
def Obligations.StripEndSettlesTheQueue : Prop :=
  (∀ x : Strip,
    (x.run = none → x.finish.readable = if x.disagree then none else x.code) ∧
    ∀ (r : Run) (good : Bool), x.run = some r →
      (good = true ↔ r.bits.length = 48 ∧ r.barFault = false ∧ r.overlong = false ∧
        markCheck r.code = (markIdentity r.code).check) →
      x.finish.readable =
        if good = true then if x.disagree = true ∨ ∃ c, x.code = some c ∧ c ≠ r.code then none else some r.code
        else if x.disagree then none else x.code) ∧
  (∀ (s : State) (xs : List (VerifyEntry × Option IncidentKind)), s.retained → s.awaitsEach (xs.map Prod.fst) →
    (∀ x ∈ xs, x.2 ∈ [none, some .missing, some .unreadable]) → ∃ t, s.settledInTurn xs t) ∧
  ∀ (s : State) (l : Line) (c : Instr) (d y d' : Decoder) (x : Strip), s.resetAsserted = false → d = s.decoder l →
    d.strip = some x → d.stripEndsBy y l c → d' = y.idleUnder (s.lineSettings l).mark →
    (x.measured = false → exec c s = .next (s.setDecoder l d')) ∧
    (x.measured = true → x.finish.readable = none → s.queue l = [] →
      ∃ t : State, exec c s = .next t ∧ t.decoders = s.decoders.set l d' ∧
        s.recorded t { kind := .strayStrip, time := s.clock, disposition := .noted } ∧
        t = { s with decoders := t.decoders, incidents := t.incidents, lost := t.lost }) ∧
    (∀ (e : VerifyEntry) (rest : List VerifyEntry) (r : Plate), x.measured = true → x.finish.readable = none →
      s.queue l = e :: rest →
      (∀ u ∈ rest.head?, (s.lineSettings l).verifyWindow = 0 ∨ u.age ≤ (s.lineSettings l).verifyWindow) →
      s.plate e.plate = some r → 0 < r.awaiting → r.obsolete = false → r.cancelled = false →
      r.attempts < (s.editionOf r.label).remakeLimit →
      ∃ t : State, exec c s = .next t ∧ t.decoders = s.decoders.set l d' ∧ t.queues = s.queues.set l rest ∧
        t.plate e.plate = some { r with
          awaiting := r.awaiting - 1, failed := r.failed + 1, attempts := r.attempts + 1, toExpose := r.toExpose + 1
          remake := true, step := min (r.step + 1) 7 } ∧
        (∀ j, j ≠ e.plate → t.plate j = s.plate j) ∧
        s.recorded t
          { kind := .unreadable, time := s.clock, label := some e.label, version := some e.version, handle := r.page
            sep := some e.sep, plate := some e.plate, serial := some e.serial, copyIndex := some e.copyIndex
            attempts := some (r.attempts + 1), disposition := .remakeQueued } ∧
        t = { s with
          decoders := t.decoders, queues := t.queues, plates := t.plates, incidents := t.incidents, lost := t.lost }) ∧
    (∀ (e : VerifyEntry) (rest : List VerifyEntry) (r q : Plate) (h : Fin 64) (p : Page) (disposition : Disposition),
      x.measured = true → x.finish.readable = none → s.queue l = e :: rest →
      (∀ u ∈ rest.head?, (s.lineSettings l).verifyWindow = 0 ∨ u.age ≤ (s.lineSettings l).verifyWindow) →
      s.plate e.plate = some r → 0 < r.awaiting → r.page = some h → s.page h = some p →
      { r with awaiting := r.awaiting - 1 }.damagedAs q (s.editionOf r.label).remakeLimit (min (r.step + 1) 7)
        disposition →
      ∃ t : State, exec c s = .next t ∧ t.decoders = s.decoders.set l d' ∧ t.queues = s.queues.set l rest ∧
        s.recordSettled t e.plate q h p
          [{ kind := .unreadable, time := s.clock, label := some e.label, version := some e.version, handle := r.page
             sep := some e.sep, plate := some e.plate, serial := some e.serial, copyIndex := some e.copyIndex
             attempts := some q.attempts, disposition := disposition }] ∧
        t = { s with
          decoders := t.decoders, queues := t.queues, plates := t.plates, pages := t.pages, freeCells := t.freeCells
          openOrder := t.openOrder, indexQueue := t.indexQueue, indexer := t.indexer, incidents := t.incidents
          lost := t.lost }) ∧
    (∀ (e : VerifyEntry) (rest gone kept : List VerifyEntry) (t : State), x.measured = true → x.finish.readable = none →
      s.queue l = e :: rest → overdueSplit (s.lineSettings l).verifyWindow rest gone kept →
      s.settledInTurn ((e, some .unreadable) :: gone.map VerifyEntry.asMissing) t →
      exec c s = .next { t with decoders := s.decoders.set l d', queues := s.queues.set l kept }) ∧
    ∀ (code : BitVec 48) (m : MarkIdentity), x.measured = true → x.finish.readable = some code →
      m = markIdentity code →
      ((∀ e ∈ s.queue l, e.serial ≠ m.serial ∨ e.label ≠ m.label ∨ e.sep ≠ m.sep ∨ e.copyIndex ≠ m.index) →
        ∃ t : State, exec c s = .next t ∧ t.decoders = s.decoders.set l d' ∧
          s.recorded t
            { kind := .foreign, time := s.clock, label := some m.label, sep := some m.sep, serial := some m.serial
              copyIndex := some m.index, disposition := .noted } ∧
          t = { s with decoders := t.decoders, incidents := t.incidents, lost := t.lost }) ∧
      (∀ (passed : List VerifyEntry) (e : VerifyEntry) (rest gone kept : List VerifyEntry) (t : State),
        (∀ f ∈ passed, f.serial ≠ m.serial ∨ f.label ≠ m.label ∨ f.sep ≠ m.sep ∨ f.copyIndex ≠ m.index) →
        m = { serial := e.serial, label := e.label, sep := e.sep, index := e.copyIndex } →
        s.queue l = passed ++ e :: rest → overdueSplit (s.lineSettings l).verifyWindow rest gone kept →
        s.settledInTurn (passed.map VerifyEntry.asMissing ++ (e, none) :: gone.map VerifyEntry.asMissing) t →
        exec c s = .next { t with decoders := s.decoders.set l d', queues := s.queues.set l kept }) ∧
      (∀ (e : VerifyEntry) (rest : List VerifyEntry) (r q : Plate) (h : Fin 64) (p : Page),
        m = { serial := e.serial, label := e.label, sep := e.sep, index := e.copyIndex } → s.queue l = e :: rest →
        (∀ u ∈ rest.head?, (s.lineSettings l).verifyWindow = 0 ∨ u.age ≤ (s.lineSettings l).verifyWindow) →
        s.plate e.plate = some r → 0 < r.awaiting → r.page = some h → s.page h = some p →
        q = { r with
          awaiting := r.awaiting - 1, verified := if r.obsolete then r.verified else r.verified + 1
          withdrawn := if r.obsolete then r.withdrawn + 1 else r.withdrawn } →
        ∃ t : State, exec c s = .next t ∧ t.decoders = s.decoders.set l d' ∧ t.queues = s.queues.set l rest ∧
          s.recordSettled t e.plate q h p [] ∧
          t = { s with
            decoders := t.decoders, queues := t.queues, plates := t.plates, pages := t.pages, freeCells := t.freeCells
            openOrder := t.openOrder, indexQueue := t.indexQueue, indexer := t.indexer, incidents := t.incidents
            lost := t.lost }) ∧
      ∀ (e : VerifyEntry) (rest : List VerifyEntry) (r q : Plate),
        m = { serial := e.serial, label := e.label, sep := e.sep, index := e.copyIndex } →
        (∀ u ∈ rest.head?, (s.lineSettings l).verifyWindow = 0 ∨ u.age ≤ (s.lineSettings l).verifyWindow) →
        s.plate e.plate = some r → 0 < r.awaiting →
        (r.channel ≠ none ∨ 0 < r.toExpose ∨ 0 < r.exposing ∨ 1 < r.awaiting) →
        q = { r with
          awaiting := r.awaiting - 1, verified := if r.obsolete then r.verified else r.verified + 1
          withdrawn := if r.obsolete then r.withdrawn + 1 else r.withdrawn } →
        (s.queue l = e :: rest →
          ∃ t : State, exec c s = .next t ∧ t.decoders = s.decoders.set l d' ∧ t.queues = s.queues.set l rest ∧
            t.plate e.plate = some q ∧ (∀ j, j ≠ e.plate → t.plate j = s.plate j) ∧
            t = { s with decoders := t.decoders, queues := t.queues, plates := t.plates }) ∧
        ∀ (f : VerifyEntry) (u : Plate), s.queue l = f :: e :: rest →
          (f.serial ≠ m.serial ∨ f.label ≠ m.label ∨ f.sep ≠ m.sep ∨ f.copyIndex ≠ m.index) → f.plate ≠ e.plate →
          s.plate f.plate = some u → 0 < u.awaiting → u.obsolete = false → u.cancelled = false →
          u.attempts < (s.editionOf u.label).remakeLimit →
          ∃ t : State, exec c s = .next t ∧ t.decoders = s.decoders.set l d' ∧ t.queues = s.queues.set l rest ∧
            t.plate e.plate = some q ∧
            t.plate f.plate = some { u with
              awaiting := u.awaiting - 1, failed := u.failed + 1, attempts := u.attempts + 1
              toExpose := u.toExpose + 1, remake := true } ∧
            (∀ j, j ≠ e.plate → j ≠ f.plate → t.plate j = s.plate j) ∧
            s.recorded t
              { kind := .missing, time := s.clock, label := some f.label, version := some f.version, handle := u.page
                sep := some f.sep, plate := some f.plate, serial := some f.serial, copyIndex := some f.copyIndex
                attempts := some (u.attempts + 1), disposition := .remakeQueued } ∧
            t = { s with
              decoders := t.decoders, queues := t.queues, plates := t.plates, incidents := t.incidents
              lost := t.lost }

/-- VERIFY_TIMEOUT: the heads whose age exceeds the verify window are removed, one after another until the queue is empty
or its head is not overdue, and their copies settled as MISSING in the order removed, each completing before the next: with
a remake where the edition's limit allows one and the exposure step left as it stands; at the limit the copy fails, and of a
cancelled or obsolete record it is withdrawn, and a record with nothing left is freed (R114, R159, R160, R176 to R178). That
the entry freed with it has its DEADLINE MISSED resolved is the model's (log entry 27). -/
def Obligations.VerifyTimeoutSettlesTheHeadAsMissing : Prop :=
  ∀ (s : State) (l : Line) (gone kept : List VerifyEntry), s.resetAsserted = false →
    overdueSplit (s.lineSettings l).verifyWindow (s.queue l) gone kept →
    ∃ t : State, exec (.verifyTimeout l) s = .next t ∧ t.queues = s.queues.set l kept ∧ s.overdueSettled t gone ∧
      t = { s with
        queues := t.queues, plates := t.plates, pages := t.pages, freeCells := t.freeCells
        openOrder := t.openOrder, indexQueue := t.indexQueue, indexer := t.indexer, incidents := t.incidents
        lost := t.lost }

/-! ## The incident list and FLUSH -/

/-- INCIDENT CLEAR removes the oldest n records, or sets the lost count to 0 where n is 0; ATTN-PLAN is asserted while the
list holds a record or the lost count is above 0 (R172, R173). -/
def Obligations.IncidentClearRemovesTheOldest : Prop :=
  ∀ (s : State) (n : Word), s.resetAsserted = false →
    (n.toNat ≠ 0 →
      exec (.incidentClear [n]) s =
        .next ({ s with incidents := s.incidents.drop n.toNat }.setReply .plan
          { status := .done
            results := [word (min n.toNat s.incidents.length), word (s.incidents.length - n.toNat), word s.lost] })) ∧
    (n.toNat = 0 →
      exec (.incidentClear [n]) s =
        .next ({ s with lost := 0 }.setReply .plan
          { status := .done, results := [0, word s.incidents.length, 0] })) ∧
    (s.attention .plan = true ↔ 0 < s.incidents.length ∨ 0 < s.lost)

/-- FLUSH with both channels IDLE frees every page entry and plate record, empties both verify queues and the incident
list, and keeps everything else; with a channel not IDLE it is refused STATE (R189). -/
def Obligations.FlushEmptiesTheNightsWork : Prop :=
  ∀ s : State, s.resetAsserted = false →
    ((s.channel .a).exposure = none → (s.channel .b).exposure = none →
      ∃ t : State, exec (.flush []) s = .next t ∧ (∀ h, t.page h = none) ∧ (∀ i, t.plate i = none) ∧
        t.openOrder = [] ∧ t.freeCells = 32768 ∧ t.indexQueue = [] ∧ t.indexer = none ∧ t.arrival = 0 ∧
        (∀ l, t.queue l = []) ∧ t.incidents = [] ∧ t.lost = 0 ∧ (∀ p, t.attention p = false) ∧
        t.replies = s.replies.set .plan (some
          { status := .done
            results := [word (handles.filter fun h => (s.page h).isSome).length,
              word (plateIds.filter fun i => (s.plate i).isSome).length, word s.incidents.length] }) ∧
        t = { s with
          pages := t.pages, openOrder := t.openOrder, freeCells := t.freeCells, indexQueue := t.indexQueue
          indexer := t.indexer, plates := t.plates, arrival := t.arrival, queues := t.queues
          incidents := t.incidents, lost := t.lost, replies := t.replies }) ∧
    (((s.channel .a).exposure ≠ none ∨ (s.channel .b).exposure ≠ none) →
      exec (.flush []) s = .next (s.setReply .plan { status := .state, results := [] }))
end

