-- ==== Sys2Proof/Laws/State.lean ====
section
/-! SUPPORT. What each single-field update of the state does to each field, and what each reader reads after it, so that
no proof unfolds a record update. -/

namespace Sys2Proof.Machine

open Sys2Proof

/-! ## setPage -/

@[simp] theorem State.setPage_openOrder (s : State) (h : Fin 64) (v : Option Page) : (s.setPage h v).openOrder = s.openOrder := rfl
@[simp] theorem State.setPage_link (s : State) (h : Fin 64) (v : Option Page) : (s.setPage h v).link = s.link := rfl
@[simp] theorem State.setPage_freeCells (s : State) (h : Fin 64) (v : Option Page) : (s.setPage h v).freeCells = s.freeCells := rfl
@[simp] theorem State.setPage_indexQueue (s : State) (h : Fin 64) (v : Option Page) : (s.setPage h v).indexQueue = s.indexQueue := rfl
@[simp] theorem State.setPage_indexer (s : State) (h : Fin 64) (v : Option Page) : (s.setPage h v).indexer = s.indexer := rfl
@[simp] theorem State.setPage_screens (s : State) (h : Fin 64) (v : Option Page) : (s.setPage h v).screens = s.screens := rfl
@[simp] theorem State.setPage_editions (s : State) (h : Fin 64) (v : Option Page) : (s.setPage h v).editions = s.editions := rfl
@[simp] theorem State.setPage_clock (s : State) (h : Fin 64) (v : Option Page) : (s.setPage h v).clock = s.clock := rfl
@[simp] theorem State.setPage_plates (s : State) (h : Fin 64) (v : Option Page) : (s.setPage h v).plates = s.plates := rfl
@[simp] theorem State.setPage_arrival (s : State) (h : Fin 64) (v : Option Page) : (s.setPage h v).arrival = s.arrival := rfl
@[simp] theorem State.setPage_serialNext (s : State) (h : Fin 64) (v : Option Page) : (s.setPage h v).serialNext = s.serialNext := rfl
@[simp] theorem State.setPage_channels (s : State) (h : Fin 64) (v : Option Page) : (s.setPage h v).channels = s.channels := rfl
@[simp] theorem State.setPage_engine (s : State) (h : Fin 64) (v : Option Page) : (s.setPage h v).engine = s.engine := rfl
@[simp] theorem State.setPage_lastChosen (s : State) (h : Fin 64) (v : Option Page) : (s.setPage h v).lastChosen = s.lastChosen := rfl
@[simp] theorem State.setPage_mode (s : State) (h : Fin 64) (v : Option Page) : (s.setPage h v).mode = s.mode := rfl
@[simp] theorem State.setPage_renderUnit (s : State) (h : Fin 64) (v : Option Page) : (s.setPage h v).renderUnit = s.renderUnit := rfl
@[simp] theorem State.setPage_exposureTable (s : State) (h : Fin 64) (v : Option Page) : (s.setPage h v).exposureTable = s.exposureTable := rfl
@[simp] theorem State.setPage_settings (s : State) (h : Fin 64) (v : Option Page) : (s.setPage h v).settings = s.settings := rfl
@[simp] theorem State.setPage_decoders (s : State) (h : Fin 64) (v : Option Page) : (s.setPage h v).decoders = s.decoders := rfl
@[simp] theorem State.setPage_queues (s : State) (h : Fin 64) (v : Option Page) : (s.setPage h v).queues = s.queues := rfl
@[simp] theorem State.setPage_incidents (s : State) (h : Fin 64) (v : Option Page) : (s.setPage h v).incidents = s.incidents := rfl
@[simp] theorem State.setPage_lost (s : State) (h : Fin 64) (v : Option Page) : (s.setPage h v).lost = s.lost := rfl
@[simp] theorem State.setPage_replies (s : State) (h : Fin 64) (v : Option Page) : (s.setPage h v).replies = s.replies := rfl
@[simp] theorem State.setPage_resetAsserted (s : State) (h : Fin 64) (v : Option Page) : (s.setPage h v).resetAsserted = s.resetAsserted := rfl
@[simp] theorem State.setPage_freeCount (s : State) (h : Fin 64) (v : Option Page) : (s.setPage h v).freeCount = s.freeCount := rfl
@[simp] theorem State.setPage_pending (s : State) (h : Fin 64) (v : Option Page) : (s.setPage h v).pending = s.pending := rfl
@[simp] theorem State.setPage_plate (s : State) (h : Fin 64) (v : Option Page) (k : Fin 128) : (s.setPage h v).plate k = s.plate k := rfl
@[simp] theorem State.setPage_channel (s : State) (h : Fin 64) (v : Option Page) (k : Line) : (s.setPage h v).channel k = s.channel k := rfl
@[simp] theorem State.setPage_decoder (s : State) (h : Fin 64) (v : Option Page) (k : Line) : (s.setPage h v).decoder k = s.decoder k := rfl
@[simp] theorem State.setPage_queue (s : State) (h : Fin 64) (v : Option Page) (k : Line) : (s.setPage h v).queue k = s.queue k := rfl
@[simp] theorem State.setPage_lineSettings (s : State) (h : Fin 64) (v : Option Page) (k : Line) : (s.setPage h v).lineSettings k = s.lineSettings k := rfl
@[simp] theorem State.setPage_editionOf (s : State) (h : Fin 64) (v : Option Page) (k : Label) : (s.setPage h v).editionOf k = s.editionOf k := rfl

/-! ## setPlate -/

@[simp] theorem State.setPlate_pages (s : State) (i : Fin 128) (v : Option Plate) : (s.setPlate i v).pages = s.pages := rfl
@[simp] theorem State.setPlate_openOrder (s : State) (i : Fin 128) (v : Option Plate) : (s.setPlate i v).openOrder = s.openOrder := rfl
@[simp] theorem State.setPlate_link (s : State) (i : Fin 128) (v : Option Plate) : (s.setPlate i v).link = s.link := rfl
@[simp] theorem State.setPlate_freeCells (s : State) (i : Fin 128) (v : Option Plate) : (s.setPlate i v).freeCells = s.freeCells := rfl
@[simp] theorem State.setPlate_indexQueue (s : State) (i : Fin 128) (v : Option Plate) : (s.setPlate i v).indexQueue = s.indexQueue := rfl
@[simp] theorem State.setPlate_indexer (s : State) (i : Fin 128) (v : Option Plate) : (s.setPlate i v).indexer = s.indexer := rfl
@[simp] theorem State.setPlate_screens (s : State) (i : Fin 128) (v : Option Plate) : (s.setPlate i v).screens = s.screens := rfl
@[simp] theorem State.setPlate_editions (s : State) (i : Fin 128) (v : Option Plate) : (s.setPlate i v).editions = s.editions := rfl
@[simp] theorem State.setPlate_clock (s : State) (i : Fin 128) (v : Option Plate) : (s.setPlate i v).clock = s.clock := rfl
@[simp] theorem State.setPlate_arrival (s : State) (i : Fin 128) (v : Option Plate) : (s.setPlate i v).arrival = s.arrival := rfl
@[simp] theorem State.setPlate_serialNext (s : State) (i : Fin 128) (v : Option Plate) : (s.setPlate i v).serialNext = s.serialNext := rfl
@[simp] theorem State.setPlate_channels (s : State) (i : Fin 128) (v : Option Plate) : (s.setPlate i v).channels = s.channels := rfl
@[simp] theorem State.setPlate_engine (s : State) (i : Fin 128) (v : Option Plate) : (s.setPlate i v).engine = s.engine := rfl
@[simp] theorem State.setPlate_lastChosen (s : State) (i : Fin 128) (v : Option Plate) : (s.setPlate i v).lastChosen = s.lastChosen := rfl
@[simp] theorem State.setPlate_mode (s : State) (i : Fin 128) (v : Option Plate) : (s.setPlate i v).mode = s.mode := rfl
@[simp] theorem State.setPlate_renderUnit (s : State) (i : Fin 128) (v : Option Plate) : (s.setPlate i v).renderUnit = s.renderUnit := rfl
@[simp] theorem State.setPlate_exposureTable (s : State) (i : Fin 128) (v : Option Plate) : (s.setPlate i v).exposureTable = s.exposureTable := rfl
@[simp] theorem State.setPlate_settings (s : State) (i : Fin 128) (v : Option Plate) : (s.setPlate i v).settings = s.settings := rfl
@[simp] theorem State.setPlate_decoders (s : State) (i : Fin 128) (v : Option Plate) : (s.setPlate i v).decoders = s.decoders := rfl
@[simp] theorem State.setPlate_queues (s : State) (i : Fin 128) (v : Option Plate) : (s.setPlate i v).queues = s.queues := rfl
@[simp] theorem State.setPlate_incidents (s : State) (i : Fin 128) (v : Option Plate) : (s.setPlate i v).incidents = s.incidents := rfl
@[simp] theorem State.setPlate_lost (s : State) (i : Fin 128) (v : Option Plate) : (s.setPlate i v).lost = s.lost := rfl
@[simp] theorem State.setPlate_replies (s : State) (i : Fin 128) (v : Option Plate) : (s.setPlate i v).replies = s.replies := rfl
@[simp] theorem State.setPlate_resetAsserted (s : State) (i : Fin 128) (v : Option Plate) : (s.setPlate i v).resetAsserted = s.resetAsserted := rfl
@[simp] theorem State.setPlate_freeCount (s : State) (i : Fin 128) (v : Option Plate) : (s.setPlate i v).freeCount = s.freeCount := rfl
@[simp] theorem State.setPlate_pending (s : State) (i : Fin 128) (v : Option Plate) : (s.setPlate i v).pending = s.pending := rfl
@[simp] theorem State.setPlate_page (s : State) (i : Fin 128) (v : Option Plate) (k : Fin 64) : (s.setPlate i v).page k = s.page k := rfl
@[simp] theorem State.setPlate_channel (s : State) (i : Fin 128) (v : Option Plate) (k : Line) : (s.setPlate i v).channel k = s.channel k := rfl
@[simp] theorem State.setPlate_decoder (s : State) (i : Fin 128) (v : Option Plate) (k : Line) : (s.setPlate i v).decoder k = s.decoder k := rfl
@[simp] theorem State.setPlate_queue (s : State) (i : Fin 128) (v : Option Plate) (k : Line) : (s.setPlate i v).queue k = s.queue k := rfl
@[simp] theorem State.setPlate_lineSettings (s : State) (i : Fin 128) (v : Option Plate) (k : Line) : (s.setPlate i v).lineSettings k = s.lineSettings k := rfl
@[simp] theorem State.setPlate_editionOf (s : State) (i : Fin 128) (v : Option Plate) (k : Label) : (s.setPlate i v).editionOf k = s.editionOf k := rfl

/-! ## setChannel -/

@[simp] theorem State.setChannel_pages (s : State) (l : Line) (c : Channel) : (s.setChannel l c).pages = s.pages := rfl
@[simp] theorem State.setChannel_openOrder (s : State) (l : Line) (c : Channel) : (s.setChannel l c).openOrder = s.openOrder := rfl
@[simp] theorem State.setChannel_link (s : State) (l : Line) (c : Channel) : (s.setChannel l c).link = s.link := rfl
@[simp] theorem State.setChannel_freeCells (s : State) (l : Line) (c : Channel) : (s.setChannel l c).freeCells = s.freeCells := rfl
@[simp] theorem State.setChannel_indexQueue (s : State) (l : Line) (c : Channel) : (s.setChannel l c).indexQueue = s.indexQueue := rfl
@[simp] theorem State.setChannel_indexer (s : State) (l : Line) (c : Channel) : (s.setChannel l c).indexer = s.indexer := rfl
@[simp] theorem State.setChannel_screens (s : State) (l : Line) (c : Channel) : (s.setChannel l c).screens = s.screens := rfl
@[simp] theorem State.setChannel_editions (s : State) (l : Line) (c : Channel) : (s.setChannel l c).editions = s.editions := rfl
@[simp] theorem State.setChannel_clock (s : State) (l : Line) (c : Channel) : (s.setChannel l c).clock = s.clock := rfl
@[simp] theorem State.setChannel_plates (s : State) (l : Line) (c : Channel) : (s.setChannel l c).plates = s.plates := rfl
@[simp] theorem State.setChannel_arrival (s : State) (l : Line) (c : Channel) : (s.setChannel l c).arrival = s.arrival := rfl
@[simp] theorem State.setChannel_serialNext (s : State) (l : Line) (c : Channel) : (s.setChannel l c).serialNext = s.serialNext := rfl
@[simp] theorem State.setChannel_engine (s : State) (l : Line) (c : Channel) : (s.setChannel l c).engine = s.engine := rfl
@[simp] theorem State.setChannel_lastChosen (s : State) (l : Line) (c : Channel) : (s.setChannel l c).lastChosen = s.lastChosen := rfl
@[simp] theorem State.setChannel_mode (s : State) (l : Line) (c : Channel) : (s.setChannel l c).mode = s.mode := rfl
@[simp] theorem State.setChannel_renderUnit (s : State) (l : Line) (c : Channel) : (s.setChannel l c).renderUnit = s.renderUnit := rfl
@[simp] theorem State.setChannel_exposureTable (s : State) (l : Line) (c : Channel) : (s.setChannel l c).exposureTable = s.exposureTable := rfl
@[simp] theorem State.setChannel_settings (s : State) (l : Line) (c : Channel) : (s.setChannel l c).settings = s.settings := rfl
@[simp] theorem State.setChannel_decoders (s : State) (l : Line) (c : Channel) : (s.setChannel l c).decoders = s.decoders := rfl
@[simp] theorem State.setChannel_queues (s : State) (l : Line) (c : Channel) : (s.setChannel l c).queues = s.queues := rfl
@[simp] theorem State.setChannel_incidents (s : State) (l : Line) (c : Channel) : (s.setChannel l c).incidents = s.incidents := rfl
@[simp] theorem State.setChannel_lost (s : State) (l : Line) (c : Channel) : (s.setChannel l c).lost = s.lost := rfl
@[simp] theorem State.setChannel_replies (s : State) (l : Line) (c : Channel) : (s.setChannel l c).replies = s.replies := rfl
@[simp] theorem State.setChannel_resetAsserted (s : State) (l : Line) (c : Channel) : (s.setChannel l c).resetAsserted = s.resetAsserted := rfl
@[simp] theorem State.setChannel_freeCount (s : State) (l : Line) (c : Channel) : (s.setChannel l c).freeCount = s.freeCount := rfl
@[simp] theorem State.setChannel_pending (s : State) (l : Line) (c : Channel) : (s.setChannel l c).pending = s.pending := rfl
@[simp] theorem State.setChannel_page (s : State) (l : Line) (c : Channel) (k : Fin 64) : (s.setChannel l c).page k = s.page k := rfl
@[simp] theorem State.setChannel_plate (s : State) (l : Line) (c : Channel) (k : Fin 128) : (s.setChannel l c).plate k = s.plate k := rfl
@[simp] theorem State.setChannel_decoder (s : State) (l : Line) (c : Channel) (k : Line) : (s.setChannel l c).decoder k = s.decoder k := rfl
@[simp] theorem State.setChannel_queue (s : State) (l : Line) (c : Channel) (k : Line) : (s.setChannel l c).queue k = s.queue k := rfl
@[simp] theorem State.setChannel_lineSettings (s : State) (l : Line) (c : Channel) (k : Line) : (s.setChannel l c).lineSettings k = s.lineSettings k := rfl
@[simp] theorem State.setChannel_editionOf (s : State) (l : Line) (c : Channel) (k : Label) : (s.setChannel l c).editionOf k = s.editionOf k := rfl

/-! ## setDecoder -/

@[simp] theorem State.setDecoder_pages (s : State) (l : Line) (d : Decoder) : (s.setDecoder l d).pages = s.pages := rfl
@[simp] theorem State.setDecoder_openOrder (s : State) (l : Line) (d : Decoder) : (s.setDecoder l d).openOrder = s.openOrder := rfl
@[simp] theorem State.setDecoder_link (s : State) (l : Line) (d : Decoder) : (s.setDecoder l d).link = s.link := rfl
@[simp] theorem State.setDecoder_freeCells (s : State) (l : Line) (d : Decoder) : (s.setDecoder l d).freeCells = s.freeCells := rfl
@[simp] theorem State.setDecoder_indexQueue (s : State) (l : Line) (d : Decoder) : (s.setDecoder l d).indexQueue = s.indexQueue := rfl
@[simp] theorem State.setDecoder_indexer (s : State) (l : Line) (d : Decoder) : (s.setDecoder l d).indexer = s.indexer := rfl
@[simp] theorem State.setDecoder_screens (s : State) (l : Line) (d : Decoder) : (s.setDecoder l d).screens = s.screens := rfl
@[simp] theorem State.setDecoder_editions (s : State) (l : Line) (d : Decoder) : (s.setDecoder l d).editions = s.editions := rfl
@[simp] theorem State.setDecoder_clock (s : State) (l : Line) (d : Decoder) : (s.setDecoder l d).clock = s.clock := rfl
@[simp] theorem State.setDecoder_plates (s : State) (l : Line) (d : Decoder) : (s.setDecoder l d).plates = s.plates := rfl
@[simp] theorem State.setDecoder_arrival (s : State) (l : Line) (d : Decoder) : (s.setDecoder l d).arrival = s.arrival := rfl
@[simp] theorem State.setDecoder_serialNext (s : State) (l : Line) (d : Decoder) : (s.setDecoder l d).serialNext = s.serialNext := rfl
@[simp] theorem State.setDecoder_channels (s : State) (l : Line) (d : Decoder) : (s.setDecoder l d).channels = s.channels := rfl
@[simp] theorem State.setDecoder_engine (s : State) (l : Line) (d : Decoder) : (s.setDecoder l d).engine = s.engine := rfl
@[simp] theorem State.setDecoder_lastChosen (s : State) (l : Line) (d : Decoder) : (s.setDecoder l d).lastChosen = s.lastChosen := rfl
@[simp] theorem State.setDecoder_mode (s : State) (l : Line) (d : Decoder) : (s.setDecoder l d).mode = s.mode := rfl
@[simp] theorem State.setDecoder_renderUnit (s : State) (l : Line) (d : Decoder) : (s.setDecoder l d).renderUnit = s.renderUnit := rfl
@[simp] theorem State.setDecoder_exposureTable (s : State) (l : Line) (d : Decoder) : (s.setDecoder l d).exposureTable = s.exposureTable := rfl
@[simp] theorem State.setDecoder_settings (s : State) (l : Line) (d : Decoder) : (s.setDecoder l d).settings = s.settings := rfl
@[simp] theorem State.setDecoder_queues (s : State) (l : Line) (d : Decoder) : (s.setDecoder l d).queues = s.queues := rfl
@[simp] theorem State.setDecoder_incidents (s : State) (l : Line) (d : Decoder) : (s.setDecoder l d).incidents = s.incidents := rfl
@[simp] theorem State.setDecoder_lost (s : State) (l : Line) (d : Decoder) : (s.setDecoder l d).lost = s.lost := rfl
@[simp] theorem State.setDecoder_replies (s : State) (l : Line) (d : Decoder) : (s.setDecoder l d).replies = s.replies := rfl
@[simp] theorem State.setDecoder_resetAsserted (s : State) (l : Line) (d : Decoder) : (s.setDecoder l d).resetAsserted = s.resetAsserted := rfl
@[simp] theorem State.setDecoder_freeCount (s : State) (l : Line) (d : Decoder) : (s.setDecoder l d).freeCount = s.freeCount := rfl
@[simp] theorem State.setDecoder_pending (s : State) (l : Line) (d : Decoder) : (s.setDecoder l d).pending = s.pending := rfl
@[simp] theorem State.setDecoder_page (s : State) (l : Line) (d : Decoder) (k : Fin 64) : (s.setDecoder l d).page k = s.page k := rfl
@[simp] theorem State.setDecoder_plate (s : State) (l : Line) (d : Decoder) (k : Fin 128) : (s.setDecoder l d).plate k = s.plate k := rfl
@[simp] theorem State.setDecoder_channel (s : State) (l : Line) (d : Decoder) (k : Line) : (s.setDecoder l d).channel k = s.channel k := rfl
@[simp] theorem State.setDecoder_queue (s : State) (l : Line) (d : Decoder) (k : Line) : (s.setDecoder l d).queue k = s.queue k := rfl
@[simp] theorem State.setDecoder_lineSettings (s : State) (l : Line) (d : Decoder) (k : Line) : (s.setDecoder l d).lineSettings k = s.lineSettings k := rfl
@[simp] theorem State.setDecoder_editionOf (s : State) (l : Line) (d : Decoder) (k : Label) : (s.setDecoder l d).editionOf k = s.editionOf k := rfl

/-! ## setQueue -/

@[simp] theorem State.setQueue_pages (s : State) (l : Line) (q : List VerifyEntry) : (s.setQueue l q).pages = s.pages := rfl
@[simp] theorem State.setQueue_openOrder (s : State) (l : Line) (q : List VerifyEntry) : (s.setQueue l q).openOrder = s.openOrder := rfl
@[simp] theorem State.setQueue_link (s : State) (l : Line) (q : List VerifyEntry) : (s.setQueue l q).link = s.link := rfl
@[simp] theorem State.setQueue_freeCells (s : State) (l : Line) (q : List VerifyEntry) : (s.setQueue l q).freeCells = s.freeCells := rfl
@[simp] theorem State.setQueue_indexQueue (s : State) (l : Line) (q : List VerifyEntry) : (s.setQueue l q).indexQueue = s.indexQueue := rfl
@[simp] theorem State.setQueue_indexer (s : State) (l : Line) (q : List VerifyEntry) : (s.setQueue l q).indexer = s.indexer := rfl
@[simp] theorem State.setQueue_screens (s : State) (l : Line) (q : List VerifyEntry) : (s.setQueue l q).screens = s.screens := rfl
@[simp] theorem State.setQueue_editions (s : State) (l : Line) (q : List VerifyEntry) : (s.setQueue l q).editions = s.editions := rfl
@[simp] theorem State.setQueue_clock (s : State) (l : Line) (q : List VerifyEntry) : (s.setQueue l q).clock = s.clock := rfl
@[simp] theorem State.setQueue_plates (s : State) (l : Line) (q : List VerifyEntry) : (s.setQueue l q).plates = s.plates := rfl
@[simp] theorem State.setQueue_arrival (s : State) (l : Line) (q : List VerifyEntry) : (s.setQueue l q).arrival = s.arrival := rfl
@[simp] theorem State.setQueue_serialNext (s : State) (l : Line) (q : List VerifyEntry) : (s.setQueue l q).serialNext = s.serialNext := rfl
@[simp] theorem State.setQueue_channels (s : State) (l : Line) (q : List VerifyEntry) : (s.setQueue l q).channels = s.channels := rfl
@[simp] theorem State.setQueue_engine (s : State) (l : Line) (q : List VerifyEntry) : (s.setQueue l q).engine = s.engine := rfl
@[simp] theorem State.setQueue_lastChosen (s : State) (l : Line) (q : List VerifyEntry) : (s.setQueue l q).lastChosen = s.lastChosen := rfl
@[simp] theorem State.setQueue_mode (s : State) (l : Line) (q : List VerifyEntry) : (s.setQueue l q).mode = s.mode := rfl
@[simp] theorem State.setQueue_renderUnit (s : State) (l : Line) (q : List VerifyEntry) : (s.setQueue l q).renderUnit = s.renderUnit := rfl
@[simp] theorem State.setQueue_exposureTable (s : State) (l : Line) (q : List VerifyEntry) : (s.setQueue l q).exposureTable = s.exposureTable := rfl
@[simp] theorem State.setQueue_settings (s : State) (l : Line) (q : List VerifyEntry) : (s.setQueue l q).settings = s.settings := rfl
@[simp] theorem State.setQueue_decoders (s : State) (l : Line) (q : List VerifyEntry) : (s.setQueue l q).decoders = s.decoders := rfl
@[simp] theorem State.setQueue_incidents (s : State) (l : Line) (q : List VerifyEntry) : (s.setQueue l q).incidents = s.incidents := rfl
@[simp] theorem State.setQueue_lost (s : State) (l : Line) (q : List VerifyEntry) : (s.setQueue l q).lost = s.lost := rfl
@[simp] theorem State.setQueue_replies (s : State) (l : Line) (q : List VerifyEntry) : (s.setQueue l q).replies = s.replies := rfl
@[simp] theorem State.setQueue_resetAsserted (s : State) (l : Line) (q : List VerifyEntry) : (s.setQueue l q).resetAsserted = s.resetAsserted := rfl
@[simp] theorem State.setQueue_freeCount (s : State) (l : Line) (q : List VerifyEntry) : (s.setQueue l q).freeCount = s.freeCount := rfl
@[simp] theorem State.setQueue_pending (s : State) (l : Line) (q : List VerifyEntry) : (s.setQueue l q).pending = s.pending := rfl
@[simp] theorem State.setQueue_page (s : State) (l : Line) (q : List VerifyEntry) (k : Fin 64) : (s.setQueue l q).page k = s.page k := rfl
@[simp] theorem State.setQueue_plate (s : State) (l : Line) (q : List VerifyEntry) (k : Fin 128) : (s.setQueue l q).plate k = s.plate k := rfl
@[simp] theorem State.setQueue_channel (s : State) (l : Line) (q : List VerifyEntry) (k : Line) : (s.setQueue l q).channel k = s.channel k := rfl
@[simp] theorem State.setQueue_decoder (s : State) (l : Line) (q : List VerifyEntry) (k : Line) : (s.setQueue l q).decoder k = s.decoder k := rfl
@[simp] theorem State.setQueue_lineSettings (s : State) (l : Line) (q : List VerifyEntry) (k : Line) : (s.setQueue l q).lineSettings k = s.lineSettings k := rfl
@[simp] theorem State.setQueue_editionOf (s : State) (l : Line) (q : List VerifyEntry) (k : Label) : (s.setQueue l q).editionOf k = s.editionOf k := rfl

/-! ## setReply -/

@[simp] theorem State.setReply_pages (s : State) (p : Port) (r : Reply) : (s.setReply p r).pages = s.pages := rfl
@[simp] theorem State.setReply_openOrder (s : State) (p : Port) (r : Reply) : (s.setReply p r).openOrder = s.openOrder := rfl
@[simp] theorem State.setReply_link (s : State) (p : Port) (r : Reply) : (s.setReply p r).link = s.link := rfl
@[simp] theorem State.setReply_freeCells (s : State) (p : Port) (r : Reply) : (s.setReply p r).freeCells = s.freeCells := rfl
@[simp] theorem State.setReply_indexQueue (s : State) (p : Port) (r : Reply) : (s.setReply p r).indexQueue = s.indexQueue := rfl
@[simp] theorem State.setReply_indexer (s : State) (p : Port) (r : Reply) : (s.setReply p r).indexer = s.indexer := rfl
@[simp] theorem State.setReply_screens (s : State) (p : Port) (r : Reply) : (s.setReply p r).screens = s.screens := rfl
@[simp] theorem State.setReply_editions (s : State) (p : Port) (r : Reply) : (s.setReply p r).editions = s.editions := rfl
@[simp] theorem State.setReply_clock (s : State) (p : Port) (r : Reply) : (s.setReply p r).clock = s.clock := rfl
@[simp] theorem State.setReply_plates (s : State) (p : Port) (r : Reply) : (s.setReply p r).plates = s.plates := rfl
@[simp] theorem State.setReply_arrival (s : State) (p : Port) (r : Reply) : (s.setReply p r).arrival = s.arrival := rfl
@[simp] theorem State.setReply_serialNext (s : State) (p : Port) (r : Reply) : (s.setReply p r).serialNext = s.serialNext := rfl
@[simp] theorem State.setReply_channels (s : State) (p : Port) (r : Reply) : (s.setReply p r).channels = s.channels := rfl
@[simp] theorem State.setReply_engine (s : State) (p : Port) (r : Reply) : (s.setReply p r).engine = s.engine := rfl
@[simp] theorem State.setReply_lastChosen (s : State) (p : Port) (r : Reply) : (s.setReply p r).lastChosen = s.lastChosen := rfl
@[simp] theorem State.setReply_mode (s : State) (p : Port) (r : Reply) : (s.setReply p r).mode = s.mode := rfl
@[simp] theorem State.setReply_renderUnit (s : State) (p : Port) (r : Reply) : (s.setReply p r).renderUnit = s.renderUnit := rfl
@[simp] theorem State.setReply_exposureTable (s : State) (p : Port) (r : Reply) : (s.setReply p r).exposureTable = s.exposureTable := rfl
@[simp] theorem State.setReply_settings (s : State) (p : Port) (r : Reply) : (s.setReply p r).settings = s.settings := rfl
@[simp] theorem State.setReply_decoders (s : State) (p : Port) (r : Reply) : (s.setReply p r).decoders = s.decoders := rfl
@[simp] theorem State.setReply_queues (s : State) (p : Port) (r : Reply) : (s.setReply p r).queues = s.queues := rfl
@[simp] theorem State.setReply_incidents (s : State) (p : Port) (r : Reply) : (s.setReply p r).incidents = s.incidents := rfl
@[simp] theorem State.setReply_lost (s : State) (p : Port) (r : Reply) : (s.setReply p r).lost = s.lost := rfl
@[simp] theorem State.setReply_resetAsserted (s : State) (p : Port) (r : Reply) : (s.setReply p r).resetAsserted = s.resetAsserted := rfl
@[simp] theorem State.setReply_freeCount (s : State) (p : Port) (r : Reply) : (s.setReply p r).freeCount = s.freeCount := rfl
@[simp] theorem State.setReply_pending (s : State) (p : Port) (r : Reply) : (s.setReply p r).pending = s.pending := rfl
@[simp] theorem State.setReply_page (s : State) (p : Port) (r : Reply) (k : Fin 64) : (s.setReply p r).page k = s.page k := rfl
@[simp] theorem State.setReply_plate (s : State) (p : Port) (r : Reply) (k : Fin 128) : (s.setReply p r).plate k = s.plate k := rfl
@[simp] theorem State.setReply_channel (s : State) (p : Port) (r : Reply) (k : Line) : (s.setReply p r).channel k = s.channel k := rfl
@[simp] theorem State.setReply_decoder (s : State) (p : Port) (r : Reply) (k : Line) : (s.setReply p r).decoder k = s.decoder k := rfl
@[simp] theorem State.setReply_queue (s : State) (p : Port) (r : Reply) (k : Line) : (s.setReply p r).queue k = s.queue k := rfl
@[simp] theorem State.setReply_lineSettings (s : State) (p : Port) (r : Reply) (k : Line) : (s.setReply p r).lineSettings k = s.lineSettings k := rfl
@[simp] theorem State.setReply_editionOf (s : State) (p : Port) (r : Reply) (k : Label) : (s.setReply p r).editionOf k = s.editionOf k := rfl

/-! ## What a reader reads after an update of its own field -/

@[simp] theorem State.page_setPage_self (s : State) (h : Fin 64) (v : Option Page) : (s.setPage h v).page h = v := by
  simp [State.page, State.setPage]

theorem State.page_setPage_of_ne (s : State) {h k : Fin 64} (v : Option Page) (hk : k ≠ h) :
    (s.setPage h v).page k = s.page k := by
  have : (h : Nat) ≠ k := fun e => hk (Fin.ext e.symm)
  simp [State.page, State.setPage, this]

theorem State.page_setPage (s : State) (h k : Fin 64) (v : Option Page) :
    (s.setPage h v).page k = if k = h then v else s.page k := by
  split
  · next e => subst e; exact State.page_setPage_self s k v
  · next e => exact State.page_setPage_of_ne s v e

@[simp] theorem State.plate_setPlate_self (s : State) (i : Fin 128) (v : Option Plate) :
    (s.setPlate i v).plate i = v := by
  simp [State.plate, State.setPlate]

theorem State.plate_setPlate_of_ne (s : State) {i k : Fin 128} (v : Option Plate) (hk : k ≠ i) :
    (s.setPlate i v).plate k = s.plate k := by
  have : (i : Nat) ≠ k := fun e => hk (Fin.ext e.symm)
  simp [State.plate, State.setPlate, this]

theorem State.plate_setPlate (s : State) (i k : Fin 128) (v : Option Plate) :
    (s.setPlate i v).plate k = if k = i then v else s.plate k := by
  split
  · next e => subst e; exact State.plate_setPlate_self s k v
  · next e => exact State.plate_setPlate_of_ne s v e

@[simp] theorem Lines.get_set_self {α : Type} (x : Lines α) (l : Line) (v : α) : (x.set l v).get l = v := by
  cases l <;> rfl

theorem Lines.get_set_of_ne {α : Type} (x : Lines α) {l k : Line} (v : α) (hk : k ≠ l) : (x.set l v).get k = x.get k := by
  cases l <;> cases k <;> first | rfl | exact absurd rfl hk

@[simp] theorem State.channel_setChannel_self (s : State) (l : Line) (c : Channel) : (s.setChannel l c).channel l = c :=
  Lines.get_set_self _ _ _

theorem State.channel_setChannel_of_ne (s : State) {l k : Line} (c : Channel) (hk : k ≠ l) :
    (s.setChannel l c).channel k = s.channel k := Lines.get_set_of_ne _ _ hk

@[simp] theorem State.decoder_setDecoder_self (s : State) (l : Line) (d : Decoder) : (s.setDecoder l d).decoder l = d :=
  Lines.get_set_self _ _ _

theorem State.decoder_setDecoder_of_ne (s : State) {l k : Line} (d : Decoder) (hk : k ≠ l) :
    (s.setDecoder l d).decoder k = s.decoder k := Lines.get_set_of_ne _ _ hk

@[simp] theorem State.queue_setQueue_self (s : State) (l : Line) (q : List VerifyEntry) : (s.setQueue l q).queue l = q :=
  Lines.get_set_self _ _ _

theorem State.queue_setQueue_of_ne (s : State) {l k : Line} (q : List VerifyEntry) (hk : k ≠ l) :
    (s.setQueue l q).queue k = s.queue k := Lines.get_set_of_ne _ _ hk

@[simp] theorem State.replies_setReply (s : State) (p : Port) (r : Reply) :
    (s.setReply p r).replies = s.replies.set p (some r) := rfl

@[simp] theorem Replies.get_set_self (x : Replies) (p : Port) (v : Option Reply) : (x.set p v).get p = v := by
  cases p <;> rfl

theorem Replies.get_set_of_ne (x : Replies) {p q : Port} (v : Option Reply) (h : q ≠ p) : (x.set p v).get q = x.get q := by
  cases p <;> cases q <;> first | rfl | exact absurd rfl h

end Sys2Proof.Machine
end

