-- ==== Sys2Proof/Laws/Ops.lean ====
section
/-! SUPPORT. For each shared operation, what it can change and what it leaves: a `_frame` lemma names the fields that may
differ and so says that every other field is kept; a second lemma says what a reader reads afterwards. -/

namespace Sys2Proof.Machine

open Sys2Proof

/-! ## Incidents -/

theorem State.raise_frame (s : State) (i : Incident) :
    s.raise i = { s with incidents := (s.raise i).incidents, lost := (s.raise i).lost } := by
  unfold State.raise; split <;> rfl

theorem State.raise_recorded (s : State) (i : Incident) : s.recorded (s.raise i) i := by
  constructor <;> intro h
  · simp [State.raise, Config.maxIncidents, h]
  · simp [State.raise, Config.maxIncidents, Config.maxCount, Nat.not_lt.mpr h]

theorem State.raise_length_le (s : State) (i : Incident) (h : s.incidents.length ≤ 255) :
    (s.raise i).incidents.length ≤ 255 := by
  unfold State.raise
  split
  · next g => simp only [Config.maxIncidents] at g; simp; omega
  · exact h

theorem State.resolve_eq (s : State) (q : Incident → Bool) :
    s.resolve q = { s with incidents := resolvedWhere q s.incidents } := rfl

theorem State.raiseBadSegment_frame (s : State) (h : Fin 64) (n : Nat) (i : Incident) :
    s.raiseBadSegment h n i =
      { s with incidents := (s.raiseBadSegment h n i).incidents, lost := (s.raiseBadSegment h n i).lost } := by
  unfold State.raiseBadSegment; split
  · rfl
  · exact s.raise_frame i

/-! ## Pages and plates -/

theorem State.modifyPage_frame (s : State) (h : Fin 64) (f : Page → Page) :
    s.modifyPage h f = { s with pages := (s.modifyPage h f).pages } := by
  unfold State.modifyPage; split <;> rfl

theorem State.modifyPage_page (s : State) (h k : Fin 64) (f : Page → Page) :
    (s.modifyPage h f).page k = if k = h then (s.page h).map f else s.page k := by
  unfold State.modifyPage
  split
  · next p e => rw [State.page_setPage]; simp [e]
  · next e => split
              · next g => subst g; simp [e]
              · rfl

theorem State.modifyPlate_frame (s : State) (i : Fin 128) (f : Plate → Plate) :
    s.modifyPlate i f = { s with plates := (s.modifyPlate i f).plates } := by
  unfold State.modifyPlate; split <;> rfl

theorem State.modifyPlate_plate (s : State) (i k : Fin 128) (f : Plate → Plate) :
    (s.modifyPlate i f).plate k = if k = i then (s.plate i).map f else s.plate k := by
  unfold State.modifyPlate
  split
  · next p e => rw [State.plate_setPlate]; simp [e]
  · next e => split
              · next g => subst g; simp [e]
              · rfl

theorem State.retain_frame (s : State) (h : Fin 64) : s.retain h = { s with pages := (s.retain h).pages } :=
  s.modifyPage_frame h _

theorem State.takeForIndexing_frame (s : State) :
    s.takeForIndexing =
      { s with indexQueue := s.takeForIndexing.indexQueue, indexer := s.takeForIndexing.indexer } := by
  unfold State.takeForIndexing; split <;> rfl

theorem State.takeForIndexing_idle (s : State) (e : s.indexer = none) :
    s.takeForIndexing.indexer = s.indexQueue.head? ∧ s.takeForIndexing.indexQueue = s.indexQueue.tail := by
  unfold State.takeForIndexing
  cases hq : s.indexQueue <;> simp [e, hq]

theorem State.stopIndexing_frame (s : State) (h : Fin 64) :
    s.stopIndexing h =
      { s with indexQueue := (s.stopIndexing h).indexQueue, indexer := (s.stopIndexing h).indexer } := by
  unfold State.stopIndexing
  simp only
  split
  · rw [State.takeForIndexing_frame]
  · rfl

/-- What stopping the indexing of a page does to the index queue and the indexer (R44, R45). -/
theorem State.stopIndexing_left (s : State) (h : Fin 64) : s.leftIndexing (s.stopIndexing h) h := by
  unfold State.leftIndexing State.stopIndexing
  simp only
  split
  · exact State.takeForIndexing_idle { s with indexQueue := s.indexQueue.filter (· != h), indexer := none } rfl
  · exact ⟨rfl, rfl⟩

/-- A handle that has left is neither on the queue nor in the indexer. -/
theorem State.leftIndexing.gone {s t : State} {h : Fin 64} (e : s.leftIndexing t h) :
    h ∉ t.indexQueue ∧ t.indexer ≠ some h := by
  unfold State.leftIndexing at e
  split at e
  · rw [e.1, e.2]
    constructor
    · intro m; have := List.mem_of_mem_tail m; simp at this
    · intro m; have := List.mem_of_head? m; simp at this
  · next g => rw [e.1, e.2]; exact ⟨by simp, g⟩

theorem State.freeEntry_frame (s : State) (h : Fin 64) :
    s.freeEntry h =
      { s with
        pages := (s.freeEntry h).pages, freeCells := (s.freeEntry h).freeCells
        openOrder := (s.freeEntry h).openOrder, indexQueue := (s.freeEntry h).indexQueue
        indexer := (s.freeEntry h).indexer, incidents := (s.freeEntry h).incidents } := by
  unfold State.freeEntry
  split
  · rfl
  · simp only
    rw [State.stopIndexing_frame]
    rfl

/-- Freeing a live entry does what R17 says and nothing else. -/
theorem State.freeEntry_freed (s : State) (h : Fin 64) (p : Page) (e : s.page h = some p) :
    s.entryFreed (s.freeEntry h) h p := by
  refine ⟨?_, ?_, ?_, ?_, ?_, ?_, s.freeEntry_frame h⟩ <;> simp only [State.freeEntry, e]
  · simp
  · intro k hk
    rw [State.page_setPage_of_ne _ _ hk, State.resolve_eq, State.stopIndexing_frame]
    rfl
  · rw [State.stopIndexing_frame]; rfl
  · rw [State.stopIndexing_frame]; rfl
  · exact State.stopIndexing_left
      { s with freeCells := s.freeCells + cellsOf p.held, openOrder := s.openOrder.filter (· != h) } h
  · rw [State.stopIndexing_frame]; rfl

theorem State.freeIfUnused_frame (s : State) (h : Fin 64) :
    s.freeIfUnused h =
      { s with
        pages := (s.freeIfUnused h).pages, freeCells := (s.freeIfUnused h).freeCells
        openOrder := (s.freeIfUnused h).openOrder, indexQueue := (s.freeIfUnused h).indexQueue
        indexer := (s.freeIfUnused h).indexer, incidents := (s.freeIfUnused h).incidents } := by
  unfold State.freeIfUnused
  split
  · split
    · exact s.freeEntry_frame h
    · rfl
  · rfl

theorem State.release_frame (s : State) (h : Fin 64) :
    s.release h =
      { s with
        pages := (s.release h).pages, freeCells := (s.release h).freeCells, openOrder := (s.release h).openOrder
        indexQueue := (s.release h).indexQueue, indexer := (s.release h).indexer
        incidents := (s.release h).incidents } := by
  unfold State.release
  rw [State.freeIfUnused_frame, State.modifyPage_frame]

theorem State.freePlate_frame (s : State) (i : Fin 128) :
    s.freePlate i =
      { s with
        plates := (s.freePlate i).plates, pages := (s.freePlate i).pages, freeCells := (s.freePlate i).freeCells
        openOrder := (s.freePlate i).openOrder, indexQueue := (s.freePlate i).indexQueue
        indexer := (s.freePlate i).indexer, incidents := (s.freePlate i).incidents } := by
  unfold State.freePlate
  split
  · rfl
  · split
    · rfl
    · rw [State.release_frame]; rfl

theorem State.freePlate_plate (s : State) (i k : Fin 128) :
    (s.freePlate i).plate k = if k = i then none else s.plate k := by
  unfold State.freePlate
  split
  · next e => split
              · next g => subst g; exact e
              · rfl
  · split
    · exact State.plate_setPlate _ _ _ _
    · rw [State.release_frame]; exact State.plate_setPlate _ _ _ _

theorem State.freeIfSpent_frame (s : State) (i : Fin 128) :
    s.freeIfSpent i =
      { s with
        plates := (s.freeIfSpent i).plates, pages := (s.freeIfSpent i).pages
        freeCells := (s.freeIfSpent i).freeCells, openOrder := (s.freeIfSpent i).openOrder
        indexQueue := (s.freeIfSpent i).indexQueue, indexer := (s.freeIfSpent i).indexer
        incidents := (s.freeIfSpent i).incidents } := by
  unfold State.freeIfSpent
  split
  · split
    · exact s.freePlate_frame i
    · rfl
  · rfl

theorem State.freeIfSpent_plate (s : State) (i k : Fin 128) :
    (s.freeIfSpent i).plate k =
      if k = i then (s.plate i).bind fun r => if r.spent then none else some r else s.plate k := by
  unfold State.freeIfSpent
  split
  · next r e =>
    split
    · next g => rw [State.freePlate_plate]; split <;> simp [e, g]
    · next g => split
                · next q => subst q; simp [e, g]
                · rfl
  · next e => split
              · next q => subst q; simp [e]
              · rfl

theorem State.damageCopy_frame (s : State) (i : Fin 128) (st : Stage) (k : IncidentKind) (c : CopyIdentity) :
    (s.damageCopy i st k c).1 =
      { s with
        plates := (s.damageCopy i st k c).1.plates, incidents := (s.damageCopy i st k c).1.incidents
        lost := (s.damageCopy i st k c).1.lost } := by
  unfold State.damageCopy
  split
  · rfl
  · simp only; rw [State.raise_frame]; rfl

theorem State.countSets_frame (s : State) (f : Nat → Nat) (g : List (Fin 8)) :
    s.countSets f g = { s with screens := (s.countSets f g).screens } := rfl

/-! ## The accounting law under each move of a copy (R99) -/

theorem Plate.create_accounted (l : Label) (h : Option (Fin 64)) (sp : Sep) (c : LineChoice) (n st : Nat) (o : Origin)
    (a : BitVec 32) : (Plate.create l h sp c n st o a).accounted := by
  simp [Plate.create, Plate.accounted]

theorem Plate.withdrawAll_accounted (r : Plate) (e : r.accounted) : r.withdrawAll.accounted := by
  simp only [Plate.accounted, Plate.withdrawAll] at *; omega

theorem Plate.failAll_accounted (r : Plate) (e : r.accounted) : r.failAll.accounted := by
  simp only [Plate.accounted, Plate.failAll] at *; omega

theorem Plate.beginCopy_accounted (r : Plate) (e : r.accounted) : r.beginCopy.accounted := by
  simp only [Plate.accounted, Plate.beginCopy] at *; split
  · dsimp only; omega
  · exact e

theorem Plate.awaitCopy_accounted (r : Plate) (e : r.accounted) : r.awaitCopy.accounted := by
  simp only [Plate.accounted, Plate.awaitCopy] at *; split
  · dsimp only; omega
  · exact e

theorem Plate.returnCopy_accounted (r : Plate) (e : r.accounted) : r.returnCopy.accounted := by
  simp only [Plate.accounted, Plate.returnCopy] at *
  split
  · split <;> simp only <;> omega
  · exact e

theorem Plate.settleGood_accounted (st : Stage) (r : Plate) (e : r.accounted) : (r.settleGood st).accounted := by
  simp only [Plate.accounted, Plate.settleGood] at *
  split
  · next g => cases st <;> simp only [Plate.inStage, Plate.takeOut] at * <;> split <;> simp only <;> omega
  · exact e

theorem Plate.settleDamaged_accounted (st : Stage) (k : IncidentKind) (n : Nat) (r : Plate) (e : r.accounted) :
    (r.settleDamaged st k n).accounted := by
  simp only [Plate.accounted, Plate.settleDamaged] at *
  split
  · next g => cases st <;> simp only [Plate.inStage, Plate.takeOut] at * <;> split <;> simp only <;> omega
  · exact e

/-! ## Verify queues -/

theorem State.settleVerified_frame (s : State) (e : VerifyEntry) :
    s.settleVerified e =
      { s with
        plates := (s.settleVerified e).plates, pages := (s.settleVerified e).pages
        freeCells := (s.settleVerified e).freeCells, openOrder := (s.settleVerified e).openOrder
        indexQueue := (s.settleVerified e).indexQueue, indexer := (s.settleVerified e).indexer
        incidents := (s.settleVerified e).incidents } := by
  unfold State.settleVerified
  rw [State.freeIfSpent_frame, State.modifyPlate_frame]

theorem State.settleLost_frame (s : State) (e : VerifyEntry) (k : IncidentKind) :
    s.settleLost e k =
      { s with
        plates := (s.settleLost e k).plates, pages := (s.settleLost e k).pages
        freeCells := (s.settleLost e k).freeCells, openOrder := (s.settleLost e k).openOrder
        indexQueue := (s.settleLost e k).indexQueue, indexer := (s.settleLost e k).indexer
        incidents := (s.settleLost e k).incidents, lost := (s.settleLost e k).lost } := by
  unfold State.settleLost
  rw [State.freeIfSpent_frame, State.damageCopy_frame]

theorem State.removeOverdue_frame (l : Line) (n : Nat) (s : State) :
    State.removeOverdue l n s =
      { s with
        queues := (State.removeOverdue l n s).queues, plates := (State.removeOverdue l n s).plates
        pages := (State.removeOverdue l n s).pages, freeCells := (State.removeOverdue l n s).freeCells
        openOrder := (State.removeOverdue l n s).openOrder, indexQueue := (State.removeOverdue l n s).indexQueue
        indexer := (State.removeOverdue l n s).indexer, incidents := (State.removeOverdue l n s).incidents
        lost := (State.removeOverdue l n s).lost } := by
  induction n generalizing s with
  | zero => rfl
  | succ n ih =>
    unfold State.removeOverdue
    split
    · split
      · rw [ih, State.settleLost_frame]; rfl
      · rfl
    · rfl

theorem State.overdueTest_frame (s : State) (l : Line) :
    s.overdueTest l =
      { s with
        queues := (s.overdueTest l).queues, plates := (s.overdueTest l).plates, pages := (s.overdueTest l).pages
        freeCells := (s.overdueTest l).freeCells, openOrder := (s.overdueTest l).openOrder
        indexQueue := (s.overdueTest l).indexQueue, indexer := (s.overdueTest l).indexer
        incidents := (s.overdueTest l).incidents, lost := (s.overdueTest l).lost } :=
  State.removeOverdue_frame l _ s

/-- With no timeout in force, or a head that is not overdue, the overdue test removes nothing (R159). -/
theorem State.overdueTest_idle (s : State) (l : Line)
    (h : ∀ e ∈ (s.queue l).head?, e.overdue (s.lineSettings l).verifyWindow = false) : s.overdueTest l = s := by
  unfold State.overdueTest
  cases hq : s.queue l with
  | nil => simp [State.removeOverdue]
  | cons e rest =>
    have : e.overdue (s.lineSettings l).verifyWindow = false := h e (by simp [hq])
    simp [State.removeOverdue, hq, this]

/-! ## Taking a command -/

/-- A well-formed request's parameter words can be announced by its header (R183). -/
theorem Instr.announced_of_wf {i : Instr} {p : Port} {code : Word} {ws : List Word} (hw : i.wf = true)
    (he : encodeFrame i = some (p, code, ws)) : announced ws = true := by
  unfold Instr.wf at hw
  split at hw
  · cases he; exact (Bool.and_eq_true _ _ ▸ hw).1
  · rw [he] at hw; exact hw

/-- A frame formed on a port is the one that stands there, whatever stood before (R182, R192). -/
@[simp] theorem State.replyFrame_setReply (s : State) (p : Port) (r : Reply) :
    (s.setReply p r).replyFrame p = some ([word r.status.code, word r.results.length] ++ r.results) := by
  cases p <;> rfl

theorem State.request_running (s : State) (p : Port) (f : State → State × Reply) (h : s.resetAsserted = false) :
    s.request p f = .next ((f s).1.setReply p (f s).2) := by
  simp [State.request, h]

theorem State.event_running (s : State) (f : State → State) (h : s.resetAsserted = false) :
    s.event f = .next (f s) := by
  simp [State.event, h]

end Sys2Proof.Machine
end

