-- ==== Sys2Proof/Laws/Blocks.lean ====
section
/-! SUPPORT. What the shared operations of each block find and what they can change, said once each: a lemma named
_frame says that nothing but the fields it lists changes. -/

namespace Sys2Proof.Machine

open Sys2Proof

/-! ## Finding entries -/

/-- The current entry of a label is the one the catalogue finds (spec/01). -/
theorem State.currentEntry_of_isCurrent {s : State} {l : Label} {h : Fin 64} (hc : s.isCurrent l h) :
    s.currentEntry l = some h := by
  obtain ⟨⟨p, e1, e2, e3⟩, hu⟩ := hc
  cases hq : s.currentEntry l with
  | none =>
    unfold State.currentEntry at hq
    rw [List.find?_eq_none] at hq
    have := hq h (by simp [handles])
    simp [e1, e2, e3] at this
  | some k =>
    unfold State.currentEntry at hq
    have := List.find?_some hq
    cases e : s.page k with
    | none => simp [e] at this
    | some q => simp [e] at this; rw [hu k q e this.1 this.2]

theorem State.currentEntry_of_noCurrent {s : State} {l : Label} (hc : s.noCurrent l) : s.currentEntry l = none := by
  unfold State.currentEntry
  rw [List.find?_eq_none]
  intro k _
  cases e : s.page k with
  | none => simp
  | some p =>
    simp only [Bool.and_eq_true, beq_iff_eq, bne_iff_ne, not_and, not_not]
    exact hc k p e

theorem State.freeHandle_of_lowestFree {s : State} {h : Fin 64} (hf : s.lowestFree h) : s.freeHandle = some h := by
  unfold State.freeHandle handles
  rw [List.find?_eq_some_iff_getElem]
  refine ⟨by simp [hf.1], h.val, by simp, by simp, ?_⟩
  intro j hj
  have := hf.2 ⟨j, by omega⟩ (by simpa [Fin.lt_def] using hj)
  cases e : s.page ⟨j, by omega⟩ <;> simp_all

/-! ## Opening and supersede (R5, R6, R12 to R14) -/

theorem State.orderIncident_frame (s : State) (k : IncidentKind) (h : Fin 64) (r : Plate) (i : Fin 128) :
    s.orderIncident k h r i =
      { s with
        incidents := (s.orderIncident k h r i).incidents, lost := (s.orderIncident k h r i).lost } := by
  exact State.raise_frame _ _

theorem State.attachOne_frame (h : Fin 64) (l : Label) (s : State) (i : Fin 128) :
    State.attachOne h l s i =
      { s with
        plates := (State.attachOne h l s i).plates, pages := (State.attachOne h l s i).pages
        freeCells := (State.attachOne h l s i).freeCells, openOrder := (State.attachOne h l s i).openOrder
        indexQueue := (State.attachOne h l s i).indexQueue, indexer := (State.attachOne h l s i).indexer
        incidents := (State.attachOne h l s i).incidents, lost := (State.attachOne h l s i).lost } := by
  unfold State.attachOne
  split
  · split
    · split
      · rw [State.retain_frame]; rfl
      · rw [State.freePlate_frame, State.orderIncident_frame]
    · rfl
  · rfl

/-- What attaching the waiting records of a label can change (R6). -/
theorem State.attachAll_frame (h : Fin 64) (l : Label) (ids : List (Fin 128)) (s : State) :
    ids.foldl (State.attachOne h l) s =
      { s with
        plates := (ids.foldl (State.attachOne h l) s).plates, pages := (ids.foldl (State.attachOne h l) s).pages
        freeCells := (ids.foldl (State.attachOne h l) s).freeCells
        openOrder := (ids.foldl (State.attachOne h l) s).openOrder
        indexQueue := (ids.foldl (State.attachOne h l) s).indexQueue
        indexer := (ids.foldl (State.attachOne h l) s).indexer
        incidents := (ids.foldl (State.attachOne h l) s).incidents
        lost := (ids.foldl (State.attachOne h l) s).lost } := by
  induction ids generalizing s with
  | nil => rfl
  | cons i is ih => rw [List.foldl_cons, ih, State.attachOne_frame]

theorem State.replaceBy_frame (s : State) (new : Fin 64) (i : Fin 128) (r : Plate) :
    s.replaceBy new i r =
      { s with
        plates := (s.replaceBy new i r).plates, pages := (s.replaceBy new i r).pages
        arrival := (s.replaceBy new i r).arrival, incidents := (s.replaceBy new i r).incidents
        lost := (s.replaceBy new i r).lost } := by
  unfold State.replaceBy
  split
  · rfl
  · split
    · split
      · rw [State.retain_frame]; rfl
      · rw [State.orderIncident_frame]
    · rw [State.orderIncident_frame]

theorem State.replaceOne_frame (old new : Fin 64) (s : State) (i : Fin 128) :
    State.replaceOne old new s i =
      { s with
        plates := (State.replaceOne old new s i).plates, pages := (State.replaceOne old new s i).pages
        arrival := (State.replaceOne old new s i).arrival, incidents := (State.replaceOne old new s i).incidents
        lost := (State.replaceOne old new s i).lost } := by
  unfold State.replaceOne
  split
  · split
    · rw [State.replaceBy_frame]; rfl
    · rfl
  · rfl

theorem State.replaceAll_frame (old new : Fin 64) (ids : List (Fin 128)) (s : State) :
    ids.foldl (State.replaceOne old new) s =
      { s with
        plates := (ids.foldl (State.replaceOne old new) s).plates
        pages := (ids.foldl (State.replaceOne old new) s).pages
        arrival := (ids.foldl (State.replaceOne old new) s).arrival
        incidents := (ids.foldl (State.replaceOne old new) s).incidents
        lost := (ids.foldl (State.replaceOne old new) s).lost } := by
  induction ids generalizing s with
  | nil => rfl
  | cons i is ih => rw [List.foldl_cons, ih, State.replaceOne_frame]

theorem State.repointOne_frame (old new : Fin 64) (s : State) (i : Fin 128) :
    State.repointOne old new s i =
      { s with
        plates := (State.repointOne old new s i).plates, pages := (State.repointOne old new s i).pages
        freeCells := (State.repointOne old new s i).freeCells
        openOrder := (State.repointOne old new s i).openOrder
        indexQueue := (State.repointOne old new s i).indexQueue
        indexer := (State.repointOne old new s i).indexer, incidents := (State.repointOne old new s i).incidents
        lost := (State.repointOne old new s i).lost } := by
  unfold State.repointOne
  split
  · split
    · split
      · rw [State.release_frame, State.retain_frame]; rfl
      · rw [State.freeIfSpent_frame, State.orderIncident_frame]; rfl
    · rfl
  · rfl

theorem State.repointAll_frame (old new : Fin 64) (ids : List (Fin 128)) (s : State) :
    ids.foldl (State.repointOne old new) s =
      { s with
        plates := (ids.foldl (State.repointOne old new) s).plates
        pages := (ids.foldl (State.repointOne old new) s).pages
        freeCells := (ids.foldl (State.repointOne old new) s).freeCells
        openOrder := (ids.foldl (State.repointOne old new) s).openOrder
        indexQueue := (ids.foldl (State.repointOne old new) s).indexQueue
        indexer := (ids.foldl (State.repointOne old new) s).indexer
        incidents := (ids.foldl (State.repointOne old new) s).incidents
        lost := (ids.foldl (State.repointOne old new) s).lost } := by
  induction ids generalizing s with
  | nil => rfl
  | cons i is ih => rw [List.foldl_cons, ih, State.repointOne_frame]

/-- What a supersede can change (R12 to R14). -/
theorem State.supersede_frame (s : State) (old new : Fin 64) :
    s.supersede old new =
      { s with
        plates := (s.supersede old new).plates, pages := (s.supersede old new).pages
        freeCells := (s.supersede old new).freeCells, openOrder := (s.supersede old new).openOrder
        indexQueue := (s.supersede old new).indexQueue, indexer := (s.supersede old new).indexer
        incidents := (s.supersede old new).incidents, lost := (s.supersede old new).lost
        arrival := (s.supersede old new).arrival } := by
  unfold State.supersede
  simp only
  have h1 := State.modifyPage_frame s old fun p => { p with state := .superseded, timer := none }
  generalize (s.modifyPage old fun p => { p with state := .superseded, timer := none }) = a at *
  have h2 := State.stopIndexing_frame a old
  generalize a.stopIndexing old = b at *
  rw [State.resolve_eq]
  have h3 := State.replaceAll_frame old new plateIds
    { b with incidents := resolvedWhere (fun i => i.kind.ofPage && i.handle == some old) b.incidents }
  generalize plateIds.foldl (State.replaceOne old new) _ = c at *
  have h4 := State.repointAll_frame old new plateIds c
  generalize plateIds.foldl (State.repointOne old new) c = d at *
  have h5 := State.freeIfUnused_frame d old
  generalize d.freeIfUnused old = e at *
  rw [h5, h4, h3, h2, h1]

/-! ## Timers and deadlines (R38, R39, R92, R94, R95) -/

theorem State.expireResend_frame (s : State) (h : Fin 64) :
    s.expireResend h =
      { s with
        pages := (s.expireResend h).pages, incidents := (s.expireResend h).incidents
        lost := (s.expireResend h).lost } := by
  unfold State.expireResend
  split
  · split
    · split
      · rw [State.raise_frame]; rfl
      · rfl
    · rfl
  · rfl

theorem State.countResends_frame (s : State) :
    s.countResends =
      { s with
        pages := s.countResends.pages, incidents := s.countResends.incidents, lost := s.countResends.lost } := by
  unfold State.countResends
  generalize handles = hs
  induction hs generalizing s with
  | nil => rfl
  | cons h hs ih => rw [List.foldl_cons, ih, State.expireResend_frame, State.modifyPage_frame]

theorem State.deadlineMissed_frame (e : Fin 16) (s : State) (i : Fin 128) :
    State.deadlineMissed e s i =
      { s with
        incidents := (State.deadlineMissed e s i).incidents, lost := (State.deadlineMissed e s i).lost } := by
  unfold State.deadlineMissed
  split
  · split
    · exact State.raise_frame _ _
    · rfl
  · rfl

theorem State.deadlineMissedAll_frame (e : Fin 16) (ids : List (Fin 128)) (s : State) :
    ids.foldl (State.deadlineMissed e) s =
      { s with
        incidents := (ids.foldl (State.deadlineMissed e) s).incidents
        lost := (ids.foldl (State.deadlineMissed e) s).lost } := by
  induction ids generalizing s with
  | nil => rfl
  | cons i is ih => rw [List.foldl_cons, ih, State.deadlineMissed_frame]

/-- What the expiry of a deadline can change (R94, R95). -/
theorem State.expireDeadline_frame (s : State) (e : Fin 16) :
    s.expireDeadline e =
      { s with
        editions := (s.expireDeadline e).editions, incidents := (s.expireDeadline e).incidents
        lost := (s.expireDeadline e).lost } := by
  unfold State.expireDeadline
  split
  · rw [State.deadlineMissedAll_frame]
  · rfl

theorem State.deadlineCheck_frame (s : State) :
    s.deadlineCheck =
      { s with
        editions := s.deadlineCheck.editions, incidents := s.deadlineCheck.incidents
        lost := s.deadlineCheck.lost } := by
  unfold State.deadlineCheck
  generalize List.finRange 16 = es
  induction es generalizing s with
  | nil => rfl
  | cons e es ih => rw [List.foldl_cons, ih, State.expireDeadline_frame]

/-! ## The verify queues and the end of a strip (R153, R157, R158) -/

theorem State.expel_frame (s : State) (l : Line) :
    s.expel l =
      { s with
        queues := (s.expel l).queues, plates := (s.expel l).plates, pages := (s.expel l).pages
        freeCells := (s.expel l).freeCells, openOrder := (s.expel l).openOrder
        indexQueue := (s.expel l).indexQueue, indexer := (s.expel l).indexer, incidents := (s.expel l).incidents
        lost := (s.expel l).lost } := by
  unfold State.expel
  split
  · split
    · rw [State.overdueTest_frame, State.settleLost_frame]; rfl
    · rfl
  · rfl

/-- What the push of a copy can change (R136, R157). -/
theorem State.pushCopy_frame (s : State) (l : Line) (e : VerifyEntry) :
    s.pushCopy l e =
      { s with
        queues := (s.pushCopy l e).queues, plates := (s.pushCopy l e).plates, pages := (s.pushCopy l e).pages
        freeCells := (s.pushCopy l e).freeCells, openOrder := (s.pushCopy l e).openOrder
        indexQueue := (s.pushCopy l e).indexQueue, indexer := (s.pushCopy l e).indexer
        incidents := (s.pushCopy l e).incidents, lost := (s.pushCopy l e).lost } := by
  unfold State.pushCopy
  rw [State.expel_frame]; rfl

theorem State.passOver_frame (l : Line) (k : Nat) (s : State) :
    State.passOver l k s =
      { s with
        queues := (State.passOver l k s).queues, plates := (State.passOver l k s).plates
        pages := (State.passOver l k s).pages, freeCells := (State.passOver l k s).freeCells
        openOrder := (State.passOver l k s).openOrder, indexQueue := (State.passOver l k s).indexQueue
        indexer := (State.passOver l k s).indexer, incidents := (State.passOver l k s).incidents
        lost := (State.passOver l k s).lost } := by
  induction k generalizing s with
  | zero =>
    unfold State.passOver
    split
    · rw [State.settleVerified_frame]; rfl
    · rfl
  | succ k ih =>
    unfold State.passOver
    split
    · rw [ih, State.settleLost_frame]; rfl
    · rfl

/-- What the judgement of a strip can change (R153, R158). -/
theorem State.judge_frame (s : State) (l : Line) (t : Strip) :
    s.judge l t =
      { s with
        queues := (s.judge l t).queues, plates := (s.judge l t).plates, pages := (s.judge l t).pages
        freeCells := (s.judge l t).freeCells, openOrder := (s.judge l t).openOrder
        indexQueue := (s.judge l t).indexQueue, indexer := (s.judge l t).indexer
        incidents := (s.judge l t).incidents, lost := (s.judge l t).lost } := by
  unfold State.judge
  split
  · split
    · unfold State.settleReadable
      simp only
      split
      · rw [State.overdueTest_frame, State.passOver_frame]
      · rw [State.raise_frame]
    · unfold State.settleUnreadable
      split
      · rw [State.overdueTest_frame, State.settleLost_frame]; rfl
      · rw [State.raise_frame]
  · rfl

theorem Strip.finish_measured (t : Strip) : t.finish.measured = t.measured := by
  unfold Strip.finish
  split
  · unfold Strip.close
    split
    · split
      · rfl
      · split <;> rfl
    · rfl
  · rfl

/-- A largest enabled maximum exists where a window is enabled (R149). -/
theorem MarkTiming.largestMax_isSome (m : MarkTiming) :
    m.largestMax.isSome = (m.start.enabled || m.zero.enabled || m.one.enabled) := by
  unfold MarkTiming.largestMax
  cases h1 : m.start.enabled <;> cases h2 : m.zero.enabled <;> cases h3 : m.one.enabled <;>
    simp [List.filter, h1, h2, h3]

/-- A decoder that returns to IDLE takes the settings as written into force (R146). -/
theorem Decoder.adopt_idle (x : Decoder) (m : MarkTiming) : { x with strip := none }.adopt m = x.idleUnder m := by
  unfold Decoder.adopt Decoder.idleUnder Decoder.afresh
  simp only
  split <;> rfl

/-- A strip at its end is judged against the queue, and its decoder returns to IDLE (R153). -/
theorem State.endStrip_of_strip (s : State) (l : Line) (y : Decoder) (x : Strip) (e : y.strip = some x) :
    (s.setDecoder l y).endStrip l =
      ((s.setDecoder l y).judge l x.finish).setDecoder l (y.idleUnder (s.lineSettings l).mark) := by
  unfold State.endStrip
  simp only [State.decoder_setDecoder_self, e, Decoder.adopt_idle, State.setDecoder_lineSettings]

/-- Sampling keeps the strip (R147). -/
theorem Decoder.see_strip (d : Decoder) (level : Bool) : (d.see level).1.strip = d.strip := by
  unfold Decoder.see
  simp only
  repeat' split
  all_goals rfl

/-- A command that ends a line's strip settles it with the decoder as it then stands (R153). -/
theorem exec_of_stripEndsBy {s : State} {l : Line} {c : Instr} {y : Decoder} {x : Strip} (h : s.resetAsserted = false)
    (e : (s.decoder l).strip = some x) (ends : (s.decoder l).stripEndsBy y l c) :
    exec c s = .next ((s.setDecoder l y).endStrip l) ∧ y.strip = some x := by
  obtain ⟨m, hm, ⟨rfl, rfl, hc⟩ | ⟨level, rfl, hc⟩⟩ := ends
  · refine ⟨?_, e⟩
    simp only [exec, execStripEnd, State.event, h, Decoder.endDue, e, hm]
    have : s.setDecoder l (s.decoder l) = s := by cases l <;> rfl
    rw [this]; simp [hc]
  · have ht : (s.decoder l).tick level = (y, true) := by
      unfold Decoder.tick Decoder.endsNow Decoder.counted
      simp only [e, hm, Option.getD_some]
      rcases hc with ⟨h1, h2, h3, rfl⟩ | ⟨rfl, h2, rfl⟩
      · have : m ≠ 65535 := by omega
        have e2 : min (m + 1) Config.maxCount = m + 1 := by simp only [Config.maxCount]; omega
        simp [this, h2, h3, e2]
      · simp [h2, Config.maxCount]
    refine ⟨by simp [exec, execMarkTick, State.event, h, ht], ?_⟩
    rcases hc with ⟨-, -, -, rfl⟩ | ⟨-, -, rfl⟩ <;> exact (Decoder.see_strip _ _).trans e

/-! ## The channels (R125, R127, R130, R132, R139) -/

theorem State.discardTask_frame (s : State) (l : Line) :
    s.discardTask l =
      { s with
        engine := (s.discardTask l).engine } := by
  rfl

/-- What an underrun can change (R132). -/
theorem State.underrun_frame (s : State) (l : Line) :
    s.underrun l =
      { s with
        channels := (s.underrun l).channels, engine := (s.underrun l).engine
        freeCount := (s.underrun l).freeCount } := by
  rfl

/-- What a return to IDLE can change (R139). -/
theorem State.returnToIdle_frame (s : State) (l : Line) :
    s.returnToIdle l =
      { s with
        channels := (s.returnToIdle l).channels, engine := (s.returnToIdle l).engine
        screens := (s.returnToIdle l).screens, plates := (s.returnToIdle l).plates
        pages := (s.returnToIdle l).pages, freeCells := (s.returnToIdle l).freeCells
        openOrder := (s.returnToIdle l).openOrder, indexQueue := (s.returnToIdle l).indexQueue
        indexer := (s.returnToIdle l).indexer, incidents := (s.returnToIdle l).incidents } := by
  unfold State.returnToIdle
  split
  · rw [State.freeIfSpent_frame, State.modifyPlate_frame]; rfl
  · rfl

/-- What loading a copy can change (R127, R138). -/
theorem State.loadCopy_frame (s : State) (l : Line) (i : Fin 128) (r : Plate) (p : Page) (n : Nat) (m : Seps (Fin 8))
    (g : List (Fin 8)) :
    s.loadCopy l i r p n m g =
      { s with
        serialNext := (s.loadCopy l i r p n m g).serialNext, plates := (s.loadCopy l i r p n m g).plates
        channels := (s.loadCopy l i r p n m g).channels } := rfl

/-- The in-use count of a set after a group, which names each set once, is taken in use or released (R86, R87). -/
theorem State.countSets_get (s : State) (f : Nat → Nat) (g : List (Fin 8)) (hg : g.Nodup) (k : Fin 8) :
    ((s.countSets f g).screens[k]).content = (s.screens[k]).content ∧
      ((s.countSets f g).screens[k]).inUse = if k ∈ g then f (s.screens[k]).inUse else (s.screens[k]).inUse := by
  unfold State.countSets
  generalize s.screens = v
  induction g generalizing v with
  | nil => simp
  | cons i is ih =>
    obtain ⟨hi, his⟩ := List.nodup_cons.mp hg
    have := ih his (v.set i { v[i] with inUse := f v[i].inUse })
    rw [List.foldl_cons]
    refine ⟨this.1.trans ?_, this.2.trans ?_⟩
    · by_cases hk : i = k
      · subst hk; simp
      · have hn : i.val ≠ k.val := fun e => hk (Fin.ext e)
        simp [hn]
    · by_cases hk : i = k
      · subst hk; simp [hi]
      · have hn : i.val ≠ k.val := fun e => hk (Fin.ext e)
        have hm : (k = i) = False := by simp [Ne.symm hk]
        simp [hn, hm]

/-- ROWS READ finds the rows that stand ready from a row on, up to the first that does not (R130). -/
theorem Channel.rowsFrom_eq (c : Channel) (rows : List Row) (n y : Nat) (hn : rows.length ≤ n)
    (h : ∀ k, k < rows.length → c.rowAt (y + k) = rows[k]?)
    (he : rows.length < n → c.rowAt (y + rows.length) = none) : c.rowsFrom n y = rows := by
  induction rows generalizing n y with
  | nil =>
    cases n with
    | zero => rfl
    | succ n => have := he (by simp); simp at this; simp [Channel.rowsFrom, this]
  | cons a as ih =>
    cases n with
    | zero => simp at hn
    | succ n =>
      have := h 0 (by simp)
      simp at this
      simp only [Channel.rowsFrom, this]
      rw [ih n (y + 1) (by simpa using hn)]
      · intro k hk; have := h (k + 1) (by simp; omega); simpa [Nat.add_assoc, Nat.add_comm 1 k] using this
      · intro hk; have := he (by simp; omega); simpa [Nat.add_assoc, Nat.add_comm 1 as.length] using this

/-! ## Row records and patch heads (R48 to R54, R193) -/

/-- The number of a two-byte form. -/
theorem twoBytes_twoByteForm (n : Nat) (h : n ≤ 65535) :
    twoBytes (BitVec.ofNat 8 (n / 256)) (BitVec.ofNat 8 n) = n := by
  simp only [twoBytes, BitVec.toNat_ofNat]; omega

/-- The two-byte form of the number of two bytes. -/
theorem twoByteForm_twoBytes (hi lo : Byte) : twoByteForm (twoBytes hi lo) = [hi, lo] := by
  have h := hi.isLt; have g := lo.isLt
  simp only [twoByteForm, twoBytes, List.cons.injEq, and_true]
  constructor <;> apply BitVec.eq_of_toNat_eq <;> simp only [BitVec.toNat_ofNat] <;> omega

/-- Run values in their range parse from their bytes, whatever follows (R51, R193). -/
theorem takeRuns_bytes (vs : List Nat) (bs : List Byte) (h : ∀ v ∈ vs, v ≤ 16384) :
    takeRuns vs.length (vs.flatMap twoByteForm ++ bs) = some (vs, bs) := by
  induction vs with
  | nil => rfl
  | cons v vs ih =>
    have hv := h v List.mem_cons_self
    simp only [List.flatMap_cons, twoByteForm, List.cons_append, List.nil_append, List.length_cons, takeRuns,
      twoBytes_twoByteForm v (by omega), hv, if_true]
    rw [ih fun u m => h u (List.mem_cons_of_mem _ m)]
    rfl

/-- What parses as run values is their bytes (R51, R193). -/
theorem takeRuns_some {k : Nat} {bs rest : List Byte} {vs : List Nat} (h : takeRuns k bs = some (vs, rest)) :
    vs.length = k ∧ (∀ v ∈ vs, v ≤ 16384) ∧ bs = vs.flatMap twoByteForm ++ rest := by
  induction k generalizing bs vs with
  | zero => simp only [takeRuns, Option.some.injEq, Prod.mk.injEq] at h; obtain ⟨rfl, rfl⟩ := h; simp
  | succ k ih =>
    match bs, h with
    | hi :: lo :: bs, h =>
      simp only [takeRuns] at h
      split at h
      · next le =>
        simp only [Option.map_eq_some_iff, Prod.exists, Prod.mk.injEq] at h
        obtain ⟨us, _, e, rfl, rfl⟩ := h
        obtain ⟨h1, h2, rfl⟩ := ih e
        refine ⟨by simp [h1], by simpa [le] using h2, ?_⟩
        rw [List.flatMap_cons, twoByteForm_twoBytes]; rfl
      · simp at h

/-- A row record in its ranges parses from its bytes, whatever follows (R49, R193). -/
theorem parseRecord_bytes (r : RowRecord) (bs : List Byte) (h : r.inRange) :
    parseRecord (r.bytes ++ bs) = some (r, bs) := by
  cases r with
  | white n =>
    obtain ⟨h1, h2⟩ := h
    simp [RowRecord.bytes, twoByteForm, parseRecord, twoBytes_twoByteForm n (by omega), h1, h2]
  | repeatRow n =>
    obtain ⟨h1, h2⟩ := h
    simp [RowRecord.bytes, twoByteForm, parseRecord, twoBytes_twoByteForm n (by omega), h1, h2]
  | runs vs =>
    obtain ⟨h1, h2, h3⟩ := h
    have e := takeRuns_bytes vs bs h3
    simp only [RowRecord.bytes, List.cons_append, List.append_assoc]
    rw [show twoByteForm vs.length = [BitVec.ofNat 8 (vs.length / 256), BitVec.ofNat 8 vs.length] from rfl]
    simp [parseRecord, twoBytes_twoByteForm vs.length (by omega), h1, h2, e]

/-- What parses is the bytes of a row record in its ranges (R51, R193). -/
theorem parseRecord_some {bs rest : List Byte} {r : RowRecord} (h : parseRecord bs = some (r, rest)) :
    r.inRange ∧ bs = r.bytes ++ rest := by
  unfold parseRecord at h
  split at h
  · next code hi lo bs =>
    have e := twoByteForm_twoBytes hi lo
    simp only at h
    split at h
    · next hc =>
      split at h
      · next g => simp only [Option.some.injEq, Prod.mk.injEq] at h; obtain ⟨rfl, rfl⟩ := h; simp [RowRecord.inRange, RowRecord.bytes, e, hc, g]
      · simp at h
    · split at h
      · next hc =>
        split at h
        · next g => simp only [Option.some.injEq, Prod.mk.injEq] at h; obtain ⟨rfl, rfl⟩ := h; simp [RowRecord.inRange, RowRecord.bytes, e, hc, g]
        · simp at h
      · split at h
        · next hc =>
          split at h
          · next g =>
            simp only [Option.map_eq_some_iff, Prod.exists, Prod.mk.injEq] at h
            obtain ⟨vs, _, t, rfl, rfl⟩ := h
            obtain ⟨h1, h2, rfl⟩ := takeRuns_some t
            refine ⟨⟨by omega, by omega, h2⟩, ?_⟩
            simp [RowRecord.bytes, h1, e, hc]
          · simp at h
        · simp at h
  · simp at h

/-- Bytes that begin with no row record in its ranges do not parse (R51). -/
theorem parseRecord_none {bs : List Byte} (h : ∀ (r : RowRecord) (tail : List Byte), r.inRange → bs ≠ r.bytes ++ tail) :
    parseRecord bs = none := by
  cases e : parseRecord bs with
  | none => rfl
  | some x => exact absurd (parseRecord_some e).2 (h x.1 x.2 (parseRecord_some e).1)

/-- The walk over the bytes of row records, up to the end of the payload or a defect, which is charged (R49, R51). -/
theorem LineWalk.records_text (w : Nat) (rs : List RowRecord) (rest : List Byte) (hr : ∀ r ∈ rs, r.inRange)
    (hd : ∀ (r : RowRecord) (tail : List Byte), r.inRange → rest ≠ r.bytes ++ tail) (fuel : Nat) (x : LineWalk)
    (hf : (rs.flatMap RowRecord.bytes ++ rest).length ≤ fuel) :
    LineWalk.records w fuel x (rs.flatMap RowRecord.bytes ++ rest) =
      if rest = [] then rs.foldl (LineWalk.record w) x else (rs.foldl (LineWalk.record w) x).charge .syntaxDefect := by
  induction rs generalizing fuel x with
  | nil =>
    cases rest with
    | nil => cases fuel <;> rfl
    | cons b bs =>
      cases fuel with
      | zero => simp at hf
      | succ n => simp [LineWalk.records, parseRecord_none hd]
  | cons r rs ih =>
    have e : (r :: rs).flatMap RowRecord.bytes ++ rest = r.bytes ++ (rs.flatMap RowRecord.bytes ++ rest) := by simp
    rw [e] at hf ⊢
    have hp := parseRecord_bytes r (rs.flatMap RowRecord.bytes ++ rest) (hr r List.mem_cons_self)
    obtain ⟨b, bs, hb⟩ : ∃ b bs, r.bytes = b :: bs := by cases r <;> exact ⟨_, _, rfl⟩
    cases fuel with
    | zero => simp [hb] at hf
    | succ n =>
      rw [hb] at hp hf ⊢
      simp only [List.cons_append] at hp ⊢
      simp only [LineWalk.records, hp, List.foldl_cons]
      refine ih (fun u m => hr u (List.mem_cons_of_mem _ m)) n _ ?_
      simp only [List.cons_append, List.length_cons, List.length_append] at hf ⊢
      omega

/-- A patch head in its ranges parses from its bytes, whatever follows (R54, R193). -/
theorem parseHead_bytes (p : PatchHead) (unused : Byte) (bs : List Byte) (h : p.inRange) :
    parseHead (p.bytes unused ++ bs) = some (p, bs) := by
  obtain ⟨x0, y0, w, ht, f, mode, ov⟩ := p
  obtain ⟨h1, h2, h3, h4, h5, h6, h7, h8⟩ := h
  simp only at h1 h2 h3 h4 h5 h6 h7 h8
  have hf : (BitVec.ofNat 8 f).toNat = f := by simp only [BitVec.toNat_ofNat]; omega
  simp only [PatchHead.bytes, twoByteForm, List.cons_append, List.nil_append, parseHead,
    twoBytes_twoByteForm x0 h1, twoBytes_twoByteForm y0 h2, twoBytes_twoByteForm w (by omega),
    twoBytes_twoByteForm ht (by omega), hf]
  cases mode <;> cases ov with
  | none => simp [h3, h4, h5, h6, h7, h8]
  | some n =>
    have hn : (BitVec.ofNat 8 n.val).toNat = n.val := by
      have := n.isLt; simp only [BitVec.toNat_ofNat]; omega
    simp [h3, h4, h5, h6, h7, h8, hn]

/-- What parses as a head is the bytes of a patch head in its ranges (R54, R193). -/
theorem parseHead_some {bs rest : List Byte} {p : PatchHead} (h : parseHead bs = some (p, rest)) :
    p.inRange ∧ ∃ unused, bs = p.bytes unused ++ rest := by
  unfold parseHead at h
  split at h
  · next x1 x0 y1 y0 w1 w0 h1 h0 f mode ov u samples =>
    simp only at h
    split at h
    · next g =>
      simp only [Option.some.injEq, Prod.mk.injEq] at h
      obtain ⟨rfl, rfl⟩ := h
      obtain ⟨g1, g2, g3, g4, g5, g6, g7, g8⟩ := g
      have bound : ∀ a b : Byte, twoBytes a b ≤ 65535 := by
        intro a b; have := a.isLt; have := b.isLt; simp only [twoBytes]; omega
      refine ⟨⟨bound _ _, bound _ _, g1, g2, g3, g4, g5, g6⟩, u, ?_⟩
      have hm : mode = 0 ∨ mode = 1 := by
        rcases Nat.le_one_iff_eq_zero_or_eq_one.mp g7 with e | e
        · exact .inl (BitVec.eq_of_toNat_eq e)
        · exact .inr (BitVec.eq_of_toNat_eq e)
      simp only [PatchHead.bytes, twoByteForm_twoBytes]
      rcases hm with rfl | rfl <;> rcases g8 with l | rfl
      all_goals first | simp [l] | simp
    · simp at h
  · simp at h

end Sys2Proof.Machine
end

