-- ==== Sys2Proof/Laws/Settle.lean ====
section
/-! SUPPORT. What the settlement of a copy, and the making of several incidents, can do, in the terms of Safety.lean: one
lemma for each operation that the statements about them rest on. -/

namespace Sys2Proof.Machine

open Sys2Proof

/-! ## Incidents made in order (R167, R168) -/

theorem State.recordedAll_nil (s : State) : s.recordedAll s [] := by
  simp [State.recordedAll, State.incidentsWith, State.lostWith]

/-- Records made after others are made in one order with them. -/
theorem State.recordedAll.append {s t u : State} {is js : List Incident} (h : s.recordedAll t is)
    (g : t.recordedAll u js) : s.recordedAll u (is ++ js) := by
  obtain ⟨h1, h2⟩ := h
  obtain ⟨g1, g2⟩ := g
  constructor
  · rw [g1, State.incidentsWith, h1, State.incidentsWith, State.incidentsWith, List.take_append, List.append_assoc]
    congr 3
    simp only [List.length_append, List.length_take]
    omega
  · rw [g2, State.lostWith, h1, h2, State.lostWith, State.lostWith, State.incidentsWith]
    simp only [List.length_append, List.length_take]
    repeat' split
    all_goals omega

theorem State.raise_recordedAll (s : State) (i : Incident) : s.recordedAll (s.raise i) [i] := by
  obtain ⟨h, g⟩ := s.raise_recorded i
  by_cases e : s.incidents.length < 255
  · obtain ⟨a, b⟩ := h e
    refine ⟨?_, ?_⟩
    · rw [a, State.incidentsWith, List.take_of_length_le (by simp only [List.length_singleton]; omega)]
    · rw [b, State.lostWith, if_pos (by simp only [List.length_singleton]; omega)]
  · obtain ⟨a, b⟩ := g (by omega)
    have z : 255 - s.incidents.length = 0 := by omega
    refine ⟨?_, ?_⟩
    · rw [a, State.incidentsWith, z]; simp
    · rw [b, State.lostWith, z]; simp

/-! ## Deadlines (R94, R95) -/

/-- The DEADLINE MISSED incidents of a run of plate ids. -/
theorem State.deadlineMissedAll_recordedAll (s : State) (e : Fin 16) (ids : List (Fin 128)) :
    s.recordedAll (ids.foldl (State.deadlineMissed e) s) (ids.filterMap fun i =>
      ((s.plate i).filter fun r => r.label.edition == e).map fun r =>
        { kind := .deadlineMissed, time := s.clock, label := some r.label
          version := (r.page.bind s.page).map Page.version, handle := r.page, sep := some r.sep, plate := some i
          attempts := some r.attempts, disposition := .noted }) := by
  induction ids generalizing s with
  | nil => exact s.recordedAll_nil
  | cons i ids ih =>
    have f := State.deadlineMissed_frame e s i
    have h := ih (State.deadlineMissed e s i)
    have hp : ∀ k, (State.deadlineMissed e s i).plate k = s.plate k := fun k => by rw [f]; rfl
    have hg : (State.deadlineMissed e s i).page = s.page := by rw [f]; rfl
    have hc : (State.deadlineMissed e s i).clock = s.clock := by rw [f]
    simp only [hp, hg, hc] at h
    rw [List.foldl_cons, List.filterMap_cons]
    cases hr : s.plate i with
    | none =>
      have : State.deadlineMissed e s i = s := by simp [State.deadlineMissed, hr]
      rw [this] at h ⊢
      exact h
    | some r =>
      by_cases q : r.label.edition = e
      · have : State.deadlineMissed e s i = s.raise
            { kind := .deadlineMissed, time := s.clock, label := some r.label
              version := (r.page.bind s.page).map Page.version, handle := r.page, sep := some r.sep, plate := some i
              attempts := some r.attempts, disposition := .noted } := by
          simp [State.deadlineMissed, hr, q, State.versionOf]
        simp only [Option.filter, q, BEq.rfl, if_true, Option.map_some]
        exact (this ▸ s.raise_recordedAll _).append h
      · have : State.deadlineMissed e s i = s := by simp [State.deadlineMissed, hr, q]
        rw [this] at h ⊢
        simpa [Option.filter, q] using h

/-- What the deadline check of an edition makes of its incidents: those of a deadline that is due, or none. -/
theorem State.expireDeadline_recordedAll (s : State) (e : Fin 16) :
    s.recordedAll (s.expireDeadline e) (if (s.editions[e]).reached s.clock then s.deadlinesMissed s.clock e else []) := by
  have d : (s.editions[e]).due s.clock = (s.editions[e]).reached s.clock := by
    unfold Edition.due Edition.reached
    cases (s.editions[e]).deadline <;> rfl
  unfold State.expireDeadline
  rw [d]
  split
  · exact State.deadlineMissedAll_recordedAll
      { s with editions := s.editions.set e { s.editions[e] with passed := true } } e plateIds
  · exact s.recordedAll_nil

/-! ## The settlement of a copy (R114, R160, R175 to R178) -/

/-- What becomes of a damaged copy that is in its stage (R176, R177). -/
theorem Plate.settleDamaged_damagedAs (r : Plate) (st : Stage) (kind : IncidentKind) (limit : Nat)
    (h : 0 < r.inStage st) :
    (r.takeOut st).damagedAs (r.settleDamaged st kind limit) limit (stepAfter kind r.step) (r.decision limit) := by
  have c : (r.takeOut st).cancelled = r.cancelled := by cases st <;> rfl
  have o : (r.takeOut st).obsolete = r.obsolete := by cases st <;> rfl
  have a : (r.takeOut st).attempts = r.attempts := by cases st <;> rfl
  have p : (r.takeOut st).step = r.step := by cases st <;> rfl
  unfold Plate.damagedAs Plate.settleDamaged Plate.decision
  simp only [c, o, a, p, h, if_true]
  by_cases x : r.cancelled = true ∨ r.obsolete = true
  · have y : (r.obsolete || r.cancelled) = true := by rcases x with x | x <;> simp [x]
    simp [x, y]
  · have y : (r.obsolete || r.cancelled) = false := by simpa [and_comm] using x
    simp only [x, y, if_false, Bool.false_eq_true]
    split <;> simp

/-- The remake decision leaves one outcome. -/
theorem Plate.damagedAs.unique {r q u : Plate} {limit step : Nat} {d x : Disposition} (h : r.damagedAs q limit step d)
    (g : r.damagedAs u limit step x) : q = u ∧ d = x := by
  unfold Plate.damagedAs at h g
  split at h
  · next c => rw [if_pos c] at g; exact ⟨h.2.trans g.2.symm, h.1.trans g.1.symm⟩
  · next c =>
    rw [if_neg c] at g
    split at h
    · next b => rw [if_pos b] at g; exact ⟨h.2.trans g.2.symm, h.1.trans g.1.symm⟩
    · next b => rw [if_neg b] at g; exact ⟨h.2.trans g.2.symm, h.1.trans g.1.symm⟩

theorem Plate.damagedAs.page {r q : Plate} {limit step : Nat} {d : Disposition} (h : r.damagedAs q limit step d) :
    q.page = r.page := by
  unfold Plate.damagedAs at h
  split at h
  · rw [h.2]
  · split at h <;> rw [h.2]

/-- A record that a settlement has changed is freed where nothing is left of it, and its entry follows (R16 to R18,
R114). -/
theorem State.freeIfSpent_settled {s t : State} {i : Fin 128} {q : Plate} {h : Fin 64} {p : Page} {is : List Incident}
    (f : t = { s with plates := t.plates, incidents := t.incidents, lost := t.lost }) (e : t.plate i = some q)
    (o : ∀ j, j ≠ i → t.plate j = s.plate j) (r : s.recordedAll t is) (qp : q.page = some h) (hp : s.page h = some p) :
    s.recordSettled (t.freeIfSpent i) i q h p is := by
  have tp : ∀ k, t.page k = s.page k := fun k => by rw [f]; rfl
  have spent : q.spent = true ↔ q.channel = none ∧ q.toExpose = 0 ∧ q.exposing = 0 ∧ q.awaiting = 0 := by
    simp [Plate.spent, and_assoc]
  have others : ∀ j, j ≠ i → (t.freeIfSpent i).plate j = s.plate j := fun j hj => by
    rw [State.freeIfSpent_plate, if_neg hj, o j hj]
  by_cases g : q.spent = true
  · have fr : t.freeIfSpent i = (t.setPlate i none).release h := by
      simp [State.freeIfSpent, State.freePlate, e, g, qp]
    have at_i : (t.freeIfSpent i).plate i = none := by rw [State.freeIfSpent_plate, if_pos rfl, e]; simp [g]
    have pg : ((t.setPlate i none).modifyPage h fun p => { p with retention := p.retention - 1 }).page h =
        some { p with retention := p.retention - 1 } := by
      rw [State.modifyPage_page, if_pos rfl]; show (t.page h).map _ = _; rw [tp, hp]; rfl
    have pk : ∀ k, k ≠ h →
        ((t.setPlate i none).modifyPage h fun p => { p with retention := p.retention - 1 }).page k = s.page k :=
      fun k hk => by rw [State.modifyPage_page, if_neg hk]; exact tp k
    have mf := State.modifyPage_frame (t.setPlate i none) h fun p => { p with retention := p.retention - 1 }
    unfold State.release at fr
    generalize (t.setPlate i none).modifyPage h (fun p => { p with retention := p.retention - 1 }) = m at *
    have mi : m.incidents = s.incidentsWith is := by rw [mf]; exact r.1
    have ml : m.lost = s.lostWith is := by rw [mf]; exact r.2
    have mk : m.freeCells = s.freeCells ∧ m.openOrder = s.openOrder ∧ m.indexQueue = s.indexQueue ∧
        m.indexer = s.indexer := by rw [mf, f]; exact ⟨rfl, rfl, rfl, rfl⟩
    by_cases x : p.state = .superseded ∧ p.retention ≤ 1
    · have fe : t.freeIfSpent i = m.freeEntry h := by
        rw [fr, State.freeIfUnused, pg]; simp [x.1]; omega
      obtain ⟨a1, a2, a3, a4, a5, a6, a7⟩ := State.freeEntry_freed m h _ pg
      rw [fe] at at_i others ⊢
      refine ⟨others, fun k hk => (a2 k hk).trans (pk k hk), ?_, ?_⟩
      · rw [a7]; exact ml
      · rw [if_pos (spent.mp g)]
        refine ⟨at_i, ?_⟩
        rw [if_pos x]
        refine ⟨a1, a3.trans (by rw [mk.1]), a4.trans (by rw [mk.2.1]), ?_, a6.trans (by rw [mi])⟩
        simpa only [State.leftIndexing, mk.2.2.1, mk.2.2.2] using a5
    · have fe : t.freeIfSpent i = m := by
        rw [fr, State.freeIfUnused, pg]
        have : ¬(p.state = .superseded ∧ p.retention - 1 = 0) := fun y => x ⟨y.1, by omega⟩
        simp [this]
      rw [fe] at at_i others ⊢
      refine ⟨others, pk, ml, ?_⟩
      rw [if_pos (spent.mp g)]
      refine ⟨at_i, ?_⟩
      rw [if_neg x]
      exact ⟨pg, mk, mi⟩
  · have fe : t.freeIfSpent i = t := by simp [State.freeIfSpent, e, g]
    rw [fe] at others ⊢
    refine ⟨others, fun k _ => tp k, r.2, ?_⟩
    rw [if_neg fun y => g (spent.mpr y)]
    refine ⟨e, (tp h).trans hp, ?_, r.1⟩
    rw [f]; exact ⟨rfl, rfl, rfl, rfl⟩

/-- A copy removed from a verify queue as MISSING or UNREADABLE is settled by the remake decision (R160, R176, R178). -/
theorem State.settleLost_settled {s : State} {f : VerifyEntry} {kind : IncidentKind} {u q : Plate} {h : Fin 64} {p : Page}
    {d : Disposition} (hu : s.plate f.plate = some u) (ha : 0 < u.awaiting) (up : u.page = some h)
    (hp : s.page h = some p)
    (hd : { u with awaiting := u.awaiting - 1 }.damagedAs q (s.editionOf u.label).remakeLimit (stepAfter kind u.step) d) :
    s.recordSettled (s.settleLost f kind) f.plate q h p
      [{ kind := kind, time := s.clock, label := some f.label, version := some f.version, handle := u.page
         sep := some f.sep, plate := some f.plate, serial := some f.serial, copyIndex := some f.copyIndex
         attempts := some q.attempts, disposition := d }] := by
  obtain ⟨rfl, rfl⟩ := hd.unique (u.settleDamaged_damagedAs .awaiting kind (s.editionOf u.label).remakeLimit ha)
  unfold State.settleLost State.damageCopy
  simp only [hu]
  have n := hd.page
  apply State.freeIfSpent_settled
  · rw [State.raise_frame]; rfl
  · rw [State.raise_frame]; exact (State.plate_setPlate s f.plate f.plate _).trans (if_pos rfl)
  · intro j hj; rw [State.raise_frame]; exact State.plate_setPlate_of_ne _ _ hj
  · exact State.raise_recordedAll (s.setPlate f.plate (some (u.settleDamaged .awaiting kind _))) _
  · exact n.trans up
  · exact hp

/-- A copy removed from a verify queue as verified is settled, or withdrawn of an obsolete record (R15, R160). -/
theorem State.settleVerified_settled {s : State} {f : VerifyEntry} {u : Plate} {h : Fin 64} {p : Page}
    (hu : s.plate f.plate = some u) (ha : 0 < u.awaiting) (up : u.page = some h) (hp : s.page h = some p) :
    s.recordSettled (s.settleVerified f) f.plate
      { u with
        awaiting := u.awaiting - 1, verified := if u.obsolete then u.verified else u.verified + 1
        withdrawn := if u.obsolete then u.withdrawn + 1 else u.withdrawn } h p [] := by
  unfold State.settleVerified State.modifyPlate
  simp only [hu]
  apply State.freeIfSpent_settled
  · rfl
  · rw [State.plate_setPlate, if_pos rfl]
    simp only [Plate.settleGood, Plate.inStage, ha, if_true, Plate.takeOut]
    split <;> simp_all
  · intro j hj; exact State.plate_setPlate_of_ne _ _ hj
  · exact s.recordedAll_nil
  · exact up
  · exact hp

end Sys2Proof.Machine
end

