-- ==== Sys2Proof/Laws/Layouts.lean ====
section
/-! SUPPORT. The machine's readers, words and conditions against the forms Safety.lean spells from the spec: what a parameter
carries, what a reply holds, and what each shared condition says. The statements name the spelled forms. -/

namespace Sys2Proof.Machine

open Sys2Proof

/-! ## Parameters of a request -/

/-- The label that two words carry (R3, R191). -/
theorem readLabel_eq_some_iff (l0 l1 : Word) (l : Label) : readLabel l0 l1 = some l ↔ labelCarried l0 l1 l := by
  obtain ⟨e, s, p⟩ := l
  have hw := l0.isLt
  simp only [readLabel, labelCarried]
  constructor
  · intro h
    split at h
    · rename_i g
      simp only [Option.some.injEq, Label.mk.injEq] at h
      obtain ⟨rfl, rfl, rfl⟩ := h
      exact ⟨by simp only; omega, rfl, fun z => by simp [Fin.ext_iff] at z; omega⟩
    · cases h
  · rintro ⟨a, b, c⟩
    have hp : p.val ≠ 0 := fun z => c (Fin.ext z)
    have he : l0.toNat / 256 = e.val := by omega
    have hs : l0.toNat % 256 = s.val := by omega
    rw [dif_pos ⟨by omega, by omega, by omega, by omega⟩]
    simp [he, hs, b]

/-- The words that carry no label (R191, log entry 17). -/
theorem readLabel_eq_none_iff (l0 l1 : Word) : readLabel l0 l1 = none ↔ badLabel l0 l1 := by
  have z : l1 = 0 ↔ l1.toNat = 0 := by rw [← BitVec.toNat_inj]; rfl
  simp only [readLabel, badLabel, z]
  split <;> simp <;> omega

theorem readSeps_eq_setCarried (w : Word) : readSeps w = setCarried w := rfl

theorem readOpt_eq_numberCarried (w : Word) : readOpt w = numberCarried w := rfl

theorem setCarried_members_isEmpty (sw : Word) : (setCarried sw).members.isEmpty = true ↔ sw.toNat % 16 = 0 := by
  have e : sw.toNat % 16 = (sw.extractLsb' 0 4).toNat := by simp
  have h : ∀ x : BitVec 4, ((⟨x.getLsbD 0, x.getLsbD 1, x.getLsbD 2, x.getLsbD 3⟩ : Seps Bool).members.isEmpty = true ↔
      x.toNat = 0) := by decide
  rw [e, ← h]
  simp [setCarried]

/-- The check of PAGE OPEN's parameters, against the refusals of R4. -/
theorem openRefused_iff (l0 l1 sw w h n : Word) : openRefused l0 l1 sw w h n ↔
    readLabel l0 l1 = none ∨ openValid (readSeps sw) w.toNat h.toNat (readOpt n) = false := by
  have z : (sw.toNat % 16 = 0) ↔ (readSeps sw).members.isEmpty = true := (setCarried_members_isEmpty sw).symm
  rw [openRefused, ← readLabel_eq_none_iff, z]
  simp only [openValid, readOpt, absentWord]
  by_cases e : n = 0xFFFF
  · simp [e]; grind
  · simp; grind

/-- The version a PAGE OPEN gives (R3). -/
theorem State.nextVersion_of_versionAfter {s : State} {l : Label} {v : Nat} (h : s.versionAfter l v) :
    s.nextVersion l = v := by
  obtain ⟨rfl, hn⟩ | ⟨before, after, o, p, e, hp, rfl, ha, rfl⟩ := h
  · have : ((s.openOrder.filterMap s.page).filter fun p => p.label == l) = [] := by
      simp only [List.filter_eq_nil_iff, List.mem_filterMap]
      rintro q ⟨k, -, hk⟩; simpa using hn k q hk
    simp [State.nextVersion, this]
  · have : ((after.filterMap s.page).filter fun q => q.label == p.label) = [] := by
      simp only [List.filter_eq_nil_iff, List.mem_filterMap]
      rintro q ⟨k, m, hk⟩; simpa using ha k m q hk
    simp [State.nextVersion, e, hp, this]

/-- The segment frame that words carry (R193). -/
theorem readSegment_eq_some_iff (ws : List Word) (f : SegmentFrame) : readSegment ws = some f ↔ f.carriedIn ws := by
  constructor
  · intro h
    unfold readSegment at h
    split at h
    · rename_i w0 w1 w2 w3 w4 w5 w6 w7 data
      split at h
      · cases h
        exact ⟨w0, w1, w2, w3, w4, w5, w6, w7, data, rfl, ‹_›, rfl, rfl, rfl, rfl, rfl, rfl, rfl, rfl⟩
      · cases h
    · cases h
  · rintro ⟨w0, w1, w2, w3, w4, w5, w6, w7, data, rfl, hl, a, b, c, d, e, g, i, j⟩
    obtain ⟨_, _, _, _, _, _, _, _⟩ := f
    simp only at a b c d e g i j
    subst a b c d e g i j
    simp [readSegment, hl, bytesOf, read32]

theorem bytesOf_length (ws : List Word) : (bytesOf ws).length = 2 * ws.length := by
  induction ws with
  | nil => rfl
  | cons w ws ih => rw [bytesOf, List.flatMap_cons, List.length_append, ← bytesOf, ih]; simp; omega

/-- The payload of a frame has the length its header gives (R193). -/
theorem SegmentFrame.carriedIn.payload_length {f : SegmentFrame} {ws : List Word} (h : f.carriedIn ws) :
    f.payload.length = f.length := by
  obtain ⟨_, _, _, w3, _, _, _, _, data, -, hl, -, -, -, -, e, -, -, j⟩ := h
  rw [j]
  have := bytesOf_length data
  rw [bytesOf] at this
  rw [List.length_take, this]; omega

/-- Every frame of a fitting length carries a segment, and no other does (R193). -/
theorem exists_carriedIn_iff (ws : List Word) : (∃ f : SegmentFrame, f.carriedIn ws) ↔
    ws.length = 8 + ((ws.getD 3 0).toNat + 1) / 2 := by
  constructor
  · rintro ⟨f, w0, w1, w2, w3, w4, w5, w6, w7, data, rfl, hl, -⟩
    simp [hl]; omega
  · intro h
    match ws, h with
    | w0 :: w1 :: w2 :: w3 :: w4 :: w5 :: w6 :: w7 :: data, h =>
      refine ⟨⟨w0.toNat / 256, w0.toNat % 256, w1.toNat / 256, w2.toNat, w3.toNat, w6 ++ w7,
        bytesOf [w0, w1, w2, w3, w4, w5, w6, w7], (bytesOf data).take w3.toNat⟩, w0, w1, w2, w3, w4,
        w5, w6, w7, data, rfl, ?_, rfl, rfl, rfl, rfl, rfl, rfl, rfl, rfl⟩
      simp at h; omega
    | [], h | [_], h | [_, _], h | [_, _, _], h | [_, _, _, _], h | [_, _, _, _, _], h | [_, _, _, _, _, _], h
    | [_, _, _, _, _, _, _], h => simp at h <;> omega

/-- Test 2 of R31, as the intake unit makes it. -/
theorem SegmentFrame.refusedFor_iff (f : SegmentFrame) (p : Page) : f.refusedFor p ↔
    SegKind.ofCode f.kind = none ∨ Sep.ofCode f.sep = none ∨ 4096 ≤ f.number ∨ p.expected.getD 4096 ≤ f.number ∨
      (∃ sp, Sep.ofCode f.sep = some sp ∧ p.seps.get sp = false) ∨ 16368 < f.length := by
  have k : SegKind.ofCode f.kind = none ↔ 2 < f.kind := by
    unfold SegKind.ofCode; split <;> simp_all; omega
  have g : Sep.ofCode f.sep = [Sep.k, .c, .m, .y][f.sep]? := by
    unfold Sep.ofCode; split <;> simp_all
    omega
  have n : (∃ n, p.expected = some n ∧ n ≤ f.number) ∨ 4096 ≤ f.number ↔
      p.expected.getD 4096 ≤ f.number ∨ 4096 ≤ f.number := by
    cases p.expected <;> simp
  have z : [Sep.k, .c, .m, .y][f.sep]? = none ↔ 3 < f.sep := by simp; omega
  rw [SegmentFrame.refusedFor, g, k, z]
  grind

/-- The damaged set after a number joins it (R35). -/
theorem mem_insertNumber (n : Nat) (ns : List Nat) (k : Nat) : k ∈ insertNumber n ns ↔ k = n ∨ k ∈ ns := by
  induction ns with
  | nil => simp [insertNumber]
  | cons x xs ih => unfold insertNumber; grind

/-- The damaged set stays ascending (R35). -/
theorem insertNumber_ascending (n : Nat) (ns : List Nat) (h : ns.Pairwise (· < ·)) :
    (insertNumber n ns).Pairwise (· < ·) := by
  induction ns with
  | nil => simp [insertNumber]
  | cons x xs ih =>
    have := mem_insertNumber n xs
    rw [List.pairwise_cons] at h
    unfold insertNumber; split
    · exact List.pairwise_cons.2 h
    · split
      · simp only [List.pairwise_cons, List.mem_cons]; grind
      · rw [List.pairwise_cons]; grind

theorem insertNumber_of_mem (n : Nat) (ns : List Nat) (h : n ∈ ns) (g : ns.Pairwise (· < ·)) : insertNumber n ns = ns := by
  induction ns with
  | nil => simp at h
  | cons x xs ih => rw [List.pairwise_cons] at g; unfold insertNumber; grind

/-! ## Words of a reply -/

theorem optWord_eq_numberAsRead (x : Option Nat) : optWord x = numberAsRead x := by cases x <;> rfl
theorem flagWord_eq_flagAsRead (b : Bool) : flagWord b = flagAsRead b := rfl
theorem labelWords_eq_asRead (l : Label) : labelWords l = l.asRead := rfl

theorem words32_eq_asRead32 (n : Nat) : words32 n = asRead32 (BitVec.ofNat 32 n) := by
  simp only [words32, asRead32, word, List.cons.injEq, and_true]
  constructor <;> apply BitVec.eq_of_toNat_eq <;> simp; omega

theorem words48_eq_asRead48 (n : Nat) : words48 n = asRead48 (BitVec.ofNat 48 n) := by
  simp only [words48, asRead48, word, List.cons.injEq, and_true]
  refine ⟨?_, ?_, ?_⟩ <;> apply BitVec.eq_of_toNat_eq <;> simp <;> omega

theorem words32_toNat (v : BitVec 32) : words32 v.toNat = asRead32 v := by
  rw [words32_eq_asRead32, BitVec.ofNat_toNat, BitVec.setWidth_eq]

theorem optWords32_eq_timeAsRead (t : Option Seconds) : optWords32 t = timeAsRead t := by
  cases t with
  | none => rfl
  | some v => simp [optWords32, timeAsRead, words32_toNat]

theorem Sep.code_word (sp : Sep) : word sp.code = codeIn sepList sp := by cases sp <;> rfl
theorem PageState.code_word (x : PageState) : word x.code = x.asRead := by cases x <;> rfl
theorem LineChoice.code_word (x : LineChoice) : word x.code = codeIn [.a, .b, .either] x := by cases x <;> rfl
theorem Line.code_word (x : Line) : word x.code = codeIn [.a, .b] x := by cases x <;> rfl
theorem Origin.code_word (x : Origin) : word x.code = codeIn [.order, .supersede] x := by cases x <;> rfl
theorem ArbMode.code_word (x : ArbMode) : word x.code = codeIn [.fixed, .rotating, .leastFilled] x := by cases x <;> rfl
theorem FaultKind.code_word (x : FaultKind) : word x.code = codeIn faultKindList x := by cases x <;> rfl
theorem IncidentKind.code_word (x : IncidentKind) : word x.code = codeIn incidentKindList x := by cases x <;> rfl
theorem Disposition.code_word (x : Disposition) : word x.code = codeIn dispositionList x := by cases x <;> rfl
theorem Status.code_word (x : Status) : word x.code = codeIn statusList x := by cases x <;> rfl
theorem Channel.stateCode_word (c : Channel) : word c.stateCode = c.stateAsRead := by
  unfold Channel.stateCode Channel.stateAsRead
  cases c.exposure with
  | none => rfl
  | some e => cases h : e.phase <;> simp [h] <;> rfl

theorem Page.missingCount_eq_lacking (p : Page) : p.missingCount = p.lacking := by
  simp only [Page.missingCount, Page.lacking, Page.notHeld, Page.holds]
  congr 1; funext n; congr 1; apply List.filter_congr; intro k _; rw [Bool.eq_iff_iff]; simp

theorem LineSettings.words_eq_asRead (x : LineSettings) : x.words = x.asRead := rfl
theorem Edition.words_eq_asRead (x : Edition) : x.words = x.asRead := by
  rw [Edition.words, optWords32_eq_timeAsRead]; rfl

theorem SepResult.words_eq_asRead (x : SepResult) : x.words = x.asRead := by
  simp only [SepResult.words, SepResult.asRead, words32_eq_asRead32, words48_eq_asRead48, FaultKind.code_word]
  cases x.tally.first <;> rfl

theorem sepsWord_eq (x : Seps Bool) : sepsWord x = (if x.k then 1 else 0) + (if x.c then 2 else 0) +
    (if x.m then 4 else 0) + (if x.y then 8 else 0) := by
  obtain ⟨k, c, m, y⟩ := x
  cases k <;> cases c <;> cases m <;> cases y <;> rfl

theorem Seps.members_eq (x : Seps Bool) : x.members = (if x.k then [.k] else []) ++ (if x.c then [.c] else []) ++
    (if x.m then [.m] else []) ++ if x.y then [.y] else [] := by
  obtain ⟨k, c, m, y⟩ := x
  cases k <;> cases c <;> cases m <;> cases y <;> rfl

/-- The words of PAGE READ (R21, R191). -/
theorem Page.words_eq_asRead (p : Page) (h : Fin 64) : p.words h = p.asRead h := by
  have m : p.seps.members.flatMap (fun sp => (p.results.get sp).asRead) =
      (if p.seps.k then p.results.k.asRead else []) ++ (if p.seps.c then p.results.c.asRead else []) ++
        (if p.seps.m then p.results.m.asRead else []) ++ (if p.seps.y then p.results.y.asRead else []) := by
    rw [Seps.members_eq]
    cases p.seps.k <;> cases p.seps.c <;> cases p.seps.m <;> cases p.seps.y <;> simp [Seps.get]
  simp only [Page.words, Page.asRead, labelWords_eq_asRead, PageState.code_word, sepsWord_eq, optWord_eq_numberAsRead,
    Page.missingCount_eq_lacking, flagWord_eq_flagAsRead, optWords32_eq_timeAsRead, SepResult.words_eq_asRead,
    words48_eq_asRead48, m, Page.bands, Config.bandRows, List.append_assoc]

/-- The words of an incident record (R196). -/
theorem Incident.words_eq_asRead (i : Incident) : i.words = i.asRead := by
  have m : word i.presence = BitVec.ofBoolListLE [i.label.isSome, i.version.isSome, i.handle.isSome, i.sep.isSome,
      i.segment.isSome, i.plate.isSome, i.serial.isSome, i.copyIndex.isSome, i.attempts.isSome, i.detail.isSome, false,
      false, false, false, false, false] := by
    simp only [Incident.presence, presenceBit]
    generalize i.label.isSome = a; generalize i.version.isSome = b; generalize i.handle.isSome = c
    generalize i.sep.isSome = d; generalize i.segment.isSome = e; generalize i.plate.isSome = f
    generalize i.serial.isSome = g; generalize i.copyIndex.isSome = h; generalize i.attempts.isSome = j
    generalize i.detail.isSome = k
    revert a b c d e f g h j k
    decide +kernel
  simp only [Incident.words, Incident.asRead, m, IncidentKind.code_word, flagWord_eq_flagAsRead, words32_toNat,
    labelWords_eq_asRead, Disposition.code_word, FaultKind.code_word]
  congr 1
  congr 1
  cases i.handle <;> cases i.sep <;> cases i.plate <;> simp [Sep.code_word] <;> rfl

/-- The derived state WAITING, spelled (R98). -/
theorem Plate.derived_waits (r : Plate) : r.derived = .waiting ↔ r.waits := by
  unfold Plate.derived Plate.waits
  cases r.channel <;> simp

/-- The words of PLATE READ (R116). -/
theorem State.plateWords_eq_asRead (s : State) (i : Fin 128) (r : Plate) : s.plateWords i r = s.plateAsRead i r := by
  have q : optWord (s.queuePosition i r) = numberAsRead (if r.waits then some ((plateIds.filter fun j =>
      (s.plate j).any fun q => decide q.waits && s.before j q i r).length) else none) := by
    rw [optWord_eq_numberAsRead, State.queuePosition]
    simp only [Plate.derived_waits]
    congr 4
    apply List.filter_congr; intro j _
    cases s.plate j with
    | none => rfl
    | some q =>
      have : (q.derived == PlateState.waiting) = decide q.waits := by rw [Bool.eq_iff_iff]; simp [Plate.derived_waits]
      simp [this]
  have d : word r.derived.code = if r.channel ≠ none then 1 else if 0 < r.toExpose then 0 else 2 := by
    unfold Plate.derived
    cases r.channel with
    | none => by_cases h : 0 < r.toExpose <;> simp [h] <;> rfl
    | some l => rfl
  have c : s.copyOf i r = ((r.channel.bind fun l => (s.channel l).exposure).filter fun e => e.plate == i).map
      Exposure.copy := by
    unfold State.copyOf
    cases r.channel.bind fun l => (s.channel l).exposure with
    | none => rfl
    | some e => by_cases h : e.plate = i <;> simp [Option.filter, h]
  have l : optWord (r.channel.map Line.code) = match r.channel with
        | some l => codeIn [.a, .b] l
        | none => 0xFFFF := by
    cases r.channel with
    | none => rfl
    | some l => exact Line.code_word l
  have e : optWord ((r.page.bind s.page).map fun p => p.state.code) = match r.page.bind s.page with
        | some p => p.state.asRead
        | none => 0xFFFF := by
    cases r.page.bind s.page with
    | none => rfl
    | some p => exact PageState.code_word p.state
  have w : word (((s.copyOf i r).map Copy.serial).getD 0) =
      match (r.channel.bind fun l => (s.channel l).exposure).filter fun e => e.plate == i with
        | some e => word e.copy.serial
        | none => 0 := by
    rw [c]; cases (r.channel.bind fun l => (s.channel l).exposure).filter fun e => e.plate == i <;> rfl
  have x : optWord ((s.copyOf i r).map Copy.index) =
      numberAsRead (((r.channel.bind fun l => (s.channel l).exposure).filter fun e => e.plate == i).map
        fun e => e.copy.index) := by
    rw [c, optWord_eq_numberAsRead, Option.map_map]; rfl
  simp only [State.plateWords, State.plateAsRead, q, d, l, e, w, x, labelWords_eq_asRead, Sep.code_word,
    LineChoice.code_word, Origin.code_word, flagWord_eq_flagAsRead, words32_toNat, optWord_eq_numberAsRead,
    State.versionOf]
  all_goals rfl

/-- The plate header of the copy on a channel (R194). -/
theorem State.headerWords_eq {s : State} {l : Line} {e : Exposure} {r : Plate} {h : Fin 64} {p : Page}
    (hx : s.exposes l e r h p) : s.headerWords l = e.copy.header e.plate r p := by
  obtain ⟨a, b, c, d⟩ := hx
  simp only [State.headerWords, State.loadedPage, a, b, c, d, Option.bind_some, Option.map_some, labelWords_eq_asRead,
    Sep.code_word]
  rfl

/-- The FILLED slots of a ring (R123). -/
theorem Channel.filledCount_eq (c : Channel) : c.filledCount = c.slotsFilled := by
  unfold Channel.filledCount Channel.slotsFilled
  generalize c.ring = v
  obtain ⟨⟨l⟩, h⟩ := v
  match l, h with
  | [x, y, z, w], _ => cases x <;> cases y <;> cases z <;> cases w <;> rfl

/-- The condition on which a render request is pending (R122). -/
theorem State.renderRequest_iff (s : State) (l : Line) : s.renderRequest l = true ↔ s.requests l := by
  unfold State.renderRequest State.requests State.loadedPage State.exposes
  constructor
  · intro h
    simp only at h
    split at h
    · rename_i e r p he hp
      rw [he] at hp
      simp only [Option.bind_some] at hp
      cases hr : s.plate e.plate with
      | none => simp [hr] at hp
      | some u =>
        cases hh : u.page with
        | none => simp [hr, hh] at hp
        | some k =>
          cases hq : s.page k with
          | none => simp [hr, hh, hq] at hp
          | some q =>
            simp only [hr, hh, hq, Option.bind_some, Option.map_some, Option.some.injEq, Prod.mk.injEq] at hp
            obtain ⟨rfl, rfl⟩ := hp
            simp only [Bool.and_eq_true, bne_iff_ne, ne_eq, Bool.not_eq_true', decide_eq_true_eq, beq_iff_eq] at h
            obtain ⟨⟨⟨h1, h2⟩, h3⟩, h4⟩ := h
            refine ⟨e, u, k, q, ⟨he, hr, hh, hq⟩, ?_, h2, h3, ?_⟩
            · cases hph : e.phase <;> simp_all
            · rw [← h4]; exact Vector.getElem?_eq_getElem _
    · cases h
  · rintro ⟨e, r, k, p, ⟨he, hr, hh, hp⟩, h1, h2, h3, h4⟩
    have h5 : (s.channel l).ring[slotOf (s.channel l).nextBand] = Slot.free := by
      rw [Vector.getElem?_eq_getElem (Nat.mod_lt _ (by decide))] at h4; exact Option.some.inj h4
    have h6 : (e.phase != .finishing) = true := by rcases h1 with h | h <;> simp [h]
    simp only [he, hr, hh, hp, Option.bind_some, Option.map_some, h6, h2, h5]
    simp [Page.bands, h3]

theorem nodup_eraseDups (g : List (Fin 8)) : g.eraseDups.Nodup := by
  match g with
  | [] => simp
  | a :: as =>
    rw [List.eraseDups_cons, List.nodup_cons]
    have : (as.filter fun b => !b == a).length < as.length + 1 := Nat.lt_succ_of_le (List.length_filter_le _ as)
    exact ⟨by simp, nodup_eraseDups _⟩
termination_by g.length

theorem setGroup_nodup (m : Seps (Fin 8)) (r : Plate) (p : Page) : (setGroup m r p).Nodup := by
  exact nodup_eraseDups _

/-- The screen sets of a copy's group (R86). -/
theorem mem_setGroup (m : Seps (Fin 8)) (r : Plate) (p : Page) (k : Fin 8) : k ∈ setGroup m r p ↔
    k = m.get r.sep ∨ ∃ q ∈ (p.results.get r.sep).patches, q.head.override_ = some k := by
  simp [setGroup, List.mem_eraseDups]

/-- The row that stands ready at a row number (R130). -/
theorem Channel.rowAt_eq_some_iff (c : Channel) (y : Nat) (row : Row) : c.rowAt y = some row ↔
    ∃ rows, c.ring[y / 256 % 4]? = some (.filled (y / 256) rows) ∧ rows[y % 256]? = some row := by
  have e : c.ring[y / 256 % 4]? = some c.ring[slotOf (y / Config.bandRows)] :=
    Vector.getElem?_eq_getElem (Nat.mod_lt _ (by decide))
  rw [e, Channel.rowAt]
  simp only [Option.some.injEq]
  split
  · rename_i b rows h
    rw [h]
    simp only [Slot.filled.injEq]
    by_cases g : b = y / 256 <;> simp [g, Config.bandRows]
  · rename_i h
    simp only [reduceCtorEq, false_iff, not_exists, not_and]
    intro rows e; exact absurd e (h _ _)

/-! ## Serials and rows -/

/-- The candidate k places after a serial (R110). -/
theorem serialAfter_candidate (n k : Nat) :
    serialAfter ((n - 1 + k) % 65535 + 1) = (n - 1 + (k + 1)) % 65535 + 1 := by
  unfold serialAfter; split <;> omega

theorem firstUnused_candidate (live : List Nat) (n : Nat) :
    ∀ fuel k, (∀ j, j < k → (n - 1 + j) % 65535 + 1 ∈ live) →
      ∃ m, k ≤ m ∧ m ≤ k + fuel ∧ firstUnused live fuel ((n - 1 + k) % 65535 + 1) = (n - 1 + m) % 65535 + 1 ∧
        (∀ j, j < m → (n - 1 + j) % 65535 + 1 ∈ live) ∧ (m < k + fuel → (n - 1 + m) % 65535 + 1 ∉ live) := by
  intro fuel
  induction fuel with
  | zero => intro k hk; exact ⟨k, Nat.le_refl _, Nat.le_refl _, rfl, hk, fun h => absurd h (Nat.lt_irrefl _)⟩
  | succ fuel ih =>
    intro k hk
    unfold firstUnused
    by_cases hm : (n - 1 + k) % 65535 + 1 ∈ live
    · rw [if_pos (List.contains_iff_mem.2 hm), serialAfter_candidate n k]
      obtain ⟨m, a, b, c, d, e⟩ := ih (k + 1) (fun j hj => by
        rcases Nat.lt_succ_iff_lt_or_eq.1 hj with g | rfl
        · exact hk j g
        · exact hm)
      exact ⟨m, by omega, by omega, c, d, fun g => e (by omega)⟩
    · rw [if_neg (by simpa using hm)]
      exact ⟨k, Nat.le_refl _, by omega, rfl, hk, fun _ => hm⟩

/-- The serials that live copies carry (R110). -/
theorem State.mem_liveSerials (s : State) (n : Nat) : n ∈ s.liveSerials ↔ s.carried n := by
  have hl : ∀ P : Line → Prop, (∃ l, P l) ↔ P .a ∨ P .b := fun P =>
    ⟨fun ⟨l, h⟩ => by cases l <;> simp [h], fun h => h.elim (⟨_, ·⟩) (⟨_, ·⟩)⟩
  simp only [State.liveSerials, State.carried, hl, State.channel, State.queue, Lines.get, List.mem_append,
    List.mem_map, Option.mem_toList, Option.map_eq_some_iff]
  grind

/-- The search for a serial always ends: fewer copies are live than there are candidates (R110). -/
theorem State.nextSerial_issues (s : State) (h1 : 1 ≤ s.serialNext) (h2 : s.serialNext ≤ 65535)
    (hq : ∀ l, (s.queue l).length ≤ 16) : s.issues s.nextSerial := by
  obtain ⟨m, -, hm, e, hl, hn⟩ := firstUnused_candidate s.liveSerials s.serialNext (s.liveSerials.length + 1) 0 nofun
  have e0 : (s.serialNext - 1 + 0) % 65535 + 1 = s.serialNext := by omega
  rw [e0] at e
  refine ⟨m, e, ?_, fun j hj => (s.mem_liveSerials _).1 (hl j hj)⟩
  rw [← s.mem_liveSerials, State.nextSerial, e]
  apply hn
  have len : s.liveSerials.length ≤ 34 := by
    have a := hq .a; have b := hq .b
    simp only [State.queue, Lines.get] at a b
    simp only [State.liveSerials, List.length_append, List.length_map]
    have one : ∀ o : Option Nat, o.toList.length ≤ 1 := fun o => by cases o <;> simp
    have := one (s.channels.a.exposure.map (·.copy.serial))
    have := one (s.channels.b.exposure.map (·.copy.serial))
    omega
  by_contra hc
  have sub : ((List.range m).map fun j => (s.serialNext - 1 + j) % 65535 + 1).Subperm s.liveSerials := by
    apply List.subperm_of_subset
    · rw [List.nodup_map_iff_inj_on List.nodup_range]
      intro x hx y hy; simp at hx hy; omega
    · intro x hx; simp at hx; obtain ⟨j, hj, rfl⟩ := hx; exact hl j hj
  have := sub.length_le
  simp at this; omega

/-- The words of a row hold its dots, the first at the most significant bit (R195). -/
theorem foldl_dots (ds : List Bool) : ∀ n : Nat, ds.foldl (fun (n : Nat) (dot : Bool) => 2 * n + dot.toNat) n =
    2 ^ ds.length * n + ds.foldl (fun (n : Nat) (dot : Bool) => 2 * n + dot.toNat) 0 := by
  induction ds with
  | nil => simp
  | cons d ds ih => 
    intro n; rw [List.foldl_cons, ih, List.foldl_cons, ih (2 * 0 + d.toNat), List.length_cons, Nat.pow_succ]; ring

theorem foldl_dots_lt (ds : List Bool) : ds.foldl (fun (n : Nat) (dot : Bool) => 2 * n + dot.toNat) 0 < 2 ^ ds.length := by
  induction ds with
  | nil => simp
  | cons d ds ih => 
    rw [List.foldl_cons, foldl_dots, List.length_cons, Nat.pow_succ]; cases d <;> simp <;> omega

theorem foldl_dots_testBit (ds : List Bool) (x : Nat) (dot : Bool) (h : ds[x]? = some dot) :
    (ds.foldl (fun (n : Nat) (dot : Bool) => 2 * n + dot.toNat) 0).testBit (ds.length - 1 - x) = dot := by
  induction ds generalizing x with
  | nil => simp at h
  | cons d ds ih =>
    rw [List.foldl_cons, foldl_dots]
    have lt := foldl_dots_lt ds
    rw [Nat.testBit_two_pow_mul_add _ lt]
    cases x with
    | zero =>
      have : d = dot := by simpa using h
      subst this
      simp; cases d <;> rfl
    | succ x =>
      have h' : ds[x]? = some dot := by simpa using h
      have hx : x < ds.length := (List.getElem?_eq_some_iff.1 h').1
      have := ih x h'
      rw [if_pos (by simp; omega), ← this]; congr 1; simp; omega

/-- The dots of a row in its words (R195). -/
theorem rowWords_dot (row : Row) (hr : row.length % 16 = 0) : (rowWords row).length = row.length / 16 ∧
    ∀ (x : Nat) (dot : Bool), row[x]? = some dot →
      ((rowWords row)[x / 16]?).map (fun w => w.getLsbD (15 - x % 16)) = some dot := by
  refine ⟨by simp [rowWords], ?_⟩
  intro x dot h
  have hx : x < row.length := (List.getElem?_eq_some_iff.1 h).1
  have hk : x / 16 < row.length / 16 := by omega
  have hl : ((row.drop (16 * (x / 16))).take 16).length = 16 := by simp; omega
  have hd : ((row.drop (16 * (x / 16))).take 16)[x % 16]? = some dot := by
    rw [List.getElem?_take_of_lt (Nat.mod_lt _ (by decide)), List.getElem?_drop, Nat.div_add_mod, h]
  have := foldl_dots_testBit _ _ _ hd
  have lt := foldl_dots_lt ((row.drop (16 * (x / 16))).take 16)
  rw [hl] at this lt
  simp only [rowWords, List.getElem?_map, List.getElem?_range hk, Option.map_some, word, Option.some.injEq]
  rw [BitVec.getLsbD_ofNat, this]
  simp; omega

/-! ## Mark decoding, windows and SCREEN LOAD -/

/-- The code a finished strip reads, or none (R155, R156, R158). -/
theorem Strip.finish_readable (x : Strip) :
    (x.run = none → x.finish.readable = if x.disagree then none else x.code) ∧
    ∀ (r : Run) (good : Bool), x.run = some r →
      (good = true ↔ r.bits.length = 48 ∧ r.barFault = false ∧ r.overlong = false ∧
        markCheck r.code = (markIdentity r.code).check) →
      x.finish.readable =
        if good = true then if x.disagree = true ∨ ∃ c, x.code = some c ∧ c ≠ r.code then none else some r.code
        else if x.disagree then none else x.code := by
  constructor
  · intro h; simp [Strip.finish, h, Strip.readable]
  · intro r good h g
    have e : r.valid = good := by rw [Bool.eq_iff_iff, g]; simp [Run.valid, and_assoc]
    simp only [Strip.finish, h, Strip.close, e, Strip.readable]
    cases good with
    | false => simp
    | true =>
      cases hc : x.code with
      | none => simp
      | some c => by_cases hr : c = r.code <;> simp [hr, hc]

/-- The largest enabled maximum (R153). -/
theorem MarkTiming.largestMax_eq_some_iff (m : MarkTiming) (k : Nat) : m.largestMax = some k ↔
    (∃ w ∈ [m.start, m.zero, m.one], w.lo < w.hi ∧ w.hi = k) ∧
      ∀ w ∈ [m.start, m.zero, m.one], w.lo < w.hi → w.hi ≤ k := by
  rw [MarkTiming.largestMax, List.max?_eq_some_iff]
  simp [Window.enabled]
  grind

/-- A count inside a window (R149). -/
theorem Window.contains_iff (w : Window) (n : Nat) : w.contains n = true ↔ w.lo < w.hi ∧ w.lo ≤ n ∧ n ≤ w.hi := by
  simp [Window.contains, Window.enabled, and_assoc]

/-- Two windows that share a tick count (R145). -/
theorem Window.overlaps_iff (w v : Window) : w.overlaps v = true ↔ ¬w.apart v := by
  simp only [Window.overlaps, Window.enabled, Window.apart, Bool.and_eq_true, decide_eq_true_eq]
  constructor
  · rintro ⟨⟨a, b⟩, c⟩ h
    have := h (max w.lo v.lo) a b (by omega) (by omega); omega
  · intro h; by_contra g; apply h; intro n a b c d; simp only [not_and] at g; have := g ⟨a, b⟩; omega

/-- A SCREEN LOAD that fails a check of R84 carries no acceptable set. -/
theorem readScreenLoad_of_refused {ws : List Word} (h : screenRefused ws) :
    ∃ x, readScreenLoad ws = some x ∧ (if x.valid then readSet x.set else none) = none := by
  obtain ⟨set, knots, f, g, side, yoff, xoff, xshift, tile, rfl, hk, ht, hb⟩ := h
  match knots, hk, hb with
  | [k0, k1, k2, k3, k4, k5, k6, k7, k8, k9, k10, k11, k12, k13, k14, k15, k16], _, hb =>
    unfold readScreenLoad
    simp [ht, tileSides] at hb ⊢
    constructor
    · split <;> omega
    · intro a b c d e f' g1 g2 hk2 ht2
      exfalso
      have h0 := hk2 0 (by decide)
      have h1 := hk2 1 (by decide)
      have h2 := hk2 2 (by decide)
      have h3 := hk2 3 (by decide)
      have h4 := hk2 4 (by decide)
      have h5 := hk2 5 (by decide)
      have h6 := hk2 6 (by decide)
      have h7 := hk2 7 (by decide)
      have h8 := hk2 8 (by decide)
      have h9 := hk2 9 (by decide)
      have h10 := hk2 10 (by decide)
      have h11 := hk2 11 (by decide)
      have h12 := hk2 12 (by decide)
      have h13 := hk2 13 (by decide)
      have h14 := hk2 14 (by decide)
      have h15 := hk2 15 (by decide)
      have h16 := hk2 16 (by decide)
      simp at h0 h1 h2 h3 h4 h5 h6 h7 h8 h9 h10 h11 h12 h13 h14 h15 h16
      have : ¬∃ t ∈ tile, 4095 < t.toNat := by rintro ⟨t, m, q⟩; have := ht2 t m; omega
      simp only [this, or_false] at hb
      omega

end Sys2Proof.Machine
end

