-- ==== Sys2Proof/Laws/Queues.lean ====
section
/-! SUPPORT. The removals from a verify queue, one after another: each leaves one outcome, the overdue test and a strip's pass
remove and settle as Safety.lean says, and the removals can be made wherever the retention counts hold. -/

namespace Sys2Proof.Machine
open Sys2Proof

/-! ## One outcome (R160) -/

theorem State.plates_ext {s t : State} (h : ∀ i, s.plate i = t.plate i) : s.plates = t.plates :=
  Vector.ext fun i hi => h ⟨i, hi⟩

theorem State.pages_ext {s t : State} (h : ∀ k, s.page k = t.page k) : s.pages = t.pages :=
  Vector.ext fun i hi => h ⟨i, hi⟩

/-- The settlement of a copy in a record leaves one outcome (R114, R160). -/
theorem State.recordSettled.unique {s t t' : State} {i : Fin 128} {q : Plate} {h : Fin 64} {p : Page} {is : List Incident}
    (a : s.recordSettled t i q h p is) (b : s.recordSettled t' i q h p is) : t.copiesAs t' := by
  obtain ⟨a1, a2, a3, a4⟩ := a
  obtain ⟨b1, b2, b3, b4⟩ := b
  have key : t.plate i = t'.plate i ∧ t.page h = t'.page h ∧ t.freeCells = t'.freeCells ∧ t.openOrder = t'.openOrder ∧
      t.indexQueue = t'.indexQueue ∧ t.indexer = t'.indexer ∧ t.incidents = t'.incidents := by
    split at a4 <;> rename_i c
    · rw [if_pos c] at b4
      obtain ⟨a5, a6⟩ := a4
      obtain ⟨b5, b6⟩ := b4
      refine ⟨a5.trans b5.symm, ?_⟩
      split at a6 <;> rename_i d
      · rw [if_pos d] at b6
        obtain ⟨x1, x2, x3, x4, x5⟩ := a6
        obtain ⟨y1, y2, y3, y4, y5⟩ := b6
        refine ⟨x1.trans y1.symm, x2.trans y2.symm, x3.trans y3.symm, ?_, ?_, x5.trans y5.symm⟩ <;>
        · unfold State.leftIndexing at x4 y4
          split at x4 <;> simp_all
      · rw [if_neg d] at b6
        obtain ⟨x1, ⟨x2, x3, x4, x5⟩, x6⟩ := a6
        obtain ⟨y1, ⟨y2, y3, y4, y5⟩, y6⟩ := b6
        exact ⟨x1.trans y1.symm, x2.trans y2.symm, x3.trans y3.symm, x4.trans y4.symm, x5.trans y5.symm, x6.trans y6.symm⟩
    · rw [if_neg c] at b4
      obtain ⟨x0, x1, ⟨x2, x3, x4, x5⟩, x6⟩ := a4
      obtain ⟨y0, y1, ⟨y2, y3, y4, y5⟩, y6⟩ := b4
      exact ⟨x0.trans y0.symm, x1.trans y1.symm, x2.trans y2.symm, x3.trans y3.symm, x4.trans y4.symm, x5.trans y5.symm,
        x6.trans y6.symm⟩
  obtain ⟨k1, k2, k3⟩ := key
  refine ⟨State.plates_ext fun j => ?_, State.pages_ext fun k => ?_, k3.1, k3.2.1, k3.2.2.1, k3.2.2.2.1, k3.2.2.2.2,
    a3.trans b3.symm⟩
  · by_cases e : j = i
    · rw [e]; exact k1
    · exact (a1 j e).trans (b1 j e).symm
  · by_cases e : k = h
    · rw [e]; exact k2
    · exact (a2 k e).trans (b2 k e).symm

/-- The removal of a copy leaves one outcome (R160). -/
theorem State.copySettled.unique {s t t' : State} {f : VerifyEntry} {kind : Option IncidentKind}
    (a : s.copySettled t f kind) (b : s.copySettled t' f kind) : t = t' := by
  obtain ⟨u, q, h, p, is, hu, -, up, hp, hk, r, ft⟩ := a
  obtain ⟨u', q', h', p', is', hu', -, up', hp', hk', r', ft'⟩ := b
  cases hu.symm.trans hu'
  cases up.symm.trans up'
  cases hp.symm.trans hp'
  have e : q = q' ∧ is = is' := by
    cases kind with
    | none => exact ⟨hk.2.trans hk'.2.symm, hk.1.trans hk'.1.symm⟩
    | some k =>
      obtain ⟨d, hd, rfl⟩ := hk
      obtain ⟨d', hd', rfl⟩ := hk'
      obtain ⟨rfl, rfl⟩ := hd.unique hd'
      exact ⟨rfl, rfl⟩
  obtain ⟨rfl, rfl⟩ := e
  obtain ⟨e1, e2, e3, e4, e5, e6, e7, e8⟩ := r.unique r'
  rw [ft, ft', e1, e2, e3, e4, e5, e6, e7, e8]

/-- A removal looks at no verify queue, line setting or decoder. -/
theorem State.copySettled.under {s t : State} {f : VerifyEntry} {kind : Option IncidentKind} (a : s.copySettled t f kind)
    (q : Lines (List VerifyEntry)) (x : Lines LineSettings) (d : Lines Decoder) :
    { s with queues := q, settings := x, decoders := d }.copySettled { t with queues := q, settings := x, decoders := d } f
      kind := by
  obtain ⟨u, r, h, p, is, hu, ha, up, hp, hk, o, ft⟩ := a
  refine ⟨u, r, h, p, is, hu, ha, up, hp, hk, o, ?_⟩
  rw [ft]

theorem State.settledInTurn_under {xs : List (VerifyEntry × Option IncidentKind)} {s t : State} (a : s.settledInTurn xs t)
    (q : Lines (List VerifyEntry)) (x : Lines LineSettings) (d : Lines Decoder) :
    { s with queues := q, settings := x, decoders := d }.settledInTurn xs
      { t with queues := q, settings := x, decoders := d } := by
  induction xs generalizing s with
  | nil => cases a; rfl
  | cons x xs ih => obtain ⟨m, b, c⟩ := a; exact ⟨_, b.under q _ d, ih c⟩

theorem State.settledInTurn_append {xs ys : List (VerifyEntry × Option IncidentKind)} {s t : State} :
    s.settledInTurn (xs ++ ys) t ↔ ∃ m, s.settledInTurn xs m ∧ m.settledInTurn ys t := by
  induction xs generalizing s with
  | nil => simp [State.settledInTurn]
  | cons x xs ih => simp only [List.cons_append, State.settledInTurn, ih]; grind

theorem State.settledInTurn_frame {xs : List (VerifyEntry × Option IncidentKind)} {s t : State} (a : s.settledInTurn xs t) :
    t = { s with
      plates := t.plates, pages := t.pages, freeCells := t.freeCells, openOrder := t.openOrder
      indexQueue := t.indexQueue, indexer := t.indexer, incidents := t.incidents, lost := t.lost } := by
  induction xs generalizing s with
  | nil => cases a; rfl
  | cons x xs ih =>
    obtain ⟨m, ⟨-, -, -, -, -, -, -, -, -, -, -, e⟩, c⟩ := a
    rw [ih c, e]

theorem State.copySettled.setQueue {s t : State} {f : VerifyEntry} {kind : Option IncidentKind}
    (a : s.copySettled t f kind) (l : Line) (q : List VerifyEntry) :
    (s.setQueue l q).copySettled (t.setQueue l q) f kind := by
  obtain ⟨u, r, h, p, is, hu, ha, up, hp, hk, o, ft⟩ := a
  refine ⟨u, r, h, p, is, hu, ha, up, hp, hk, o, ?_⟩
  rw [ft]; rfl

theorem State.settledInTurn_setQueue {xs : List (VerifyEntry × Option IncidentKind)} {s t : State}
    (a : s.settledInTurn xs t) (l : Line) (q : List VerifyEntry) : (s.setQueue l q).settledInTurn xs (t.setQueue l q) := by
  induction xs generalizing s with
  | nil => cases a; rfl
  | cons x xs ih => obtain ⟨m, b, c⟩ := a; exact ⟨_, b.setQueue l q, ih c⟩

/-! ## The removals the machine makes (R158 to R160) -/

/-- What the removal of a copy as MISSING, as UNREADABLE, or verified does (R160). -/
def State.settleCopy (s : State) (f : VerifyEntry) : Option IncidentKind → State
  | none => s.settleVerified f
  | some k => s.settleLost f k

theorem State.settleCopy_settled {s : State} {f : VerifyEntry} {kind : Option IncidentKind} {u : Plate} {h : Fin 64}
    {p : Page} (hu : s.plate f.plate = some u) (ha : 0 < u.awaiting) (up : u.page = some h) (hp : s.page h = some p)
    (hk : kind ∈ [none, some .missing, some .unreadable]) : s.copySettled (s.settleCopy f kind) f kind := by
  cases kind with
  | none =>
    exact ⟨u, _, h, p, _, hu, ha, up, hp, ⟨rfl, rfl⟩, State.settleVerified_settled hu ha up hp, by
      have e := State.settleVerified_frame s f
      have n : (s.settleVerified f).lost = s.lost := by rw [e]
      simp only [State.settleCopy, n]; exact e⟩
  | some k =>
    have e : stepAfter k u.step = if k = .unreadable then min (u.step + 1) 7 else u.step := by
      simp only [List.mem_cons, Option.some.injEq, reduceCtorEq, List.not_mem_nil, or_false, false_or] at hk
      rcases hk with rfl | rfl <;> rfl
    have d := u.settleDamaged_damagedAs .awaiting k (s.editionOf u.label).remakeLimit ha
    refine ⟨u, _, h, p, _, hu, ha, up, hp, ⟨_, e ▸ d, rfl⟩, ?_, State.settleLost_frame s f k⟩
    have := State.settleLost_settled hu ha up hp d
    rw [up] at this; exact this

theorem State.copySettled.eq {s t : State} {f : VerifyEntry} {kind : Option IncidentKind} (a : s.copySettled t f kind)
    (hk : kind ∈ [none, some .missing, some .unreadable]) : t = s.settleCopy f kind := by
  have b := a
  obtain ⟨u, q, h, p, is, hu, ha, up, hp, -⟩ := b
  exact a.unique (State.settleCopy_settled hu ha up hp hk)

/-- Settlements made one after another leave one outcome, on whatever queue. -/
theorem State.settledInTurn_eq {xs : List (VerifyEntry × Option IncidentKind)} {s t : State} (a : s.settledInTurn xs t)
    (hk : ∀ x ∈ xs, x.2 ∈ [none, some .missing, some .unreadable]) :
    t = xs.foldl (fun s x => s.settleCopy x.1 x.2) s := by
  induction xs generalizing s with
  | nil => exact a
  | cons x xs ih =>
    obtain ⟨m, b, c⟩ := a
    rw [List.foldl_cons, ← b.eq (hk x List.mem_cons_self)]
    exact ih c fun y hy => hk y (List.mem_cons_of_mem _ hy)

theorem State.setQueue_setQueue (s : State) (l : Line) (q r : List VerifyEntry) :
    (s.setQueue l q).setQueue l r = s.setQueue l r := by cases l <;> rfl

theorem State.setQueue_queue (s : State) (l : Line) : s.setQueue l (s.queue l) = s := by cases s; cases l <;> rfl

/-- The overdue test removes the overdue heads and settles them in turn (R159, R160). -/
theorem State.removeOverdue_settled {l : Line} {gone kept : List VerifyEntry} {s m : State} (n : Nat)
    (hn : gone.length ≤ n) (hs : overdueSplit (s.lineSettings l).verifyWindow (s.queue l) gone kept)
    (hm : s.settledInTurn (gone.map VerifyEntry.asMissing) m) : State.removeOverdue l n s = m.setQueue l kept := by
  obtain ⟨hq, hg, hk⟩ := hs
  induction gone generalizing s m n with
  | nil =>
    have e : m = s := hm
    have hq : s.queue l = kept := hq
    rw [e, ← hq, s.setQueue_queue]
    cases n with
    | zero => rfl
    | succ n =>
      unfold State.removeOverdue
      split
      · next e rest he =>
        have := hk e (by rw [← hq, he]; rfl)
        rw [if_neg]; simp [VerifyEntry.overdue]; omega
      · rfl
  | cons g gone ih =>
    obtain ⟨m1, a, b⟩ := hm
    cases n with
    | zero => simp at hn
    | succ n =>
      have hq' : s.queue l = g :: (gone ++ kept) := hq
      have ov : g.overdue (s.lineSettings l).verifyWindow = true := by
        have := hg g List.mem_cons_self; simpa [VerifyEntry.overdue] using this
      have e1 := (a.setQueue l (gone ++ kept)).eq (by simp [VerifyEntry.asMissing])
      have e2 : (s.setQueue l (gone ++ kept)).settleLost g .missing = m1.setQueue l (gone ++ kept) := e1.symm
      have ms : m1.settings = s.settings := by obtain ⟨-, -, -, -, -, -, -, -, -, -, -, ft⟩ := a; rw [ft]
      have ml : ((m1.setQueue l (gone ++ kept)).lineSettings l) = s.lineSettings l := congrArg (·.get l) ms
      simp only [State.removeOverdue, hq', ov, if_true, e2]
      rw [← m.setQueue_setQueue l (gone ++ kept) kept]
      refine ih (s := m1.setQueue l (gone ++ kept)) n (by simpa using hn) (State.settledInTurn_setQueue b l _) ?_ ?_ ?_
      · cases l <;> rfl
      · rw [ml]; exact fun f hf => hg f (List.mem_cons_of_mem _ hf)
      · rw [ml]; exact hk

theorem State.overdueTest_settled {s m : State} {l : Line} {gone kept : List VerifyEntry}
    (hs : overdueSplit (s.lineSettings l).verifyWindow (s.queue l) gone kept)
    (hm : s.settledInTurn (gone.map VerifyEntry.asMissing) m) : s.overdueTest l = m.setQueue l kept :=
  State.removeOverdue_settled _ (by rw [hs.1]; simp) hs hm

/-- A strip's pass over the first entries, and the verification of the next (R158). -/
theorem State.passOver_settled {l : Line} {passed rest : List VerifyEntry} {e : VerifyEntry} {s m : State}
    (hq : s.queue l = passed ++ e :: rest)
    (hm : s.settledInTurn (passed.map VerifyEntry.asMissing ++ [(e, none)]) m) :
    State.passOver l passed.length s = m.setQueue l rest := by
  induction passed generalizing s m with
  | nil =>
    obtain ⟨m1, a, b⟩ := hm
    cases b
    have e1 : (s.setQueue l rest).settleVerified e = m.setQueue l rest := ((a.setQueue l rest).eq (by simp)).symm
    have hq : s.queue l = e :: rest := hq
    simp only [List.length_nil, State.passOver, hq, e1]
  | cons g passed ih =>
    obtain ⟨m1, a, b⟩ := hm
    have hq : s.queue l = g :: (passed ++ e :: rest) := hq
    have e1 : (s.setQueue l (passed ++ e :: rest)).settleLost g .missing = m1.setQueue l (passed ++ e :: rest) :=
      ((a.setQueue l _).eq (by simp [VerifyEntry.asMissing])).symm
    simp only [List.length_cons, State.passOver, hq, e1]
    rw [← m.setQueue_setQueue l (passed ++ e :: rest) rest]
    exact ih (s := m1.setQueue l (passed ++ e :: rest)) (by cases l <;> rfl) (State.settledInTurn_setQueue b l _)

theorem State.setQueue_queue_self (s : State) (l : Line) (q : List VerifyEntry) : (s.setQueue l q).queue l = q := by
  cases l <;> rfl

/-- After one removal the overdue test is made on the new head, and all are settled in turn (R159, R160). -/
theorem State.removed_settled {s t : State} {l : Line} {e : VerifyEntry} {k : IncidentKind} {rest gone kept : List VerifyEntry}
    (hk : k = .missing ∨ k = .unreadable) (hs : overdueSplit (s.lineSettings l).verifyWindow rest gone kept)
    (ht : s.settledInTurn ((e, some k) :: gone.map VerifyEntry.asMissing) t) :
    ((s.setQueue l rest).settleLost e k).overdueTest l = t.setQueue l kept := by
  obtain ⟨m, a, b⟩ := ht
  have e1 : (s.setQueue l rest).settleLost e k = m.setQueue l rest :=
    ((a.setQueue l rest).eq (by rcases hk with rfl | rfl <;> simp)).symm
  have sm : m.settings = s.settings := by obtain ⟨-, -, -, -, -, -, -, -, -, -, -, ft⟩ := a; rw [ft]
  have ml : (m.setQueue l rest).lineSettings l = s.lineSettings l := congrArg (·.get l) sm
  rw [e1, State.overdueTest_settled (by rw [ml, State.setQueue_queue_self]; exact hs) (State.settledInTurn_setQueue b l rest),
    State.setQueue_setQueue]

/-- What an unreadable strip does to a queue that is not empty (R158). -/
theorem State.settleUnreadable_settled {s t : State} {l : Line} {e : VerifyEntry} {rest gone kept : List VerifyEntry}
    (hq : s.queue l = e :: rest) (hs : overdueSplit (s.lineSettings l).verifyWindow rest gone kept)
    (ht : s.settledInTurn ((e, some .unreadable) :: gone.map VerifyEntry.asMissing) t) :
    s.settleUnreadable l = t.setQueue l kept := by
  simp only [State.settleUnreadable, hq]; exact State.removed_settled (Or.inr rfl) hs ht

/-- What a strip does that matches an entry of the queue, those before it passed over (R158). -/
theorem State.settleReadable_settled {s t : State} {l : Line} {code : BitVec 48} {e : VerifyEntry}
    {passed rest gone kept : List VerifyEntry} (hn : ∀ f ∈ passed, f.answers (markIdentity code) = false)
    (he : e.answers (markIdentity code) = true) (hq : s.queue l = passed ++ e :: rest)
    (hs : overdueSplit (s.lineSettings l).verifyWindow rest gone kept)
    (ht : s.settledInTurn (passed.map VerifyEntry.asMissing ++ (e, none) :: gone.map VerifyEntry.asMissing) t) :
    s.settleReadable l code = t.setQueue l kept := by
  have ix : (s.queue l).findIdx? (VerifyEntry.answers (markIdentity code)) = some passed.length := by
    rw [hq, List.findIdx?_append, List.findIdx?_eq_none_iff.mpr hn, List.findIdx?_cons, he]; simp
  have ht : s.settledInTurn ((passed.map VerifyEntry.asMissing ++ [(e, none)]) ++ gone.map VerifyEntry.asMissing) t := by
    rw [List.append_assoc]; exact ht
  obtain ⟨m, a, b⟩ := State.settledInTurn_append.mp ht
  have sm : m.settings = s.settings := by rw [State.settledInTurn_frame a]
  have ml : (m.setQueue l rest).lineSettings l = s.lineSettings l := congrArg (·.get l) sm
  simp only [State.settleReadable, ix, State.passOver_settled hq a]
  rw [State.overdueTest_settled (by rw [ml, State.setQueue_queue_self]; exact hs) (State.settledInTurn_setQueue b l rest),
    State.setQueue_setQueue]

/-- What the expulsion from a queue of 16 entries does (R157). -/
theorem State.expel_settled {s t : State} {l : Line} {f : VerifyEntry} {rest gone kept : List VerifyEntry}
    (hq : s.queue l = f :: rest) (hl : rest.length = 15) (hs : overdueSplit (s.lineSettings l).verifyWindow rest gone kept)
    (ht : s.settledInTurn ((f :: gone).map VerifyEntry.asMissing) t) : s.expel l = t.setQueue l kept := by
  simp only [State.expel, hq, Config.maxQueue, List.length_cons, hl, Nat.reduceAdd, Nat.le_refl, if_true]
  exact State.removed_settled (Or.inl rfl) hs ht

/-! ## The removals can be made (R16, R18, R157, R160) -/

/-- The records that name an entry, counted. -/
theorem State.recordsNaming_eq (s : State) (h : Fin 64) :
    s.recordsNaming h = plateIds.countP fun i => (s.plate i).any fun r => r.page == some h := by
  rw [State.recordsNaming, List.countP_eq_length_filter]
  congr 2; funext i; cases s.plate i <;> rfl

theorem State.recordsNaming_pos {s : State} {i : Fin 128} {u : Plate} {h : Fin 64} (hu : s.plate i = some u)
    (up : u.page = some h) : 0 < s.recordsNaming h := by
  rw [State.recordsNaming_eq, List.countP_pos_iff]
  exact ⟨i, List.mem_finRange i, by simp [hu, up]⟩

/-- A record that is freed names its entry no longer, and every other count stays. -/
theorem State.recordsNaming_freed {s t : State} {i : Fin 128} {u : Plate} {h : Fin 64} (hu : s.plate i = some u)
    (up : u.page = some h) (ht : t.plate i = none) (o : ∀ j, j ≠ i → t.plate j = s.plate j) (k : Fin 64) :
    s.recordsNaming k = t.recordsNaming k + if k = h then 1 else 0 := by
  simp only [State.recordsNaming_eq]
  have a : plateIds.Perm (i :: plateIds.erase i) := List.perm_cons_erase (List.mem_finRange i)
  rw [a.countP_eq, a.countP_eq, List.countP_cons, List.countP_cons]
  have b : (plateIds.erase i).countP (fun j => (s.plate j).any fun r => r.page == some k) =
      (plateIds.erase i).countP (fun j => (t.plate j).any fun r => r.page == some k) := by
    apply List.countP_congr
    intro j hj
    have : j ≠ i := fun e => by subst e; exact (List.nodup_finRange 128).not_mem_erase hj
    rw [o j this]
  rw [b, hu, ht]
  by_cases e : k = h
  · simp [up, e]
  · simp [up, e, Ne.symm e]

theorem State.recordsNaming_congr {s t : State}
    (h : ∀ j, (t.plate j).map Plate.page = (s.plate j).map Plate.page) (k : Fin 64) : t.recordsNaming k = s.recordsNaming k := by
  simp only [State.recordsNaming_eq]
  apply List.countP_congr
  intro j _
  have := h j
  cases ht : t.plate j <;> cases hs : s.plate j <;> simp_all

/-- The record after a copy awaiting in it has been settled. -/
theorem State.copySettled.record {s t : State} {f : VerifyEntry} {kind : Option IncidentKind} (a : s.copySettled t f kind) :
    ∃ (u q : Plate) (h : Fin 64) (p : Page) (is : List Incident), s.plate f.plate = some u ∧ u.page = some h ∧
      s.page h = some p ∧ q.page = some h ∧ q.awaiting = u.awaiting - 1 ∧ s.recordSettled t f.plate q h p is := by
  obtain ⟨u, q, h, p, is, hu, -, up, hp, hk, r, -⟩ := a
  refine ⟨u, q, h, p, is, hu, up, hp, ?_, ?_, r⟩
  · cases kind with
    | none => rw [hk.2]; exact up
    | some k => obtain ⟨d, hd, -⟩ := hk; rw [hd.page]; exact up
  · cases kind with
    | none => rw [hk.2]
    | some k =>
      obtain ⟨d, hd, -⟩ := hk
      unfold Plate.damagedAs at hd
      split at hd
      · rw [hd.2]
      · split at hd <;> rw [hd.2]

/-- The settlement of a copy keeps the retention counts (R16, R18, R114). -/
theorem State.copySettled.retained {s t : State} {f : VerifyEntry} {kind : Option IncidentKind}
    (a : s.copySettled t f kind) (hs : s.retained) : t.retained := by
  obtain ⟨u, q, h, p, is, hu, up, hp, qp, -, o, op, -, r⟩ := a.record
  have hh := hs h
  rw [hp] at hh
  obtain ⟨h1, h2⟩ := hh
  intro k
  have hk := hs k
  split at r
  · next c =>
    have n := State.recordsNaming_freed hu up r.1 o k
    by_cases e : k = h
    · subst e
      rw [if_pos rfl] at n
      obtain ⟨-, r⟩ := r
      split at r
      · next d => rw [r.1]; have := h2 d.1; show t.recordsNaming k = 0; omega
      · next d =>
        rw [r.1]
        refine ⟨by simp only; omega, fun x => ?_⟩
        have := h2 x
        have : ¬p.retention ≤ 1 := fun y => d ⟨x, y⟩
        simp only; omega
    · rw [if_neg e] at n
      rw [op k e]
      rw [n, Nat.add_zero] at hk; exact hk
  · have n : t.recordsNaming k = s.recordsNaming k := State.recordsNaming_congr (fun j => by
      by_cases e : j = f.plate
      · subst e; rw [r.1, hu]; simp [qp, up]
      · rw [o j e]) k
    have pg : t.page k = s.page k := by
      by_cases e : k = h
      · subst e; rw [r.2.1, hp]
      · exact op k e
    rw [pg, n]; exact hk

/-- Where awaiting counts the entries to be removed, it counts those left once one is settled (R157, R160). -/
theorem State.copySettled.awaitsEach {s t : State} {f : VerifyEntry} {kind : Option IncidentKind} {fs : List VerifyEntry}
    (a : s.copySettled t f kind) (hs : s.awaitsEach (f :: fs)) : t.awaitsEach fs := by
  obtain ⟨u, q, h, p, is, hu, up, hp, qp, qa, o, op, -, r⟩ := a.record
  intro g hg
  obtain ⟨v, hv, vp, va⟩ := hs g (List.mem_cons_of_mem _ hg)
  rw [List.countP_cons] at va
  have pos : 0 < fs.countP fun x => x.plate == g.plate := List.countP_pos_iff.mpr ⟨g, hg, by simp⟩
  by_cases e : g.plate = f.plate
  · rw [e] at hv va pos ⊢
    cases hu.symm.trans hv
    rw [if_pos (by simp)] at va
    rw [if_neg (by omega)] at r
    exact ⟨q, r.1, by rw [qp]; nofun, by omega⟩
  · exact ⟨v, (o _ e).trans hv, vp, by omega⟩

/-- Where the retention counts hold and awaiting counts the entries, the removals can be made one after another (R160). -/
theorem State.settledInTurn_exists {xs : List (VerifyEntry × Option IncidentKind)} {s : State} (hr : s.retained)
    (ha : s.awaitsEach (xs.map Prod.fst)) (hk : ∀ x ∈ xs, x.2 ∈ [none, some .missing, some .unreadable]) :
    ∃ t, s.settledInTurn xs t := by
  induction xs generalizing s with
  | nil => exact ⟨s, rfl⟩
  | cons x xs ih =>
    obtain ⟨u, hu, un, ua⟩ := ha x.1 List.mem_cons_self
    obtain ⟨h, up⟩ := Option.ne_none_iff_exists'.mp un
    obtain ⟨p, hp⟩ : ∃ p, s.page h = some p := by
      have a := hr h
      have b := State.recordsNaming_pos hu up
      cases e : s.page h with
      | none => rw [e] at a; exact absurd a (by simp only; omega)
      | some p => exact ⟨p, rfl⟩
    have c := State.settleCopy_settled hu (by rw [List.map_cons, List.countP_cons, if_pos (by simp)] at ua; omega) up hp
      (hk x List.mem_cons_self)
    obtain ⟨t, ht⟩ := ih (c.retained hr) (c.awaitsEach ha) fun y hy => hk y (List.mem_cons_of_mem _ hy)
    exact ⟨t, _, c, ht⟩

end Sys2Proof.Machine
end

