-- ==== Sys2Proof/Tests/Slice0.lean ====
section
/-! SUPPORT. The model's own tests: ill-formed commands, request frames read by the codes of R192, the worked examples of
spec/, and for every statement with hypotheses a state and operands that meet them. -/

namespace Sys2Proof.Tests

open Sys2Proof Sys2Proof.Machine

/-! ## Well-formed commands -/

theorem test_wf_refuses_served_unknown : (Instr.unknownRequest .plan 0x16 []).wf = false := by decide

theorem test_wf_refuses_long_frame (ws : List Word) (h : ws.length = 65536) : (Instr.segment ws).wf = false := by
  simp [Instr.wf, encodeFrame, announced, h]

theorem test_wf_accepts_unknown : (Instr.unknownRequest .feed 0x10 []).wf = true := by decide

/-! ## Request codes by port (R192, spec/10) -/

theorem test_decode_feed : decodeFrame .feed 0x01 [7] = .pageOpen [7] ∧ decodeFrame .feed 0x07 [7] = .incidentRead .feed [7] := by
  decide

theorem test_decode_plan : decodeFrame .plan 0x13 [7] = .editionSet [7] ∧ decodeFrame .plan 0x20 [] = .flush [] := by decide

theorem test_decode_image : decodeFrame .imageA 0x30 [] = .plateRequest .a [] ∧
    decodeFrame .imageB 0x34 [] = .lineAbort .b [] := by decide

theorem test_decode_other_port : decodeFrame .imageB 0x16 [] = .unknownRequest .imageB 0x16 [] := by decide

/-- spec/opcode_table.json gives no row any bits. -/
theorem test_no_table_words : decodeTableWord 16 0x16 = none := by decide

/-! ## Worked examples of spec/ -/

/-- R24, with the sizes of the worked example of spec/02. -/
theorem test_cells : [16368, 9000, 4080, 12000, 200, 5000, 100].map cellsFor = [4, 3, 1, 3, 1, 2, 1] := by decide

/-- spec/02, the reserve. -/
theorem test_reserve : admits 2050 .receiving 3 = false ∧ admits 2050 .receiving 2 = true ∧
    admits 2048 .waiting 4 = true ∧ admits 2044 .receiving 1 = false := by decide

/-- The check of the bytes "123456789" under the power-on profile of R28 (length 16, polynomial 1021 hexadecimal, the
register starting at all ones) is 29B1 hexadecimal, a published check value of that profile. -/
theorem test_crc : crc { length := 16, poly := 0x1021 } [0x31, 0x32, 0x33, 0x34, 0x35, 0x36, 0x37, 0x38, 0x39] = 0x29B1 := by
  decide +kernel

/-- spec/03, one separation decoded: WHITE 3, RUNS 100 50 362, REPEAT 2, RUNS 0 600, REPEAT 1; then RUNS 200 100. -/
def linePage : Page :=
  { state := .indexing, label := ⟨4, 2, 11⟩, version := 1, seps := ⟨true, false, false, false⟩, width := 512, height := 256
    expected := some 2
    held :=
      [{ number := 0, kind := .line, sep := .k, header := []
         payload := [0, 0, 1, 0, 3, 3, 0, 3, 0, 100, 0, 50, 1, 106, 2, 0, 2, 3, 0, 2, 0, 0, 2, 88, 2, 0, 1] },
       { number := 1, kind := .line, sep := .k, header := [], payload := [0, 9, 3, 0, 2, 0, 200, 0, 100] }]
    damaged := []
    results := ⟨SepResult.opening, SepResult.opening, SepResult.opening, SepResult.opening⟩, clip := 0, released := false
    retention := 0, opened := 0, closed := some 0, completed := none, timer := none }

theorem test_line_faults : (linePage.lineWalk .k).tally = { count := 4, first := some (.longRow, 6) } := by
  decide +kernel

theorem test_line_runs_and_weight : ((linePage.indexSep .k).1.runValues, (linePage.indexSep .k).1.weight) = (7, 9) := by
  decide

/-- spec/03, rows 3 and 8 as rendered. -/
theorem test_line_rows : (let rows := (RenderContext.rows (linePage.linePayloads .k) 512 9 (RenderContext.start linePage .k)).1
    ([3, 8].map fun y => [99, 100, 149, 150, 199, 200, 299, 300].map fun x => (rows[y]?.bind fun r => r[x]?))) =
    [[some false, some true, some true, some false, some false, some false, some false, some false],
     [some false, some false, some false, some false, some false, some true, some true, some false]] := by decide

/-- spec/03: the running row count rises by a record's rows as the record is decoded (R48, R121): 3 within the WHITE of 3
rows, and 6 at the first row of the REPEAT that follows the RUNS. -/
theorem test_row_count : [1, 3, 5].map (fun k =>
      ((RenderContext.rows (linePage.linePayloads .k) 512 k (RenderContext.start linePage .k)).2.rowCount,
        (RenderContext.rows (linePage.linePayloads .k) 512 k (RenderContext.start linePage .k)).2.rowsLeft)) =
    [(3, 2), (3, 0), (6, 1)] := by decide

/-- spec/03, render weight with clipped patches. -/
theorem test_weight : renderWeight 83 500003 19936000 = 36783 ∧
    PatchHead.clippedArea { x0 := 10000, y0 := 19000, w := 300, h := 250, f := 10, mode := .knockout, override_ := none }
      12288 21000 = 4576000 := by decide

/-- The screen set of the worked cases of spec/04, with only the knots they name. -/
def caseSet : ScreenSet :=
  { knots := #v[0, 260, 0, 0, 0, 0, 1400, 1680, 0, 0, 0, 0, 0, 0, 0, 3900, 4095]
    floorF := 64, ceilG := 4032, side := 8, yoff := 5, xoff := 2, xshift := 3
    tile := List.replicate 16 0 ++ [1500] ++ List.replicate 47 0 }

theorem test_tone : [100, 255, 3, 4, 240, 250, 251].map caseSet.tone = [1470, 4083, 49, 65, 3900, 4022, 4034] := by decide

theorem test_clamp : [3, 4, 251].map (fun v => caseSet.clamp (caseSet.tone v)) = [0, 65, 4095] := by decide

/-- spec/04, a falling segment from 1,000 to 980. -/
theorem test_falling : (let c := { caseSet with knots := #v[1000, 980, 960, 0, 0, 0, 0, 0, 0, 0, 0, 0, 0, 0, 0, 0, 0] }
    [2, 6].map c.tone) = [998, 993] := by decide

theorem test_decision : caseSet.threshold 13 21 = 1500 ∧ caseSet.inked 100 13 21 = false ∧ caseSet.inked 255 13 21 = true := by
  decide

/-- spec/04, the power-on screen set. -/
theorem test_power_on_set : [0, 1, 127, 128, 200, 255].map ScreenSet.powerOn.tone = [0, 16, 2032, 2048, 3200, 4079] ∧
    [127, 128].map (fun v => ScreenSet.powerOn.inked v 5 9) = [false, true] := by decide

/-- spec/06, dispatch: the projected finish of plate 33. -/
theorem test_finish : ceilDiv ((8000 + ceilDiv (max (20480 * 2500) (renderWeight 80 1200000 60000000 * 400)) 1000) * 2) 1000 +
    84500 = 84619 := by decide

/-- spec/06, serials: 65,535 is followed by 1, which is live, so 2 follows. -/
theorem test_serials : firstUnused [1] 2 (serialAfter 65535) = 2 ∧ serialAfter 2 = 3 := by decide

/-- The identity of the worked examples of spec/08 and spec/11. -/
def markCase : MarkIdentity := { serial := 4711, label := ⟨2, 3, 17⟩, sep := .c, index := 0 }

theorem test_mark_words : markCase.check = 638 ∧
    [0, 16, 32].map (fun k => (markCase.code.extractLsb' k 16).toNat) = [4711, 8754, 40834] := by decide

/-- spec/08, reading one strip: the measurements 10, 40, 15 and 45 under the windows of the example. -/
theorem test_classes :
    (let m : MarkTiming := { inverted := false, filter := true, tick := 20, start := ⟨36, 44⟩, zero := ⟨8, 12⟩, one := ⟨18, 24⟩ }
     ([10, 40, 21, 15, 45].map m.classify, m.largestMax)) = ([.zero, .start, .one, .fault, .fault], some 44) := by decide

/-- spec/11: a FOREIGN record has presence word 201. -/
theorem test_presence : Incident.presence
    { kind := .foreign, time := 0, label := some ⟨0, 0, 1⟩, sep := some .k, serial := some 1, copyIndex := some 0
      disposition := .noted } = 201 := by decide

/-- spec/11: dot 0 is the most significant bit of the first word of a row (R195). -/
theorem test_row_words : rowWords ([true] ++ List.replicate 30 false ++ [true]) = [0x8000, 0x0001] := by decide

/-! ## States that meet the hypotheses of the statements -/

/-- Edition 2, section 3, page 17: the words 0203 and 0011 hexadecimal. -/
def wLabel : Label := ⟨2, 3, 17⟩

/-- A page of the least size, separation K, one segment expected and none held. -/
def wPage (st : PageState) : Page :=
  { state := st, label := wLabel, version := 1, seps := ⟨true, false, false, false⟩, width := 512, height := 256
    expected := some 1, held := [], damaged := []
    results := ⟨SepResult.opening, SepResult.opening, SepResult.opening, SepResult.opening⟩, clip := 0, released := false
    retention := 0, opened := 0, closed := none, completed := none, timer := none }

/-- A record of one copy of page 0. -/
def wPlate : Plate := Plate.create wLabel (some 0) .k .either 1 0 .order 0

/-- The copy of record 0 on a channel. -/
def wExposure (ph : Phase) : Exposure :=
  { phase := ph, plate := 0, copy := { serial := 1, index := 0, level := 128, markCode := 0 }
    mapping := ⟨0, 1, 2, 3⟩, group := [0] }

/-- The reset state with one page under handle 0. -/
def onePage (p : Page) : State := { State.reset.setPage 0 (some p) with openOrder := [0] }

/-- The reset state with a COMPLETE page under handle 0 and one record of it. -/
def oneRecord (r : Plate) : State := (onePage { wPage .complete with retention := 1 }).setPlate 0 (some r)

/-- The reset state with one copy in exposure on channel A. -/
def onLine (ph : Phase) : State :=
  { (oneRecord { wPlate with toExpose := 0, exposing := 1, channel := some .a }).setChannel .a
      { Channel.powerOn with exposure := some (wExposure ph), nextBand := if ph = .loaded then 0 else 1 } with
    screens := State.reset.screens.set 0 { content := ScreenSet.powerOn, inUse := 1 } }

/-- A record with one copy awaiting verification, and the entry of its queue. -/
def wAwaiting : Plate := { wPlate with toExpose := 0, awaiting := 1 }

/-- The entry of the copy of `wAwaiting`. -/
def wEntry : VerifyEntry :=
  { serial := 4711, plate := 0, copyIndex := 0, label := wLabel, version := 1, sep := .c, age := 0 }

/-- The state with a line's settings replaced. -/
def withSettings (s : State) (x : LineSettings) : State := { s with settings := { s.settings with a := x } }

theorem only_page {s : State} {v : Option Page} (hs : s.pages = (State.reset.setPage 0 v).pages) {k : Fin 64} {q : Page}
    (h : s.page k = some q) : k = 0 ∧ v = some q := by
  have e : s.page k = (State.reset.setPage 0 v).page k := by simp only [State.page, hs]
  rw [e, State.page_setPage] at h
  by_cases hk : k = 0
  · rw [if_pos hk] at h; exact ⟨hk, h⟩
  · rw [if_neg hk] at h; simp [State.reset, State.page] at h

theorem only_plate {s : State} {v : Option Plate} (hs : s.plates = (State.reset.setPlate 0 v).plates) {k : Fin 128}
    {q : Plate} (h : s.plate k = some q) : k = 0 ∧ v = some q := by
  have e : s.plate k = (State.reset.setPlate 0 v).plate k := by simp only [State.plate, hs]
  rw [e, State.plate_setPlate] at h
  by_cases hk : k = 0
  · rw [if_pos hk] at h; exact ⟨hk, h⟩
  · rw [if_neg hk] at h; simp [State.reset, State.plate] at h

theorem no_plate {s : State} (hs : s.plates = State.reset.plates) {k : Fin 128} {q : Plate} : s.plate k ≠ some q := by
  simp [State.plate, hs, State.reset]

/-! ### A verify queue of several records -/

/-- One page with four records: one on channel A, one with sixteen copies awaiting, a cancelled one and one with its last
copy awaiting; the queue of line A as given. -/
def wQueued (q : List VerifyEntry) : State :=
  withSettings ((((((onLine .finishing).setPlate 1 (some { wAwaiting with awaiting := 16 })).setPlate 2
    (some { wAwaiting with cancelled := true })).setPlate 3 (some wAwaiting)).setPage 0
      (some { wPage .complete with retention := 4 })).setQueue .a q)
    { LineSettings.powerOn with verification := true, verifyWindow := 600 }

/-- A copy of the record with sixteen, of the age given. -/
def wCopy (serial age : Nat) : VerifyEntry := { wEntry with serial, plate := 1, age }

theorem wQueued_retained (q : List VerifyEntry) : (wQueued q).retained := by
  have n : ∀ h : Fin 64, (wQueued []).recordsNaming h = if h = 0 then 4 else 0 := by decide +kernel
  intro h
  show match (wQueued []).page h with
    | some p => p.retention = (wQueued []).recordsNaming h ∧ (p.state = .superseded → 0 < p.retention)
    | none => (wQueued []).recordsNaming h = 0
  cases e : (wQueued []).page h with
  | none =>
    have : h ≠ 0 := by rintro rfl; cases e
    simp [n, this]
  | some p =>
    obtain ⟨rfl, a⟩ := only_page (v := some { wPage .complete with retention := 4 }) rfl e
    cases a; exact ⟨(n 0).symm, nofun⟩

/-- Two copies of one record, that of a cancelled record and the last of another: whatever is removed of them can be
settled in turn. -/
theorem wQueued_settled {s : State} (hs : s.pages = (wQueued []).pages ∧ s.plates = (wQueued []).plates)
    {xs : List (VerifyEntry × Option IncidentKind)} (hl : xs.length ≤ 16)
    (ha : (xs.map Prod.fst).countP (fun g => g.plate == 2) ≤ 1)
    (hb : (xs.map Prod.fst).countP (fun g => g.plate == 3) ≤ 1) (hp : ∀ f ∈ xs.map Prod.fst, f.plate ∈ [1, 2, 3])
    (hk : ∀ x ∈ xs, x.2 ∈ [none, some .missing, some .unreadable]) : ∃ t, s.settledInTurn xs t := by
  have r : s.retained := fun h => by
    have := wQueued_retained [] h
    simpa only [State.page, State.recordsNaming, State.plate, hs.1, hs.2] using this
  have pl : ∀ i, s.plate i = (wQueued []).plate i := fun i => by simp only [State.plate, hs.2]
  refine State.settledInTurn_exists r (fun f hf => ?_) hk
  have h := hp f hf
  simp only [List.mem_cons, List.not_mem_nil, or_false] at h
  rcases h with h | h | h <;> rw [h, pl]
  · exact ⟨{ wAwaiting with awaiting := 16 }, rfl, nofun,
      Nat.le_trans List.countP_le_length (by rw [List.length_map]; exact hl)⟩
  · exact ⟨{ wAwaiting with cancelled := true }, rfl, nofun, ha⟩
  · exact ⟨wAwaiting, rfl, nofun, hb⟩

/-- A copy of the cancelled record, overdue under a window of 600. -/
def wNoted : VerifyEntry := { wEntry with serial := 10, plate := 2, age := 601 }

/-- Three overdue heads, two of them of one record, before one that is not: the state that line A's overdue test finds. -/
theorem wQueued_overdue :
    (let s := wQueued [wCopy 8 602, wNoted, wCopy 9 601, wCopy 11 600]
     s.resetAsserted = false ∧
      overdueSplit (s.lineSettings .a).verifyWindow (s.queue .a) [wCopy 8 602, wNoted, wCopy 9 601] [wCopy 11 600] ∧
      ∃ t, s.settledInTurn ([wCopy 8 602, wNoted, wCopy 9 601].map VerifyEntry.asMissing) t) :=
  ⟨rfl, ⟨rfl, by decide, by decide⟩, by apply wQueued_settled (hs := ?_) <;> first | exact ⟨rfl, rfl⟩ | decide⟩

/-! ### The machine as a whole -/

theorem wit_StepRunsFrontCommand : { State.reset with pending := [.clockAdvance] }.pending = Instr.clockAdvance :: [] := rfl

theorem wit_RequestFramesReadBack : (Instr.unknownRequest .imageB 0x35 []).wf = true ∧
    encodeFrame (.unknownRequest .imageB 0x35 []) = some (.imageB, 0x35, []) ∧ (Instr.pageOpen []).wf = true := by decide

theorem wit_EveryRequestIsAnsweredOnItsPort : State.reset.resetAsserted = false ∧ (Instr.clockRead []).wf = true ∧
    encodeFrame (.clockRead []) = some (.plan, 0x16, []) ∧ encodeFrame .clockAdvance = none ∧
    Instr.clockAdvance.wf = true := by decide

theorem wit_FramesThatDoNotFitAreRefused : State.reset.resetAsserted = false ∧ served .feed 0x08 = false ∧
    served .plan 0x21 = false ∧ encodeFrame (.clockRead [0]) = some (.plan, 0x16, [0]) ∧
    (Instr.clockRead [0]).fits = false := by decide

theorem wit_NothingHappensUnderReset : { State.reset with resetAsserted := true }.resetAsserted = true ∧
    Instr.clockAdvance ≠ .powerOnResetAsserted ∧ Instr.clockAdvance ≠ .powerOnResetNegated := by decide

theorem wit_PowerOnResetRestoresEveryBlock : { State.reset with resetAsserted := true }.resetAsserted = true := rfl

/-! ### The invariants: one copy in exposure, one page, one incident, one command waiting -/

/-- A state that meets every invariant, with a command waiting. -/
def busy : State :=
  { onLine .running with
    freeCells := 32768, pending := [.clockSet [0, 0]], serialNext := 2
    incidents := [{ kind := .segmentBad, time := 0, handle := some 0, segment := some 0, disposition := .resendNeeded }] }

theorem busy_steps : ∃ t, step busy = .next t := ⟨_, rfl⟩

theorem busy_page {k : Fin 64} {q : Page} (h : busy.page k = some q) :
    k = 0 ∧ q = { wPage .complete with retention := 1 } := by
  obtain ⟨a, b⟩ := only_page (v := some { wPage .complete with retention := 1 }) rfl h
  exact ⟨a, (Option.some.inj b).symm⟩

theorem busy_plate {k : Fin 128} {q : Plate} (h : busy.plate k = some q) :
    k = 0 ∧ q = { wPlate with toExpose := 0, exposing := 1, channel := some .a } := by
  obtain ⟨a, b⟩ := only_plate (v := some { wPlate with toExpose := 0, exposing := 1, channel := some .a }) rfl h
  exact ⟨a, (Option.some.inj b).symm⟩

theorem wit_EveryStepKeepsTheIncidentBounds : busy.incidentsFit ∧ ∃ t, step busy = .next t :=
  ⟨⟨by decide, by decide, List.pairwise_singleton _ _⟩, busy_steps⟩

theorem wit_EveryStepConservesCells : busy.cellsConserved ∧ ∃ t, step busy = .next t := by
  refine ⟨?_, busy_steps⟩
  show busy.freeCells + busy.cellsHeld = 32768; decide +kernel

theorem wit_EveryStepKeepsTheAccountingLaw : busy.accounted ∧ ∃ t, step busy = .next t := by
  refine ⟨?_, busy_steps⟩
  intro i r h; obtain ⟨-, rfl⟩ := busy_plate h; rfl

theorem wit_EveryStepKeepsRetention : busy.retained ∧ ∃ t, step busy = .next t := by
  refine ⟨?_, busy_steps⟩
  intro h
  have n : ∀ h : Fin 64, busy.recordsNaming h = if h = 0 then 1 else 0 := by decide +kernel
  cases e : busy.page h with
  | none =>
    have : h ≠ 0 := by rintro rfl; cases e
    simp [n, this]
  | some p => obtain ⟨rfl, rfl⟩ := busy_page e; exact ⟨(n 0).symm, nofun⟩

theorem wit_EveryStepKeepsThePageQueues : busy.queuesOfPages ∧ ∃ t, step busy = .next t :=
  ⟨⟨by decide, by decide +kernel, by decide, by decide, by decide +kernel⟩, busy_steps⟩

theorem wit_EveryStepKeepsOneCurrentEntry : busy.singleCurrent ∧ busy.queuesOfPages ∧ ∃ t, step busy = .next t := by
  refine ⟨?_, wit_EveryStepKeepsThePageQueues⟩
  intro h k p q e f _ _ _; rw [(busy_page e).1, (busy_page f).1]

theorem wit_EveryStepKeepsSerialsDistinct : busy.serialsDistinct ∧ ∃ t, step busy = .next t :=
  ⟨⟨by decide, by decide, by decide, by decide, by decide, by decide⟩, busy_steps⟩

theorem wit_EveryStepKeepsTheInUseCounts : busy.setsCounted ∧ ∃ t, step busy = .next t :=
  ⟨⟨by decide, by decide, by decide⟩, busy_steps⟩

theorem wit_EveryStepKeepsChannelsAndRecords : busy.channelsHold ∧ ∃ t, step busy = .next t := by
  refine ⟨⟨?_, ?_, ?_⟩, busy_steps⟩
  · intro l e h
    cases l
    · exact ⟨_, by cases h; rfl, rfl, rfl⟩
    · cases h
  · intro i r l h g
    obtain ⟨rfl, rfl⟩ := busy_plate h
    cases g; exact ⟨wExposure .running, rfl, rfl⟩
  · intro i r h g
    obtain ⟨rfl, rfl⟩ := busy_plate h
    cases g

/-! ### The page catalogue -/

theorem wLabel_carried : labelCarried 0x0203 0x0011 wLabel := ⟨rfl, rfl, by decide⟩

/-- The least and the greatest parameters of R4. -/
theorem wit_PageOpenTakesTheLowestFreeEntry : State.reset.resetAsserted = false ∧
    labelCarried 0x0203 0x0011 wLabel ∧ ¬openRefused 0x0203 0x0011 1 512 256 4096 ∧
    ¬openRefused 0x0F1F 0x00FF 15 16384 24576 0xFFFF ∧ State.reset.versionAfter wLabel 1 ∧ State.reset.lowestFree 0 ∧
    State.reset.noCurrent wLabel ∧ (∀ k r, State.reset.plate k = some r → ¬r.waitsFor wLabel) ∧
    (∀ k r, State.reset.plate k = some r → r.page ≠ some 0) := by
  refine ⟨by decide, wLabel_carried, by simp [openRefused, badLabel], by simp [openRefused, badLabel], Or.inl ⟨rfl, ?_⟩,
    ⟨by decide, nofun⟩, ?_, ?_, ?_⟩
  · intro k p h; simp [State.reset, State.page] at h
  · intro k p h; simp [State.reset, State.page] at h
  · intro k r h; exact absurd h (no_plate rfl)
  · intro k r h; exact absurd h (no_plate rfl)

/-- Each parameter of R4 one step outside its range. -/
theorem wit_PageOpenTakesTheLowestFreeEntry_refused : openRefused 0x1003 1 1 512 256 1 ∧ openRefused 0x0220 1 1 512 256 1 ∧
    openRefused 0x0203 0 1 512 256 1 ∧ openRefused 0x0203 256 1 512 256 1 ∧ openRefused 0x0203 1 16 512 256 1 ∧
    openRefused 0x0203 1 1 480 256 1 ∧ openRefused 0x0203 1 1 16416 256 1 ∧ openRefused 0x0203 1 1 513 256 1 ∧
    openRefused 0x0203 1 1 512 255 1 ∧ openRefused 0x0203 1 1 512 24577 1 ∧ openRefused 0x0203 1 1 512 256 0 ∧
    openRefused 0x0203 1 1 512 256 4097 := by
  simp [openRefused, badLabel]

/-- A label whose one live entry is SUPERSEDED, at version 1 and at 255. -/
theorem wit_PageOpenTakesTheLowestFreeEntry_again : (onePage (wPage .superseded)).versionAfter wLabel 2 ∧
    (onePage { wPage .superseded with version := 255 }).versionAfter wLabel 255 ∧
    (onePage (wPage .superseded)).noCurrent wLabel ∧ (onePage (wPage .superseded)).lowestFree 1 := by
  refine ⟨Or.inr ⟨[], [], 0, _, rfl, rfl, rfl, nofun, rfl⟩, Or.inr ⟨[], [], 0, _, rfl, rfl, rfl, nofun, rfl⟩, ?_,
    by decide, by decide⟩
  intro k q h _; obtain ⟨-, e⟩ := only_page rfl h; cases e; rfl

theorem wit_PageOpenTakesTheLowestFreeEntry_full :
    (let s := { State.reset with pages := Vector.replicate 64 (some (wPage .complete)) }
     s.resetAsserted = false ∧ ∀ i : Fin 64, s.page i ≠ none) := by
  refine ⟨rfl, ?_⟩
  intro i; simp [State.page]

theorem wit_PageOpenSupersedesAndFreesTheUnusedEntry : ∃ s p, s = onePage p ∧ p = wPage .receiving ∧
    s.resetAsserted = false ∧ labelCarried 0x0203 0x0011 wLabel ∧ ¬openRefused 0x0203 0x0011 1 512 256 1 ∧
    s.lowestFree 1 ∧ s.isCurrent wLabel 0 ∧ s.page 0 = some p ∧ p.retention = 0 ∧ s.versionAfter wLabel 2 ∧
    (∀ k r, s.plate k = some r → r.page ≠ some 0 ∧ ¬r.waitsFor wLabel) := by
  refine ⟨_, _, rfl, rfl, rfl, wLabel_carried, by simp [openRefused, badLabel], ⟨by decide, by decide⟩,
    ⟨⟨_, rfl, rfl, nofun⟩, ?_⟩, rfl, rfl, Or.inr ⟨[], [], 0, _, rfl, rfl, rfl, nofun, rfl⟩, ?_⟩
  · intro k q h _ _; exact (only_page rfl h).1
  · intro k r h; exact absurd h (no_plate rfl)

/-- A current entry of version 2, opened after a live SUPERSEDED entry of the label. -/
theorem wit_PageOpenSupersedesAndFreesTheUnusedEntry_again :
    (let s := { (onePage (wPage .superseded)).setPage 1 (some { wPage .receiving with version := 2 }) with
       openOrder := [0, 1] }
     s.lowestFree 2 ∧ s.isCurrent wLabel 1 ∧ s.versionAfter wLabel 3 ∧
      s.page 1 = some { wPage .receiving with version := 2 }) := by
  refine ⟨⟨by decide, by decide⟩, ⟨⟨_, rfl, rfl, nofun⟩, ?_⟩, Or.inr ⟨[0], [], 1, _, rfl, rfl, rfl, nofun, rfl⟩, rfl⟩
  intro k q h _ n
  by_contra hk
  have e : (onePage (wPage .superseded)).page k = some q := by
    rw [← h]; exact (((onePage (wPage .superseded)).page_setPage 1 k _).trans (if_neg hk)).symm
  obtain ⟨-, e⟩ := only_page rfl e; cases e; exact n rfl

/-- Two label-only records wait, of K and C, for a page of K alone. -/
theorem wit_PageOpenTakesTheLowestFreeEntry_attach :
    (let r : Plate := { wPlate with page := none }
     let s := (State.reset.setPlate 0 (some r)).setPlate 1 (some { r with sep := .c })
     s.lowestFree 0 ∧ r.waitsFor wLabel ∧ (setCarried 1).get .k = true ∧ (setCarried 1).get .c = false ∧
      ∀ k ∈ plateIds, (s.plate k).all (fun u => decide (u.page ≠ some 0)) = true) := by
  refine ⟨⟨by decide, nofun⟩, by decide, by decide, by decide, by decide +kernel⟩

/-- A record that waits, one that awaits verification, and one of a separation the new set lacks. -/
theorem wit_SupersededEntryKeepsOnlyObsoleteRecords_records :
    (let s := ((((oneRecord wPlate).setPlate 1 (some wAwaiting)).setPlate 2 (some { wPlate with sep := .c })).setPage 0
        (some { wPage .complete with retention := 3 }))
     s.resetAsserted = false ∧ labelCarried 0x0203 0x0011 wLabel ∧ ¬openRefused 0x0203 0x0011 1 512 256 1 ∧
      s.page 1 = none ∧ s.versionAfter wLabel 2 ∧ 3 = s.recordsNaming 0 ∧
      s.replaced 0 (setCarried 1) = [wAwaiting] ∧
      1 < s.freePlateIds.length ∧ wAwaiting.begun 0 ∧ ¬wPlate.begun 0 ∧
      ∀ k ∈ plateIds, (s.plate k).all (fun u => decide (u.page ≠ some 1 ∧ ¬u.waitsFor wLabel)) = true) := by
  refine ⟨rfl, wLabel_carried, by simp [openRefused, badLabel], by decide,
    Or.inr ⟨[], [], 0, _, rfl, rfl, rfl, nofun, rfl⟩, by decide +kernel, by decide +kernel, by decide +kernel,
    by decide, by decide, by decide +kernel⟩

/-- Every record of a full table awaits verification, so the new entry's separations find no room. -/
theorem wit_SupersededEntryKeepsOnlyObsoleteRecords_lost :
    (let s := { onePage { wPage .complete with retention := 128 } with plates := Vector.replicate 128 (some wAwaiting) }
     s.freePlateIds = [] ∧ s.recordsNaming 0 = 128 ∧ (setCarried 1).get wAwaiting.sep = true ∧ wAwaiting.page ≠ some 1 ∧
      ¬wAwaiting.waitsFor wLabel) := by
  refine ⟨by decide +kernel, by decide +kernel, by decide, by decide, by decide⟩

/-- A record with a copy awaiting keeps its superseded page. -/
theorem wit_SupersededEntryKeepsOnlyObsoleteRecords :
    ∃ t p q, exec (.pageOpen [0x0203, 0x0011, 1, 512, 256, 1]) (oneRecord wAwaiting) = .next t ∧
      (oneRecord wAwaiting).page 0 = some p ∧ p.state ≠ .superseded ∧ t.page 0 = some q ∧ q.state = .superseded ∧
      (t.plate 0).map Plate.page = some (some 0) :=
  ⟨_, _, { wPage .superseded with retention := 1 }, rfl, rfl, nofun, by decide +kernel, rfl, by decide +kernel⟩

theorem wit_PageCloseMovesTheEntryOn : ∃ s p, s = onePage p ∧ p = wPage .receiving ∧ s.resetAsserted = false ∧
    (0 : Word).toNat = (0 : Fin 64).val ∧ s.page 0 = some p ∧ p.state = .receiving ∧ 1 ≤ 1 ∧ 1 ≤ 4096 ∧
    numberCarried 1 = some 1 ∧ p.expected = some 1 ∧ numberCarried 0xFFFF = none ∧
    (∃ k, k < 1 ∧ ∀ g ∈ p.held, g.number ≠ k) :=
  ⟨_, _, rfl, rfl, rfl, rfl, rfl, rfl, by decide, by decide, by decide, rfl, by decide, 0, by decide, nofun⟩

/-- The refusals of R7, in their order; the entry of page 0 expects 1 segment, or gives no N. -/
theorem wit_PageCloseMovesTheEntryOn_refused : 63 < (64 : Word).toNat ∧ (63 : Word).toNat = (63 : Fin 64).val ∧
    State.reset.page 63 = none ∧ (wPage .superseded).state ≠ .receiving ∧ (0 : Word).toNat < 1 ∧
    4096 < (4097 : Word).toNat ∧ { wPage .receiving with expected := none }.expected = none ∧
    (2 : Word) ≠ 0xFFFF ∧ (wPage .receiving).expected = some 1 ∧ 1 ≠ (2 : Word).toNat := by
  refine ⟨by decide, by decide, by decide, nofun, by decide, by decide, rfl, by decide, rfl, by decide⟩

theorem wit_PageCloseMovesTheEntryOn_whole :
    (let p := { wPage .receiving with held := [{ number := 0, kind := .line, sep := .k, header := [], payload := [] }] }
     (onePage p).page 0 = some p ∧ p.state = .receiving ∧ p.expected = some 1 ∧
      ∀ k, k < 1 → ∃ g ∈ p.held, g.number = k) :=
  ⟨rfl, rfl, rfl, by decide⟩

theorem wit_PageAbandonAndRetireFreeTheEntry : State.reset.resetAsserted = false ∧ (0 : Word).toNat = (0 : Fin 64).val ∧
    State.reset.page 0 = none ∧ 63 < (64 : Word).toNat ∧
    (onePage (wPage .faulted)).page 0 = some (wPage .faulted) ∧ (wPage .faulted).retention = 0 ∧
    (oneRecord wPlate).page 0 = some { wPage .complete with retention := 1 } :=
  ⟨rfl, rfl, by decide, by decide, rfl, rfl, rfl⟩

theorem wit_PageReleaseMakesAFaultedEntryComplete : (onePage (wPage .faulted)).resetAsserted = false ∧
    (0 : Word).toNat = (0 : Fin 64).val ∧ State.reset.page 0 = none ∧ 63 < (64 : Word).toNat ∧
    (onePage (wPage .faulted)).page 0 = some (wPage .faulted) ∧ (wPage .faulted).state = .faulted ∧
    (onePage (wPage .complete)).page 0 = some (wPage .complete) ∧
    (wPage .complete).state ≠ .faulted := ⟨rfl, rfl, by decide, by decide, rfl, rfl, rfl, nofun⟩

theorem wit_ReadsReportAndChangeNothing : (oneRecord wPlate).resetAsserted = false ∧
    (oneRecord wPlate).page 0 = some { wPage .complete with retention := 1 } ∧ (oneRecord wPlate).isCurrent wLabel 0 ∧
    (oneRecord wPlate).plate 0 = some wPlate ∧ labelCarried 0x0203 0x0011 wLabel ∧
    (∀ k : Fin 128, 0 ≤ k → k < 0 → (oneRecord wPlate).plate k = none) := by
  refine ⟨rfl, rfl, ⟨⟨_, rfl, rfl, nofun⟩, ?_⟩, rfl, wLabel_carried, ?_⟩
  · intro k q h _ _; exact (only_page rfl h).1
  · intro k _ h; exact absurd h (Nat.not_lt_zero _)

/-- What the reads refuse: a handle, label, id or mode out of range, a FREE entry, a label whose one entry is SUPERSEDED, a
free record, and no live record at an id or above. -/
theorem wit_ReadsReportAndChangeNothing_refused : 63 < (64 : Word).toNat ∧ (63 : Word).toNat = (63 : Fin 64).val ∧
    (oneRecord wPlate).page 63 = none ∧ badLabel 0x1003 1 ∧ badLabel 0x0220 1 ∧ badLabel 0x0203 0 ∧ badLabel 0x0203 256 ∧
    (onePage (wPage .superseded)).noCurrent wLabel ∧ 127 < (128 : Word).toNat ∧ 1 < (2 : Word).toNat ∧
    (127 : Word).toNat = (127 : Fin 128).val ∧ (oneRecord wPlate).plate 127 = none ∧
    (∀ k : Fin 128, 1 ≤ k → (oneRecord wPlate).plate k = none) := by
  refine ⟨by decide, by decide, by decide, by simp [badLabel], by simp [badLabel], by simp [badLabel], by simp [badLabel],
    ?_, by decide, by decide, by decide, by decide +kernel, by decide +kernel⟩
  intro k q h _; obtain ⟨-, e⟩ := only_page rfl h; cases e; rfl

/-- The words of a record with no page entry, of a page with a first fault, and of an incident with a fault detail. -/
theorem test_reads_as_laid_out :
    (State.reset.plateAsRead 3 { wPlate with page := none }).take 6 = [3, 0x0203, 17, 0xFFFF, 0, 2] ∧
    SepResult.asRead { SepResult.opening with
        tally := { count := 2, first := some (.longRow, 6) }, runValues := 65537, photoDots := 4294967296 } =
      [2, 1, 6, 0, 1, 1, 1, 0, 0, 0, 0] ∧
    (Incident.asRead
        { kind := .contentFault, time := 65536, sep := some .c, disposition := .held
          detail := some { count := 9, kind := .patchDataLong, row := 7 } }) =
      [2, 520, 0, 1, 0, 0, 0, 0, 0, 1, 0, 0, 0, 0, 0, 1, 3, 9, 9, 7] := by
  refine ⟨by decide +kernel, by decide +kernel, by decide +kernel⟩

/-- A WAITING page that lacks its one number, and a RECEIVING one with a damaged number; the opening order lists it. -/
theorem wit_ReadsReportAndChangeNothing_view :
    (∀ h, h ∈ (onePage (wPage .waiting)).openOrder ↔ ((onePage (wPage .waiting)).page h).isSome = true) ∧
      0 < (wPage .waiting).expected.getD 0 ∧ (∀ g ∈ (wPage .waiting).held, g.number ≠ 0) ∧
      4095 ∈ { wPage .receiving with damaged := [4095] }.damaged := by
  refine ⟨by decide +kernel, by decide, nofun, by decide⟩

/-! ### Segment intake -/

/-- A LINE segment 0 of page 0 for K with two payload bytes, and a check of 0. -/
def wFrame : List Word := [0x0000, 0x0000, 0, 2, 0, 0, 0, 0, 0x0000]

/-- Page 0 with no link check, as many free cells as admit the segment at the least. -/
def intake (st : PageState) (free : Nat) : State := { onePage (wPage st) with link := ⟨0, 0⟩, freeCells := free }

/-- The fields of `wFrame`. -/
def wSegment : SegmentFrame :=
  { handle := 0, kind := 0, sep := 0, number := 0, length := 2, check := 0
    header := [0, 0, 0, 0, 0, 0, 0, 2, 0, 0, 0, 0, 0, 0, 0, 0], payload := [0, 0] }

theorem wSegment_carried : wSegment.carriedIn wFrame := (readSegment_eq_some_iff _ _).1 rfl

theorem wSegment_accepted (st : PageState) : ¬wSegment.refusedFor (wPage st) := by
  simp [SegmentFrame.refusedFor, wSegment, wPage, Seps.get]

theorem wit_SegmentIsStored : (intake .receiving 2049).resetAsserted = false ∧ wFrame.length ≤ 8206 ∧
    wSegment.carriedIn wFrame ∧ wSegment.handle = (0 : Fin 64).val ∧
    (intake .receiving 2049).page 0 = some (wPage .receiving) ∧ (intake .waiting 1).page 0 = some (wPage .waiting) ∧
    [SegKind.line, .patchHead, .patchData][wSegment.kind]? = some .line ∧ sepList[wSegment.sep]? = some .k ∧
    (∀ st, ¬wSegment.refusedFor (wPage st)) ∧ (∀ g ∈ (wPage .waiting).held, g.number ≠ wSegment.number) ∧
    checkPasses (intake .waiting 1).link wSegment = true ∧ 1 = (16 + wSegment.length + 4095) / 4096 ∧
    1 + 2048 ≤ (intake .receiving 2049).freeCells ∧ 1 ≤ (intake .waiting 1).freeCells :=
  ⟨rfl, by decide, wSegment_carried, rfl, rfl, rfl, rfl, rfl, wSegment_accepted, nofun, by decide, by decide, by decide,
    by decide⟩

/-- The register of R29 after n bits of a frame's words, bit by bit. -/
def wRegister (k : LinkProfile) (ws : List Word) : Nat → Nat → Bool
  | 0, _ => true
  | n + 1, i =>
    (decide (0 < i) && wRegister k ws n (i - 1)) !=
      ((wRegister k ws n (k.length - 1) != ((ws.take 6 ++ ws.drop 8).getD (n / 16) 0).getLsbD (15 - n % 16)) &&
        k.poly.getLsbD i)

/-- A frame of two payload bytes has 112 bits; under a check of one bit with polynomial 1 the register is the parity. -/
theorem wit_SegmentIsStored_check : wSegment.carriedIn wFrame ∧ 8 * (12 + wSegment.length) = 112 ∧
    ({ length := 0, poly := 0 } : LinkProfile).length = 0 ∧
    (let k : LinkProfile := { length := 1, poly := 1 }
     1 ≤ k.length ∧ k.length ≤ 32 ∧ (∀ i, i < k.length → wRegister k wFrame 0 i = true) ∧
      (∀ n i, n < 8 * (12 + wSegment.length) → i < k.length →
        wRegister k wFrame (n + 1) i =
          ((decide (0 < i) && wRegister k wFrame n (i - 1)) !=
            ((wRegister k wFrame n (k.length - 1) !=
                ((wFrame.take 6 ++ wFrame.drop 8).getD (n / 16) 0).getLsbD (15 - n % 16)) &&
              k.poly.getLsbD i))) ∧
      wRegister k [0, 0, 0, 0, 0, 0, 0, 0] 96 0 = true ∧ wRegister k [1, 0, 0, 0, 0, 0, 0, 0] 96 0 = false) :=
  ⟨wSegment_carried, rfl, rfl, by decide, by decide, fun _ _ => rfl, fun _ _ _ _ => rfl, by decide +kernel,
    by decide +kernel⟩

theorem wit_DamagedSegmentIsRecorded : ∃ s, s = onePage (wPage .receiving) ∧ s.resetAsserted = false ∧
    wFrame.length ≤ 8206 ∧ wSegment.carriedIn wFrame ∧ wSegment.handle = (0 : Fin 64).val ∧
    s.page 0 = some (wPage .receiving) ∧ (wPage .receiving).state ≠ .superseded ∧ sepList[wSegment.sep]? = some .k ∧
    ¬wSegment.refusedFor (wPage .receiving) ∧ (∀ g ∈ (wPage .receiving).held, g.number ≠ wSegment.number) ∧
    checkPasses s.link wSegment = false ∧ ∀ i ∈ s.incidents, i.isBadSegment 0 wSegment.number = false :=
  ⟨_, rfl, rfl, by decide, wSegment_carried, rfl, rfl, nofun, rfl, wSegment_accepted _, nofun, by decide +kernel, by decide⟩

theorem wit_DamagedSegmentIsRecorded_again : ∃ i ∈ busy.incidents, i.isBadSegment 0 0 = true := by decide

theorem wit_SegmentsTurnedAwayChangeNothing : State.reset.resetAsserted = false ∧ wFrame.length ≤ 8206 ∧
    wSegment.carriedIn wFrame ∧ wSegment.handle = (0 : Fin 64).val ∧
    (∃ h : Fin 64, h.val = wSegment.handle ∧ (State.reset.page h).map Page.state ∈ [none, some PageState.superseded]) ∧
    (intake .receiving 2048).page 0 = some (wPage .receiving) ∧ (wPage .receiving).state ≠ .superseded ∧
    ¬wSegment.refusedFor (wPage .receiving) ∧ (∀ g ∈ (wPage .receiving).held, g.number ≠ wSegment.number) ∧
    checkPasses (intake .receiving 2048).link wSegment = true ∧ 1 = (16 + wSegment.length + 4095) / 4096 ∧
    (intake .receiving 2048).freeCells < 1 + 2048 ∧ (intake .waiting 0).freeCells < 1 ∧
    (∃ g ∈ ({ wPage .receiving with
        held := [{ number := 0, kind := .line, sep := .k, header := [], payload := [] }] } : Page).held,
      g.number = wSegment.number) :=
  ⟨rfl, by decide, wSegment_carried, rfl, ⟨0, by decide, by decide⟩, rfl, nofun, wSegment_accepted _, nofun, by decide,
    by decide, by decide, by decide, by decide⟩

/-- Test 2 of R31, each field one step outside: the number, under an N of 1 and under none, the kind, the separation code,
a separation outside the set, and the length. -/
theorem wit_SegmentsTurnedAwayChangeNothing_refused :
    { wSegment with number := 1 }.refusedFor (wPage .receiving) ∧
    { wSegment with number := 4096 }.refusedFor { wPage .receiving with expected := none } ∧
    ¬{ wSegment with number := 4095 }.refusedFor { wPage .receiving with expected := none } ∧
    { wSegment with kind := 3 }.refusedFor (wPage .receiving) ∧ { wSegment with sep := 4 }.refusedFor (wPage .receiving) ∧
    { wSegment with sep := 1 }.refusedFor (wPage .receiving) ∧
    { wSegment with length := 16369 }.refusedFor (wPage .receiving) ∧
    ¬{ wSegment with length := 16368 }.refusedFor (wPage .receiving) := by
  simp [SegmentFrame.refusedFor, wSegment, wPage, Seps.get]

theorem wit_SegmentsTurnedAwayChangeNothing_handle : ∃ f : SegmentFrame, f.carriedIn [0x4000, 0, 0, 0, 0, 0, 0, 0] ∧
    63 < f.handle := ⟨_, (readSegment_eq_some_iff _ _).1 rfl, by decide⟩

theorem wit_HeldSegmentsStayInAscendingOrder :
    (let g (n : Nat) : Segment := { number := n, kind := .line, sep := .k, header := [], payload := [] }
     [g 0, g 4095].Pairwise (fun x y => x.number < y.number) ∧ ∀ x ∈ [g 0, g 4095], x.number ≠ (g 7).number) := by decide

theorem wit_ResendWaitExpiryRaisesPageIncomplete :
    (let p := { wPage .waiting with timer := some { count := 3600, wait := 3600 } }
     (onePage p).resetAsserted = false ∧ (onePage p).page 0 = some p ∧ p.state = .waiting ∧
      p.timer = some { count := 3600, wait := 3600 } ∧ 3600 ≤ 3600 ∧ p.expected = some 1 ∧ 0 < 1 ∧
      (∀ g ∈ p.held, g.number ≠ 0) ∧ ∀ k, k < 0 → ∃ g ∈ p.held, g.number = k) :=
  ⟨rfl, rfl, rfl, rfl, by decide, rfl, by decide, nofun, nofun⟩

/-! ### Indexing and screening -/

theorem wit_RunsAlternateWithinTheWidth : 3 < 5 ∧ ([2, 2].take 1).sum ≤ 3 ∧ 3 < ([2, 2].take 2).sum ∧ 4 < 5 ∧
    [2, 2].sum ≤ 4 := by decide

theorem wit_IndexerTakesAndCompletesPages : { State.reset with indexQueue := [63] }.resetAsserted = false ∧
    { State.reset with indexQueue := [63] }.indexer = none ∧ { State.reset with indexQueue := [63] }.indexQueue = 63 :: [] ∧
    { onePage (wPage .indexing) with indexer := some 0 }.indexer = some 0 ∧
    { onePage (wPage .indexing) with indexer := some 0 }.page 0 = some (wPage .indexing) ∧
    (∀ sp, (wPage .indexing).indexed.seps.get sp = true → ((wPage .indexing).indexed.results.get sp).tally.count = 0) ∧
    (linePage.indexed.seps.get .k = true ∧ 0 < (linePage.indexed.results.get .k).tally.count) := by
  refine ⟨rfl, rfl, rfl, rfl, rfl, ?_, by decide +kernel⟩
  intro sp; cases sp <;> decide +kernel

theorem wit_ToneFollowsTheKnots : (∀ x ∈ caseSet.knots.toList, x ≤ 4095) ∧ 255 / 16 = 15 ∧
    caseSet.knots[15]? = some 3900 ∧ caseSet.knots[15 + 1]? = some 4095 := by decide

theorem wit_EndClampsActOnTheirOwnTones : caseSet.floorF ≤ 2047 ∧ 2048 ≤ caseSet.ceilG ∧ caseSet.ceilG ≤ 4095 ∧
    (∀ n ∈ caseSet.tile, n ≤ 4094) ∧ 63 < caseSet.floorF ∧ caseSet.floorF ≤ 64 ∧ 64 ≤ caseSet.ceilG ∧
    caseSet.ceilG < 4033 ∧ caseSet.clamp (caseSet.tone 3) = 0 ∧ caseSet.clamp (caseSet.tone 251) = 4095 := by decide

/-- A patch of one sample over dot (0, 0). -/
def wHead (m : PatchMode) : PatchHead := { x0 := 0, y0 := 0, w := 1, h := 1, f := 1, mode := m, override_ := none }

theorem wit_PatchesKnockOutOrOverprint : (wHead .knockout).covers 0 0 = true ∧ (wHead .overprint).covers 0 0 = true ∧
    (wHead .overprint).covers 1 0 = false := by decide

theorem wit_LastKnockoutDecidesTheDot : ∃ p : Page, ∃ q u : Patch, (p.results.get .k).patches = [u] ++ q :: [u] ∧
    q.head.covers 0 0 = true ∧ q.head.mode = .knockout ∧ u.head.covers 0 0 = true ∧ u.head.mode = .overprint :=
  ⟨{ wPage .complete with results := { (wPage .complete).results with
      k := { SepResult.opening with patches := [⟨wHead .overprint, 0, 1, 1, []⟩, ⟨wHead .knockout, 1, 1, 1, []⟩,
        ⟨wHead .overprint, 0, 1, 1, []⟩] } } }, ⟨wHead .knockout, 1, 1, 1, []⟩, ⟨wHead .overprint, 0, 1, 1, []⟩, rfl,
    by decide⟩

theorem wit_LastKnockoutDecidesTheDot_line : ∃ p : Page, (p.results.get .k).patches = [⟨wHead .overprint, 0, 1, 1, []⟩] ∧
    ∀ u ∈ (p.results.get .k).patches, u.head.covers 0 0 = true → u.head.mode = .overprint :=
  ⟨{ wPage .complete with results := { (wPage .complete).results with
      k := { SepResult.opening with patches := [⟨wHead .overprint, 0, 1, 1, []⟩] } } }, rfl, by decide⟩

/-- A page whose separation K holds WHITE 256 and a defect, and one patch of two samples in two segments. -/
def textPage : Page :=
  { wPage .indexing with
    held :=
      [{ number := 0, kind := .line, sep := .k, header := [], payload := [0, 0, 1, 1, 0, 0] },
       { number := 1, kind := .patchHead, sep := .k, header := [], payload := [0, 3, 0, 5, 0, 2, 0, 1, 1, 0, 0xFF, 9, 77] },
       { number := 2, kind := .patchData, sep := .k, header := [], payload := [88] }] }

/-- The patch of `textPage`. -/
def textPatch : PatchText :=
  { segment := { number := 1, kind := .patchHead, sep := .k, header := []
                 payload := [0, 3, 0, 5, 0, 2, 0, 1, 1, 0, 0xFF, 9, 77] }
    data := [{ number := 2, kind := .patchData, sep := .k, header := [], payload := [88] }]
    head := some { x0 := 3, y0 := 5, w := 2, h := 1, f := 1, mode := .knockout, override_ := none } }

/-- What the separations of `textPage` say. -/
def pageText (sp : Sys2Proof.Machine.Sep) : SepText :=
  if sp = .k then
    { lines := [some { first := 0, records := [.white 256], defective := true }], orphans := [], patches := [textPatch] }
  else { lines := [], orphans := [], patches := [] }

theorem textPage_reads (sp : Sys2Proof.Machine.Sep) : textPage.readsAs sp (pageText sp) := by
  cases sp
  · refine ⟨List.Forall₂.cons ?_ List.Forall₂.nil, rfl, nofun, ?_⟩
    · refine ⟨by decide, ?_, [0], by decide, by decide, ?_⟩
      · intro r m; rw [List.mem_singleton.mp m]; exact ⟨by decide, by decide⟩
      · intro r tail _ e; cases r <;> simp [RowRecord.bytes] at e
    · intro t m
      rw [List.mem_singleton.mp m]
      exact ⟨rfl, by decide, by simp [PatchHead.inRange], 9, [77], by decide⟩
  all_goals exact ⟨List.Forall₂.nil, rfl, nofun, nofun⟩

theorem wit_IndexerTakesAndCompletesPages_text :
    { onePage textPage with indexer := some 0 }.resetAsserted = false ∧
      { onePage textPage with indexer := some 0 }.indexer = some 0 ∧
      { onePage textPage with indexer := some 0 }.page 0 = some textPage ∧
      (∀ sp, textPage.readsAs sp (pageText sp)) ∧ textPage.seps.get .k = true ∧ textPage.seps.get .c = false ∧
      (pageText .k).faults 512 256 = [(.syntaxDefect, 256)] :=
  ⟨rfl, rfl, rfl, textPage_reads, rfl, rfl, by decide +kernel⟩

/-! ### Settings and the plant clock -/

theorem wit_LinkSetAndGeneralSetWriteTheirSettings : State.reset.resetAsserted = false ∧ (32 : Word).toNat ≤ 32 ∧
    32 < (33 : Word).toNat ∧ 1 ≤ 4095 ∧ 4095 ≤ 4095 ∧ ∀ x ∈ (Vector.replicate 16 255).toList, x ≤ 255 := by decide

/-- A render unit, mode and entry one step outside their ranges. -/
theorem wit_LinkSetAndGeneralSetWriteTheirSettings_refused : (List.replicate 16 (256 : Word)).length = 16 ∧
    4095 < (4096 : Word).toNat ∧ 2 < (3 : Word).toNat ∧ ∃ x ∈ List.replicate 16 (256 : Word), 255 < x.toNat :=
  ⟨by decide, by decide, by decide, 256, by decide, by decide⟩

/-- The windows of the worked example of spec/08, the largest verify window. -/
def wSettings : LineSettings :=
  { LineSettings.powerOn with
    mark := { inverted := false, filter := true, tick := 20, start := ⟨36, 44⟩, zero := ⟨8, 12⟩, one := ⟨18, 24⟩ }
    verification := true, verifyWindow := 600 }

theorem wSettings_acceptable (w : Nat) (h : w ≤ 600) : { wSettings with verifyWindow := w }.acceptable := by
  refine ⟨?_, ?_, ?_, ?_, ?_, ?_, ?_, ?_, ?_, ?_, ?_, ?_, ?_, ?_, ?_, h⟩
  all_goals first
    | intro n; simp only [wSettings]; omega
    | simp [wSettings, LineSettings.powerOn]

theorem wit_LineSetWritesTheLine : State.reset.resetAsserted = false ∧ wSettings.acceptable ∧
    overdueSplit wSettings.verifyWindow (State.reset.queue .a) [] [] ∧
    (([] : List VerifyEntry).map VerifyEntry.plate).Nodup :=
  ⟨rfl, wSettings_acceptable 600 (Nat.le_refl _), ⟨rfl, nofun, nofun⟩, by decide⟩

/-- The values a LINE SET is refused for, one step outside; the windows 0 to 8 and 8 to 9 share the tick count 8. -/
theorem wit_LineSetWritesTheLine_refused : 1 < (2 : Word).toNat ∧ 255 < (256 : Word).toNat ∧ 600 < (601 : Word).toNat ∧
    ¬Window.apart ⟨0, 8⟩ ⟨8, 9⟩ ∧ Window.apart ⟨0, 7⟩ ⟨8, 9⟩ := by
  refine ⟨by decide, by decide, by decide, fun h => ?_, fun n => ?_⟩
  · exact absurd (h 8 (by decide) (by decide) (by decide) (by decide)) (by decide)
  · exact fun _ _ _ h => Or.inl (Nat.lt_succ_of_le h)

/-- A window of 60 removes the head of age 70 and keeps the entry of age 60: the copy is remade, or, its record obsolete,
settled on its page. -/
theorem wit_LineSetWritesTheLine_overdue :
    (let e := { wEntry with age := 70 }
     let s := (oneRecord wAwaiting).setQueue .a [e, { wEntry with serial := 4712, age := 60 }]
     s.resetAsserted = false ∧ { wSettings with verifyWindow := 60 }.acceptable ∧
      overdueSplit 60 (s.queue .a) [e] [{ wEntry with serial := 4712, age := 60 }] ∧ s.remakes e wAwaiting ∧
      ([e].map VerifyEntry.plate).Nodup ∧
      0 < { wAwaiting with obsolete := true }.awaiting ∧ wAwaiting.page = some 0 ∧
      s.page 0 = some { wPage .complete with retention := 1 }) :=
  ⟨rfl, wSettings_acceptable 60 (by decide), ⟨rfl, by decide, by decide⟩, ⟨rfl, by decide, rfl, rfl, by decide⟩, by decide,
    by decide, rfl, rfl⟩

/-- A window of 600 written over the same: three heads go, two of them copies of one record. -/
theorem wit_LineSetWritesTheLine_inTurn : { wSettings with verifyWindow := 600 }.acceptable ∧
    (wQueued [wCopy 8 602, wNoted, wCopy 9 601, wCopy 11 600]).resetAsserted = false ∧
    ∃ t, (wQueued [wCopy 8 602, wNoted, wCopy 9 601, wCopy 11 600]).settledInTurn
      ([wCopy 8 602, wNoted, wCopy 9 601].map VerifyEntry.asMissing) t :=
  ⟨wSettings_acceptable 600 (Nat.le_refl _), rfl, wQueued_overdue.2.2⟩

theorem wit_EditionSetWritesTheEntry : State.reset.resetAsserted = false ∧ (8 : Word).toNat ≤ 8 ∧
    (3600 : Word).toNat ≤ 3600 ∧ 8 < (9 : Word).toNat ∧ 3600 < (3601 : Word).toNat ∧ 15 < (16 : Word).toNat ∧
    7 < (8 : Word).toNat := by decide

/-- A deadline of 5 written at the clock value 5 expires, with a live record of the edition. -/
theorem wit_EditionSetWritesTheEntry_expiring :
    (let s := { oneRecord wPlate with clock := 5 }
     s.resetAsserted = false ∧ (s.editions[(2 : Fin 16)]).deadline = none ∧
      ((0 : Word) ++ (5 : Word)).toNat ≤ s.clock.toNat ∧ (s.deadlinesMissed 5 2).length = 1) := by
  refine ⟨rfl, rfl, by decide, by decide +kernel⟩

theorem wit_ScreenLoadReplacesAnUnusedSet : State.reset.resetAsserted = false ∧ ScreenSet.powerOn.loadable ∧
    (State.reset.screens[7]).inUse = 0 ∧ 0 < ((onLine .loaded).screens[0]).inUse := by
  refine ⟨rfl, ⟨by decide, by decide, by decide, by decide, by decide, by decide, by decide, by decide, by decide, ?_⟩,
    by decide, by decide⟩
  intro t h; rw [List.eq_of_mem_replicate h]; decide

/-- Side 8 with an offset of 8 and with a threshold of 4,096, and a side of 9 with as many thresholds as side 32 asks
for. -/
theorem wit_ScreenLoadReplacesAnUnusedSet_refused :
    screenRefused ([0] ++ List.replicate 17 0 ++ [0, 4095, 8, 8, 0, 0] ++ List.replicate 64 0) ∧
    screenRefused ([0] ++ List.replicate 17 0 ++ [0, 4095, 8, 0, 0, 0] ++ List.replicate 64 4096) ∧
    screenRefused ([0] ++ List.replicate 17 0 ++ [0, 4095, 9, 0, 0, 0] ++ List.replicate 1024 0) := by
  have l {n : Nat} {w : Word} {m : Nat} (e : n = m) : (List.replicate n w).length = m := List.length_replicate.trans e
  refine ⟨⟨0, _, 0, 4095, 8, 8, 0, 0, _, rfl, l rfl, l (by decide), ?_⟩,
    ⟨0, _, 0, 4095, 8, 0, 0, 0, _, rfl, l rfl, l (by decide), ?_⟩,
    ⟨0, _, 0, 4095, 9, 0, 0, 0, _, rfl, l rfl, l (by decide), ?_⟩⟩
  · exact Or.inr (Or.inr (Or.inl (by decide)))
  · iterate 9 right
    exact ⟨4096, List.mem_replicate.mpr ⟨nofun, rfl⟩, by decide⟩
  · exact Or.inr (Or.inl (by decide))

/-- spec/05: the advance that reaches the deadline 81,000. -/
def beforeDeadline : State :=
  { oneRecord wPlate with
    clock := 80999
    editions := State.reset.editions.set 2 { Edition.powerOn with deadline := some 81000 } }

/-- The advance after 80,999 expires edition 2, and a deadline of 80,999 is written at 80,999; record 0 is live. -/
theorem wit_ClockSetLoadsTheClock : beforeDeadline.resetAsserted = false ∧
    (beforeDeadline.editions[(2 : Fin 16)]).reached 81000 = true ∧
    (beforeDeadline.editions[(2 : Fin 16)]).reached 80999 = false ∧ (beforeDeadline.deadlinesMissed 81000 2).length = 1 := by
  refine ⟨rfl, by decide, by decide, by decide +kernel⟩

/-- A timer at its last count, a deadline reached, and on line A a head whose age comes to exceed the window. -/
theorem wit_ClockAdvanceDrivesTheTimers :
    (let e := { wEntry with age := 600 }
     let f := { wEntry with age := 601 }
     let s := withSettings ((beforeDeadline.setPlate 0 (some wAwaiting)).setQueue .a [e]) wSettings
     let t := s.setPage 1 (some { wPage .waiting with timer := some { count := 29, wait := 30 } })
     t.resetAsserted = false ∧ (t.page 1).map Page.timer = some (some { count := 29, wait := 30 }) ∧
      (t.editions[(2 : Fin 16)]).reached 81000 = true ∧
      (∀ l, overdueSplit (t.lineSettings l).verifyWindow
        ((t.queue l).map fun e => { e with age := min (e.age + 1) 65535 }) (if l = .a then [f] else []) []) ∧
      t.remakes f wAwaiting ∧ ([f].map VerifyEntry.plate).Nodup ∧
      0 < { wAwaiting with cancelled := true }.awaiting ∧ wAwaiting.page = some 0 ∧
      t.page 0 = some { wPage .complete with retention := 1 }) := by
  refine ⟨rfl, rfl, by decide, ?_, ⟨rfl, by decide, rfl, rfl, by decide⟩, by decide, by decide, rfl, rfl⟩
  intro l; cases l
  · exact ⟨rfl, by decide, nofun⟩
  · exact ⟨rfl, nofun, nofun⟩

/-- The advance ages two copies of one record and that of a cancelled one beyond the window of 600. -/
theorem wit_ClockAdvanceDrivesTheTimers_inTurn :
    (let s := wQueued [wCopy 8 601, { wNoted with age := 600 }, wCopy 9 600, wCopy 11 599]
     s.resetAsserted = false ∧ (∀ l, overdueSplit (s.lineSettings l).verifyWindow
      ((s.queue l).map fun e => { e with age := min (e.age + 1) 65535 })
      (if l = .a then [wCopy 8 602, wNoted, wCopy 9 601] else []) (if l = .a then [wCopy 11 600] else [])) ∧
      ∃ t, { wQueued [wCopy 11 600] with clock := 1 }.settledInTurn
        ([wCopy 8 602, wNoted, wCopy 9 601].map VerifyEntry.asMissing) t) := by
  refine ⟨rfl, fun l => ?_, by apply wQueued_settled (hs := ?_) <;> first | exact ⟨rfl, rfl⟩ | decide⟩
  cases l
  · exact ⟨rfl, by decide, by decide⟩
  · exact ⟨rfl, nofun, nofun⟩

theorem test_deadline_reached : ∃ t, exec .clockAdvance beforeDeadline = .next t ∧ (t.editions[2]).passed = true ∧
    t.incidents.map (fun i => (i.kind, i.plate)) = [(.deadlineMissed, some 0)] :=
  ⟨_, rfl, by decide +kernel, by decide +kernel⟩

theorem wit_DeadlineExpiryRaisesItsIncidents :
    (let s := { beforeDeadline with clock := 81000 }
     s.resetAsserted = false ∧ (s.editions[(2 : Fin 16)]).deadline = some 81000 ∧
      (s.editions[(2 : Fin 16)]).passed = false ∧ (81000 : Seconds).toNat ≤ s.clock.toNat) := by decide

/-! ### The plate table -/

/-- An order of K and C on a page of K alone: one record is attached and one is a mismatch. -/
theorem wit_PlateOrderCreatesItsRecords : (onePage (wPage .complete)).resetAsserted = false ∧
    labelCarried 0x0203 0x0011 wLabel ∧ [LineChoice.a, .b, .either][(2 : Word).toNat]? = some .either ∧
    8 = max 1 (min (9 : Word).toNat 8) ∧ 1 = max 1 (min (0 : Word).toNat 8) ∧ (setCarried 3).members = [.k, .c] ∧
    2 ≤ (onePage (wPage .complete)).freePlateIds.length ∧ (onePage (wPage .complete)).isCurrent wLabel 0 ∧
    (onePage (wPage .complete)).page 0 = some (wPage .complete) ∧ (wPage .complete).seps.get .k = true ∧
    (wPage .complete).seps.get .c = false := by
  refine ⟨rfl, wLabel_carried, by decide, by decide, by decide, by decide, by decide +kernel,
    ⟨⟨_, rfl, rfl, nofun⟩, ?_⟩, rfl, by decide⟩
  intro k q h _ _; exact (only_page rfl h).1

/-- A label out of range, a set with no separation bit, and a line choice above EITHER. -/
theorem wit_PlateOrderCreatesItsRecords_refused : badLabel 0x0203 0 ∧ (0xFFF0 : Word).toNat % 16 = 0 ∧
    2 < (3 : Word).toNat := ⟨by simp [badLabel], by decide, by decide⟩

/-- An order of C alone on a page of K: no record was attached to a handle, so the reply's handle is absent (R101). -/
theorem test_order_mismatch : ∃ t, exec (.plateOrder [0x0203, 0x0011, 2, 1, 2]) (onePage (wPage .complete)) = .next t ∧
    t.replyFrame .plan = some [0, 4, 1, 0xFFFF, 0, 2] ∧ t.plate 0 = none ∧
    t.incidents.map (fun i => (i.kind, i.handle)) = [(.orderMismatch, some 0)] :=
  ⟨_, rfl, by decide +kernel, by decide +kernel, by decide +kernel⟩

theorem wit_PlateOrderCreatesItsRecords_none : State.reset.noCurrent wLabel ∧ (setCarried 15).members ≠ [] ∧
    (setCarried 15).members.length ≤ State.reset.freePlateIds.length := by
  refine ⟨?_, by decide, by decide +kernel⟩
  intro k q h; simp [State.reset, State.page] at h

theorem wit_PlateOrderCreatesItsRecords_full :
    { State.reset with plates := Vector.replicate 128 (some wPlate) }.freePlateIds.length < (setCarried 1).members.length := by
  decide +kernel

theorem wit_PlateCancelWithdrawsTheCopies : (onLine .loaded).resetAsserted = false ∧ (onLine .loaded).plate 0 =
      some { wPlate with toExpose := 0, exposing := 1, channel := some .a } ∧
    (oneRecord wPlate).plate 0 = some wPlate ∧ wPlate.channel = none ∧ wPlate.exposing = 0 ∧ wPlate.awaiting = 0 ∧
    wPlate.page = some 0 ∧ (oneRecord wPlate).page 0 = some { wPage .complete with retention := 1 } ∧
    { wPlate with page := none }.page = none ∧ State.reset.plate 127 = none ∧ labelCarried 0x0203 0x0011 wLabel ∧
    127 < (128 : Word).toNat ∧ badLabel 0x0203 0 ∧ (∀ i r, State.reset.plate i = some r → r.label ≠ wLabel) :=
  ⟨rfl, rfl, rfl, rfl, rfl, rfl, rfl, rfl, rfl, by decide +kernel, wLabel_carried, by decide, by simp [badLabel],
    fun _ _ h => absurd h (no_plate rfl)⟩

/-- Records 0 and 1 of a label: one with nothing left but its copy to expose, on a SUPERSEDED page, and one with a copy
awaiting verification. -/
theorem wit_PlateCancelWithdrawsTheCopies_label :
    (let s := ((oneRecord wPlate).setPlate 1 (some { wAwaiting with page := some 1 })).setPage 0
        (some { wPage .superseded with retention := 1 })
     (∃ i r, s.plate i = some r ∧ r.label = wLabel) ∧
      [0, 1] = plateIds.filter (fun i => (s.plate i).any fun r => r.label == wLabel) ∧
      [0] = [0, 1].filter (fun i => (s.plate i).any fun r =>
        r.channel.isNone && r.exposing == 0 && r.awaiting == 0) ∧
      s.page 0 = some { wPage .superseded with retention := 1 }) := by
  refine ⟨⟨0, _, rfl, rfl⟩, by decide +kernel, by decide +kernel, rfl⟩

theorem wit_DispatcherTakesTheFirstEligibleRecord : (oneRecord wPlate).firstEligible .b = some 0 ∧
    State.reset.firstEligible .b = none := by refine ⟨by decide +kernel, by decide +kernel⟩

theorem wit_DispatcherTakesTheFirstEligibleRecord_attention : (oneRecord wPlate).resetAsserted = false ∧
    ((oneRecord wPlate).channel .a).exposure = none ∧ ((oneRecord wPlate).channel .a).held = false ∧
    (oneRecord wPlate).plate 0 = some wPlate ∧ (oneRecord wPlate).eligible wPlate .a = true :=
  ⟨rfl, rfl, rfl, rfl, by decide +kernel⟩

theorem wit_LineHoldAndReleaseMoveTheHeldFlag : State.reset.resetAsserted = false ∧ 1 < (2 : Word).toNat := by decide

/-- The deadline 0 is earlier than any projected finish above 0. -/
theorem wit_PlateRequestLoadsTheFirstEligibleRecord : ∃ (s : State) (r : Plate) (p : Page), s.resetAsserted = false ∧
    (s.channel .a).exposure = none ∧ (s.channel .a).held = false ∧ s.firstEligible .a = some 0 ∧ s.plate 0 = some r ∧
    r.page = some 0 ∧ s.page 0 = some p ∧ (s.editionOf r.label).deadline = some 0 ∧ r.lateRisk = false ∧
    0 < s.projectedFinish .a r p :=
  ⟨{ oneRecord wPlate with
      editions := State.reset.editions.set 2 { Edition.powerOn with deadline := some 0, passed := true } },
    wPlate, { wPage .complete with retention := 1 }, rfl, rfl, rfl, by decide +kernel, rfl, rfl, rfl, by decide,
    rfl, by decide⟩

/-- The last serial of the range stands next, step 7 has its two levels, and the header of a copy of record 0. -/
theorem wit_PlateRequestLoadsTheFirstEligibleRecord_copy :
    1 ≤ { State.reset with serialNext := 65535 }.serialNext ∧ { State.reset with serialNext := 65535 }.serialNext ≤ 65535 ∧
    (∀ l, (State.reset.queue l).length ≤ 16) ∧ State.reset.exposureTable.toList[7 * 2 + 1]? = some 128 ∧
    ({ serial := 4711, index := 0, level := 128, markCode := markCase.code } : Copy).header 0 { wPlate with sep := .c }
      (wPage .complete) = [4711, 0, 0x0203, 17, 1, 1, 512, 256, 128, 0, 1, 4711, 8754, 40834] := by
  refine ⟨by decide, by decide, fun l => by cases l <;> decide, by decide, by decide⟩

theorem wit_PlateRequestLoadsTheFirstEligibleRecord_refused : (onLine .loaded).resetAsserted = false ∧
    ((onLine .loaded).channel .a).exposure ≠ none ∧ (State.reset.channel .a).exposure = none ∧
    ((State.reset.setChannel .a { Channel.powerOn with held := true }).channel .a).held = true ∧
    (∀ i r, State.reset.plate i = some r → State.reset.eligible r .a = false) :=
  ⟨rfl, nofun, rfl, rfl, fun _ _ h => absurd h (no_plate rfl)⟩

/-! ### Imaging channels and the render engine -/

theorem on_line (ph : Phase) : (onLine ph).exposes .a (wExposure ph)
    { wPlate with toExpose := 0, exposing := 1, channel := some .a } 0 { wPage .complete with retention := 1 } :=
  ⟨rfl, rfl, rfl, rfl⟩

theorem wit_PlateStartRunsALoadedChannel : (onLine .loaded).resetAsserted = false ∧
    ((onLine .loaded).channel .a).exposure = some (wExposure .loaded) ∧ (wExposure .loaded).phase = .loaded ∧
    ((onLine .running).channel .a).exposure = some (wExposure .running) ∧ (wExposure .running).phase ≠ .loaded ∧
    (State.reset.channel .a).exposure = none := ⟨rfl, rfl, rfl, rfl, nofun, rfl⟩

/-- Two rows of band 0 in slot 0, and one row read of eight. -/
def twoRows : Channel :=
  { Channel.powerOn with
    exposure := some (wExposure .running), nextBand := 1
    ring := #v[.filled 0 [whiteRow 512, whiteRow 512], .free, .free, .free] }

theorem wit_RowsReadDeliversRows :
    (let s := (onLine .running).setChannel .a twoRows
     s.resetAsserted = false ∧ s.exposes .a (wExposure .running)
      { wPlate with toExpose := 0, exposing := 1, channel := some .a } 0 { wPage .complete with retention := 1 } ∧
     (wExposure .running).phase = .running ∧ s.channel .a = twoRows ∧ twoRows.underrun = false ∧
     (∀ k, k < 2 → twoRows.rowAt (twoRows.rowsDelivered + k) = [whiteRow 512, whiteRow 512][k]?) ∧
     twoRows.rowAt (twoRows.rowsDelivered + 2) = none ∧ (Channel.powerOn).rowAt 0 = none ∧
     { twoRows with underrun := true }.underrun = true) := by
  refine ⟨rfl, ⟨rfl, rfl, rfl, rfl⟩, rfl, rfl, rfl, ?_, by decide, by decide, rfl⟩
  intro k hk
  rcases k with _ | _ | k
  · rfl
  · rfl
  · omega

/-- Counts outside 1 to 8 and at its ends, a LOADED channel and an IDLE one, and a row that stands ready. -/
theorem wit_RowsReadDeliversRows_refused : (0 : Word).toNat < 1 ∧ 8 < (9 : Word).toNat ∧ 1 ≤ (1 : Word).toNat ∧
    (8 : Word).toNat ≤ 8 ∧ (∀ e, ((onLine .loaded).channel .a).exposure = some e → e.phase ≠ .running) ∧
    (∀ e, (State.reset.channel .a).exposure = some e → e.phase ≠ .running) ∧
    twoRows.ring[1 / 256 % 4]? = some (.filled (1 / 256) [whiteRow 512, whiteRow 512]) ∧ (whiteRow 512).length % 16 = 0 := by
  refine ⟨by decide, by decide, by decide, by decide, ?_, nofun, rfl, by rw [whiteRow, List.length_replicate]⟩
  intro e h; cases h; nofun

theorem wit_StallTimerExpiryUnderruns :
    (let s := State.reset.setChannel .a { twoRows with stall := some { elapsed := 0, limit := 1 } }
     s.resetAsserted = false ∧ (s.channel .a).stall = some { elapsed := 0, limit := 1 }) := ⟨rfl, rfl⟩

/-- A step with no command waiting: channel A's timer is one millisecond from its limit, channel B's is two. -/
theorem wit_StallTimerExpiryUnderruns_millisecond :
    (let s := (State.reset.setChannel .a { twoRows with stall := some { elapsed := 49, limit := 50 } }).setChannel .b
        { twoRows with stall := some { elapsed := 48, limit := 50 } }
     s.pending = [] ∧ s.resetAsserted = false ∧ (s.channel .a).stall = some { elapsed := 49, limit := 50 } ∧
      50 ≤ 49 + 1 ∧ (s.channel .b).stall = some { elapsed := 48, limit := 50 } ∧ 48 + 1 < 50 ∧
      (State.reset.channel .a).stall = none ∧ { s with resetAsserted := true }.resetAsserted = true) :=
  ⟨rfl, rfl, rfl, by decide, rfl, by decide, rfl, rfl⟩

/-- The good endings: verified, withdrawn for an obsolete record, and awaiting verification. -/
theorem wit_PlateEndSettlesTheCopy :
    (let s := onLine .finishing
     let r := { wPlate with toExpose := 0, exposing := 1, channel := some .a }
     let p := { wPage .complete with retention := 1 }
     let e := wExposure .finishing
     s.resetAsserted = false ∧ s.exposes .a e r 0 p ∧ r.channel = some .a ∧ r.exposing = 1 ∧ e.group.Nodup ∧
      s.endedAs .a e r 0 p 0 { r with exposing := 0, verified := 1 } [1, 0xFFFF, 0xFFFF] [] [] ∧ r.toExpose = 0 ∧
      s.endedAs .a e { r with obsolete := true } 0 p 0 { r with obsolete := true, exposing := 0, withdrawn := 1 }
        [2, 0xFFFF, 0xFFFF] [] [] ∧
      (withSettings s wSettings).endedAs .a e r 0 p 0 { r with exposing := 0, awaiting := 1 } [0, 0xFFFF, 0xFFFF] []
        [e.entry r p]) :=
  ⟨rfl, on_line _, rfl, rfl, by decide,
    Or.inl ⟨rfl, rfl, rfl, rfl, Or.inl ⟨rfl, rfl, Or.inr ⟨rfl, rfl, rfl⟩⟩⟩, rfl,
    Or.inl ⟨rfl, rfl, rfl, rfl, Or.inl ⟨rfl, rfl, Or.inl ⟨rfl, rfl, rfl⟩⟩⟩,
    Or.inl ⟨rfl, rfl, rfl, rfl, Or.inr ⟨rfl, by decide, rfl, rfl, rfl⟩⟩⟩

/-- A result above EXPOSE FAULT, and a channel in IDLE. -/
theorem wit_PlateEndSettlesTheCopy_refused : 1 < (2 : Word).toNat ∧ (1 : Word).toNat ≤ 1 ∧
    (State.reset.channel .a).exposure = none := ⟨by decide, by decide, rfl⟩

/-- The damaged endings: a copy ended in LOADED is remade, one in underrun fails at the limit, and the EXPOSE FAULT of a
cancelled record is noted. -/
theorem wit_PlateEndSettlesTheCopy_damaged :
    (let r := { wPlate with toExpose := 0, exposing := 1, channel := some .a }
     let p := { wPage .complete with retention := 1 }
     let u := (onLine .finishing).setChannel .a { (onLine .finishing).channel .a with underrun := true }
     (∃ q is, (onLine .loaded).endedAs .a (wExposure .loaded) r 0 p 1 q
        [3, word IncidentKind.shortExposure.code, word Disposition.remakeQueued.code] is [] ∧ 0 < q.toExpose ∧
          r.cancelled = false ∧ r.obsolete = false ∧ (wExposure .loaded).copy.index < 7) ∧
      (∃ q is, u.endedAs .a (wExposure .finishing) { r with attempts := 3 } 0 p 0 q
        [3, word IncidentKind.underrun.code, word Disposition.remakeLimit.code] is [] ∧ q.toExpose = 0) ∧
      ∃ q is, (onLine .finishing).endedAs .a (wExposure .finishing) { r with cancelled := true } 0 p 1 q
        [3, word IncidentKind.exposeFault.code, word Disposition.noted.code] is [] ∧ q.withdrawn = 1) :=
  ⟨⟨_, _, Or.inr ⟨_, _, .remakeQueued, rfl, by decide, Or.inl ⟨nofun, rfl, rfl⟩, ⟨rfl, rfl⟩, rfl, rfl⟩, by decide, rfl, rfl,
      by decide⟩,
    ⟨_, _, Or.inr ⟨_, _, .remakeLimit, rfl, by decide, Or.inr (Or.inl ⟨rfl, rfl, rfl, rfl⟩), ⟨rfl, rfl⟩, rfl, rfl⟩, rfl⟩,
    ⟨_, _, Or.inr ⟨_, _, .noted, rfl, by decide, Or.inr (Or.inr ⟨rfl, rfl, rfl, rfl, rfl⟩), ⟨rfl, rfl⟩, rfl, rfl⟩, rfl⟩⟩

/-- A good exposure pushed onto a queue of 16 entries, whose next head stands at the verify window. -/
theorem wit_PlateEndSettlesTheCopy_full :
    (let f : VerifyEntry := { wEntry with plate := 1 }
     let rest := List.replicate 15 { wEntry with plate := 2, age := 600 }
     let s := withSettings (((onLine .finishing).setPlate 1 (some wAwaiting)).setQueue .a (f :: rest)) wSettings
     let r := { wPlate with toExpose := 0, exposing := 1, channel := some .a }
     s.resetAsserted = false ∧ s.exposes .a (wExposure .finishing) r 0 { wPage .complete with retention := 1 } ∧
      (s.channel .a).underrun = false ∧ (s.lineSettings .a).verification = true ∧ r.toExpose = 0 ∧
      s.queue .a = f :: rest ∧ rest.length = 15 ∧
      (∀ g ∈ rest.head?, (s.lineSettings .a).verifyWindow = 0 ∨ g.age ≤ (s.lineSettings .a).verifyWindow) ∧
      f.plate ≠ (wExposure .finishing).plate ∧ s.plate f.plate = some wAwaiting ∧ 0 < wAwaiting.awaiting ∧
      wAwaiting.obsolete = false ∧ wAwaiting.cancelled = false ∧
      wAwaiting.attempts < (s.editionOf wAwaiting.label).remakeLimit) :=
  ⟨rfl, ⟨rfl, rfl, rfl, rfl⟩, rfl, rfl, rfl, rfl, rfl, by decide, by decide, rfl, by decide, rfl, rfl, by decide⟩

/-- A good exposure pushed onto a queue of 16 copies of one record: the head is expelled, the next is overdue, and the copy
joins the fourteen left. -/
theorem wit_PlateEndSettlesTheCopy_room :
    (let e := wExposure .finishing
     let r := { wPlate with toExpose := 0, exposing := 1, channel := some .a }
     let p := { wPage .complete with retention := 4 }
     let s := wQueued (wCopy 8 5 :: wCopy 9 601 :: List.replicate 14 (wCopy 11 4))
     s.resetAsserted = false ∧ r.channel = some .a ∧ r.exposing = 1 ∧ e.group.Nodup ∧ r.toExpose = 0 ∧
      ∃ b, s.madeRoom b .a e ∧ b.exposes .a e r 0 p ∧
        b.endedAs .a e r 0 p 0 { r with exposing := 0, awaiting := 1 } [0, 0xFFFF, 0xFFFF] [] [e.entry r p]) := by
  obtain ⟨m, hm⟩ := wQueued_settled (s := wQueued (wCopy 8 5 :: wCopy 9 601 :: List.replicate 14 (wCopy 11 4))) ⟨rfl, rfl⟩
    (xs := [wCopy 8 5, wCopy 9 601].map VerifyEntry.asMissing) (by decide) (by decide) (by decide) (by decide) (by decide)
  have h := State.settledInTurn_eq hm (by decide)
  refine ⟨rfl, rfl, rfl, by decide, rfl, { m with queues := (wQueued []).queues.set .a (List.replicate 14 (wCopy 11 4)) },
    ⟨rfl, rfl, rfl, wCopy 8 5, wCopy 9 601 :: List.replicate 14 (wCopy 11 4), [wCopy 9 601],
      List.replicate 14 (wCopy 11 4), m, rfl, rfl, ⟨rfl, by decide, by decide⟩, hm, rfl⟩, ?_, ?_⟩
  · rw [h]; exact ⟨rfl, rfl, rfl, rfl⟩
  · rw [h]; exact Or.inl ⟨rfl, rfl, rfl, rfl, Or.inr ⟨rfl, by decide, rfl, rfl, rfl⟩⟩

/-- A LOADED copy returns, or is withdrawn for an obsolete record; a RUNNING one is remade or fails at the limit, and a
FINISHING one of a cancelled record is noted. -/
theorem wit_LineAbortGivesUpTheCopy :
    (let r := { wPlate with toExpose := 0, exposing := 1, channel := some .a }
     let q := { wPlate with toExpose := 0 }
     (State.reset.channel .a).exposure = none ∧ (onLine .loaded).resetAsserted = false ∧
      (∀ ph, (onLine ph).exposes .a (wExposure ph) r 0 { wPage .complete with retention := 1 }) ∧ r.channel = some .a ∧
      r.exposing = 1 ∧ (∀ ph, (wExposure ph).group.Nodup) ∧ (wExposure .loaded).phase = .loaded ∧
      r.givenUpAs { q with toExpose := 1 } .loaded 3 4 0xFFFF none ∧
      { r with obsolete := true }.givenUpAs { q with obsolete := true, withdrawn := 1 } .loaded 3 2 0xFFFF none ∧
      r.givenUpAs { q with failed := 1, attempts := 1, toExpose := 1, remake := true } .running 3 3
        (word Disposition.remakeQueued.code) (some .remakeQueued) ∧
      { r with attempts := 3 }.givenUpAs { q with attempts := 3, failed := 1 } .running 3 3
        (word Disposition.remakeLimit.code) (some .remakeLimit) ∧
      { r with cancelled := true }.givenUpAs { q with cancelled := true, withdrawn := 1 } .finishing 3 3
        (word Disposition.noted.code) (some .noted)) :=
  ⟨rfl, rfl, on_line, rfl, rfl, fun _ => List.nodup_singleton _, rfl, ⟨rfl, rfl, rfl, rfl⟩, ⟨rfl, rfl, rfl, rfl⟩,
    ⟨_, rfl, rfl, rfl, rfl, rfl⟩, ⟨_, rfl, rfl, rfl, rfl, rfl⟩, ⟨_, rfl, rfl, rfl, rfl, rfl⟩⟩

/-- The hypotheses of LINE RESET in each phase are those of `wit_LineAbortGivesUpTheCopy`; the limit there is the one of the
record's edition. -/
theorem wit_LineResetIdlesTheLine : 1 < (2 : Word).toNat ∧ (State.reset.channel .b).exposure = none ∧
    (∀ ph, (onLine ph).resetAsserted = false) ∧
    (∀ ph, ((onLine ph).editionOf wPlate.label).remakeLimit = 3) ∧
    ((wExposure .loaded).phase = .loaded ∧ (1 : Word) = 1) ∧ ((wExposure .running).phase = .running ∧ (2 : Word) = 2) ∧
    ((wExposure .finishing).phase = .finishing ∧ (3 : Word) = 3) :=
  ⟨by decide, rfl, fun _ => rfl, fun _ => rfl, ⟨rfl, rfl⟩, ⟨rfl, rfl⟩, ⟨rfl, rfl⟩⟩

/-- spec/07, the arbiter: both channels hold three FILLED slots, B was chosen last, so A is chosen. -/
def tie (m : ArbMode) : State :=
  let c : Channel :=
    { Channel.powerOn with
      exposure := some (wExposure .running), nextBand := 3
      ring := #v[.filled 0 [], .filled 1 [], .filled 2 [], .free] }
  { (((onLine .running).setPage 0 (some { wPage .complete with height := 1024 })).setChannel .a c).setChannel .b c with
    mode := m, lastChosen := .b }

theorem wit_ArbiterGivesTheEngineByItsMode : (tie .leastFilled).resetAsserted = false ∧
    (tie .leastFilled).engine = none ∧ (tie .leastFilled).arbiterPicks .a ∧ (tie .rotating).arbiterPicks .a ∧
    (tie .fixed).arbiterPicks .a ∧ State.reset.engine = none ∧ ¬State.reset.requests .a ∧
    ¬State.reset.requests .b := by
  have t : ∀ m, (tie m).requests .a := fun m => by
    refine ⟨wExposure .running, _, 0, _, ⟨rfl, rfl, rfl, rfl⟩, Or.inr rfl, rfl, ?_, rfl⟩; cases m <;> decide
  refine ⟨rfl, rfl, ⟨t _, fun _ => Or.inr ⟨rfl, nofun⟩⟩, ⟨t _, fun _ => nofun⟩, ⟨t _, fun _ => rfl⟩, rfl, ?_, ?_⟩
  all_goals rintro ⟨e, r, h, p, ⟨g, -⟩, -⟩; cases g

theorem wit_RenderTasksEnd :
    (let s := { onLine .running with engine := some { line := .a, band := 0, discarded := false } }
     s.resetAsserted = false ∧ s.engine = some { line := .a, band := 0, discarded := false } ∧
      s.exposes .a (wExposure .running) { wPlate with toExpose := 0, exposing := 1, channel := some .a } 0
        { wPage .complete with retention := 1 } ∧ (whiteRow 512).length = (wPage .complete).width ∧
      { s with engine := some { line := .a, band := 0, discarded := true } }.engine =
        some { line := .a, band := 0, discarded := true }) :=
  ⟨rfl, rfl, on_line .running, List.length_replicate, rfl⟩

/-- The context of the copy on the line stands at row 0 of a page with no LINE segment; a sample of a patch that is taken;
and the threshold of the power-on tile. -/
theorem wit_RenderTasksEnd_text :
    (∃ x : SepText, { wPage .complete with retention := 1 }.readsAs .k x ∧
      ((onLine .running).channel .a).context.standsAt { wPage .complete with retention := 1 } .k x (256 * 0)) ∧
      ({ wPage .complete with retention := 1 }.held.map Segment.number).Pairwise (· < ·) ∧
      textPage.readsAs .k (pageText .k) ∧ (textPage.held.map Segment.number).Pairwise (· < ·) ∧
      (textPatch, { x0 := 3, y0 := 5, w := 2, h := 1, f := 1, mode := .knockout, override_ := none }) ∈
        patchesTaken (pageText .k).patches ∧
      0 < 1 ∧ 1 < 2 ∧ ScreenSet.powerOn.tile[63]? = some 2047 :=
  ⟨⟨{ lines := [], orphans := [], patches := [] }, ⟨List.Forall₂.nil, rfl, nofun, nofun⟩,
      Or.inl ⟨rfl, rfl, by decide⟩⟩,
    List.Pairwise.nil, textPage_reads .k, by decide, by decide, by decide, by decide, by decide⟩

/-! ### Plate mark verification -/

theorem wit_MarkCodesReadBack : markCase.serial ≤ 65535 ∧ markCase.index ≤ 7 := by decide

/-- A decoder under the settings of the worked example of spec/08. -/
def wDecoder (filter : Bool) (seen : Option Bool) (count : Nat) (x : Option Strip) : Decoder :=
  { seen, filterCount := 2, count, inForce := { wSettings.mark with filter }, strip := x }

theorem wit_MarkTicksAreSampledAndMeasured :
    (let d := wDecoder false (some false) 39 (some Strip.begin)
     d.strip = some Strip.begin ∧ d.seen = some false ∧ d.inForce.filter = false ∧ d.count < 65535 ∧
      d.inForce.start.contains (d.count + 1) = true ∧ d.inForce.start.contains 12 = false ∧
      (d.inForce.zero.contains 12 || d.inForce.one.contains 12) = true ∧ d.inForce.start.enabled = true ∧
      MarkTiming.powerOn.start.enabled = false ∧ MarkTiming.powerOn.zero.enabled = false ∧
      MarkTiming.powerOn.one.enabled = false) := by decide

/-- The run of the worked example, closed without a marker. -/
def wRun : Run := { bits := (List.range 48).map markCase.code.getLsbD, barFault := false, overlong := false }

/-- In HUNT a ZERO is passed over; in DATA a START closes a good run, a bar fault and a 49th bit mark it; below the largest
enabled maximum of 44 a tick without an edge only counts. -/
theorem wit_MarkTicksAreSampledAndMeasured_data :
    (let d := wDecoder false (some false) 39 (some { Strip.begin with run := some wRun })
     d.inForce.start.contains 40 = true ∧ wRun.bits.length = 48 ∧ ¬wRun.bits.length < 48 ∧ wRun.barFault = false ∧
      wRun.overlong = false ∧ markCheck wRun.code = (markIdentity wRun.code).check ∧
      (wDecoder true (some false) 9 none).filterCount = 2 ∧ d.inForce.start.contains 10 = false ∧
      d.inForce.start.contains 15 = false ∧ d.inForce.zero.contains 15 = false ∧ d.inForce.one.contains 15 = false ∧
      d.inForce.largestMax = some 44 ∧ 43 < 44) := by decide

/-- In a strip with the filter on, below the largest enabled maximum of 44: the seen level is high, low or not yet taken,
and the filter count is 1 or 2. -/
theorem wit_MarkTicksAreSampledAndMeasured_filtered :
    (let d := wDecoder true (some true) 43 (some Strip.begin)
     d.strip = some Strip.begin ∧ d.seen = some true ∧ d.inForce.filter = true ∧ d.inForce.largestMax = some 44 ∧
      d.count < 44 ∧ 44 ≤ 65535 ∧ d.filterCount = 2 ∧ { d with filterCount := 1 }.filterCount < 2 ∧
      (wDecoder true none 43 (some Strip.begin)).seen = none ∧
      (false != d.inForce.inverted) = false) := by decide

/-- In IDLE with the filter on and no window enabled, the third differing high sample. -/
theorem wit_MarkTicksAreSampledAndMeasured_idle :
    (let d := { wDecoder true (some false) 9 none with inForce := MarkTiming.powerOn }
     d.seen = some false ∧ d.strip = none ∧ d.inForce.filter = true ∧ d.filterCount = 2 ∧
      d.inForce.start.enabled = false ∧ d.inForce.zero.enabled = false ∧ d.inForce.one.enabled = false) := by decide

/-- The worked example of spec/08 at its last tick: the run of serial 4,711 has closed, and 45 ticks have passed. -/
def stripDone : Strip := { run := none, code := some markCase.code, disagree := false, measured := true }

theorem wit_StripEndSettlesTheQueue :
    (let d := wDecoder true (some false) 44 (some stripDone)
     let s := (withSettings ((oneRecord { wAwaiting with awaiting := 2 }).setQueue .a [wEntry]) wSettings).setDecoder .a d
     s.resetAsserted = false ∧ s.decoder .a = d ∧ d.strip = some stripDone ∧
      d.stripEndsBy { (d.see false).1 with count := 45 } .a (.markTick .a false) ∧
      stripDone.measured = true ∧ stripDone.finish.readable = some markCase.code ∧ s.queue .a = wEntry :: [] ∧
      markIdentity markCase.code =
        { serial := wEntry.serial, label := wEntry.label, sep := .c, index := wEntry.copyIndex } ∧
      s.plate wEntry.plate = some { wAwaiting with awaiting := 2 } ∧ (s.lineSettings .a).verifyWindow = 600 ∧
      0 < { wAwaiting with awaiting := 2 }.awaiting ∧ 1 < { wAwaiting with awaiting := 2 }.awaiting) :=
  ⟨rfl, rfl, rfl, ⟨44, by decide, Or.inr ⟨false, rfl, Or.inl ⟨by decide, rfl, by decide, rfl⟩⟩⟩, rfl, by decide, rfl,
    by decide, rfl, rfl, by decide, by decide⟩

/-- STRIP_END where the count has passed 44, and the tick after the count stands at a maximum of 65,535, with an edge. -/
theorem wit_StripEndSettlesTheQueue_ends :
    (let d := wDecoder true (some false) 45 (some stripDone)
     d.stripEndsBy d .a (.stripEnd .a)) ∧
    (let d := { wDecoder false (some false) 65535 (some stripDone) with
       inForce := { wSettings.mark with filter := false, start := ⟨36, 65535⟩ } }
     d.stripEndsBy { (d.see true).1 with count := 0 } .a (.markTick .a true)) :=
  ⟨⟨44, by decide, Or.inl ⟨rfl, rfl, by decide⟩⟩,
    ⟨65535, by decide, Or.inr ⟨true, rfl, Or.inr ⟨rfl, rfl, by decide⟩⟩⟩⟩

theorem wit_StripEndSettlesTheQueue_unread :
    ({ stripDone with code := none }.finish.readable = none ∧ State.reset.queue .a = [] ∧ Strip.begin.measured = false ∧
      ∀ e ∈ State.reset.queue .a, e.serial ≠ 4711) := by decide

/-- An unreadable strip before a queue of one, and a strip that matches the entry behind the head. -/
theorem wit_StripEndSettlesTheQueue_behind :
    (let f : VerifyEntry := { wEntry with serial := 9, plate := 1 }
     let s := ((oneRecord { wAwaiting with awaiting := 2 }).setPlate 1 (some wAwaiting)).setQueue .a [f, wEntry]
     s.queue .a = f :: wEntry :: [] ∧ f.serial ≠ wEntry.serial ∧ f.plate ≠ wEntry.plate ∧
      s.plate f.plate = some wAwaiting ∧ 0 < wAwaiting.awaiting ∧ wAwaiting.obsolete = false ∧
      wAwaiting.cancelled = false ∧ wAwaiting.attempts < (s.editionOf wAwaiting.label).remakeLimit ∧
      (s.setQueue .a [f]).queue .a = f :: []) :=
  ⟨rfl, by decide, by decide, rfl, by decide, rfl, rfl, by decide, rfl⟩

/-- A strip that matches the third entry, the last copy of its record: the two before it are remade and noted, and the next,
of the record of the first, is overdue. An unreadable strip before the same two of one record. -/
theorem wit_StripEndSettlesTheQueue_inTurn :
    (let e := { wEntry with plate := 3 }
     let s := wQueued [wCopy 8 5, wNoted, e, wCopy 9 601, wCopy 11 600]
     let t := wQueued [wCopy 8 5, wCopy 9 601, wCopy 11 600]
     s.resetAsserted = false ∧ s.retained ∧ s.queue .a = [wCopy 8 5, wNoted] ++ e :: [wCopy 9 601, wCopy 11 600] ∧
      (∀ f ∈ [wCopy 8 5, wNoted], f.serial ≠ e.serial) ∧
      overdueSplit (s.lineSettings .a).verifyWindow [wCopy 9 601, wCopy 11 600] [wCopy 9 601] [wCopy 11 600] ∧
      (∃ u, s.settledInTurn ([wCopy 8 5, wNoted].map VerifyEntry.asMissing ++
        (e, none) :: [wCopy 9 601].map VerifyEntry.asMissing) u) ∧
      t.queue .a = wCopy 8 5 :: [wCopy 9 601, wCopy 11 600] ∧
      t.awaitsEach [wCopy 8 5, wCopy 9 601] ∧
      ∃ u, t.settledInTurn ((wCopy 8 5, some .unreadable) :: [wCopy 9 601].map VerifyEntry.asMissing) u) := by
  refine ⟨rfl, wQueued_retained _, rfl, by decide, ⟨rfl, by decide, by decide⟩,
    by apply wQueued_settled (hs := ?_) <;> first | exact ⟨rfl, rfl⟩ | decide, rfl, fun f hf => ?_,
    by apply wQueued_settled (hs := ?_) <;> first | exact ⟨rfl, rfl⟩ | decide⟩
  simp only [List.mem_cons, List.not_mem_nil, or_false] at hf
  rcases hf with rfl | rfl <;> exact ⟨{ wAwaiting with awaiting := 16 }, rfl, nofun, by decide⟩

/-- The last copy of a record, verified at the head, and an unreadable strip at the remake limit. -/
theorem wit_StripEndSettlesTheQueue_last :
    (let r := { wAwaiting with attempts := 3 }
     let p := { wPage .complete with retention := 1 }
     let s := (oneRecord r).setQueue .a [wEntry]
     s.queue .a = wEntry :: [] ∧ s.plate wEntry.plate = some r ∧ 0 < r.awaiting ∧ r.page = some 0 ∧ s.page 0 = some p ∧
      { r with awaiting := r.awaiting - 1 }.damagedAs { r with awaiting := 0, failed := 1 }
        (s.editionOf r.label).remakeLimit (min (r.step + 1) 7) .remakeLimit ∧
      ({ r with awaiting := 0, verified := 1 } : Plate).toExpose = 0) :=
  ⟨rfl, rfl, by decide, rfl, rfl, ⟨rfl, rfl⟩, rfl⟩

/-- Under a maximum of 65,535 the strip is not ended before the tick after the count reaches 65,535 (R153). -/
theorem test_strip_end_not_early :
    ({ wDecoder false (some false) 65535 (some stripDone) with
        inForce := { wSettings.mark with start := ⟨36, 65535⟩ } }).endDue = false := by decide

/-- Three overdue heads, two of them of one record, and one that is not overdue. -/
theorem wit_VerifyTimeoutSettlesTheHeadAsMissing_inTurn :
    (let s := wQueued [wCopy 8 602, wNoted, wCopy 9 601, wCopy 11 600]
     s.resetAsserted = false ∧
      overdueSplit (s.lineSettings .a).verifyWindow (s.queue .a) [wCopy 8 602, wNoted, wCopy 9 601] [wCopy 11 600] ∧
      ∃ t, s.settledInTurn ([wCopy 8 602, wNoted, wCopy 9 601].map VerifyEntry.asMissing) t) := wQueued_overdue

theorem wit_VerifyTimeoutSettlesTheHeadAsMissing :
    (let s := withSettings ((oneRecord wAwaiting).setQueue .a [{ wEntry with age := 601 }]) wSettings
     s.resetAsserted = false ∧ s.queue .a = { wEntry with age := 601 } :: [] ∧ 0 < (s.lineSettings .a).verifyWindow ∧
      (s.lineSettings .a).verifyWindow < 601 ∧ s.plate wEntry.plate = some wAwaiting ∧ 0 < wAwaiting.awaiting ∧
      wAwaiting.obsolete = false ∧ wAwaiting.cancelled = false ∧
      wAwaiting.attempts < (s.editionOf wAwaiting.label).remakeLimit) :=
  ⟨rfl, rfl, by decide, by decide, rfl, by decide, rfl, rfl, by decide⟩

/-- The head's record at the remake limit, and cancelled: its last copy is settled and its page loses a retention. -/
theorem wit_VerifyTimeoutSettlesTheHeadAsMissing_settled :
    (let r := { wAwaiting with attempts := 3 }
     r.page = some 0 ∧ (oneRecord r).page 0 = some { wPage .complete with retention := 1 } ∧
      { r with awaiting := r.awaiting - 1 }.damagedAs { r with awaiting := 0, failed := 1 }
        ((oneRecord r).editionOf r.label).remakeLimit r.step .remakeLimit ∧
      { r with awaiting := r.awaiting - 1, cancelled := true }.damagedAs
        { r with awaiting := 0, cancelled := true, withdrawn := 1 } 3 r.step .noted) :=
  ⟨rfl, rfl, ⟨rfl, rfl⟩, ⟨rfl, rfl⟩⟩

/-! ### The incident list and FLUSH -/

theorem wit_IncidentClearRemovesTheOldest : State.reset.resetAsserted = false ∧ (255 : Word).toNat ≠ 0 ∧
    (0 : Word).toNat = 0 := by decide

theorem wit_FlushEmptiesTheNightsWork : (oneRecord wPlate).resetAsserted = false ∧
    ((oneRecord wPlate).channel .a).exposure = none ∧ ((oneRecord wPlate).channel .b).exposure = none ∧
    ((onLine .loaded).channel .a).exposure ≠ none := ⟨rfl, rfl, rfl, nofun⟩

/-! ## One step of a worked example -/

/-- spec/07, the arbiter under LEAST-FILLED with the counts tied: A's band 3 is given and the marker becomes A. -/
theorem test_arbiter_tie : ∃ t, exec .renderArbiterChoice (tie .leastFilled) = .next t ∧
    t.engine = some { line := .a, band := 3, discarded := false } ∧ t.channels.a.nextBand = 4 ∧ t.lastChosen = .a :=
  ⟨_, rfl, by decide +kernel, by decide +kernel, by decide +kernel⟩

/-- spec/08, overflow with an overdue head: a LINE SET that raises the window to 60 removes the head of age 70 and keeps
the entry of age 58. -/
theorem test_line_set_overdue : ∃ t, exec (.lineSet (0 :: { wSettings with verifyWindow := 60 }.words))
      ((oneRecord { wAwaiting with awaiting := 2 }).setQueue .a
        [{ wEntry with age := 70 }, { wEntry with serial := 4712, age := 58 }]) = .next t ∧
    (t.queue .a).map (·.age) = [58] ∧ t.incidents.map (fun i => (i.kind, i.serial)) = [(.missing, some 4711)] :=
  ⟨_, rfl, by decide +kernel, by decide +kernel⟩

/-- spec/09, steps 2 and 2a: an EXPOSE FAULT at PLATE END is remade with the exposure step raised, and the same PLATE END
reloads it with copy index 1. -/
theorem test_expose_fault_reloads : ∃ t, exec (.plateEnd .a [1]) (onLine .finishing) = .next t ∧
    (t.plate 0).map (fun r => (r.toExpose, r.exposing, r.failed, r.attempts, r.step)) = some (0, 1, 1, 1, 1) ∧
    (t.channels.a.exposure.map (·.copy.index)) = some 1 ∧
    t.incidents.map (fun i => (i.kind, i.attempts, i.disposition)) = [(.exposeFault, some 1, .remakeQueued)] :=
  ⟨_, rfl, by decide +kernel, by decide +kernel, by decide +kernel⟩

/-- spec/08, reading one strip, step 9: at the 45th tick without an edge the strip ends and the head is verified. -/
theorem test_strip_verifies_the_head : ∃ t, exec (.markTick .a false)
      ((withSettings ((oneRecord { wAwaiting with awaiting := 2, sep := .c }).setQueue .a [wEntry]) wSettings).setDecoder .a
        (wDecoder true (some false) 44 (some stripDone))) = .next t ∧
    t.decoders.a.strip = none ∧ t.queue .a = [] ∧
    (t.plate 0).map (fun r => (r.awaiting, r.verified)) = some (1, 1) :=
  ⟨_, rfl, by decide +kernel, by decide +kernel, by decide +kernel⟩

/-- A queue of commands is worked first in, first out. -/
theorem test_first_in_first_out :
    step { State.reset with pending := [.clockSet [0, 5], .clockAdvance] } =
      exec (.clockSet [0, 5]) { State.reset with pending := [.clockAdvance] } := rfl

end Sys2Proof.Tests
end

section
/-! Proofs about screening and compositing (spec/04): tone transfer, the end clamps, and one patch over one dot. -/

namespace Sys2Proof.Machine

open Sys2Proof

/-! ## Tone transfer (R67, R68) -/

/-- On a rising segment the rounded term of R67 lies from 0 to d. -/
theorem roundedTerm_of_rising {d r : Int} (hd : 0 ≤ d) (hr : 0 ≤ r) (hr' : r ≤ 15) :
    0 ≤ (d * r + 8) / 16 ∧ (d * r + 8) / 16 ≤ d := by
  have low : 0 ≤ d * r := mul_nonneg hd hr
  have high : d * r ≤ d * 15 := mul_le_mul_of_nonneg_left hr' hd
  omega

/-- On a falling segment the rounded term of R67 lies from d to 0. -/
theorem roundedTerm_of_falling {d r : Int} (hd : d < 0) (hr : 0 ≤ r) (hr' : r ≤ 15) :
    d ≤ (d * r + 8) / 16 ∧ (d * r + 8) / 16 ≤ 0 := by
  have low : d * 15 ≤ d * r := mul_le_mul_of_nonpos_left hr' hd.le
  have high : d * r ≤ 0 := mul_nonpos_of_nonpos_of_nonneg hd.le hr
  omega

/-- The tone before it is read as a natural number lies between the two knots, whichever is larger (R68). -/
theorem interpolated_mem_Icc (lo hi : Int) {r : Int} (hr : 0 ≤ r) (hr' : r ≤ 15) :
    min lo hi ≤ lo + ((hi - lo) * r + 8) / 16 ∧ lo + ((hi - lo) * r + 8) / 16 ≤ max lo hi := by
  rcases le_or_gt lo hi with rising | falling
  · have term := roundedTerm_of_rising (sub_nonneg.mpr rising) hr hr'
    omega
  · have term := roundedTerm_of_falling (sub_neg.mpr falling) hr hr'
    omega

/-- `ScreenSet.tone` by the two knots of the sample's segment. -/
theorem ScreenSet.tone_of_knots {c : ScreenSet} {v lo hi : Nat} (hlo : c.knots[v / 16]? = some lo)
    (hhi : c.knots[v / 16 + 1]? = some hi) :
    c.tone v = ((lo : Int) + (((hi : Int) - lo) * (v % 16 : Nat) + 8) / 16).toNat := by
  rw [← Vector.getElem?_toList] at hlo hhi
  simp [ScreenSet.tone, List.getD_eq_getElem?_getD, hlo, hhi]

/-- Settles O31: the rounded term keeps the tone between the two knots, so reading it as a natural number loses nothing. -/
theorem toneFollowsTheKnots : Obligations.ToneFollowsTheKnots := by
  rintro c v k lo hi - - rfl hlo hhi
  have bounds := interpolated_mem_Icc lo hi (r := (v % 16 : Nat)) (by omega) (by omega)
  have exact_tone : (c.tone v : Int) = lo + (((hi : Int) - lo) * (v % 16 : Nat) + 8) / 16 := by
    rw [ScreenSet.tone_of_knots hlo hhi]
    exact Int.toNat_of_nonneg (by omega)
  exact ⟨exact_tone, by omega, by omega⟩

/-! ## The end clamps (R69) -/

theorem ScreenSet.clamp_of_lt_floor {c : ScreenSet} {t : Nat} (h : t < c.floorF) : c.clamp t = 0 := if_pos h

theorem ScreenSet.clamp_of_ceil_lt {c : ScreenSet} {t : Nat} (hfg : c.floorF ≤ c.ceilG) (h : c.ceilG < t) :
    c.clamp t = 4095 := by
  rw [ScreenSet.clamp, if_neg (by omega), if_pos h]

theorem ScreenSet.clamp_of_between {c : ScreenSet} {t : Nat} (hf : c.floorF ≤ t) (hg : t ≤ c.ceilG) :
    c.clamp t = t := by
  rw [ScreenSet.clamp, if_neg hf.not_gt, if_neg hg.not_gt]

/-! ## The decision (R72) -/

theorem ScreenSet.inked_iff (c : ScreenSet) (v x y : Nat) :
    c.inked v x y = true ↔ c.threshold x y < c.clamp (c.tone v) := decide_eq_true_iff

/-- No threshold of a tile as stored reaches 4,095, wherever its address falls (R72, R85). -/
theorem ScreenSet.threshold_le {c : ScreenSet} (stored : ∀ n ∈ c.tile, n ≤ 4094) (x y : Nat) :
    c.threshold x y ≤ 4094 := by
  rw [ScreenSet.threshold, List.getD_eq_getElem?_getD]
  generalize (y + c.yoff) % c.side * c.side + (x + c.xoff + c.course y * c.xshift) % c.side = address
  cases found : c.tile[address]? with
  | none => simp
  | some n => exact stored n (List.mem_of_getElem? found)

theorem ScreenSet.not_inked_of_clamp_eq_zero {c : ScreenSet} {v : Nat} (h : c.clamp (c.tone v) = 0) (x y : Nat) :
    c.inked v x y = false := by
  rw [Bool.eq_false_iff, Ne, ScreenSet.inked_iff, h]
  exact Nat.not_lt_zero _

theorem ScreenSet.inked_of_clamp_eq_solid {c : ScreenSet} {v : Nat} (stored : ∀ n ∈ c.tile, n ≤ 4094)
    (h : c.clamp (c.tone v) = 4095) (x y : Nat) : c.inked v x y = true := by
  rw [ScreenSet.inked_iff, h]
  exact Nat.lt_succ_of_le (ScreenSet.threshold_le stored x y)

/-- Settles O32, from F ≤ 2,047 < G: the two clamps' ranges are apart, and every threshold lies from 0 to 4,094. -/
theorem endClampsActOnTheirOwnTones : Obligations.EndClampsActOnTheirOwnTones := by
  intro c t hf hg _ stored
  have apart : c.floorF ≤ c.ceilG := by omega
  exact ⟨ScreenSet.clamp_of_lt_floor, ScreenSet.clamp_of_ceil_lt apart, ScreenSet.clamp_of_between, by omega,
    fun v x y => ⟨fun h => ScreenSet.not_inked_of_clamp_eq_zero h x y,
      fun h => ScreenSet.inked_of_clamp_eq_solid stored h x y⟩⟩

/-! ## One patch over one dot (R73, R74) -/

section

variable {p : Page} {sp : Sep} {screens : Vector ScreenSlot 8} {mapped : Fin 8} {x y : Nat} {dot : Bool} {q : Patch}

theorem Page.composite_of_not_covers (h : q.head.covers x y = false) :
    p.composite sp screens mapped x y dot q = dot := by
  simp [Page.composite, h]

theorem Page.composite_of_knockout (h : q.head.covers x y = true) (mode : q.head.mode = .knockout) :
    p.composite sp screens mapped x y dot q = p.screened sp screens mapped q x y := by
  simp [Page.composite, h, mode]

theorem Page.composite_of_overprint (h : q.head.covers x y = true) (mode : q.head.mode = .overprint) :
    p.composite sp screens mapped x y dot q = (dot || p.screened sp screens mapped q x y) := by
  simp [Page.composite, h, mode]

end

/-- Settles O33, by whether the patch covers the dot and by its mode. -/
theorem patchesKnockOutOrOverprint : Obligations.PatchesKnockOutOrOverprint := by
  intro p sp screens mapped x y dot q
  refine ⟨Page.composite_of_not_covers, Page.composite_of_knockout, fun h mode => ?_⟩
  rw [Page.composite_of_overprint h mode, Bool.or_eq_true]

end Sys2Proof.Machine
end

section
/-! Proofs about imaging channels and the render engine (spec/07): PLATE START on a channel. -/

namespace Sys2Proof.Machine

open Sys2Proof

/-! ## PLATE START by the channel's state (R129) -/

section

variable {s : State} {l : Line} {e : Exposure}

theorem exec_plateStart (l : Line) (ws : List Word) (s : State) :
    exec (.plateStart l ws) s = execPlateStart l ws s := rfl

theorem execPlateStart_of_loaded (h : s.resetAsserted = false) (copy : (s.channel l).exposure = some e)
    (loaded : e.phase = .loaded) :
    execPlateStart l [] s =
      .next ((s.setChannel l { s.channel l with exposure := some { e with phase := .running } }).setReply l.imagePort
        (Reply.ok [])) := by
  simp only [execPlateStart, State.request_running s _ _ h, copy, if_pos loaded]

/-- RUNNING and FINISHING. -/
theorem execPlateStart_of_not_loaded (h : s.resetAsserted = false) (copy : (s.channel l).exposure = some e)
    (started : e.phase ≠ .loaded) :
    execPlateStart l [] s = .next (s.setReply l.imagePort (Reply.bare .state)) := by
  simp only [execPlateStart, State.request_running s _ _ h, copy, if_neg started]

theorem execPlateStart_of_idle (h : s.resetAsserted = false) (idle : (s.channel l).exposure = none) :
    execPlateStart l [] s = .next (s.setReply l.imagePort (Reply.bare .state)) := by
  simp only [execPlateStart, State.request_running s _ _ h, idle]

end

/-- Settles O47, by the channel's state: LOADED; IDLE; RUNNING or FINISHING. -/
theorem plateStartRunsALoadedChannel : Obligations.PlateStartRunsALoadedChannel := by
  intro s l h
  rw [exec_plateStart]
  refine ⟨fun e copy loaded => execPlateStart_of_loaded h copy loaded, fun notLoaded => ?_⟩
  cases copy : (s.channel l).exposure with
  | none => exact execPlateStart_of_idle h copy
  | some e => exact execPlateStart_of_not_loaded h copy (notLoaded e copy)

end Sys2Proof.Machine
end

section
/-! Proofs about the incident list (spec/09): INCIDENT CLEAR on PLAN and the attention line of PLAN. -/

namespace Sys2Proof.Machine

open Sys2Proof

/-! ## INCIDENT CLEAR (R172) -/

section

variable {s : State} {n : Word} {k : Nat}

theorem State.clearIncidents_of_ne_zero (nonzero : k ≠ 0) :
    s.clearIncidents k = { s with incidents := s.incidents.drop k } := if_neg nonzero

theorem State.clearIncidents_zero (s : State) : s.clearIncidents 0 = { s with lost := 0 } := rfl

theorem exec_incidentClear (ws : List Word) (s : State) :
    exec (.incidentClear ws) s = execIncidentClear ws s := rfl

theorem execIncidentClear_one (h : s.resetAsserted = false) (n : Word) :
    execIncidentClear [n] s =
      .next ((s.clearIncidents n.toNat).setReply .plan
        (Reply.ok [word (min n.toNat s.incidents.length), word (s.clearIncidents n.toNat).incidents.length,
          word (s.clearIncidents n.toNat).lost])) := by
  rw [execIncidentClear, State.request_running s _ _ h]

theorem execIncidentClear_of_ne_zero (h : s.resetAsserted = false) (nonzero : n.toNat ≠ 0) :
    execIncidentClear [n] s =
      .next ({ s with incidents := s.incidents.drop n.toNat }.setReply .plan
        (Reply.ok [word (min n.toNat s.incidents.length), word (s.incidents.length - n.toNat), word s.lost])) := by
  rw [execIncidentClear_one h, State.clearIncidents_of_ne_zero nonzero, List.length_drop]

theorem execIncidentClear_of_eq_zero (h : s.resetAsserted = false) (zero : n.toNat = 0) :
    execIncidentClear [n] s =
      .next ({ s with lost := 0 }.setReply .plan (Reply.ok [0, word s.incidents.length, 0])) := by
  rw [execIncidentClear_one h, zero, State.clearIncidents_zero, Nat.zero_min]
  rfl

/-! ## ATTN-PLAN (R173) -/

theorem State.attention_plan_iff (h : s.resetAsserted = false) :
    s.attention .plan = true ↔ 0 < s.incidents.length ∨ 0 < s.lost := by
  simp [State.attention, State.attnPlan, h, List.length_pos_iff]

end

/-- Settles O59, by whether n is 0, with the attention line read from the state. -/
theorem incidentClearRemovesTheOldest : Obligations.IncidentClearRemovesTheOldest := by
  intro s n h
  rw [exec_incidentClear]
  exact ⟨execIncidentClear_of_ne_zero h, execIncidentClear_of_eq_zero h, State.attention_plan_iff h⟩

end Sys2Proof.Machine
end

section
/-! What every command can do, said once: each is a run of moves, to which a request adds its reply, and a condition that
every move keeps is kept by every step. A move says of a state only what the conditions of Safety.lean read. Where a command leaves a condition open between
two of its moves, the move says what is still owed. -/

namespace Sys2Proof.Machine

open Sys2Proof

/-! ## Moves -/

/-- What a command in progress still owes to the conditions that every step keeps. -/
structure Owed where
  /-- The current entry of a label for which a new entry has been opened (R12). -/
  opened : Option (Fin 64) := none
  /-- Entries that may be SUPERSEDED with no record left that names them (R18). -/
  unused : List (Fin 64) := []
  /-- A line whose copy in exposure has been settled while its channel still holds it (R135, R140). -/
  ended : Option Line := none
  /-- A line in whose verify queue room has been made (R157). -/
  room : Option Line := none

/-- What the conditions read of a copy in exposure: its record, its serial and its group. -/
def Exposure.core (e : Exposure) : Fin 128 × Nat × List (Fin 8) := (e.plate, e.copy.serial, e.group)

/-- Two states agree in all that the conditions read, and in the replies that stand and the commands that wait. -/
structure State.sameCore (s t : State) : Prop where
  pages : t.pages = s.pages
  openOrder : t.openOrder = s.openOrder
  freeCells : t.freeCells = s.freeCells
  indexQueue : t.indexQueue = s.indexQueue
  indexer : t.indexer = s.indexer
  plates : t.plates = s.plates
  serialNext : t.serialNext = s.serialNext
  incidents : t.incidents = s.incidents
  lost : t.lost = s.lost
  inUse : ∀ i : Fin 8, (t.screens[i]).inUse = (s.screens[i]).inUse
  exposure : ∀ l, (t.channel l).exposure.map Exposure.core = (s.channel l).exposure.map Exposure.core
  serials : ∀ l, (t.queue l).map VerifyEntry.serial = (s.queue l).map VerifyEntry.serial
  replies : t.replies = s.replies
  pending : t.pending = s.pending

/-- 1 where an optional record names an entry, and 0 otherwise. -/
def names (v : Option Plate) (h : Fin 64) : Nat := if v.bind Plate.page = some h then 1 else 0

/-- The record of an id has become v, on the channel it was on and with the copies exposing it had, and the retention
counts of the entries it names and named have followed (R16). -/
structure State.recordChanged (s t : State) (i : Fin 128) (v : Option Plate) : Prop where
  frame : t = { s with plates := (s.setPlate i v).plates, pages := t.pages }
  pages : ∀ h, t.page h =
    (s.page h).map fun p => { p with retention := p.retention + names v h - names (s.plate i) h }
  live : ∀ h, v.bind Plate.page = some h → (s.plate i).bind Plate.page = some h ∨ (s.page h).isSome = true
  accounts : ∀ q, v = some q → (∀ r, s.plate i = some r → r.accounted) → q.accounted
  channel : v.bind Plate.channel = (s.plate i).bind Plate.channel
  exposing : ∀ q, v = some q → q.exposing = ((s.plate i).map Plate.exposing).getD 0

/-- Whether a page state is one that neither the index queue nor the supersede of a page reads. -/
def PageState.plain (x : PageState) : Prop := x ≠ .indexing ∧ x ≠ .superseded

/-- A page entry keeps its label and its retention count. -/
def Page.sameEntry (p q : Page) : Prop := q.label = p.label ∧ q.retention = p.retention

/-- What becomes of an entry that is superseded (R12). -/
def Page.superseded (p : Page) : Page := { p with state := .superseded, timer := none }

/-- One move of the controller, with what the command in progress owes before and after it. -/
inductive Move : Owed × State → Owed × State → Prop
  | quiet {φ s t} (h : s.sameCore t) : Move (φ, s) (φ, t)
  | raise {φ s} (i : Incident) (h : i.kind ≠ .segmentBad) : Move (φ, s) (φ, s.raise i)
  | resolve {φ s} (q : Incident → Bool) : Move (φ, s) (φ, s.resolve q)
  | badSegment {φ s} (h : Fin 64) (n : Nat) (i : Incident) (hh : i.handle = some h) (hn : i.segment = some n) :
      Move (φ, s) (φ, s.raiseBadSegment h n i)
  | clear {φ s} (n : Nat) : Move (φ, s) (φ, s.clearIncidents n)
  | page {φ s} (h : Fin 64) (p q : Page) (c : Nat) (hp : s.page h = some p) (same : p.sameEntry q)
      (state : q.state = p.state ∨ p.state.plain ∧ q.state.plain)
      (cells : c + cellsOf q.held = s.freeCells + cellsOf p.held) :
      Move (φ, s) (φ, { s with freeCells := c }.setPage h (some q))
  | enqueue {φ s} (h : Fin 64) (p q : Page) (c : Nat) (hp : s.page h = some p) (same : p.sameEntry q)
      (before : p.state.plain) (after : q.state = .indexing) (cells : c + cellsOf q.held = s.freeCells + cellsOf p.held) :
      Move (φ, s) (φ, { s with freeCells := c, indexQueue := s.indexQueue ++ [h] }.setPage h (some q))
  | take {φ s} : Move (φ, s) (φ, s.takeForIndexing)
  | indexed {φ s} (h : Fin 64) (p q : Page) (hi : s.indexer = some h) (hp : s.page h = some p) (same : p.sameEntry q)
      (held : q.held = p.held) (after : q.state.plain) :
      Move (φ, s) (φ, { s with indexer := none }.setPage h (some q))
  | openEntry {φ s} (h : Fin 64) (p : Page) (owed : φ.opened = none) (hf : s.page h = none) (held : p.held = [])
      (retention : p.retention = 0) (state : p.state = .receiving) :
      Move (φ, s) ({ φ with opened := s.currentEntry p.label },
        { s with openOrder := s.openOrder ++ [h] }.setPage h (some p))
  | supersede {φ s} (o : Fin 64) (owed : φ.opened = some o) :
      Move (φ, s) ({ φ with opened := none, unused := o :: φ.unused },
        (s.modifyPage o Page.superseded).stopIndexing o)
  | free {φ s} (h : Fin 64) (p : Page) (hp : s.page h = some p) (retention : p.retention = 0) :
      Move (φ, s) (φ, s.freeEntry h)
  | used {φ s} (h : Fin 64) (used : ∀ p, s.page h = some p → p.state = .superseded → 0 < p.retention) :
      Move ({ φ with unused := h :: φ.unused }, s) (φ, s)
  | record {φ s t} (i : Fin 128) (v : Option Plate) (u : List (Fin 64)) (h : s.recordChanged t i v)
      (left : ∀ k, (s.plate i).bind Plate.page = some k → v.bind Plate.page = some k ∨ k ∈ u) :
      Move (φ, s) ({ φ with unused := u ++ φ.unused }, t)
  | pop {φ s} (l : Line) (e : VerifyEntry) (rest : List VerifyEntry) (hq : s.queue l = e :: rest) :
      Move (φ, s) (φ, s.setQueue l rest)
  | makeRoom {φ s} (l : Line) (e : VerifyEntry) (rest : List VerifyEntry) (hq : s.queue l = e :: rest) :
      Move (φ, s) ({ φ with room := some l }, s.setQueue l rest)
  | settle {φ s} (l : Line) (e : Exposure) (f : Plate → Plate) (owed : φ.ended = none)
      (he : (s.channel l).exposure = some e)
      (kept : ∀ r, (f r).page = r.page ∧ (f r).channel = r.channel ∧ (f r).exposing = r.exposing - 1)
      (accounts : ∀ r, r.accounted → (f r).accounted) :
      Move (φ, s) ({ φ with ended := some l }, s.modifyPlate e.plate f)
  | push {φ s} (l : Line) (e : Exposure) (x : VerifyEntry) (owed : φ.ended = none)
      (he : (s.channel l).exposure = some e) (serial : x.serial = e.copy.serial)
      (room : φ.room = some l ∨ (s.queue l).length < 16) :
      Move (φ, s) ({ φ with ended := some l, room := none },
        (s.setQueue l (s.queue l ++ [x])).modifyPlate e.plate Plate.awaitCopy)
  | dispatch {φ s} (l : Line) (i : Fin 128) (r : Plate) (p : Page) (m : Seps (Fin 8)) (g : List (Fin 8))
      (owed : φ.ended = none) (idle : (s.channel l).exposure = none) (hr : s.plate i = some r) (hc : r.channel = none)
      (left : 0 < r.toExpose) (distinct : g.Nodup) : Move (φ, s) (φ, (s.loadCopy l i r p 0 m g).countSets (· + 1) g)
  | reload {φ s} (l : Line) (e : Exposure) (r : Plate) (p : Page) (n : Nat) (m : Seps (Fin 8)) (owed : φ.ended = some l)
      (he : (s.channel l).exposure = some e) (hr : s.plate e.plate = some r) (left : 0 < r.toExpose) :
      Move (φ, s) ({ φ with ended := none }, s.loadCopy l e.plate r p n m e.group)
  | idle {φ s} (l : Line) (e : Exposure) (c : Channel) (owed : φ.ended = some l) (he : (s.channel l).exposure = some e)
      (hc : c.exposure = none) :
      Move (φ, s) ({ φ with ended := none },
        ((s.modifyPlate e.plate fun r => { r with channel := none }).countSets (· - 1) e.group).setChannel l c)
  | flush {φ s} (a : s.channels.a.exposure = none) (b : s.channels.b.exposure = none) : Move (φ, s) (φ, s.flushed)
  | powerOn {φ s} (asserted : Bool) (owed : φ = {}) : Move (φ, s) (φ, { s.powerOn asserted with replies := s.replies })

/-- A run of moves. -/
abbrev Moves (φ : Owed) (s : State) (ψ : Owed) (t : State) : Prop := Relation.ReflTransGen Move (φ, s) (ψ, t)

section
variable {φ ψ χ : Owed} {s t u : State}

theorem Moves.refl : Moves φ s φ s := Relation.ReflTransGen.refl

theorem Moves.trans (a : Moves φ s ψ t) (b : Moves ψ t χ u) : Moves φ s χ u := Relation.ReflTransGen.trans a b

theorem Move.moves (a : Move (φ, s) (ψ, t)) : Moves φ s ψ t := .single a

/-- A run over a list whose every step is a run of moves. -/
theorem Moves.foldl {α : Type} {f : State → α → State} (h : ∀ s x, Moves φ s φ (f s x)) (xs : List α) (s : State) :
    Moves φ s φ (xs.foldl f s) := by
  induction xs generalizing s with
  | nil => exact .refl
  | cons x xs ih => exact (h s x).trans (ih _)

/-! ## States that agree in all that is read -/

theorem State.sameCore.refl (s : State) : s.sameCore s :=
  ⟨rfl, rfl, rfl, rfl, rfl, rfl, rfl, rfl, rfl, fun _ => rfl, fun _ => rfl, fun _ => rfl, rfl, rfl⟩

theorem State.setDecoder_sameCore (s : State) (l : Line) (d : Decoder) : s.sameCore (s.setDecoder l d) :=
  { State.sameCore.refl s with }

/-- A channel that keeps the copy it holds, its phase aside. -/
theorem State.setChannel_sameCore (s : State) (l : Line) (c : Channel)
    (h : c.exposure.map Exposure.core = (s.channel l).exposure.map Exposure.core) : s.sameCore (s.setChannel l c) :=
  { State.sameCore.refl s with
    exposure := fun k => by
      by_cases hk : k = l
      · subst hk; rw [State.channel_setChannel_self, h]
      · rw [State.channel_setChannel_of_ne _ _ hk] }

theorem State.ageQueues_sameCore (s : State) : s.sameCore s.ageQueues :=
  { State.sameCore.refl s with
    serials := fun l => by cases l <;> simp [State.ageQueues, State.queue, Lines.get, VerifyEntry.older] }

/-! ## Records -/

theorem State.setPlate_setPlate (s : State) (i : Fin 128) (v w : Option Plate) :
    (s.setPlate i v).setPlate i w = s.setPlate i w := by
  simp [State.setPlate]

/-- A record changed in what no other block reads. -/
theorem State.setPlate_recordChanged {i : Fin 128} {r q : Plate} (hr : s.plate i = some r) (page : q.page = r.page)
    (channel : q.channel = r.channel) (exposing : q.exposing = r.exposing) (accounts : r.accounted → q.accounted) :
    s.recordChanged (s.setPlate i (some q)) i (some q) where
  frame := rfl
  pages h := by cases e : s.page h <;> simp [names, hr, page, e]
  live h e := .inl (by simpa [hr, page] using e)
  accounts := by rintro _ ⟨⟩ g; exact accounts (g r hr)
  channel := by simp [hr, channel]
  exposing := by rintro _ ⟨⟩; simp [hr, exposing]

theorem State.setPlate_moves {i : Fin 128} {r q : Plate} (hr : s.plate i = some r) (page : q.page = r.page)
    (channel : q.channel = r.channel) (exposing : q.exposing = r.exposing) (accounts : r.accounted → q.accounted) :
    Moves φ s φ (s.setPlate i (some q)) :=
  (Move.record i (some q) [] (State.setPlate_recordChanged hr page channel exposing accounts)
    fun k e => .inl (by simpa [hr, page] using e)).moves

theorem State.modifyPlate_moves (i : Fin 128) (f : Plate → Plate) (page : ∀ r, (f r).page = r.page)
    (channel : ∀ r, (f r).channel = r.channel) (exposing : ∀ r, (f r).exposing = r.exposing)
    (accounts : ∀ r, r.accounted → (f r).accounted) : Moves φ s φ (s.modifyPlate i f) := by
  unfold State.modifyPlate
  split
  · next r hr => exact State.setPlate_moves hr (page r) (channel r) (exposing r) (accounts r)
  · exact .refl

/-- A record created on a free id, naming no entry. -/
theorem State.create_moves {i : Fin 128} {q : Plate} (hi : s.plate i = none) (page : q.page = none)
    (channel : q.channel = none) (exposing : q.exposing = 0) (accounts : q.accounted) :
    Moves φ s φ (s.setPlate i (some q)) := by
  refine (Move.record i (some q) [] ⟨rfl, fun h => ?_, ?_, ?_, ?_, ?_⟩ ?_).moves
  · cases e : s.page h <;> simp [names, hi, page, e]
  · simp [page]
  · rintro _ ⟨⟩ -; exact accounts
  · simp [hi, channel]
  · rintro _ ⟨⟩; simp [hi, exposing]
  · simp [hi]

/-- A record that names no entry is attached to a live one (R6, R16, R101). -/
theorem State.attach_moves {i : Fin 128} {r : Plate} {h : Fin 64} (hr : s.plate i = some r) (free : r.page = none)
    (hp : (s.page h).isSome = true) :
    Moves φ s φ ((s.setPlate i (some { r with page := some h })).retain h) := by
  refine (Move.record i (some { r with page := some h }) [] ⟨?_, fun k => ?_, ?_, ?_, ?_, ?_⟩ ?_).moves
  · rw [State.retain_frame]; rfl
  · rw [State.retain, State.modifyPage_page]
    by_cases hk : k = h
    · subst hk; simp [names, hr, free]
    · have : h ≠ k := Ne.symm hk
      cases e : s.page k <;> simp [names, hr, free, hk, this, e]
  · rintro k ⟨⟩; exact .inr hp
  · rintro _ ⟨⟩ g; exact g r hr
  · simp [hr]
  · rintro _ ⟨⟩; simp [hr]
  · simp [hr, free]

/-! ## Retention and freeing (R16 to R18, R114) -/

theorem State.freeIfUnused_moves (h : Fin 64) :
    Moves { φ with unused := h :: φ.unused } s φ (s.freeIfUnused h) := by
  unfold State.freeIfUnused
  split
  · next p hp =>
    split
    · next g =>
      refine (Move.free h p hp g.2).moves.trans (Move.used h fun q hq => ?_).moves
      simp [(s.freeEntry_freed h p hp).1] at hq
    · next g =>
      refine (Move.used h fun q hq superseded => ?_).moves
      cases hp.symm.trans hq
      exact Nat.pos_of_ne_zero fun z => g ⟨superseded, z⟩
  · next hp => exact (Move.used h fun q hq => by simp [hp] at hq).moves

theorem State.freePlate_moves {i : Fin 128} {r : Plate} (hr : s.plate i = some r) (hc : r.channel = none) :
    Moves φ s φ (s.freePlate i) := by
  unfold State.freePlate
  simp only [hr]
  split
  · next hp =>
    refine (Move.record i none [] ⟨rfl, fun h => ?_, ?_, ?_, ?_, ?_⟩ ?_).moves
    · cases e : s.page h <;> simp [names, hr, hp, e]
    all_goals simp [hr, hp, hc]
  · next h hp =>
    unfold State.release
    refine Moves.trans (Move.record i none [h] ⟨?_, fun k => ?_, ?_, ?_, ?_, ?_⟩ ?_).moves (State.freeIfUnused_moves h)
    · rw [State.modifyPage_frame]; rfl
    · rw [State.modifyPage_page]
      by_cases hk : k = h
      · subst hk; simp [names, hr, hp]
      · have : h ≠ k := Ne.symm hk
        cases e : s.page k <;> simp [names, hr, hp, hk, this, e]
    all_goals simp [hr, hp, hc]

theorem State.freeIfSpent_moves (i : Fin 128) : Moves φ s φ (s.freeIfSpent i) := by
  unfold State.freeIfSpent
  split
  · next r hr =>
    split
    · next g =>
      simp only [Plate.spent, Bool.and_eq_true, Option.isNone_iff_eq_none] at g
      exact State.freePlate_moves hr g.1.1.1
    · exact .refl
  · exact .refl

/-- A record is re-pointed from one entry to another (R13, R16, R18). -/
theorem State.repoint_moves {i : Fin 128} {r : Plate} {old new : Fin 64} (hr : s.plate i = some r)
    (hold : r.page = some old) (hp : (s.page new).isSome = true) :
    Moves φ s φ (((s.setPlate i (some { r with page := some new })).retain new).release old) := by
  unfold State.release
  refine Moves.trans (Move.record i (some { r with page := some new }) [old] ⟨?_, fun k => ?_, ?_, ?_, ?_, ?_⟩ ?_).moves
    (State.freeIfUnused_moves old)
  · rw [State.modifyPage_frame, State.retain_frame]; rfl
  · simp only [State.retain, State.modifyPage_page, State.setPlate_page, names, hr, hold, Option.bind_some,
      Option.some.injEq]
    by_cases ho : k = old <;> by_cases hn : k = new
    · subst ho; subst hn; simp [Function.comp_def]
    · subst ho; cases e : s.page k <;> simp [hn, Ne.symm hn]
    · subst hn; cases e : s.page k <;> simp [ho, Ne.symm ho]
    · cases e : s.page k <;> simp [ho, hn, Ne.symm ho, Ne.symm hn]
  · rintro k ⟨⟩; exact .inr hp
  · rintro _ ⟨⟩ g; exact g r hr
  · simp [hr]
  · rintro _ ⟨⟩; simp [hr]
  · simp [hr, hold]

end

end Sys2Proof.Machine
end

section
/-! The moves of the shared operations and of every command. -/

namespace Sys2Proof.Machine

open Sys2Proof

section
variable {φ : Owed} {s : State}

/-! ## The page catalogue (R2 to R19) -/

theorem State.orderIncident_moves {kind : IncidentKind} (h : Fin 64) (r : Plate) (i : Fin 128) (hk : kind ≠ .segmentBad) :
    Moves φ s φ (s.orderIncident kind h r i) := (Move.raise _ hk).moves

theorem State.page_isSome_of_pageHas {h : Fin 64} {sp : Sep} (has : s.pageHas h sp = true) : (s.page h).isSome = true := by
  unfold State.pageHas at has
  split at has
  · next p hp => simp [hp]
  · simp at has

theorem State.attachOne_moves (h : Fin 64) (l : Label) (i : Fin 128) : Moves φ s φ (State.attachOne h l s i) := by
  unfold State.attachOne
  split
  · next r hr =>
    split
    · next waits =>
      obtain ⟨free, -, waits⟩ := waits
      split
      · next has => exact State.attach_moves hr free (State.page_isSome_of_pageHas has)
      · refine (State.orderIncident_moves h r i (by simp)).trans (State.freePlate_moves (r := r) ?_ ?_)
        · rw [State.orderIncident_frame]; exact hr
        · exact ((Plate.derived_waits r).mp waits).1
    · exact .refl
  · exact .refl

theorem State.attachWaiting_moves (h : Fin 64) (l : Label) : Moves φ s φ (s.attachWaiting h l) :=
  Moves.foldl (fun _ i => State.attachOne_moves h l i) plateIds s

theorem State.plate_eq_none_of_head {i : Fin 128} (h : s.freePlateIds.head? = some i) : s.plate i = none := by
  have mem := List.mem_of_head? h
  simp only [State.freePlateIds, List.mem_filter, Option.isNone_iff_eq_none] at mem
  exact mem.2

theorem State.replaceBy_plate {new : Fin 64} {i : Fin 128} {r : Plate} (hr : s.plate i = some r) :
    (s.replaceBy new i r).plate i = some r := by
  unfold State.replaceBy
  split
  · exact hr
  · split
    · split
      · next j hj =>
        have : i ≠ j := fun e => by simp [e ▸ State.plate_eq_none_of_head hj] at hr
        rw [State.retain_frame]
        exact (State.plate_setPlate_of_ne _ _ this).trans hr
      · rw [State.orderIncident_frame]; exact hr
    · rw [State.orderIncident_frame]; exact hr

theorem State.replaceBy_moves (new : Fin 64) (i : Fin 128) (r : Plate) : Moves φ s φ (s.replaceBy new i r) := by
  unfold State.replaceBy
  split
  · exact .refl
  · split
    · next has =>
      split
      · next j hj =>
        have hj := State.plate_eq_none_of_head hj
        let q := Plate.create r.label none r.sep r.choice (r.toExpose + r.exposing + r.awaiting) r.step .supersede s.arrival
        have created : Moves φ s φ (s.setPlate j (some q)) :=
          State.create_moves hj rfl rfl rfl (Plate.create_accounted ..)
        have counted : Moves φ (s.setPlate j (some q)) φ { s.setPlate j (some q) with arrival := s.arrival + 1 } :=
          Move.moves (Move.quiet { State.sameCore.refl (s.setPlate j (some q)) with })
        have attached := State.attach_moves (φ := φ) (s := { s.setPlate j (some q) with arrival := s.arrival + 1 })
          (i := j) (r := q) (h := new) (State.plate_setPlate_self s j _) rfl (State.page_isSome_of_pageHas has)
        refine (created.trans counted).trans ?_
        have same : { s.setPlate j (some q) with arrival := s.arrival + 1 }.setPlate j (some { q with page := some new }) =
            { s.setPlate j (some { q with page := some new }) with arrival := s.arrival + 1 } := by
          simp [State.setPlate]
        rw [same] at attached
        exact attached
      · exact State.orderIncident_moves new r i (by simp)
    · exact State.orderIncident_moves new r i (by simp)

theorem State.replaceOne_moves (old new : Fin 64) (i : Fin 128) : Moves φ s φ (State.replaceOne old new s i) := by
  unfold State.replaceOne
  split
  · next r hr =>
    split
    · exact (State.replaceBy_moves new i r).trans
        (State.setPlate_moves (State.replaceBy_plate hr) rfl rfl rfl r.withdrawAll_accounted)
    · exact .refl
  · exact .refl

theorem State.repointOne_moves (old new : Fin 64) (i : Fin 128) : Moves φ s φ (State.repointOne old new s i) := by
  unfold State.repointOne
  split
  · next r hr =>
    split
    · next g =>
      split
      · next has => exact State.repoint_moves hr g.1 (State.page_isSome_of_pageHas has)
      · refine (State.orderIncident_moves (kind := .orderMismatch) new r i (by simp)).trans
          (Moves.trans ?_ (State.freeIfSpent_moves i))
        refine State.setPlate_moves (r := r) ?_ rfl rfl rfl r.failAll_accounted
        rw [State.orderIncident_frame]; exact hr
    · exact .refl
  · exact .refl

/-- The supersede of an entry for which a new one has been opened. -/
theorem State.supersede_moves (old new : Fin 64) :
    Moves { opened := some old } s {} (s.supersede old new) := by
  unfold State.supersede
  have records (t : State) : Moves { unused := [old] } t {} ((plateIds.foldl (State.repointOne old new)
      (plateIds.foldl (State.replaceOne old new) t)).freeIfUnused old) :=
    ((Moves.foldl (fun _ i => State.replaceOne_moves old new i) plateIds t).trans
      (Moves.foldl (fun _ i => State.repointOne_moves old new i) plateIds _)).trans
        (State.freeIfUnused_moves (φ := {}) old)
  exact (Move.supersede old rfl).moves.trans ((Move.resolve _).moves.trans (records _))

theorem State.openPage_moves {h : Fin 64} (hf : s.page h = none) (l : Label) (seps : Seps Bool) (w ht : Nat)
    (n : Option Nat) : Moves {} s {} (s.openPage h l seps w ht n).1 := by
  unfold State.openPage
  simp only
  have opened : Moves {} s { opened := s.currentEntry l }
      { s.setPage h (some (Page.create l (s.nextVersion l) seps w ht n s.clock)) with openOrder := s.openOrder ++ [h] } :=
    (Move.openEntry h (Page.create l (s.nextVersion l) seps w ht n s.clock) rfl hf rfl rfl rfl).moves
  refine (opened.trans (State.attachWaiting_moves h l)).trans ?_
  generalize s.currentEntry l = o
  cases o with
  | none => exact .refl
  | some o => exact State.supersede_moves o h

theorem State.freeHandle_page {h : Fin 64} (hf : s.freeHandle = some h) : s.page h = none := by
  simpa using List.find?_some hf

/-- The cells of a list, by a test. -/
theorem cellsOf_filter (f : Segment → Bool) (xs : List Segment) :
    cellsOf (xs.filter fun g => !f g) + cellsOf (xs.filter f) = cellsOf xs := by
  induction xs with
  | nil => rfl
  | cons x xs ih =>
    simp only [cellsOf, List.map_cons, List.sum_cons] at ih ⊢
    cases hx : f x <;> simp [hx] <;> omega

theorem State.closePage_moves {h : Fin 64} {p : Page} (hp : s.page h = some p) (hs : p.state = .receiving) (n : Nat) :
    Moves φ s φ (s.closePage h p n).1 := by
  have cells : s.freeCells + cellsOf (p.held.filter fun g => !decide (g.number < n)) +
      cellsOf (p.held.filter fun g => decide (g.number < n)) = s.freeCells + cellsOf p.held := by
    have := cellsOf_filter (fun g => decide (g.number < n)) p.held
    omega
  have plain : p.state.plain := by simp [PageState.plain, hs]
  unfold State.closePage
  simp only
  refine Moves.trans (Move.resolve fun i => i.kind == .segmentBad && i.handle == some h && decide (n ≤ i.segment.getD 0)).moves ?_
  split
  · exact Move.moves (Move.enqueue h p { p.closeAt n s.clock with state := .indexing } _ hp ⟨rfl, rfl⟩ plain rfl cells)
  · exact Move.moves (Move.page h p
      { p.closeAt n s.clock with state := .waiting, timer := startTimer (s.editionOf p.label).resendWait } _ hp
      ⟨rfl, rfl⟩ (.inr ⟨plain, by simp [PageState.plain]⟩) cells)

theorem State.dropPage_moves (ws : List Word) : Moves φ s φ (s.dropPage ws).1 := by
  unfold State.dropPage
  split
  · split
    · exact .refl
    · split
      · exact .refl
      · next p hp =>
        split
        · exact .refl
        · next unnamed => exact (Move.free _ p hp (by omega)).moves
  · exact .refl

/-! ## Segment intake and the resend wait (R31 to R39) -/

theorem cellsOf_insertSegment (g : Segment) (gs : List Segment) :
    cellsOf (insertSegment g gs) = g.cells + cellsOf gs := by
  induction gs with
  | nil => rfl
  | cons x xs ih =>
    unfold insertSegment
    split
    · rfl
    · simp only [cellsOf, List.map_cons, List.sum_cons] at ih ⊢; omega

/-- A page entry changed in what no other block reads. -/
theorem State.setPage_moves {h : Fin 64} {p q : Page} (hp : s.page h = some p) (same : p.sameEntry q)
    (state : q.state = p.state ∨ p.state.plain ∧ q.state.plain) (held : q.held = p.held) :
    Moves φ s φ (s.setPage h (some q)) :=
  (Move.page h p q s.freeCells hp same state (by rw [held])).moves

theorem State.completeIntake_moves (h : Fin 64) : Moves φ s φ (s.completeIntake h) := by
  unfold State.completeIntake
  split
  · next p hp =>
    split
    · next g =>
      have plain : p.state.plain := by simp [PageState.plain, g.1]
      exact (Move.enqueue h p { p with state := .indexing, timer := none } s.freeCells hp ⟨rfl, rfl⟩ plain rfl
        rfl).moves.trans (Move.moves (Move.resolve _))
    · exact .refl
  · exact .refl

theorem le_of_admits {free k : Nat} {st : PageState} (h : admits free st k = true) : k ≤ free := by
  unfold admits at h
  split at h
  · simp only [decide_eq_true_eq] at h; omega
  · simpa using h
  · simp at h

theorem State.storeSegment_moves {h : Fin 64} {p : Page} {g : Segment} (hp : s.page h = some p)
    (room : g.cells ≤ s.freeCells) : Moves φ s φ (s.storeSegment h p g) := by
  unfold State.storeSegment
  let q := { p with held := insertSegment g p.held, damaged := p.damaged.filter (· != g.number) }
  have cells : s.freeCells - g.cells + cellsOf q.held = s.freeCells + cellsOf p.held := by
    simp only [q, cellsOf_insertSegment]; omega
  have stored : Moves φ s φ ({ s with freeCells := s.freeCells - g.cells }.setPage h (some q)) :=
    (Move.page h p q _ hp ⟨rfl, rfl⟩ (.inl rfl) cells).moves
  exact (stored.trans (Move.resolve _).moves).trans (State.completeIntake_moves h)

theorem State.segmentBad_moves {h : Fin 64} {p : Page} (hp : s.page h = some p) (sp : Sep) (n : Nat) :
    Moves φ s φ (s.segmentBad h p sp n) :=
  (State.setPage_moves (q := { p with damaged := insertNumber n p.damaged }) hp ⟨rfl, rfl⟩ (.inl rfl) rfl).trans
    (Move.moves (Move.badSegment h n _ rfl rfl))

theorem State.intake_moves (f : SegmentFrame) : Moves φ s φ (s.intake f).1 := by
  unfold State.intake
  split
  · exact .refl
  · split
    · exact .refl
    · next p hp =>
      split
      · exact .refl
      · split
        · simp only
          split
          · exact .refl
          · split
            · exact .refl
            · split
              · exact State.segmentBad_moves hp _ _
              · split
                · exact .refl
                · next admitted =>
                  rw [Bool.not_eq_true, Bool.not_eq_false'] at admitted
                  exact State.storeSegment_moves hp (le_of_admits admitted)
        · exact .refl

theorem State.expireResend_moves (h : Fin 64) : Moves φ s φ (s.expireResend h) := by
  unfold State.expireResend
  split
  · next p hp =>
    split
    · split
      · exact (State.setPage_moves (q := { p with timer := none }) hp ⟨rfl, rfl⟩ (.inl rfl) rfl).trans
          (Move.moves (Move.raise _ (by simp)))
      · exact .refl
    · exact .refl
  · exact .refl

theorem State.countResends_moves : Moves φ s φ s.countResends := by
  refine Moves.foldl (fun s h => Moves.trans ?_ (State.expireResend_moves h)) handles s
  unfold State.modifyPage
  split
  · next p hp => exact State.setPage_moves hp ⟨rfl, rfl⟩ (.inl rfl) rfl
  · exact .refl

/-! ## Indexing (R44, R45, R59) -/

theorem State.contentFault_moves (h : Fin 64) (p : Page) (sp : Sep) : Moves φ s φ (State.contentFault h p s sp) := by
  unfold State.contentFault
  simp only
  split
  · exact .refl
  · exact (Move.raise _ (by simp)).moves

theorem State.contentFault_indexer (h : Fin 64) (p : Page) (sps : List Sep) (s : State) (x : Option (Fin 64)) :
    { sps.foldl (State.contentFault h p) s with indexer := x } =
      sps.foldl (State.contentFault h p) { s with indexer := x } := by
  induction sps generalizing s with
  | nil => rfl
  | cons sp sps ih =>
    rw [List.foldl_cons, List.foldl_cons, ih]
    congr 1
    simp only [State.contentFault, State.raise]
    split
    · rfl
    · split <;> rfl

theorem State.completeIndexing_moves {h : Fin 64} {p : Page} (hi : s.indexer = some h) (hp : s.page h = some p) :
    Moves φ s φ { s.completeIndexing h p with indexer := none }.takeForIndexing := by
  unfold State.completeIndexing
  simp only
  rw [State.contentFault_indexer]
  let q := { p.indexed with
    completed := some s.clock, state := if p.indexed.faulty then PageState.faulted else .complete }
  have after : q.state.plain := by simp only [q, PageState.plain]; split <;> simp
  have stored : Moves φ s φ ({ s with indexer := none }.setPage h (some q)) :=
    (Move.indexed h p q hi hp ⟨rfl, rfl⟩ rfl after).moves
  exact (stored.trans (Moves.foldl (fun _ sp => State.contentFault_moves h q sp) p.indexed.seps.members _)).trans
    Move.take.moves

/-! ## The verify queues (R157 to R160) -/

theorem State.settleVerified_moves (e : VerifyEntry) : Moves φ s φ (s.settleVerified e) := by
  refine (State.modifyPlate_moves e.plate _ ?_ ?_ ?_ (Plate.settleGood_accounted .awaiting)).trans
    (State.freeIfSpent_moves e.plate) <;>
  · intro r
    simp only [Plate.settleGood, Plate.takeOut]
    repeat' split
    all_goals rfl

theorem Plate.settleDamaged_page (st : Stage) (kind : IncidentKind) (limit : Nat) (r : Plate) :
    (r.settleDamaged st kind limit).page = r.page ∧ (r.settleDamaged st kind limit).channel = r.channel := by
  simp only [Plate.settleDamaged]
  cases st <;> repeat' split
  all_goals exact ⟨rfl, rfl⟩

theorem Plate.settleDamaged_awaiting_exposing (kind : IncidentKind) (limit : Nat) (r : Plate) :
    (r.settleDamaged .awaiting kind limit).exposing = r.exposing := by
  simp only [Plate.settleDamaged]
  repeat' split
  all_goals rfl

theorem Plate.settleDamaged_exposing_exposing (kind : IncidentKind) (limit : Nat) (r : Plate) :
    (r.settleDamaged .exposing kind limit).exposing = r.exposing - 1 := by
  unfold Plate.settleDamaged
  split
  · simp only
    split
    all_goals rfl
  · next left => simp only [Plate.inStage] at left; omega

theorem State.settleLost_moves (e : VerifyEntry) {kind : IncidentKind} (hk : kind ≠ .segmentBad) :
    Moves φ s φ (s.settleLost e kind) := by
  refine Moves.trans ?_ (State.freeIfSpent_moves e.plate)
  unfold State.damageCopy
  split
  · exact .refl
  · next r hr =>
    have ⟨page, channel⟩ := r.settleDamaged_page .awaiting kind (s.editionOf r.label).remakeLimit
    exact (State.setPlate_moves hr page channel (r.settleDamaged_awaiting_exposing kind _)
      (r.settleDamaged_accounted .awaiting kind _)).trans (Move.raise _ hk).moves

theorem State.removeOverdue_moves (l : Line) (n : Nat) : Moves φ s φ (State.removeOverdue l n s) := by
  induction n generalizing s with
  | zero => exact .refl
  | succ n ih =>
    unfold State.removeOverdue
    split
    · next e rest hq =>
      split
      · exact (Move.pop l e rest hq).moves.trans ((State.settleLost_moves e (by simp)).trans ih)
      · exact .refl
    · exact .refl

theorem State.overdueTest_moves (l : Line) : Moves φ s φ (s.overdueTest l) := State.removeOverdue_moves l _

theorem State.passOver_moves (l : Line) (k : Nat) : Moves φ s φ (State.passOver l k s) := by
  induction k generalizing s with
  | zero =>
    unfold State.passOver
    split
    · next e rest hq => exact (Move.pop l e rest hq).moves.trans (State.settleVerified_moves e)
    · exact .refl
  | succ k ih =>
    unfold State.passOver
    split
    · next e rest hq => exact (Move.pop l e rest hq).moves.trans ((State.settleLost_moves e (by simp)).trans ih)
    · exact .refl

theorem State.judge_moves (l : Line) (t : Strip) : Moves φ s φ (s.judge l t) := by
  unfold State.judge
  split
  · split
    · unfold State.settleReadable
      simp only
      split
      · exact (State.passOver_moves l _).trans (State.overdueTest_moves l)
      · exact (Move.raise _ (by simp)).moves
    · unfold State.settleUnreadable
      split
      · next e rest hq =>
        exact (Move.pop l e rest hq).moves.trans ((State.settleLost_moves e (by simp)).trans (State.overdueTest_moves l))
      · exact (Move.raise _ (by simp)).moves
  · exact .refl

theorem State.endStrip_moves (l : Line) : Moves φ s φ (s.endStrip l) := by
  unfold State.endStrip
  split
  · exact .refl
  · exact (State.judge_moves l _).trans (Move.quiet (State.setDecoder_sameCore _ _ _)).moves

/-- Where a queue is full, room is made in it (R157). -/
theorem State.expel_moves (l : Line) :
    Moves φ s { φ with room := some l } (s.expel l) ∨ s.expel l = s ∧ (s.queue l).length < 16 := by
  unfold State.expel
  split
  · next e rest hq =>
    split
    · exact .inl ((Move.makeRoom l e rest hq).moves.trans
        ((State.settleLost_moves e (by simp)).trans (State.overdueTest_moves l)))
    · next g => exact .inr ⟨rfl, Nat.not_le.mp g⟩
  · next hq => exact .inr ⟨rfl, by simp [hq]⟩

/-! ## The channels (R109, R127, R135 to R141) -/

theorem State.discardTask_sameCore (s : State) (l : Line) : s.sameCore (s.discardTask l) := { State.sameCore.refl s with }

/-- A good exposure leaves exposing (R136). -/
theorem Plate.settleGood_exposing (r : Plate) : (r.settleGood .exposing).page = r.page ∧
    (r.settleGood .exposing).channel = r.channel ∧ (r.settleGood .exposing).exposing = r.exposing - 1 := by
  unfold Plate.settleGood
  split
  · simp only
    split
    all_goals exact ⟨rfl, rfl, rfl⟩
  · next left => exact ⟨rfl, rfl, by simp only [Plate.inStage] at left; omega⟩

theorem Plate.awaitCopy_exposing (r : Plate) : r.awaitCopy.page = r.page ∧ r.awaitCopy.channel = r.channel ∧
    r.awaitCopy.exposing = r.exposing - 1 := by
  unfold Plate.awaitCopy
  split
  · exact ⟨rfl, rfl, rfl⟩
  · exact ⟨rfl, rfl, by omega⟩

theorem Plate.returnCopy_exposing (r : Plate) : r.returnCopy.page = r.page ∧ r.returnCopy.channel = r.channel ∧
    r.returnCopy.exposing = r.exposing - 1 := by
  unfold Plate.returnCopy
  split
  · split
    all_goals exact ⟨rfl, rfl, rfl⟩
  · exact ⟨rfl, rfl, by omega⟩

section
variable {l : Line} {e : Exposure}

/-- A copy whose record is free is settled with no effect (log entry 20). -/
theorem State.settle_moves_of_free (owed : φ.ended = none) (he : (s.channel l).exposure = some e)
    (hr : s.plate e.plate = none) : Moves φ s { φ with ended := some l } s := by
  have settled := Move.settle l e _ owed he Plate.settleGood_exposing (Plate.settleGood_accounted .exposing)
  rw [show s.modifyPlate e.plate (Plate.settleGood .exposing) = s by simp [State.modifyPlate, hr]] at settled
  exact settled.moves

theorem State.damageExposed_moves {kind : IncidentKind} (owed : φ.ended = none) (he : (s.channel l).exposure = some e)
    (hk : kind ≠ .segmentBad) : Moves φ s { φ with ended := some l } (s.damageExposed e kind).1 := by
  unfold State.damageExposed
  split
  · next r hr =>
    have settled := Move.settle l e (fun r => r.settleDamaged .exposing kind (s.editionOf r.label).remakeLimit) owed he
      (fun r => ⟨(r.settleDamaged_page _ _ _).1, (r.settleDamaged_page _ _ _).2, r.settleDamaged_exposing_exposing _ _⟩)
      (fun r => r.settleDamaged_accounted _ _ _)
    rw [show s.modifyPlate e.plate (fun r => r.settleDamaged .exposing kind (s.editionOf r.label).remakeLimit) =
        s.setPlate e.plate (some (r.settleDamaged .exposing kind (s.editionOf r.label).remakeLimit)) by
      simp [State.modifyPlate, hr]] at settled
    unfold State.damageCopy
    rw [hr]
    exact settled.moves.trans (Move.moves (Move.raise _ hk))
  · next hr => exact State.settle_moves_of_free owed he hr

theorem State.pushCopy_moves (x : VerifyEntry) (owed : φ.ended = none) (he : (s.channel l).exposure = some e)
    (serial : x.serial = e.copy.serial) :
    Moves φ s { φ with ended := some l, room := none } ((s.pushCopy l x).modifyPlate e.plate Plate.awaitCopy) := by
  have kept : ((s.expel l).channel l).exposure = some e := by rw [State.expel_frame]; exact he
  unfold State.pushCopy
  rcases State.expel_moves (φ := φ) (s := s) l with made | ⟨unchanged, room⟩
  · exact made.trans (Move.push (φ := { φ with room := some l }) l e x owed kept serial (.inl rfl)).moves
  · rw [unchanged]
    exact (Move.push l e x owed he serial (.inr room)).moves

theorem State.settleExposed_moves (he : (s.channel l).exposure = some e) :
    Moves {} s { ended := some l } (s.settleExposed l e).1 := by
  unfold State.settleExposed
  split
  · split
    · exact State.pushCopy_moves _ rfl he rfl
    · exact (Move.settle l e _ rfl he Plate.settleGood_exposing (Plate.settleGood_accounted .exposing)).moves
  · next hr => exact State.settle_moves_of_free rfl he hr

theorem endingDamage_ne {phase : Phase} {underrun fault : Bool} {kind : IncidentKind}
    (h : endingDamage phase underrun fault = some kind) : kind ≠ .segmentBad := by
  rintro rfl
  unfold endingDamage at h
  repeat' split at h
  all_goals simp at h

theorem State.settleEnded_moves (he : (s.channel l).exposure = some e) (fault : Bool) :
    Moves {} s { ended := some l } (s.settleEnded l e fault).1 := by
  unfold State.settleEnded
  split
  · next kind hk => exact State.damageExposed_moves rfl he (endingDamage_ne hk)
  · exact State.settleExposed_moves he

/-- The settlement of a copy leaves the channel as it is (R135). -/
theorem State.settleEnded_channel (s : State) (l k : Line) (e : Exposure) (fault : Bool) :
    (s.settleEnded l e fault).1.channel k = s.channel k := by
  unfold State.settleEnded State.settleExposed State.damageExposed
  split
  · simp only
    split
    · rw [State.damageCopy_frame]; rfl
    · rfl
  · split
    · split
      · rw [State.modifyPlate_frame, State.pushCopy_frame]; rfl
      · rw [State.modifyPlate_frame]; rfl
    · rfl

theorem State.abandonCopy_moves (he : (s.channel l).exposure = some e) :
    Moves {} s { ended := some l } (s.abandonCopy e).1 := by
  unfold State.abandonCopy
  split
  · exact (Move.settle l e _ rfl he Plate.returnCopy_exposing Plate.returnCopy_accounted).moves
  · exact State.damageExposed_moves rfl he (by simp)

theorem State.abandonCopy_channel (s : State) (k : Line) (e : Exposure) :
    (s.abandonCopy e).1.channel k = s.channel k := by
  unfold State.abandonCopy State.damageExposed
  split
  · rw [State.modifyPlate_frame]; rfl
  · simp only
    split
    · rw [State.damageCopy_frame]; rfl
    · rfl

theorem State.returnToIdle_moves (he : (s.channel l).exposure = some e) :
    Moves { ended := some l } s {} (s.returnToIdle l) := by
  unfold State.returnToIdle
  simp only [he]
  refine Moves.trans ?_ (State.freeIfSpent_moves e.plate)
  let c : Channel := { s.channel l with
    underrun := false, exposure := none, rowsDelivered := 0, nextBand := 0, stall := none
    ring := (s.channel l).ring.map Slot.emptied, context := RenderContext.empty }
  have idle := (Move.idle (φ := { ended := some l }) (s := s) l e c rfl he rfl).moves
  exact idle.trans (Move.moves (Move.quiet { State.sameCore.refl _ with }))

theorem State.abortLine_moves (l : Line) : Moves {} s {} (s.abortLine l).1 := by
  unfold State.abortLine
  split
  · next e he =>
    exact (State.abandonCopy_moves he).trans
      (State.returnToIdle_moves (by rw [State.abandonCopy_channel]; exact he))
  · exact .refl

theorem State.reloadOrIdle_moves (he : (s.channel l).exposure = some e) :
    Moves { ended := some l } s {} (s.reloadOrIdle l e) := by
  unfold State.reloadOrIdle
  split
  · next r p found =>
    split
    · next again =>
      obtain ⟨u, hr, -, rest⟩ : ∃ u, s.plate e.plate = some u ∧ True ∧
          ((u.page.bind s.page).map fun p => (u, p)) = some (r, p) := by
        simpa [Option.bind_eq_some_iff] using found
      obtain ⟨-, -, rfl⟩ : ∃ q, u.page.bind s.page = some q ∧ u = r := by
        simp only [Option.map_eq_some_iff, Prod.mk.injEq] at rest
        obtain ⟨q, hq, eq, -⟩ := rest
        exact ⟨q, hq, eq⟩
      have left : 0 < u.toExpose := by
        simp only [Plate.reloads, Bool.and_eq_true, decide_eq_true_eq] at again
        exact again.1.1.1
      exact (Move.quiet (State.discardTask_sameCore s l)).moves.trans
        (Move.reload (φ := { ended := some l }) (s := s.discardTask l) l e u p _ e.mapping rfl he hr left).moves
    · exact State.returnToIdle_moves he
  · exact State.returnToIdle_moves he

theorem State.raise_countSets (i : Incident) (f : Nat → Nat) (g : List (Fin 8)) :
    (s.raise i).countSets f g = (s.countSets f g).raise i := by
  unfold State.raise
  rw [show (s.countSets f g).incidents = s.incidents from rfl]
  split <;> rfl

theorem State.modifyPlate_countSets (i : Fin 128) (h : Plate → Plate) (f : Nat → Nat) (g : List (Fin 8)) :
    (s.modifyPlate i h).countSets f g = (s.countSets f g).modifyPlate i h := by
  unfold State.modifyPlate
  rw [show (s.countSets f g).plate i = s.plate i from rfl]
  split <;> rfl

/-- The late check and the in-use counts do not read each other (R86, R112). -/
theorem State.lateCheck_countSets (i : Fin 128) (r : Plate) (finish serial : Nat) (f : Nat → Nat) (g : List (Fin 8)) :
    (s.lateCheck i r finish serial).countSets f g = (s.countSets f g).lateCheck i r finish serial := by
  unfold State.lateCheck
  rw [show (s.countSets f g).editionOf r.label = s.editionOf r.label from rfl]
  split
  · split
    · rw [State.raise_countSets, State.modifyPlate_countSets]; rfl
    · rfl
  · rfl

theorem State.lateCheck_moves (i : Fin 128) (r : Plate) (finish serial : Nat) :
    Moves φ s φ (s.lateCheck i r finish serial) := by
  unfold State.lateCheck
  split
  · split
    · exact (State.modifyPlate_moves i (fun q => { q with lateRisk := true }) (fun _ => rfl) (fun _ => rfl) (fun _ => rfl) fun _ a => a).trans
        (Move.moves (Move.raise _ (by simp)))
    · exact .refl
  · exact .refl

theorem State.eligible_waits {r : Plate} {l : Line} (h : s.eligible r l = true) : r.waits := by
  simp only [State.eligible, Bool.and_eq_true, beq_iff_eq] at h
  exact (Plate.derived_waits r).mp h.1.1

theorem State.firstOf_cases (best : Option (Fin 128)) (i : Fin 128) :
    s.firstOf best i = none ∨ s.firstOf best i = best ∨ s.firstOf best i = some i := by
  unfold State.firstOf
  split
  · next j q r hj hr =>
    split
    · exact .inr (.inr rfl)
    · refine .inr (.inl ?_)
      obtain ⟨k, hk, e⟩ := Option.bind_eq_some_iff.mp hj
      simp only [Option.map_eq_some_iff, Prod.mk.injEq] at e
      obtain ⟨_, -, rfl, -⟩ := e
      exact hk.symm
  · exact .inr (.inr rfl)
  · next j q hj _ =>
    refine .inr (.inl ?_)
    obtain ⟨k, hk, e⟩ := Option.bind_eq_some_iff.mp hj
    simp only [Option.map_eq_some_iff, Prod.mk.injEq] at e
    obtain ⟨_, -, rfl, -⟩ := e
    exact hk.symm
  · exact .inl rfl

theorem State.firstOf_foldl_mem (ids : List (Fin 128)) (best : Option (Fin 128)) {i : Fin 128}
    (h : ids.foldl s.firstOf best = some i) : best = some i ∨ i ∈ ids := by
  induction ids generalizing best with
  | nil => exact .inl h
  | cons k ks ih =>
    rcases ih _ h with found | mem
    · rcases State.firstOf_cases best k with e | e | e <;> rw [e] at found
      · simp at found
      · exact .inl found
      · exact .inr (by simp [Option.some.inj found])
    · exact .inr (List.mem_cons_of_mem _ mem)

/-- The record the dispatcher takes is a live eligible one (R108). -/
theorem State.firstEligible_eligible {l : Line} {i : Fin 128} {r : Plate} (h : s.firstEligible l = some i)
    (hr : s.plate i = some r) : s.eligible r l = true := by
  rcases State.firstOf_foldl_mem _ _ h with e | mem
  · simp at e
  · have := (List.mem_filter.mp mem).2
    simpa [hr] using this

theorem State.handOver_moves {l : Line} {i : Fin 128} {r : Plate} {p : Page} (idle : (s.channel l).exposure = none)
    (hr : s.plate i = some r) (waits : r.waits) : Moves {} s {} (s.handOver l i r p) := by
  unfold State.handOver
  simp only
  rw [State.lateCheck_countSets]
  exact (Move.dispatch (φ := {}) l i r p _ _ rfl idle hr waits.1 waits.2 (setGroup_nodup _ r p)).moves.trans
    (State.lateCheck_moves i r _ _)

end

/-! ## Plate orders and cancellations (R100 to R104) -/

theorem State.createOrdered_moves (l : Label) (choice : LineChoice) (copies : Nat) (x : Sep × Fin 128)
    (free : s.plate x.2 = none) : Moves φ s φ (State.createOrdered l choice copies s x) :=
  Moves.trans (State.create_moves (q := Plate.create l none x.1 choice copies 0 .order s.arrival) free rfl rfl rfl
    (Plate.create_accounted ..)) (Move.moves (Move.quiet { State.sameCore.refl (s.setPlate x.2 _) with }))

theorem State.createOrdered_plate (l : Label) (choice : LineChoice) (copies : Nat) (x : Sep × Fin 128) (i : Fin 128) :
    (State.createOrdered l choice copies s x).plate i =
      if i = x.2 then some (Plate.create l none x.1 choice copies 0 .order s.arrival) else s.plate i :=
  State.plate_setPlate s x.2 i _

/-- The records of an order, each on a free id of its own, are created in one run of moves. -/
theorem State.createAll_moves (l : Label) (choice : LineChoice) (copies : Nat) (xs : List (Sep × Fin 128)) (s : State)
    (free : ∀ x ∈ xs, s.plate x.2 = none) (distinct : (xs.map Prod.snd).Nodup) :
    Moves φ s φ (xs.foldl (State.createOrdered l choice copies) s) := by
  induction xs generalizing s with
  | nil => exact .refl
  | cons x xs ih =>
    rw [List.map_cons, List.nodup_cons] at distinct
    obtain ⟨fresh, distinct⟩ := distinct
    refine (State.createOrdered_moves l choice copies x (free x List.mem_cons_self)).trans (ih _ (fun y hy => ?_) distinct)
    have other : y.2 ≠ x.2 := fun e => fresh (e ▸ List.mem_map_of_mem hy)
    rw [State.createOrdered_plate, if_neg other]
    exact free y (List.mem_cons_of_mem _ hy)

/-- What is created stands on no page and no channel. -/
theorem State.createAll_plate (l : Label) (choice : LineChoice) (copies : Nat) (xs : List (Sep × Fin 128)) (s : State)
    (i : Fin 128) (r : Plate) (hr : (xs.foldl (State.createOrdered l choice copies) s).plate i = some r) :
    s.plate i = some r ∨ r.page = none ∧ r.channel = none := by
  induction xs generalizing s with
  | nil => exact .inl hr
  | cons x xs ih =>
    rcases ih _ hr with kept | new
    · rw [State.createOrdered_plate] at kept
      split at kept
      · cases kept; exact .inr ⟨rfl, rfl⟩
      · exact .inl kept
    · exact .inr new

theorem State.treatOrdered_plate_of_ne (current : Option (Fin 64)) (x : Sep × Fin 128) {i : Fin 128} (h : i ≠ x.2) :
    (State.treatOrdered current s x).plate i = s.plate i := by
  unfold State.treatOrdered
  split
  · split
    · rw [State.retain_frame]; exact State.plate_setPlate_of_ne _ _ h
    · rw [State.freePlate_plate, if_neg h, State.orderIncident_frame]; rfl
  · rfl

theorem State.treatOrdered_moves (current : Option (Fin 64)) (x : Sep × Fin 128)
    (new : ∀ r, s.plate x.2 = some r → r.page = none ∧ r.channel = none) :
    Moves φ s φ (State.treatOrdered current s x) := by
  unfold State.treatOrdered
  split
  · next h r hr =>
    split
    · next has => exact State.attach_moves hr (new r hr).1 (State.page_isSome_of_pageHas has)
    · refine (State.orderIncident_moves h r x.2 (by simp)).trans (State.freePlate_moves (r := r) ?_ (new r hr).2)
      rw [State.orderIncident_frame]; exact hr
  · exact .refl

theorem State.treatAll_moves (current : Option (Fin 64)) (xs : List (Sep × Fin 128)) (s : State)
    (new : ∀ x ∈ xs, ∀ r, s.plate x.2 = some r → r.page = none ∧ r.channel = none) (distinct : (xs.map Prod.snd).Nodup) :
    Moves φ s φ (xs.foldl (State.treatOrdered current) s) := by
  induction xs generalizing s with
  | nil => exact .refl
  | cons x xs ih =>
    rw [List.map_cons, List.nodup_cons] at distinct
    obtain ⟨fresh, distinct⟩ := distinct
    refine (State.treatOrdered_moves current x (new x List.mem_cons_self)).trans (ih _ (fun y hy r hr => ?_) distinct)
    have other : y.2 ≠ x.2 := fun e => fresh (e ▸ List.mem_map_of_mem hy)
    rw [State.treatOrdered_plate_of_ne _ _ other] at hr
    exact new y (List.mem_cons_of_mem _ hy) r hr

theorem zip_map_snd_sublist {α β : Type} (xs : List α) (ys : List β) : ((xs.zip ys).map Prod.snd).Sublist ys := by
  induction xs generalizing ys with
  | nil => simp
  | cons x xs ih =>
    cases ys with
    | nil => simp
    | cons y ys => simpa using ih ys

theorem State.freePlateIds_nodup (s : State) : s.freePlateIds.Nodup := (List.nodup_finRange 128).filter _

theorem State.orderPlates_moves (l : Label) (seps : Seps Bool) (copies : Nat) (choice : LineChoice) :
    Moves φ s φ (s.orderPlates l seps copies choice).1 := by
  unfold State.orderPlates
  simp only
  have distinct : ((seps.members.zip s.freePlateIds).map Prod.snd).Nodup :=
    (zip_map_snd_sublist _ _).nodup s.freePlateIds_nodup
  have free : ∀ x ∈ seps.members.zip s.freePlateIds, s.plate x.2 = none := fun x hx => by
    have := (zip_map_snd_sublist _ _).subset (List.mem_map_of_mem (f := Prod.snd) hx)
    simpa [State.freePlateIds, plateIds] using this
  refine (State.createAll_moves l choice copies _ s free distinct).trans (State.treatAll_moves _ _ _ ?_ distinct)
  intro x hx r hr
  rcases State.createAll_plate l choice copies _ s x.2 r hr with old | new
  · simp [free x hx] at old
  · exact new

theorem State.cancelPlate_moves (i : Fin 128) : Moves φ s φ (s.cancelPlate i) :=
  (State.modifyPlate_moves i (fun r => { r.withdrawAll with cancelled := true }) (fun _ => rfl) (fun _ => rfl)
    (fun _ => rfl) Plate.withdrawAll_accounted).trans (State.freeIfSpent_moves i)

/-! ## Settings and the plant clock (R91 to R95, R186) -/

theorem State.setLine_moves (l : Line) (x : LineSettings) : Moves φ s φ (s.setLine l x) := by
  unfold State.setLine
  simp only
  refine Moves.trans (t := { s with settings := s.settings.set l x }) (Move.moves (Move.quiet { State.sameCore.refl s with })) ?_
  split
  · exact (Move.quiet (State.setDecoder_sameCore _ _ _)).moves.trans (State.overdueTest_moves l)
  · exact State.overdueTest_moves l

theorem State.expireDeadline_moves (e : Fin 16) : Moves φ s φ (s.expireDeadline e) := by
  unfold State.expireDeadline
  split
  · refine Moves.trans (t := { s with editions := s.editions.set e { s.editions[e] with passed := true } })
      (Move.moves (Move.quiet { State.sameCore.refl s with })) (Moves.foldl (fun t i => ?_) plateIds _)
    unfold State.deadlineMissed
    split
    · split
      · exact Move.moves (Move.raise _ (by simp))
      · exact .refl
    · exact .refl
  · exact .refl

theorem State.deadlineCheck_moves : Moves φ s φ s.deadlineCheck :=
  Moves.foldl (fun _ e => State.expireDeadline_moves e) _ s

theorem State.advanceClock_moves : Moves φ s φ s.advanceClock := by
  unfold State.advanceClock
  have ticked : Moves φ s φ { s with clock := s.clock + 1 } := Move.moves (Move.quiet { State.sameCore.refl s with })
  exact (((ticked.trans State.countResends_moves).trans State.deadlineCheck_moves).trans
    (Move.quiet (State.ageQueues_sameCore _)).moves).trans
      ((State.overdueTest_moves .a).trans (State.overdueTest_moves .b))

end

end Sys2Proof.Machine
end

section
/-! The moves of every command, with the reply that a request adds, and of a step: a condition that every move keeps is kept
by every step. -/

namespace Sys2Proof.Machine

open Sys2Proof

/-! ## Commands (spec/10, Requests by port) -/

section
variable {s t : State}

/-- A request that is taken is a run of moves, after which its reply stands on its port; under reset nothing happens
(R182, R190). -/
def State.answered (s : State) (p : Port) (t : State) : Prop :=
  if s.resetAsserted then t = s else ∃ u r, Moves {} s {} u ∧ t = u.setReply p r

theorem State.request_moves {p : Port} {f : State → State × Reply} (h : s.request p f = .next t)
    (effect : Moves {} s {} (f s).1) : s.answered p t := by
  unfold State.request at h
  split at h
  · next asserted =>
    cases h
    exact (if_pos asserted).mpr rfl
  · next running =>
    cases h
    exact (if_neg running).mpr ⟨(f s).1, (f s).2, effect, rfl⟩

theorem State.answered.moves {p : Port} (h : s.answered p t) : ∃ u, Moves {} s {} u ∧ t = { u with replies := t.replies } := by
  unfold State.answered at h
  split at h
  · subst h; exact ⟨t, .refl, rfl⟩
  · obtain ⟨u, r, run, rfl⟩ := h; exact ⟨u, run, rfl⟩

theorem State.event_moves {f : State → State} (h : s.event f = .next t) (effect : Moves {} s {} (f s)) :
    Moves {} s {} t := by
  unfold State.event at h
  split at h
  · cases h; exact .refl
  · cases h; exact effect

theorem execPageOpen_answered {ws : List Word} (h : execPageOpen ws s = .next t) : s.answered .feed t := by
  refine State.request_moves h ?_
  split
  · split
    · split
      · split
        · next i free => exact State.openPage_moves (State.freeHandle_page free) ..
        · exact .refl
      · exact .refl
    · exact .refl
  · exact .refl

theorem execSegment_answered {ws : List Word} (h : execSegment ws s = .next t) : s.answered .feed t := by
  refine State.request_moves h ?_
  split
  · exact .refl
  · split
    · exact State.intake_moves _
    · exact .refl

theorem execPageClose_answered {ws : List Word} (h : execPageClose ws s = .next t) : s.answered .feed t := by
  refine State.request_moves h ?_
  split
  · split
    · exact .refl
    · split
      · exact .refl
      · next p hp =>
        split
        · exact .refl
        · next receiving =>
          have closed := fun n => State.closePage_moves (φ := {}) hp (not_not.mp receiving) n
          split
          · split
            · exact .refl
            · exact closed _
          · split
            · exact .refl
            · exact closed _
          · exact closed _
          · exact .refl
  · exact .refl

theorem execPageRelease_answered {ws : List Word} (h : execPageRelease ws s = .next t) : s.answered .plan t := by
  refine State.request_moves h ?_
  split
  · split
    · exact .refl
    · split
      · exact .refl
      · next p hp =>
        split
        · exact .refl
        · next faulted =>
          have plain : p.state.plain := by simp [PageState.plain, not_not.mp faulted]
          exact (State.setPage_moves (q := { p with state := .complete, released := true }) hp ⟨rfl, rfl⟩
            (.inr ⟨plain, by simp [PageState.plain]⟩) rfl).trans (Move.resolve _).moves
  · exact .refl

theorem execPageRead_answered {p : ReadPort} {ws : List Word} (h : execPageRead p ws s = .next t) : s.answered p.port t := by
  refine State.request_moves h ?_
  repeat' split
  all_goals exact .refl

theorem execResendList_answered {ws : List Word} (h : execResendList ws s = .next t) : s.answered .feed t := by
  refine State.request_moves h ?_
  split
  all_goals exact .refl

theorem execIncidentRead_answered {p : ReadPort} {ws : List Word} (h : execIncidentRead p ws s = .next t) :
    s.answered p.port t := by
  refine State.request_moves h ?_
  split
  all_goals exact .refl

theorem execClockRead_answered {ws : List Word} (h : execClockRead ws s = .next t) : s.answered .plan t := by
  refine State.request_moves h ?_
  split
  all_goals exact .refl

theorem execPlateRead_answered {ws : List Word} (h : execPlateRead ws s = .next t) : s.answered .plan t := by
  refine State.request_moves h ?_
  repeat' split
  all_goals exact .refl

theorem execLinkSet_answered {ws : List Word} (h : execLinkSet ws s = .next t) : s.answered .plan t := by
  refine State.request_moves h ?_
  split
  · split
    · exact .refl
    · exact (Move.moves (Move.quiet { State.sameCore.refl s with }))
  · exact .refl

theorem execLineSet_answered {ws : List Word} (h : execLineSet ws s = .next t) : s.answered .plan t := by
  refine State.request_moves h ?_
  split
  · exact State.setLine_moves _ _
  · exact .refl

theorem execGeneralSet_answered {ws : List Word} (h : execGeneralSet ws s = .next t) : s.answered .plan t := by
  refine State.request_moves h ?_
  split
  · exact (Move.moves (Move.quiet { State.sameCore.refl s with }))
  · exact .refl

theorem execEditionSet_answered {ws : List Word} (h : execEditionSet ws s = .next t) : s.answered .plan t := by
  refine State.request_moves h ?_
  split
  · next f _ =>
    exact Moves.trans (t := { s with editions := s.editions.set f.edition (f.entry s.editions[f.edition]) })
      (Move.moves (Move.quiet { State.sameCore.refl s with })) (State.expireDeadline_moves _)
  · exact .refl

/-- The content of a screen set is not read by the in-use counts (R83). -/
theorem execScreenLoad_answered {ws : List Word} (h : execScreenLoad ws s = .next t) : s.answered .plan t := by
  refine State.request_moves h ?_
  simp only
  split
  · split
    · next i _ =>
      split
      · exact .refl
      · refine Move.moves (Move.quiet { State.sameCore.refl s with inUse := fun k => ?_ })
        by_cases hk : i = k
        · subst hk; simp
        · have hn : i.val ≠ k.val := fun e => hk (Fin.ext e)
          simp [hn]
    · exact .refl
  · exact .refl

theorem execClockSet_answered {ws : List Word} (h : execClockSet ws s = .next t) : s.answered .plan t := by
  refine State.request_moves h ?_
  split
  · next hi lo =>
    have loaded : Moves {} s {} { s with clock := read32 hi lo } :=
      Move.moves (Move.quiet { State.sameCore.refl s with })
    refine loaded.trans ?_
    dsimp only
    exact State.deadlineCheck_moves
  · exact .refl

theorem execPlateOrder_answered {ws : List Word} (h : execPlateOrder ws s = .next t) : s.answered .plan t := by
  refine State.request_moves h ?_
  simp only
  split
  · split
    · split
      · exact .refl
      · split
        · exact .refl
        · exact State.orderPlates_moves ..
    · exact .refl
  · exact .refl

theorem execPlateCancel_answered {ws : List Word} (h : execPlateCancel ws s = .next t) : s.answered .plan t := by
  refine State.request_moves h ?_
  split
  · split
    · unfold State.cancelById
      split
      · exact .refl
      · exact State.cancelPlate_moves _
    · exact .refl
  · split
    · unfold State.cancelByLabel
      simp only
      split
      · exact .refl
      · exact Moves.foldl (fun _ i => State.cancelPlate_moves i) _ s
    · exact .refl
  · exact .refl

theorem State.holdLine_moves (ws : List Word) (held : Bool) : Moves {} s {} (s.holdLine ws held).1 := by
  unfold State.holdLine
  split
  · split
    · next l _ => exact Move.moves (Move.quiet (State.setChannel_sameCore s l { s.channel l with held } rfl))
    · exact .refl
  · exact .refl

theorem State.resetLine_moves (l : Line) : Moves {} s {} (s.resetLine l) := by
  unfold State.resetLine
  have released := (Move.quiet (φ := {}) (State.setChannel_sameCore (s.abortLine l).1 l
    { (s.abortLine l).1.channel l with held := false } rfl)).moves
  exact ((State.abortLine_moves l).trans released).trans (Move.quiet (State.setDecoder_sameCore _ _ _)).moves

theorem execLineReset_answered {ws : List Word} (h : execLineReset ws s = .next t) : s.answered .plan t := by
  refine State.request_moves h ?_
  split
  · split
    · next l _ => exact State.resetLine_moves l
    · exact .refl
  · exact .refl

theorem execIncidentClear_answered {ws : List Word} (h : execIncidentClear ws s = .next t) : s.answered .plan t := by
  refine State.request_moves h ?_
  split
  · exact (Move.clear _).moves
  · exact .refl

theorem execFlush_answered {ws : List Word} (h : execFlush ws s = .next t) : s.answered .plan t := by
  refine State.request_moves h ?_
  split
  · split
    · exact .refl
    · next idle =>
      simp only [not_or, Bool.not_eq_true, Option.isSome_eq_false_iff, Option.isNone_iff_eq_none] at idle
      exact (Move.flush idle.1 idle.2).moves
  · exact .refl

theorem execPlateRequest_answered {l : Line} {ws : List Word} (h : execPlateRequest l ws s = .next t) :
    s.answered l.imagePort t := by
  refine State.request_moves h ?_
  split
  · split
    · exact .refl
    · next idle =>
      split
      · exact .refl
      · split
        · next i r p found =>
          obtain ⟨j, first, found⟩ := Option.bind_eq_some_iff.mp found
          obtain ⟨u, hr, found⟩ := Option.bind_eq_some_iff.mp found
          simp only [Option.map_eq_some_iff, Prod.mk.injEq] at found
          obtain ⟨_, -, rfl, rfl, -⟩ := found
          exact State.handOver_moves (by simpa using idle) hr
            (State.eligible_waits (State.firstEligible_eligible first hr))
        · exact .refl
  · exact .refl

theorem execPlateStart_answered {l : Line} {ws : List Word} (h : execPlateStart l ws s = .next t) : s.answered l.imagePort t := by
  refine State.request_moves h ?_
  simp only
  split
  · split
    · next e he =>
      split
      · exact (Move.quiet (State.setChannel_sameCore _ _ _ (by rw [he]; rfl))).moves
      · exact .refl
    · exact .refl
  · exact .refl

theorem State.readRows_moves {l : Line} {e : Exposure} (he : (s.channel l).exposure = some e) (p : Page) (n : Nat) :
    Moves {} s {} (s.readRows l e p n).1 := by
  have delivered (m : Nat) : Moves {} s {} (s.setChannel l ((s.channel l).deliver e m p.height)) :=
    (Move.quiet (State.setChannel_sameCore _ _ _ (by rw [he]; rfl))).moves
  unfold State.readRows
  simp only
  split
  · exact delivered _
  · split
    · exact Move.moves (Move.quiet (State.setChannel_sameCore s l { s.channel l with
        stall := some ((s.channel l).stall.getD { elapsed := 0, limit := (s.lineSettings l).stallLimit }) } rfl))
    · exact delivered _

theorem execRowsRead_answered {l : Line} {ws : List Word} (h : execRowsRead l ws s = .next t) : s.answered l.imagePort t := by
  refine State.request_moves h ?_
  split
  · split
    · exact .refl
    · split
      · next he _ =>
        split
        · exact State.readRows_moves he _ _
        · exact .refl
      · exact .refl
  · exact .refl

theorem execPlateEnd_answered {l : Line} {ws : List Word} (h : execPlateEnd l ws s = .next t) : s.answered l.imagePort t := by
  refine State.request_moves h ?_
  simp only
  split
  · split
    · next fault e _ he =>
      exact (State.settleEnded_moves he fault).trans
        (State.reloadOrIdle_moves (by rw [State.settleEnded_channel]; exact he))
    · exact .refl
    · exact .refl
  · exact .refl

theorem execLineAbort_answered {l : Line} {ws : List Word} (h : execLineAbort l ws s = .next t) : s.answered l.imagePort t := by
  refine State.request_moves h ?_
  split
  · split
    · exact State.abortLine_moves l
    · exact .refl
  · exact .refl

theorem execUnknownRequest_moves {p : Port} {code : Word} {ws : List Word}
    (h : execUnknownRequest p code ws s = .next t) : ∃ u, Moves {} s {} u ∧ t = { u with replies := t.replies } := by
  unfold execUnknownRequest at h
  split at h
  · cases h; exact ⟨s, .refl, rfl⟩
  · exact (State.request_moves h .refl).moves

theorem execIndexingCompletion_moves (h : execIndexingCompletion s = .next t) : Moves {} s {} t := by
  refine State.event_moves h ?_
  simp only
  split
  · next i p found =>
    obtain ⟨k, hi, found⟩ := Option.bind_eq_some_iff.mp found
    simp only [Option.map_eq_some_iff, Prod.mk.injEq] at found
    obtain ⟨_, hp, rfl, rfl⟩ := found
    exact State.completeIndexing_moves hi hp
  · exact .refl

theorem execRenderArbiterChoice_moves (h : execRenderArbiterChoice s = .next t) : Moves {} s {} t := by
  refine State.event_moves h ?_
  split
  · next l _ _ =>
    have slot := State.setChannel_sameCore s l
      { (s.channel l).setSlot (s.channel l).nextBand (.rendering (s.channel l).nextBand) with
        nextBand := (s.channel l).nextBand + 1 } rfl
    exact Move.moves (Move.quiet { slot with })
  · exact .refl

theorem State.finishTask_sameCore (k : Task) (e : Exposure) (r : Plate) (p : Page) : s.sameCore (s.finishTask k e r p) :=
  let x := p.renderBand r.sep s.screens (e.mapping.get r.sep) k.band (s.channel k.line).context
  { State.setChannel_sameCore s k.line
      { (s.channel k.line).setSlot k.band (.filled k.band x.1) with context := x.2 } rfl with }

theorem execRenderTaskCompletion_moves (h : execRenderTaskCompletion s = .next t) : Moves {} s {} t := by
  refine State.event_moves h ?_
  split
  · next k _ =>
    split
    · exact .refl
    · split
      · next e r p _ _ => exact (Move.quiet (State.finishTask_sameCore k e r p)).moves
      · exact .refl
  · exact .refl

theorem execDiscardedTaskEnd_moves (h : execDiscardedTaskEnd s = .next t) : Moves {} s {} t := by
  refine State.event_moves h ?_
  simp only
  split
  · next k _ =>
    split
    · exact Move.moves (Move.quiet
        { State.setChannel_sameCore s k.line ((s.channel k.line).setSlot k.band .free) rfl with })
    · exact .refl
  · exact .refl

theorem State.underrun_moves (l : Line) : Moves {} s {} (s.underrun l) := by
  unfold State.underrun
  exact Move.moves (Move.quiet { State.setChannel_sameCore s l { s.channel l with
    underrun := true, stall := none, ring := (s.channel l).ring.map Slot.emptied
    context := if s.taskOf l then lostContext s.freeCount else (s.channel l).context } rfl with })

theorem State.countStall_moves (l : Line) : Moves {} s {} (s.countStall l) := by
  unfold State.countStall
  split
  · split
    · exact State.underrun_moves l
    · next k _ _ => exact Move.moves (Move.quiet (State.setChannel_sameCore s l
        { s.channel l with stall := some { k with elapsed := k.elapsed + 1 } } rfl))
  · exact .refl

theorem execMarkTick_moves {l : Line} {level : Bool} (h : execMarkTick l level s = .next t) : Moves {} s {} t := by
  refine State.event_moves h ?_
  have ticked := (Move.quiet (φ := {}) (State.setDecoder_sameCore s l ((s.decoder l).tick level).1)).moves
  simp only
  split
  · exact ticked.trans (State.endStrip_moves l)
  · exact ticked

theorem execStripEnd_moves {l : Line} (h : execStripEnd l s = .next t) : Moves {} s {} t := by
  refine State.event_moves h ?_
  split
  · exact State.endStrip_moves l
  · exact .refl

theorem execStallTimerExpiry_moves {l : Line} (h : execStallTimerExpiry l s = .next t) : Moves {} s {} t := by
  refine State.event_moves h ?_
  split
  · exact State.underrun_moves l
  · exact .refl

/-- Every request is answered on its own port. -/
theorem exec_answered {i : Instr} {p : Port} {code : Word} {ws : List Word} (he : encodeFrame i = some (p, code, ws))
    (known : i ≠ .unknownRequest p code ws) (h : exec i s = .next t) : s.answered p t := by
  cases i with
  | pageOpen => cases he; exact execPageOpen_answered h
  | segment => cases he; exact execSegment_answered h
  | pageClose => cases he; exact execPageClose_answered h
  | pageAbandon => cases he; exact State.request_moves (f := fun s => s.dropPage ws) h (State.dropPage_moves ws)
  | resendList => cases he; exact execResendList_answered h
  | pageRead => cases he; exact execPageRead_answered h
  | incidentRead => cases he; exact execIncidentRead_answered h
  | linkSet => cases he; exact execLinkSet_answered h
  | lineSet => cases he; exact execLineSet_answered h
  | generalSet => cases he; exact execGeneralSet_answered h
  | editionSet => cases he; exact execEditionSet_answered h
  | screenLoad => cases he; exact execScreenLoad_answered h
  | clockSet => cases he; exact execClockSet_answered h
  | clockRead => cases he; exact execClockRead_answered h
  | plateOrder => cases he; exact execPlateOrder_answered h
  | plateCancel => cases he; exact execPlateCancel_answered h
  | plateRead => cases he; exact execPlateRead_answered h
  | pageRelease => cases he; exact execPageRelease_answered h
  | pageRetire => cases he; exact State.request_moves (f := fun s => s.dropPage ws) h (State.dropPage_moves ws)
  | lineHold => cases he; exact State.request_moves (f := fun s => s.holdLine ws true) h (State.holdLine_moves ws true)
  | lineRelease => cases he; exact State.request_moves (f := fun s => s.holdLine ws false) h (State.holdLine_moves ws false)
  | lineReset => cases he; exact execLineReset_answered h
  | incidentClear => cases he; exact execIncidentClear_answered h
  | flush => cases he; exact execFlush_answered h
  | plateRequest => cases he; exact execPlateRequest_answered h
  | plateStart => cases he; exact execPlateStart_answered h
  | rowsRead => cases he; exact execRowsRead_answered h
  | plateEnd => cases he; exact execPlateEnd_answered h
  | lineAbort => cases he; exact execLineAbort_answered h
  | unknownRequest => cases he; exact absurd rfl known
  | _ => cases he

/-- Every event but the two of the power-on reset is a run of moves. -/
theorem exec_occurred {i : Instr} (he : encodeFrame i = none) (notAsserted : i ≠ .powerOnResetAsserted)
    (notNegated : i ≠ .powerOnResetNegated) (h : exec i s = .next t) : Moves {} s {} t := by
  cases i with
  | powerOnResetAsserted => exact absurd rfl notAsserted
  | powerOnResetNegated => exact absurd rfl notNegated
  | clockAdvance => exact State.event_moves (f := State.advanceClock) h State.advanceClock_moves
  | resendWaitExpiry k => exact State.event_moves (f := fun s => s.expireResend k) h (State.expireResend_moves k)
  | deadlineExpiry e => exact State.event_moves (f := fun s => s.expireDeadline e) h (State.expireDeadline_moves e)
  | verifyTimeout l => exact State.event_moves (f := fun s => s.overdueTest l) h (State.overdueTest_moves l)
  | stallTimerExpiry l => exact execStallTimerExpiry_moves h
  | indexerTake => exact State.event_moves (f := State.takeForIndexing) h Move.take.moves
  | indexingCompletion => exact execIndexingCompletion_moves h
  | renderArbiterChoice => exact execRenderArbiterChoice_moves h
  | renderTaskCompletion => exact execRenderTaskCompletion_moves h
  | discardedTaskEnd => exact execDiscardedTaskEnd_moves h
  | stripEnd l => exact execStripEnd_moves h
  | markTick l level => exact execMarkTick_moves h
  | _ => cases he

/-- Every command is a run of moves, the replies aside. -/
theorem exec_moves (i : Instr) (h : exec i s = .next t) : ∃ u, Moves {} s {} u ∧ t = { u with replies := t.replies } := by
  cases he : encodeFrame i with
  | some x =>
    obtain ⟨p, code, ws⟩ := x
    by_cases known : i = .unknownRequest p code ws
    · subst known; exact execUnknownRequest_moves (ws := ws) h
    · exact (exec_answered he known h).moves
  | none =>
    by_cases asserted : i = .powerOnResetAsserted
    · subst asserted; cases h; exact ⟨_, (Move.powerOn true rfl).moves, rfl⟩
    · by_cases negated : i = .powerOnResetNegated
      · subst negated
        cases h
        split
        · exact ⟨_, (Move.powerOn false rfl).moves, rfl⟩
        · exact ⟨s, .refl, rfl⟩
      · exact ⟨t, exec_occurred he asserted negated h, rfl⟩

/-- A condition on a state, and on what the command in progress owes, that every move keeps, and that reads neither the
replies nor the commands that wait, is kept by every step. -/
theorem step_keeps {P : Owed → State → Prop} (keeps : ∀ φ s ψ t, Move (φ, s) (ψ, t) → P φ s → P ψ t)
    (blind : ∀ (s : State) (r : Replies) (w : List Instr), P {} s → P {} { s with replies := r, pending := w })
    (h : step s = .next t) (hs : P {} s) : P {} t := by
  have run {s t : State} (m : Moves {} s {} t) (hs : P {} s) : P {} t := by
    have all (x : Owed × State) (m : Relation.ReflTransGen Move ({}, s) x) : P x.1 x.2 := by
      induction m with
      | refl => exact hs
      | tail _ m ih => exact keeps _ _ _ _ m ih
    exact all ({}, t) m
  unfold step at h
  split at h
  · cases h
    unfold State.millisecond
    split
    · exact hs
    · exact run ((State.countStall_moves .a).trans (State.countStall_moves .b)) hs
  · next c rest _ =>
    obtain ⟨u, moves, e⟩ := exec_moves c h
    rw [e]
    exact blind u t.replies u.pending (run moves (blind s s.replies rest hs))

end

end Sys2Proof.Machine
end

section
/-! The conditions that every step keeps, each shown for every move: the incident list, the cells, the accounting law and
the retention counts. -/

namespace Sys2Proof.Machine

open Sys2Proof

section
variable {φ ψ : Owed} {s t : State}

/-! ## The incident list (R168) -/

theorem State.incidentsFit_congr (h : s.incidentsFit) (incidents : t.incidents = s.incidents) (lost : t.lost = s.lost) :
    t.incidentsFit := by
  unfold State.incidentsFit at *
  rwa [incidents, lost]

theorem Incident.not_isBadSegment {i : Incident} (hk : i.kind ≠ .segmentBad) (h : Fin 64) (n : Nat) :
    i.isBadSegment h n = false := by
  have : (i.kind == IncidentKind.segmentBad) = false := beq_eq_false_iff_ne.mpr hk
  simp [Incident.isBadSegment, this]

/-- A record that is unresolved SEGMENT BAD for no page and number of another fits at the tail. -/
theorem State.raise_incidentsFit {i : Incident} (h : s.incidentsFit)
    (apart : ∀ j ∈ s.incidents, ∀ k n, j.isBadSegment k n = true → i.isBadSegment k n = false) :
    (s.raise i).incidentsFit := by
  obtain ⟨short, lost, single⟩ := h
  unfold State.raise
  split
  · next room =>
    simp only [Config.maxIncidents] at room
    refine ⟨by simp; omega, lost, List.pairwise_append.mpr ⟨single, List.pairwise_singleton _ _, ?_⟩⟩
    intro j hj x hx
    rw [List.mem_singleton.mp hx]
    exact apart j hj
  · exact ⟨short, Nat.min_le_right _ _, single⟩

/-- Records changed in place, none becoming an unresolved SEGMENT BAD, still fit. -/
theorem State.incidentsFit_map {f : Incident → Incident} (h : s.incidentsFit)
    (old : ∀ i k n, (f i).isBadSegment k n = true → i.isBadSegment k n = true)
    (incidents : t.incidents = s.incidents.map f) (lost : t.lost = s.lost) : t.incidentsFit := by
  obtain ⟨short, bound, single⟩ := h
  rw [State.incidentsFit, incidents, lost]
  refine ⟨by simpa using short, bound, List.pairwise_map.mpr (single.imp fun apart k n bad => ?_)⟩
  have := apart k n (old _ _ _ bad)
  exact Bool.eq_false_iff.mpr fun e => by simp [old _ _ _ e] at this

theorem Incident.isBadSegment_of_resolved (q : Incident → Bool) (i : Incident) (k : Fin 64) (n : Nat)
    (h : (if q i then { i with resolved := true } else i).isBadSegment k n = true) : i.isBadSegment k n = true := by
  split at h
  · simp [Incident.isBadSegment] at h
  · exact h

theorem State.resolve_incidentsFit (q : Incident → Bool) (h : s.incidentsFit) : (s.resolve q).incidentsFit :=
  State.incidentsFit_map h (Incident.isBadSegment_of_resolved q) rfl rfl

theorem Incident.isBadSegment_iff (i : Incident) (h : Fin 64) (n : Nat) : i.isBadSegment h n = true ↔
    i.kind = .segmentBad ∧ i.resolved = false ∧ i.handle = some h ∧ i.segment = some n := by
  simp [Incident.isBadSegment, and_assoc]

theorem State.raiseBadSegment_incidentsFit {h : Fin 64} {n : Nat} {i : Incident} (hs : s.incidentsFit)
    (hh : i.handle = some h) (hn : i.segment = some n) : (s.raiseBadSegment h n i).incidentsFit := by
  unfold State.raiseBadSegment
  split
  · refine State.incidentsFit_map hs (fun j k m bad => ?_) rfl rfl
    split at bad
    · exact bad
    · exact bad
  · next none_bad =>
    refine State.raise_incidentsFit hs fun j hj k m bad => Bool.eq_false_iff.mpr fun same => none_bad ?_
    obtain ⟨-, -, hk, hm⟩ := (i.isBadSegment_iff k m).mp same
    cases hh.symm.trans hk
    cases hn.symm.trans hm
    exact List.any_eq_true.mpr ⟨j, hj, bad⟩

theorem State.takeForIndexing_incidents (s : State) :
    s.takeForIndexing.incidents = s.incidents ∧ s.takeForIndexing.lost = s.lost := by
  rw [State.takeForIndexing_frame]; exact ⟨rfl, rfl⟩

theorem Move.keeps_incidentsFit (m : Move (φ, s) (ψ, t)) (hs : s.incidentsFit) : t.incidentsFit := by
  cases m with
  | quiet h => exact State.incidentsFit_congr hs h.incidents h.lost
  | raise i hk => exact State.raise_incidentsFit hs fun _ _ k n _ => Incident.not_isBadSegment hk k n
  | resolve q => exact State.resolve_incidentsFit q hs
  | badSegment h n i hh hn => exact State.raiseBadSegment_incidentsFit hs hh hn
  | clear n =>
    obtain ⟨short, bound, single⟩ := hs
    unfold State.clearIncidents
    split
    · exact ⟨short, Nat.zero_le _, single⟩
    · exact ⟨by simp only [List.length_drop]; omega, bound, single.sublist (List.drop_sublist _ _)⟩
  | take => exact State.incidentsFit_congr hs s.takeForIndexing_incidents.1 s.takeForIndexing_incidents.2
  | supersede o =>
    rw [State.stopIndexing_frame, State.modifyPage_frame]
    exact State.incidentsFit_congr hs rfl rfl
  | free h p hp =>
    have freed := State.freeEntry_freed s h p hp
    refine State.incidentsFit_map hs (Incident.isBadSegment_of_resolved fun i => i.handle == some h) ?_
      (by rw [State.freeEntry_frame])
    exact freed.2.2.2.2.2.1
  | record i v u h => rw [h.frame]; exact State.incidentsFit_congr hs rfl rfl
  | settle | push => rw [State.modifyPlate_frame]; exact State.incidentsFit_congr hs rfl rfl
  | idle l e c =>
    exact State.incidentsFit_congr hs (by rw [State.modifyPlate_frame]; rfl) (by rw [State.modifyPlate_frame]; rfl)
  | flush | powerOn => exact ⟨Nat.zero_le _, Nat.zero_le _, List.Pairwise.nil⟩
  | page | enqueue | indexed | openEntry | used | pop | makeRoom | dispatch | reload =>
    exact State.incidentsFit_congr hs rfl rfl

/-! ## The cells of the segment store (R25) -/

/-- The cells held by the entry of a handle. -/
def State.cellsAt (s : State) (h : Fin 64) : Nat := ((s.page h).map fun p => cellsOf p.held).getD 0

theorem State.cellsHeld_eq (s : State) : s.cellsHeld = ∑ h, s.cellsAt h := by
  rw [Fin.sum_univ_def]
  unfold State.cellsHeld State.cellsAt handles
  congr 2
  funext h
  cases s.page h <;> rfl

/-- A sum of which one term changes. -/
theorem sum_changed {n : Nat} {f g : Fin n → Nat} (i : Fin n) (h : ∀ k, k ≠ i → g k = f k) :
    ∑ k, g k + f i = ∑ k, f k + g i := by
  have rest : ∑ k ∈ Finset.univ.erase i, g k = ∑ k ∈ Finset.univ.erase i, f k :=
    Finset.sum_congr rfl fun k hk => h k (Finset.ne_of_mem_erase hk)
  rw [← Finset.add_sum_erase _ f (Finset.mem_univ i), ← Finset.add_sum_erase _ g (Finset.mem_univ i), rest]
  omega

theorem State.cellsConserved_of_at {h : Fin 64} (hs : s.cellsConserved) (others : ∀ k, k ≠ h → t.page k = s.page k)
    (cells : t.freeCells + t.cellsAt h = s.freeCells + s.cellsAt h) : t.cellsConserved := by
  unfold State.cellsConserved at *
  rw [State.cellsHeld_eq] at *
  have := sum_changed (f := s.cellsAt) (g := t.cellsAt) h fun k hk => by simp only [State.cellsAt, others k hk]
  omega

theorem State.cellsConserved_congr (hs : s.cellsConserved) (cells : t.freeCells = s.freeCells)
    (held : ∀ k, (t.page k).map Page.held = (s.page k).map Page.held) : t.cellsConserved := by
  have same (k : Fin 64) : t.cellsAt k = s.cellsAt k := by
    have := congrArg (fun x => (x.map cellsOf).getD 0) (held k)
    rw [Option.map_map, Option.map_map] at this
    exact this
  have total : t.cellsHeld = s.cellsHeld := by
    rw [State.cellsHeld_eq, State.cellsHeld_eq, funext same]
  unfold State.cellsConserved at *
  omega

theorem State.cellsConserved_empty (cells : t.freeCells = 32768) (pages : ∀ k, t.page k = none) : t.cellsConserved := by
  unfold State.cellsConserved
  rw [State.cellsHeld_eq, cells]
  simp [State.cellsAt, pages]

theorem State.flushed_page (s : State) (h : Fin 64) : s.flushed.page h = none := by
  simp [State.page, State.flushed]

theorem State.flushed_plate (s : State) (i : Fin 128) : s.flushed.plate i = none := by
  simp [State.plate, State.flushed]

theorem State.powerOn_page (s : State) (b : Bool) (h : Fin 64) : (s.powerOn b).page h = none := by
  simp [State.page, State.powerOn, State.reset]

theorem State.powerOn_plate (s : State) (b : Bool) (i : Fin 128) : (s.powerOn b).plate i = none := by
  simp [State.plate, State.powerOn, State.reset]

theorem State.setPage_cells {h : Fin 64} {p q : Page} {u : State} (hs : s.cellsConserved) (hp : s.page h = some p)
    (pages : u.page = s.page) (cells : u.freeCells + cellsOf q.held = s.freeCells + cellsOf p.held) :
    (u.setPage h (some q)).cellsConserved := by
  refine State.cellsConserved_of_at (h := h) hs (fun k hk => ?_) ?_
  · rw [State.page_setPage_of_ne _ _ hk, pages]
  · simpa [State.cellsAt, hp] using cells

theorem Move.keeps_cellsConserved (m : Move (φ, s) (ψ, t)) (hs : s.cellsConserved) : t.cellsConserved := by
  cases m with
  | quiet h => exact State.cellsConserved_congr hs h.freeCells fun k => by simp only [State.page, h.pages]
  | raise i => rw [State.raise_frame]; exact State.cellsConserved_congr hs rfl fun _ => rfl
  | badSegment h n i => rw [State.raiseBadSegment_frame]; exact State.cellsConserved_congr hs rfl fun _ => rfl
  | clear n =>
    unfold State.clearIncidents
    split
    all_goals exact State.cellsConserved_congr hs rfl fun _ => rfl
  | page h p q c hp same state cells => exact State.setPage_cells hs hp rfl cells
  | enqueue h p q c hp same before after cells => exact State.setPage_cells hs hp rfl cells
  | indexed h p q hi hp same held => exact State.setPage_cells hs hp rfl (by rw [held])
  | take => rw [State.takeForIndexing_frame]; exact State.cellsConserved_congr hs rfl fun _ => rfl
  | openEntry h p owed hf held =>
    refine State.cellsConserved_of_at (h := h) hs (fun k hk => State.page_setPage_of_ne _ _ hk) ?_
    simp [State.cellsAt, hf, held, cellsOf]
  | supersede o =>
    rw [State.stopIndexing_frame]
    refine State.cellsConserved_congr hs (by rw [State.modifyPage_frame]) fun k => ?_
    refine (congrArg (Option.map Page.held) (State.modifyPage_page s o k _)).trans ?_
    split
    · next e => subst e; rw [Option.map_map]; rfl
    · rfl
  | free h p hp =>
    obtain ⟨gone, others, cells, -⟩ := State.freeEntry_freed s h p hp
    refine State.cellsConserved_of_at (h := h) hs others ?_
    simp [State.cellsAt, gone, hp, cells]
  | record i v u h =>
    refine State.cellsConserved_congr hs (by rw [h.frame]) fun k => ?_
    rw [h.pages k, Option.map_map]; rfl
  | settle | push => rw [State.modifyPlate_frame]; exact State.cellsConserved_congr hs rfl fun _ => rfl
  | idle l e c =>
    refine State.cellsConserved_congr hs (by rw [State.modifyPlate_frame]; rfl) fun k => ?_
    rw [State.modifyPlate_frame]; rfl
  | flush => exact State.cellsConserved_empty rfl (State.flushed_page s)
  | powerOn b => exact State.cellsConserved_empty rfl (State.powerOn_page s b)
  | resolve | used | pop | makeRoom | dispatch | reload => exact State.cellsConserved_congr hs rfl fun _ => rfl

/-! ## The accounting law (R99) -/

theorem State.accounted_congr (hs : s.accounted) (plates : t.plates = s.plates) : t.accounted := fun i r hr =>
  hs i r (by simpa only [State.plate, plates] using hr)

theorem State.setPlate_accounted {i : Fin 128} {v : Option Plate} (hs : s.accounted)
    (accounts : ∀ q, v = some q → q.accounted) : (s.setPlate i v).accounted := by
  intro k r hr
  rw [State.plate_setPlate] at hr
  split at hr
  · exact accounts r hr
  · exact hs k r hr

theorem State.modifyPlate_accounted {i : Fin 128} {f : Plate → Plate} (hs : s.accounted)
    (accounts : ∀ r, r.accounted → (f r).accounted) : (s.modifyPlate i f).accounted := by
  unfold State.modifyPlate
  split
  · next r hr => exact State.setPlate_accounted hs fun q hq => by cases hq; exact accounts r (hs i r hr)
  · exact hs

theorem State.loadCopy_accounted {l : Line} {i : Fin 128} {r : Plate} (hs : s.accounted) (hr : s.plate i = some r)
    (p : Page) (n : Nat) (m : Seps (Fin 8)) (g : List (Fin 8)) : (s.loadCopy l i r p n m g).accounted :=
  State.setPlate_accounted hs fun q hq => by cases hq; exact r.beginCopy_accounted (hs i r hr)

theorem Move.keeps_accounted (m : Move (φ, s) (ψ, t)) (hs : s.accounted) : t.accounted := by
  cases m with
  | quiet h => exact State.accounted_congr hs h.plates
  | raise i => rw [State.raise_frame]; exact State.accounted_congr hs rfl
  | badSegment h n i => rw [State.raiseBadSegment_frame]; exact State.accounted_congr hs rfl
  | clear n =>
    unfold State.clearIncidents
    split
    all_goals exact State.accounted_congr hs rfl
  | take => rw [State.takeForIndexing_frame]; exact State.accounted_congr hs rfl
  | supersede o => rw [State.stopIndexing_frame, State.modifyPage_frame]; exact State.accounted_congr hs rfl
  | free h p => rw [State.freeEntry_frame]; exact State.accounted_congr hs rfl
  | record i v u h =>
    rw [h.frame]
    exact State.accounted_congr (State.setPlate_accounted (i := i) hs fun q hq => h.accounts q hq (hs i)) rfl
  | settle l e f owed he kept accounts => exact State.modifyPlate_accounted hs accounts
  | push => exact State.modifyPlate_accounted (State.accounted_congr hs rfl) Plate.awaitCopy_accounted
  | dispatch l i r p m g owed idle hr => exact State.accounted_congr (State.loadCopy_accounted hs hr p 0 m g) rfl
  | reload l e r p n m owed he hr => exact State.loadCopy_accounted hs hr p n m e.group
  | idle l e c =>
    exact State.accounted_congr (State.modifyPlate_accounted (i := e.plate)
      (f := fun r => { r with channel := none }) hs fun _ a => a) rfl
  | flush => exact fun i r hr => by simp [State.flushed_plate] at hr
  | powerOn b => exact fun i r hr => absurd ((State.powerOn_plate s b i).symm.trans hr) nofun
  | resolve | page | enqueue | indexed | openEntry | used | pop | makeRoom => exact State.accounted_congr hs rfl

/-! ## Retention (R16, R18) -/

/-- The entry of a handle, named by n records, keeps the retention counts; it may be exempt from being named while it is
SUPERSEDED. -/
def retainedAt (exempt : Prop) (n : Nat) : Option Page → Prop
  | some p => p.retention = n ∧ (p.state = .superseded → exempt ∨ 0 < p.retention)
  | none => n = 0

/-- The retention counts hold, some entries aside that may be SUPERSEDED with no record that names them. -/
def State.retainedBut (s : State) (unused : List (Fin 64)) : Prop :=
  ∀ h, retainedAt (h ∈ unused) (s.recordsNaming h) (s.page h)

theorem State.retained_iff (s : State) : s.retained ↔ s.retainedBut [] := by
  refine forall_congr' fun h => ?_
  cases s.page h with
  | none => exact Iff.rfl
  | some p => simp [retainedAt]

theorem retainedAt.mono {a b : Prop} {n : Nat} {v : Option Page} (h : retainedAt a n v) (ab : a → b) :
    retainedAt b n v := by
  cases v with
  | none => exact h
  | some p => exact ⟨h.1, fun e => (h.2 e).imp_left ab⟩

theorem State.recordsNaming_eq_sum (s : State) (h : Fin 64) : s.recordsNaming h = ∑ i, names (s.plate i) h := by
  have counted (ids : List (Fin 128)) : (ids.countP fun i => (s.plate i).any fun r => r.page == some h) =
      (ids.map fun i => names (s.plate i) h).sum := by
    induction ids with
    | nil => rfl
    | cons i ids ih =>
      rw [List.countP_cons, List.map_cons, List.sum_cons, ih, Nat.add_comm]
      congr 1
      cases hr : s.plate i <;> simp [names]
  rw [State.recordsNaming_eq, counted, Fin.sum_univ_def]
  rfl

/-- Of the records that name an entry, one has changed. -/
theorem State.recordsNaming_changed {i : Fin 128} (others : ∀ k, k ≠ i → t.plate k = s.plate k) (h : Fin 64) :
    t.recordsNaming h + names (s.plate i) h = s.recordsNaming h + names (t.plate i) h := by
  rw [State.recordsNaming_eq_sum, State.recordsNaming_eq_sum]
  exact sum_changed (f := fun k => names (s.plate k) h) (g := fun k => names (t.plate k) h) i fun k hk => by
    rw [others k hk]

theorem State.names_le_recordsNaming (s : State) (i : Fin 128) (h : Fin 64) :
    names (s.plate i) h ≤ s.recordsNaming h := by
  rw [State.recordsNaming_eq_sum]
  exact Finset.single_le_sum (f := fun k => names (s.plate k) h) (fun _ _ => Nat.zero_le _) (Finset.mem_univ i)

theorem State.retainedBut_congr {u : List (Fin 64)} (hs : s.retainedBut u) (pages : ∀ h, t.page h = s.page h)
    (named : ∀ j, (t.plate j).map Plate.page = (s.plate j).map Plate.page) : t.retainedBut u := by
  intro h
  rw [State.recordsNaming_congr named h, pages h]
  exact hs h

theorem State.setPage_retainedBut {u : List (Fin 64)} {h : Fin 64} {p q : Page} {x : State} (hs : s.retainedBut u)
    (hp : s.page h = some p) (pages : x.page = s.page) (plates : x.plate = s.plate) (same : p.sameEntry q)
    (state : q.state = .superseded → p.state = .superseded) : (x.setPage h (some q)).retainedBut u := by
  intro k
  rw [State.recordsNaming_congr (s := s) (t := x.setPage h (some q)) (fun j => by rw [State.setPage_plate, plates]) k]
  by_cases hk : k = h
  · subst hk
    have old := hs k
    rw [hp] at old
    rw [State.page_setPage_self]
    exact ⟨same.2.trans old.1, fun e => same.2 ▸ old.2 (state e)⟩
  · rw [State.page_setPage_of_ne _ _ hk, pages]
    exact hs k

theorem State.modifyPlate_page (s : State) (i j : Fin 128) {f : Plate → Plate} (h : ∀ r, (f r).page = r.page) :
    ((s.modifyPlate i f).plate j).map Plate.page = (s.plate j).map Plate.page := by
  rw [State.modifyPlate_plate]
  split
  · next e => subst e; cases s.plate j <;> simp [h]
  · rfl

theorem State.loadCopy_page (s : State) {l : Line} {i : Fin 128} {r : Plate} (hr : s.plate i = some r) (p : Page)
    (n : Nat) (m : Seps (Fin 8)) (g : List (Fin 8)) (j : Fin 128) :
    ((s.loadCopy l i r p n m g).plate j).map Plate.page = (s.plate j).map Plate.page := by
  refine (congrArg (Option.map Plate.page) (State.plate_setPlate s i j _)).trans ?_
  split
  · next e =>
    subst e
    rw [hr, Option.map_some, Option.map_some, Plate.beginCopy]
    split <;> rfl
  · rfl

theorem State.recordChanged.retainedBut {i : Fin 128} {v : Option Plate} {u w : List (Fin 64)}
    (h : s.recordChanged t i v)
    (left : ∀ k, (s.plate i).bind Plate.page = some k → v.bind Plate.page = some k ∨ k ∈ u)
    (hs : s.retainedBut w) : t.retainedBut (u ++ w) := by
  have others (k : Fin 128) (hk : k ≠ i) : t.plate k = s.plate k := by
    rw [h.frame]; exact State.plate_setPlate_of_ne s v hk
  have own : t.plate i = v := by rw [h.frame]; exact State.plate_setPlate_self s i v
  intro k
  have count := State.recordsNaming_changed others k
  have bound := s.names_le_recordsNaming i k
  have old := hs k
  rw [own] at count
  rw [h.pages k]
  cases hp : s.page k with
  | none =>
    rw [hp] at old
    have unnamed : names v k = 0 := by
      refine if_neg fun e => ?_
      rcases h.live k e with was | live
      · rw [show s.recordsNaming k = 0 from old, names, if_pos was] at bound
        omega
      · simp [hp] at live
    rw [show s.recordsNaming k = 0 from old] at count
    exact show t.recordsNaming k = 0 by omega
  | some p =>
    rw [hp] at old
    obtain ⟨retention, superseded⟩ := old
    refine ⟨?_, fun state => ?_⟩
    · simp only; omega
    · rw [List.mem_append]
      by_cases was : (s.plate i).bind Plate.page = some k
      · rcases left k was with new | mem
        · refine (superseded state).imp .inr fun some_named => ?_
          simp only [names, was, new, if_pos]
          omega
        · exact .inl (.inl mem)
      · refine (superseded state).imp .inr fun some_named => ?_
        simp only [names, was, if_false]
        omega

theorem State.retainedBut_empty {u : List (Fin 64)} (pages : ∀ h, s.page h = none) (plates : ∀ i, s.plate i = none) :
    s.retainedBut u := by
  intro h
  rw [pages h]
  refine (State.recordsNaming_eq_sum s h).trans (Finset.sum_eq_zero fun i _ => ?_)
  simp [plates, names]

/-- An entry opened with no record that names it. -/
theorem State.openEntry_retainedBut {u : List (Fin 64)} {h : Fin 64} {p : Page} {x : State} (hs : s.retainedBut u)
    (hf : s.page h = none) (pages : x.page = s.page) (plates : x.plate = s.plate) (retention : p.retention = 0)
    (state : p.state = .receiving) : (x.setPage h (some p)).retainedBut u := by
  intro k
  rw [State.recordsNaming_congr (s := s) (t := x.setPage h (some p)) (fun j => by rw [State.setPage_plate, plates]) k]
  by_cases hk : k = h
  · subst hk
    have old := hs k
    rw [hf] at old
    rw [State.page_setPage_self]
    exact ⟨retention.trans old.symm, fun e => by simp [state] at e⟩
  · rw [State.page_setPage_of_ne _ _ hk, pages]
    exact hs k

theorem State.supersedeEntry_page (s : State) (o k : Fin 64) :
    ((s.modifyPage o Page.superseded).stopIndexing o).page k =
      if k = o then (s.page k).map Page.superseded else s.page k := by
  rw [State.stopIndexing_frame]
  refine (State.modifyPage_page s o k Page.superseded).trans ?_
  split
  · next e => rw [e]
  · rfl

theorem State.supersedeEntry_retainedBut {u : List (Fin 64)} (o : Fin 64) (hs : s.retainedBut u) :
    ((s.modifyPage o Page.superseded).stopIndexing o).retainedBut (o :: u) := by
  intro k
  rw [State.recordsNaming_congr (s := s) (t := (s.modifyPage o Page.superseded).stopIndexing o)
    (fun _ => by rw [State.stopIndexing_frame, State.modifyPage_frame]; rfl) k, State.supersedeEntry_page]
  have old := hs k
  split
  · next e =>
    cases hp : s.page k with
    | none => rw [hp] at old; exact old
    | some p => rw [hp] at old; exact ⟨old.1, fun _ => .inl (e ▸ List.mem_cons_self)⟩
  · exact old.mono (List.mem_cons_of_mem o)

theorem State.freeEntry_retainedBut {u : List (Fin 64)} {h : Fin 64} {p : Page} (hs : s.retainedBut u)
    (hp : s.page h = some p) (retention : p.retention = 0) : (s.freeEntry h).retainedBut u := by
  obtain ⟨gone, others, -⟩ := State.freeEntry_freed s h p hp
  intro k
  rw [State.recordsNaming_congr (s := s) (t := s.freeEntry h) (fun _ => by rw [State.freeEntry_frame]; rfl) k]
  by_cases hk : k = h
  · subst hk
    have old := hs k
    rw [hp] at old
    rw [gone]
    exact old.1.symm.trans retention
  · rw [others k hk]; exact hs k

theorem Move.keeps_retainedBut (m : Move (φ, s) (ψ, t)) (hs : s.retainedBut φ.unused) : t.retainedBut ψ.unused := by
  cases m with
  | quiet h =>
    exact State.retainedBut_congr hs (fun k => by simp only [State.page, h.pages])
      fun j => by simp only [State.plate, h.plates]
  | raise i => rw [State.raise_frame]; exact State.retainedBut_congr hs (fun _ => rfl) fun _ => rfl
  | badSegment h n i =>
    rw [State.raiseBadSegment_frame]; exact State.retainedBut_congr hs (fun _ => rfl) fun _ => rfl
  | clear n =>
    unfold State.clearIncidents
    split
    all_goals exact State.retainedBut_congr hs (fun _ => rfl) fun _ => rfl
  | page h p q c hp same state =>
    refine State.setPage_retainedBut hs hp rfl rfl same fun e => ?_
    rcases state with kept | ⟨-, plain⟩
    · exact kept ▸ e
    · exact absurd e plain.2
  | enqueue h p q c hp same before after =>
    exact State.setPage_retainedBut hs hp rfl rfl same fun e => by simp [after] at e
  | indexed h p q hi hp same held after =>
    exact State.setPage_retainedBut hs hp rfl rfl same fun e => absurd e after.2
  | take => rw [State.takeForIndexing_frame]; exact State.retainedBut_congr hs (fun _ => rfl) fun _ => rfl
  | openEntry h p owed hf held retention state => exact State.openEntry_retainedBut hs hf rfl rfl retention state
  | supersede o owed => exact State.supersedeEntry_retainedBut o hs
  | free h p hp retention => exact State.freeEntry_retainedBut hs hp retention
  | used h used =>
    intro k
    cases hp : s.page k with
    | none => have old := hs k; rw [hp] at old; exact old
    | some p =>
      have old := hs k
      rw [hp] at old
      refine ⟨old.1, fun state => ?_⟩
      by_cases hk : k = h
      · subst hk; exact .inr (used p hp state)
      · exact (old.2 state).imp_left fun mem => (List.mem_cons.mp mem).resolve_left hk
  | record i v u h left => exact h.retainedBut left hs
  | settle l e f owed he kept =>
    exact State.retainedBut_congr hs (fun _ => by rw [State.modifyPlate_frame]; rfl)
      fun j => State.modifyPlate_page s e.plate j fun r => (kept r).1
  | push l e x =>
    exact State.retainedBut_congr hs (fun _ => by rw [State.modifyPlate_frame]; rfl)
      fun j => State.modifyPlate_page _ e.plate j fun r => r.awaitCopy_exposing.1
  | dispatch l i r p m g owed idle hr =>
    exact State.retainedBut_congr hs (fun _ => rfl) (State.loadCopy_page s hr p 0 m g)
  | reload l e r p n m owed he hr =>
    exact State.retainedBut_congr hs (fun _ => rfl) (State.loadCopy_page s hr p n m e.group)
  | idle l e c =>
    refine State.retainedBut_congr hs (fun _ => by rw [State.modifyPlate_frame]; rfl) fun j => ?_
    exact State.modifyPlate_page s e.plate j (f := fun r => { r with channel := none }) fun _ => rfl
  | flush => exact State.retainedBut_empty (State.flushed_page s) (State.flushed_plate s)
  | powerOn b => exact State.retainedBut_empty (State.powerOn_page s b) (State.powerOn_plate s b)
  | resolve | pop | makeRoom => exact State.retainedBut_congr hs (fun _ => rfl) fun _ => rfl

end

end Sys2Proof.Machine
end

section
/-! The conditions that every step keeps, each shown for every move: the page queues, the current entries, the serials, the
in-use counts and the channels. -/

namespace Sys2Proof.Machine

open Sys2Proof

section
variable {φ ψ : Owed} {s t : State}

/-! ## The page queues (R36, R44) -/

/-- A handle is on the index queue or in the indexer. -/
def State.indexes (s : State) (h : Fin 64) : Prop := h ∈ s.indexQueue ∨ s.indexer = some h

/-- The index queue lists each handle once, and never the one being indexed (R44). -/
def State.indexOnce (s : State) : Prop := s.indexQueue.Nodup ∧ ∀ h, s.indexer = some h → h ∉ s.indexQueue

theorem State.queuesOfPages_of {o : List (Fin 64)} (ho : t.openOrder = o) (nodup : o.Nodup)
    (live : ∀ h, h ∈ o ↔ (t.page h).isSome = true) (once : t.indexOnce)
    (indexing : ∀ h, t.indexes h ↔ (t.page h).map Page.state = some .indexing) : t.queuesOfPages := by
  subst ho; exact ⟨nodup, live, once.1, once.2, indexing⟩

theorem State.queuesOfPages_congr (hs : s.queuesOfPages) (openOrder : t.openOrder = s.openOrder)
    (indexQueue : t.indexQueue = s.indexQueue) (indexer : t.indexer = s.indexer)
    (states : ∀ h, (t.page h).map Page.state = (s.page h).map Page.state) : t.queuesOfPages := by
  obtain ⟨nodup, live, once, apart, indexing⟩ := hs
  have isSome (h : Fin 64) : (t.page h).isSome = (s.page h).isSome := by
    simpa using congrArg Option.isSome (states h)
  refine ⟨openOrder ▸ nodup, fun h => ?_, indexQueue ▸ once, fun h e => ?_, fun h => ?_⟩
  · rw [openOrder, isSome]; exact live h
  · rw [indexQueue]; exact apart h (indexer ▸ e)
  · rw [indexQueue, indexer, states]; exact indexing h

theorem State.queuesOfPages_empty (openOrder : t.openOrder = []) (indexQueue : t.indexQueue = [])
    (indexer : t.indexer = none) (pages : ∀ h, t.page h = none) : t.queuesOfPages := by
  refine ⟨by simp [openOrder], fun h => by simp [openOrder, pages], by simp [indexQueue], by simp [indexer], fun h => ?_⟩
  simp [indexQueue, indexer, pages]

/-- A page state is changed between two that are not INDEXING, or kept. -/
theorem State.setPage_queuesOfPages {h : Fin 64} {p q : Page} {x : State} (hs : s.queuesOfPages) (hp : s.page h = some p)
    (pages : x.page = s.page) (openOrder : x.openOrder = s.openOrder) (indexQueue : x.indexQueue = s.indexQueue)
    (indexer : x.indexer = s.indexer) (state : q.state = p.state ∨ p.state ≠ .indexing ∧ q.state ≠ .indexing) :
    (x.setPage h (some q)).queuesOfPages := by
  rcases state with kept | ⟨before, after⟩
  · refine State.queuesOfPages_congr hs openOrder indexQueue indexer fun k => ?_
    rw [State.page_setPage, pages]
    split
    · next e => subst e; simp [hp, kept]
    · rfl
  · obtain ⟨nodup, live, once, apart, indexing⟩ := hs
    refine State.queuesOfPages_of openOrder nodup (fun k => ?_) ⟨?_, ?_⟩ fun k => ?_
    · rw [State.page_setPage, pages, live k]
      split
      · next e => subst e; simp [hp]
      · rfl
    · exact indexQueue ▸ once
    · exact fun k e => by
        rw [State.setPage_indexQueue, indexQueue]; exact apart k (indexer ▸ e)
    · rw [State.indexes, State.setPage_indexQueue, State.setPage_indexer, State.page_setPage, pages, indexQueue, indexer,
        indexing k]
      split
      · next e => subst e; simp [hp, before, after]
      · rfl

/-- A page that is not being indexed becomes INDEXING at the tail of the index queue. -/
theorem State.enqueue_queuesOfPages {h : Fin 64} {p q : Page} {x : State} (hs : s.queuesOfPages) (hp : s.page h = some p)
    (pages : x.page = s.page) (openOrder : x.openOrder = s.openOrder) (indexQueue : x.indexQueue = s.indexQueue ++ [h])
    (indexer : x.indexer = s.indexer) (before : p.state ≠ .indexing) (after : q.state = .indexing) :
    (x.setPage h (some q)).queuesOfPages := by
  obtain ⟨nodup, live, once, apart, indexing⟩ := hs
  have out : ¬(h ∈ s.indexQueue ∨ s.indexer = some h) := by rw [indexing h]; simp [hp, before]
  rw [not_or] at out
  refine State.queuesOfPages_of openOrder nodup (fun k => ?_) ⟨?_, fun k e => ?_⟩ fun k => ?_
  · rw [State.page_setPage, pages, live k]
    split
    · next e => subst e; simp [hp]
    · rfl
  · rw [State.setPage_indexQueue, indexQueue]
    exact List.nodup_append'.mpr ⟨once, List.nodup_singleton h, by simpa using out.1⟩
  · rw [State.setPage_indexer, indexer] at e
    rw [State.setPage_indexQueue, indexQueue, List.mem_append, List.mem_singleton, not_or]
    exact ⟨apart k e, fun same => out.2 (same ▸ e)⟩
  · rw [State.indexes, State.setPage_indexQueue, State.setPage_indexer, State.page_setPage, pages, indexQueue, indexer,
      List.mem_append, List.mem_singleton]
    by_cases e : k = h
    · simp [e, after]
    · rw [if_neg e, ← indexing k]; simp [e]

theorem State.takeForIndexing_queuesOfPages (hs : s.queuesOfPages) : s.takeForIndexing.queuesOfPages := by
  unfold State.takeForIndexing
  split
  · next h rest idle queue =>
    obtain ⟨nodup, live, once, -, indexing⟩ := hs
    rw [queue] at once indexing
    obtain ⟨fresh, once⟩ := List.nodup_cons.mp once
    refine ⟨nodup, live, once, fun k e => Option.some.inj e ▸ fresh, fun k => ?_⟩
    refine Iff.trans ?_ (indexing k)
    simp only [idle, List.mem_cons, Option.some.injEq, reduceCtorEq, or_false]
    exact or_comm.trans (or_congr_left eq_comm)
  · exact hs

/-- Indexing of a page is done: the indexer is IDLE. -/
theorem State.indexed_queuesOfPages {h : Fin 64} {p q : Page} (hs : s.queuesOfPages) (hi : s.indexer = some h)
    (hp : s.page h = some p) (after : q.state ≠ .indexing) :
    ({ s with indexer := none }.setPage h (some q)).queuesOfPages := by
  obtain ⟨nodup, live, once, apart, indexing⟩ := hs
  refine ⟨nodup, fun k => ?_, once, nofun, fun k => ?_⟩
  · rw [State.page_setPage]
    refine (live k).trans ?_
    split
    · next e => subst e; simp [hp]
    · rfl
  · rw [State.page_setPage]
    by_cases e : k = h
    · subst e
      simp [after, apart k hi]
    · rw [if_neg e, show ({ s with indexer := none } : State).page k = s.page k from rfl, ← indexing k, hi]
      simp [Ne.symm e]

theorem State.openEntry_queuesOfPages {h : Fin 64} {p : Page} (hs : s.queuesOfPages) (hf : s.page h = none)
    (state : p.state = .receiving) :
    ({ s with openOrder := s.openOrder ++ [h] }.setPage h (some p)).queuesOfPages := by
  obtain ⟨nodup, live, once, apart, indexing⟩ := hs
  have fresh : h ∉ s.openOrder := by rw [live h]; simp [hf]
  refine ⟨List.nodup_append'.mpr ⟨nodup, List.nodup_singleton h, by simpa using fresh⟩, fun k => ?_, once, apart,
    fun k => (indexing k).trans ?_⟩
  · rw [State.page_setPage, State.setPage_openOrder, List.mem_append, List.mem_singleton]
    by_cases e : k = h
    · simp [e]
    · rw [if_neg e]; exact (or_iff_left e).trans (live k)
  · rw [State.page_setPage]
    by_cases e : k = h
    · subst e; rw [if_pos rfl, hf, Option.map_none, Option.map_some, state]; exact ⟨nofun, nofun⟩
    · rw [if_neg e]; rfl

/-- The index queue and the indexer once a handle has left them (R44, R45). -/
theorem State.leftIndexing.once {h : Fin 64} (e : s.leftIndexing t h) (hs : s.indexOnce) :
    t.indexOnce ∧ ∀ k, t.indexes k ↔ k ≠ h ∧ s.indexes k := by
  obtain ⟨once, apart⟩ := hs
  have kept : (s.indexQueue.filter (· != h)).Nodup := once.filter _
  have mem (k : Fin 64) : k ∈ s.indexQueue.filter (· != h) ↔ k ∈ s.indexQueue ∧ k ≠ h := by simp
  unfold State.leftIndexing at e
  split at e
  · next hi =>
    obtain ⟨head, tail⟩ := e
    cases hq : s.indexQueue.filter (· != h) with
    | nil =>
      rw [hq] at head tail mem
      refine ⟨⟨by simp [tail], by simp [head]⟩, fun k => ?_⟩
      have out : ¬(k ∈ s.indexQueue ∧ k ≠ h) := fun g => List.not_mem_nil ((mem k).mpr g)
      rw [State.indexes, State.indexes, head, tail, hi]
      constructor
      · rintro (a | a)
        · cases a
        · cases a
      · rintro ⟨ne, a | a⟩
        · exact absurd ⟨a, ne⟩ out
        · exact absurd (Option.some.inj a).symm ne
    | cons x xs =>
      rw [hq] at head tail kept mem
      obtain ⟨fresh, once⟩ := List.nodup_cons.mp kept
      refine ⟨⟨by simpa [tail] using once, fun k hk => ?_⟩, fun k => ?_⟩
      · rw [head] at hk; cases hk; simpa [tail] using fresh
      · have := mem k
        simp only [State.indexes, head, tail, hi, List.head?_cons, List.tail_cons, Option.some.injEq, List.mem_cons] at this ⊢
        constructor
        · rintro (a | a)
          · exact ⟨(this.mp (.inr a)).2, .inl (this.mp (.inr a)).1⟩
          · exact ⟨(this.mp (.inl a.symm)).2, .inl (this.mp (.inl a.symm)).1⟩
        · rintro ⟨ne, a | a⟩
          · exact (this.mpr ⟨a, ne⟩).elim (fun b => .inr b.symm) .inl
          · exact absurd a.symm ne
  · next hi =>
    obtain ⟨indexer, queue⟩ := e
    refine ⟨⟨queue ▸ kept, fun k hk => ?_⟩, fun k => ?_⟩
    · rw [queue, mem]; exact fun g => apart k (indexer ▸ hk) g.1
    · rw [State.indexes, State.indexes, queue, mem, indexer]
      constructor
      · rintro (a | a)
        · exact ⟨a.2, .inl a.1⟩
        · exact ⟨fun g => hi (g ▸ a), .inr a⟩
      · rintro ⟨ne, a | a⟩
        · exact .inl ⟨a, ne⟩
        · exact .inr a

theorem State.supersedeEntry_queuesOfPages (o : Fin 64) (hs : s.queuesOfPages) :
    ((s.modifyPage o Page.superseded).stopIndexing o).queuesOfPages := by
  obtain ⟨nodup, live, once, apart, indexing⟩ := hs
  have same : (s.modifyPage o Page.superseded).indexQueue = s.indexQueue ∧
      (s.modifyPage o Page.superseded).indexer = s.indexer := by rw [State.modifyPage_frame]; exact ⟨rfl, rfl⟩
  have left := State.leftIndexing.once (State.stopIndexing_left (s.modifyPage o Page.superseded) o)
    ⟨same.1 ▸ once, by rw [same.1, same.2]; exact apart⟩
  refine State.queuesOfPages_of (o := s.openOrder) ?_ nodup (fun k => ?_) left.1 fun k => ?_
  · rw [State.stopIndexing_frame, State.modifyPage_frame]
  · rw [State.supersedeEntry_page, live k]; split <;> simp
  · rw [left.2 k, State.supersedeEntry_page]
    have old := indexing k
    rw [State.indexes, same.1, same.2, old]
    by_cases e : k = o
    · cases hp : s.page k <;> simp [e, Page.superseded]
    · simp [e]

theorem State.freeEntry_queuesOfPages {h : Fin 64} {p : Page} (hs : s.queuesOfPages) (hp : s.page h = some p) :
    (s.freeEntry h).queuesOfPages := by
  obtain ⟨gone, others, -, openOrder, left, -⟩ := State.freeEntry_freed s h p hp
  obtain ⟨nodup, live, once, apart, indexing⟩ := hs
  have left := left.once ⟨once, apart⟩
  refine State.queuesOfPages_of openOrder (nodup.filter _) (fun k => ?_) left.1 fun k => ?_
  · rw [List.mem_filter, live k]
    by_cases e : k = h
    · simp [e, gone]
    · simp [e, others k e]
  · rw [left.2 k]
    by_cases e : k = h
    · simp [e, gone]
    · rw [others k e, ← indexing k]; simp [e, State.indexes]

theorem Move.keeps_queuesOfPages (m : Move (φ, s) (ψ, t)) (hs : s.queuesOfPages) : t.queuesOfPages := by
  cases m with
  | quiet h =>
    exact State.queuesOfPages_congr hs h.openOrder h.indexQueue h.indexer fun k => by simp only [State.page, h.pages]
  | raise i => rw [State.raise_frame]; exact State.queuesOfPages_congr hs rfl rfl rfl fun _ => rfl
  | badSegment h n i => rw [State.raiseBadSegment_frame]; exact State.queuesOfPages_congr hs rfl rfl rfl fun _ => rfl
  | clear n =>
    unfold State.clearIncidents
    split
    all_goals exact State.queuesOfPages_congr hs rfl rfl rfl fun _ => rfl
  | page h p q c hp same state =>
    exact State.setPage_queuesOfPages hs hp rfl rfl rfl rfl (state.imp_right fun x => ⟨x.1.1, x.2.1⟩)
  | enqueue h p q c hp same before after => exact State.enqueue_queuesOfPages hs hp rfl rfl rfl rfl before.1 after
  | take => exact State.takeForIndexing_queuesOfPages hs
  | indexed h p q hi hp same held after => exact State.indexed_queuesOfPages hs hi hp after.1
  | openEntry h p owed hf held retention state => exact State.openEntry_queuesOfPages hs hf state
  | supersede o => exact State.supersedeEntry_queuesOfPages o hs
  | free h p hp => exact State.freeEntry_queuesOfPages hs hp
  | record i v u h =>
    refine State.queuesOfPages_congr hs (by rw [h.frame]) (by rw [h.frame]) (by rw [h.frame]) fun k => ?_
    rw [h.pages k, Option.map_map]; rfl
  | settle | push => rw [State.modifyPlate_frame]; exact State.queuesOfPages_congr hs rfl rfl rfl fun _ => rfl
  | idle l e c =>
    refine State.queuesOfPages_congr hs ?_ ?_ ?_ fun k => ?_
    all_goals rw [State.modifyPlate_frame]; rfl
  | flush => exact State.queuesOfPages_empty rfl rfl rfl (State.flushed_page s)
  | powerOn b => exact State.queuesOfPages_empty rfl rfl rfl (State.powerOn_page s b)
  | resolve | used | pop | makeRoom | dispatch | reload => exact State.queuesOfPages_congr hs rfl rfl rfl fun _ => rfl

/-! ## Current entries (R5, R12) -/

/-- An entry is live, of a label, and not SUPERSEDED. -/
def State.currentAt (s : State) (h : Fin 64) (l : Label) : Prop :=
  ∃ p, s.page h = some p ∧ p.label = l ∧ p.state ≠ .superseded

/-- At most one entry of a label is current, one entry aside that is to be superseded. -/
def State.singleBut (s : State) (o : Option (Fin 64)) : Prop :=
  ∀ h k l, s.currentAt h l → s.currentAt k l → o ≠ some h → o ≠ some k → h = k

theorem State.singleCurrent_iff (s : State) : s.singleCurrent ↔ s.singleBut none := by
  constructor
  · rintro single h k l ⟨p, hp, lp, sp⟩ ⟨q, hq, lq, sq⟩ - -
    exact single h k p q hp hq (lp.trans lq.symm) sp sq
  · intro single h k p q hp hq same sp sq
    exact single h k q.label ⟨p, hp, same, sp⟩ ⟨q, hq, rfl, sq⟩ nofun nofun

/-- Where no entry becomes current, the current entries stay single. -/
theorem State.singleBut_of {o : Option (Fin 64)} (hs : s.singleBut o)
    (old : ∀ h l, t.currentAt h l → s.currentAt h l) : t.singleBut o :=
  fun h k l a b => hs h k l (old h l a) (old k l b)

theorem State.singleBut_congr {o : Option (Fin 64)} (hs : s.singleBut o) (pages : ∀ h, t.page h = s.page h) :
    t.singleBut o :=
  State.singleBut_of hs fun h _ ⟨p, hp, x⟩ => ⟨p, pages h ▸ hp, x⟩

theorem State.setPage_singleBut {o : Option (Fin 64)} {h : Fin 64} {p q : Page} {x : State} (hs : s.singleBut o)
    (hp : s.page h = some p) (pages : x.page = s.page) (same : p.sameEntry q)
    (state : q.state ≠ .superseded → p.state ≠ .superseded) : (x.setPage h (some q)).singleBut o := by
  refine State.singleBut_of hs fun k l ⟨u, hu, label, current⟩ => ?_
  rw [State.page_setPage, pages] at hu
  split at hu
  · next e => subst e; cases hu; exact ⟨p, hp, same.1 ▸ label, state current⟩
  · exact ⟨u, hu, label, current⟩

theorem State.currentEntry_eq_some {l : Label} {h : Fin 64} (e : s.currentEntry l = some h) : s.currentAt h l := by
  have found := List.find?_some e
  cases hp : s.page h with
  | none => simp [hp] at found
  | some p =>
    simp only [hp, Bool.and_eq_true, beq_iff_eq, bne_iff_ne] at found
    exact ⟨p, hp, found⟩

theorem State.currentEntry_eq_none {l : Label} (e : s.currentEntry l = none) (h : Fin 64) : ¬s.currentAt h l := by
  rintro ⟨p, hp, label, current⟩
  have := List.find?_eq_none.mp e h (List.mem_finRange h)
  simp [hp, label, current] at this

/-- The entry opened for a label is its only current one, the one to be superseded aside. -/
theorem State.openEntry_singleBut {h : Fin 64} {p : Page} {x : State} (hs : s.singleBut none)
    (pages : x.page = s.page) : (x.setPage h (some p)).singleBut (s.currentEntry p.label) := by
  have at_ {k : Fin 64} {l : Label} (c : (x.setPage h (some p)).currentAt k l) : k = h ∧ p.label = l ∨ k ≠ h ∧ s.currentAt k l := by
    obtain ⟨u, hu, label, current⟩ := c
    rw [State.page_setPage, pages] at hu
    split at hu
    · next e => cases hu; exact .inl ⟨e, label⟩
    · next e => exact .inr ⟨e, u, hu, label, current⟩
  have old {k : Fin 64} (c : s.currentAt k p.label) : s.currentEntry p.label = some k := by
    cases e : s.currentEntry p.label with
    | none => exact absurd c (State.currentEntry_eq_none e k)
    | some o => rw [hs o k _ (State.currentEntry_eq_some e) c nofun nofun]
  intro j k l cj ck nj nk
  rcases at_ cj with ⟨ej, lj⟩ | ⟨-, oj⟩ <;> rcases at_ ck with ⟨ek, lk⟩ | ⟨-, ok⟩
  · exact ej.trans ek.symm
  · exact absurd (old (lj ▸ ok)) nk
  · exact absurd (old (lk ▸ oj)) nj
  · exact hs j k l oj ok nofun nofun

theorem State.supersedeEntry_singleBut {o : Fin 64} (hs : s.singleBut (some o)) :
    ((s.modifyPage o Page.superseded).stopIndexing o).singleBut none := by
  have at_ {k : Fin 64} {l : Label} (c : ((s.modifyPage o Page.superseded).stopIndexing o).currentAt k l) :
      k ≠ o ∧ s.currentAt k l := by
    obtain ⟨u, hu, label, current⟩ := c
    rw [State.supersedeEntry_page] at hu
    split at hu
    · obtain ⟨v, -, rfl⟩ := Option.map_eq_some_iff.mp hu
      exact absurd rfl current
    · next e => exact ⟨e, u, hu, label, current⟩
  intro j k l cj ck _ _
  obtain ⟨nj, cj⟩ := at_ cj
  obtain ⟨nk, ck⟩ := at_ ck
  exact hs j k l cj ck (fun e => nj (Option.some.inj e).symm) fun e => nk (Option.some.inj e).symm

theorem Move.keeps_singleBut (m : Move (φ, s) (ψ, t)) (queues : s.queuesOfPages) (hs : s.singleBut φ.opened) :
    t.singleBut ψ.opened := by
  cases m with
  | quiet h => exact State.singleBut_congr hs fun k => by simp only [State.page, h.pages]
  | raise i => rw [State.raise_frame]; exact State.singleBut_congr hs fun _ => rfl
  | badSegment h n i => rw [State.raiseBadSegment_frame]; exact State.singleBut_congr hs fun _ => rfl
  | clear n =>
    unfold State.clearIncidents
    split
    all_goals exact State.singleBut_congr hs fun _ => rfl
  | page h p q c hp same state =>
    refine State.setPage_singleBut hs hp rfl same fun current => ?_
    rcases state with kept | ⟨plain, -⟩
    · exact kept ▸ current
    · exact plain.2
  | enqueue h p q c hp same before => exact State.setPage_singleBut hs hp rfl same fun _ => before.2
  | indexed h p q hi hp same =>
    have indexing : p.state = .indexing := by
      simpa [hp] using (queues.2.2.2.2 h).mp (.inr hi)
    exact State.setPage_singleBut hs hp rfl same fun _ => by simp [indexing]
  | take => rw [State.takeForIndexing_frame]; exact State.singleBut_congr hs fun _ => rfl
  | openEntry h p owed =>
    rw [owed] at hs
    exact State.openEntry_singleBut hs rfl
  | supersede o owed =>
    rw [owed] at hs
    exact State.supersedeEntry_singleBut hs
  | free h p hp =>
    obtain ⟨gone, others, -⟩ := State.freeEntry_freed s h p hp
    refine State.singleBut_of hs fun k l ⟨u, hu, x⟩ => ⟨u, ?_, x⟩
    rwa [others k fun e => by simp [e ▸ hu] at gone] at hu
  | record i v u h =>
    refine State.singleBut_of hs fun k l ⟨q, hq, label, current⟩ => ?_
    rw [h.pages k] at hq
    obtain ⟨p, hp, rfl⟩ := Option.map_eq_some_iff.mp hq
    exact ⟨p, hp, label, current⟩
  | settle | push => rw [State.modifyPlate_frame]; exact State.singleBut_congr hs fun _ => rfl
  | idle l e c => exact State.singleBut_congr hs fun k => by rw [State.modifyPlate_frame]; rfl
  | flush => exact State.singleBut_of hs fun k l ⟨p, hp, _⟩ => by simp [State.flushed_page] at hp
  | powerOn b => exact State.singleBut_of hs fun k l ⟨p, hp, _⟩ => absurd ((State.powerOn_page s b k).symm.trans hp) nofun
  | resolve | used | pop | makeRoom | dispatch | reload => exact State.singleBut_congr hs fun _ => rfl

end

/-! ## The conditions kept by every step -/

/-- Settles O8, move by move. -/
theorem everyStepKeepsTheIncidentBounds : Obligations.EveryStepKeepsTheIncidentBounds := fun _ _ hs h =>
  step_keeps (P := fun _ s => s.incidentsFit) (fun _ _ _ _ m => m.keeps_incidentsFit) (fun _ _ _ hs => hs) h hs

/-- Settles O9, move by move. -/
theorem everyStepConservesCells : Obligations.EveryStepConservesCells := fun _ _ hs h =>
  step_keeps (P := fun _ s => s.cellsConserved) (fun _ _ _ _ m => m.keeps_cellsConserved) (fun _ _ _ hs => hs) h hs

/-- Settles O10, move by move. -/
theorem everyStepKeepsTheAccountingLaw : Obligations.EveryStepKeepsTheAccountingLaw := fun _ _ hs h =>
  step_keeps (P := fun _ s => s.accounted) (fun _ _ _ _ m => m.keeps_accounted) (fun _ _ _ hs => hs) h hs

/-- Settles O11, move by move: between moves, an entry that has lost its last record may still have to be freed. -/
theorem everyStepKeepsRetention : Obligations.EveryStepKeepsRetention := fun _ _ hs h =>
  (State.retained_iff _).mpr
    (step_keeps (P := fun φ s => s.retainedBut φ.unused) (fun _ _ _ _ m => m.keeps_retainedBut) (fun _ _ _ hs => hs) h
      ((State.retained_iff _).mp hs))

/-- Settles O12, move by move: between moves, the entry that a new one replaces is still to be superseded. -/
theorem everyStepKeepsOneCurrentEntry : Obligations.EveryStepKeepsOneCurrentEntry := fun _ _ hs queues h =>
  (State.singleCurrent_iff _).mpr
    (step_keeps (P := fun φ s => s.queuesOfPages ∧ s.singleBut φ.opened)
      (fun _ _ _ _ m g => ⟨m.keeps_queuesOfPages g.1, m.keeps_singleBut g.1 g.2⟩) (fun _ _ _ hs => hs) h
      ⟨queues, (State.singleCurrent_iff _).mp hs⟩).2

/-- Settles O13, move by move. -/
theorem everyStepKeepsThePageQueues : Obligations.EveryStepKeepsThePageQueues := fun _ _ hs h =>
  step_keeps (P := fun _ s => s.queuesOfPages) (fun _ _ _ _ m => m.keeps_queuesOfPages) (fun _ _ _ hs => hs) h hs

end Sys2Proof.Machine
end

section
/-! The conditions that every step keeps, each shown for every move: the serials, the in-use counts, and the channels with
the records on them. -/

namespace Sys2Proof.Machine

open Sys2Proof

section
variable {φ ψ : Owed} {s t : State}

/-! ## Serials (R110, R157) -/

/-- The serials of the live copies of a line, where a copy already settled no longer counts as in exposure. -/
def State.serialsOn (s : State) (ended : Option Line) (l : Line) : List Nat :=
  (if ended = some l then [] else ((s.channel l).exposure.map fun e => e.copy.serial).toList) ++
    (s.queue l).map VerifyEntry.serial

/-- The serials are distinct and the queues in bound, with a command in progress. -/
structure State.serialsBut (s : State) (φ : Owed) : Prop where
  short : ∀ l, (s.queue l).length ≤ 16
  room : ∀ l, φ.room = some l → (s.queue l).length < 16
  distinct : ∀ l, (s.serialsOn φ.ended l).Nodup
  apart : ∀ l k, l ≠ k → (s.serialsOn φ.ended l).Disjoint (s.serialsOn φ.ended k)
  range : ∀ l, ∀ n ∈ s.serialsOn φ.ended l, 1 ≤ n ∧ n ≤ 65535
  next : 1 ≤ s.serialNext ∧ s.serialNext ≤ 65535

theorem Line.forall_iff {P : Line → Prop} : (∀ l, P l) ↔ P .a ∧ P .b :=
  ⟨fun h => ⟨h .a, h .b⟩, fun h l => by cases l; exacts [h.1, h.2]⟩

theorem State.liveSerials_perm (s : State) : s.liveSerials.Perm (s.serialsOn none .a ++ s.serialsOn none .b) := by
  simp only [State.liveSerials, State.serialsOn, State.channel, State.queue, Lines.get, reduceCtorEq, if_false,
    List.append_assoc]
  refine List.Perm.append_left _ ?_
  rw [← List.append_assoc, ← List.append_assoc]
  exact List.Perm.append_right _ List.perm_append_comm

theorem State.serialsDistinct_iff (s : State) : s.serialsDistinct ↔ s.serialsBut {} := by
  have nodup : s.liveSerials.Nodup ↔ (∀ l, (s.serialsOn none l).Nodup) ∧
      ∀ l k, l ≠ k → (s.serialsOn none l).Disjoint (s.serialsOn none k) := by
    rw [s.liveSerials_perm.nodup_iff, List.nodup_append', Line.forall_iff]
    refine ⟨fun ⟨a, b, d⟩ => ⟨⟨a, b⟩, fun l k ne => ?_⟩, fun ⟨⟨a, b⟩, d⟩ => ⟨a, b, d .a .b nofun⟩⟩
    cases l <;> cases k
    exacts [absurd rfl ne, d, d.symm, absurd rfl ne]
  have range : (∀ n ∈ s.liveSerials, 1 ≤ n ∧ n ≤ 65535) ↔ ∀ l, ∀ n ∈ s.serialsOn none l, 1 ≤ n ∧ n ≤ 65535 := by
    simp only [s.liveSerials_perm.mem_iff, List.mem_append, or_imp, forall_and, Line.forall_iff]
  constructor
  · rintro ⟨a, b, distinct, bounds, next⟩
    exact ⟨Line.forall_iff.mpr ⟨a, b⟩, nofun, (nodup.mp distinct).1, (nodup.mp distinct).2, range.mp bounds, next⟩
  · intro h
    exact ⟨h.short .a, h.short .b, nodup.mpr ⟨h.distinct, h.apart⟩, range.mpr h.range, h.next⟩

/-- Where every line carries no serial that it did not carry before, the serials stay distinct. -/
theorem State.serialsBut.fewer (hs : s.serialsBut φ) (short : ∀ l, (t.queue l).length ≤ 16)
    (room : ∀ l, ψ.room = some l → (t.queue l).length < 16)
    (carried : ∀ l, (t.serialsOn ψ.ended l).Subperm (s.serialsOn φ.ended l)) (next : t.serialNext = s.serialNext) :
    t.serialsBut ψ where
  short := short
  room := room
  distinct l := by
    obtain ⟨ns, perm, sub⟩ := carried l
    exact perm.nodup_iff.mp ((hs.distinct l).sublist sub)
  apart l k ne := List.disjoint_of_subset_left (carried l).subset
    (List.disjoint_of_subset_right (carried k).subset (hs.apart l k ne))
  range l n mem := hs.range l n ((carried l).subset mem)
  next := next ▸ hs.next

theorem State.serialsBut.congr (hs : s.serialsBut φ) (queues : ∀ l, (t.queue l).map VerifyEntry.serial = (s.queue l).map VerifyEntry.serial)
    (exposure : ∀ l, (t.channel l).exposure.map (fun e => e.copy.serial) = (s.channel l).exposure.map fun e => e.copy.serial)
    (next : t.serialNext = s.serialNext) (room : ψ.room = φ.room) (ended : ψ.ended = φ.ended) : t.serialsBut ψ := by
  have length (l : Line) : (t.queue l).length = (s.queue l).length := by simpa using congrArg List.length (queues l)
  refine hs.fewer (fun l => length l ▸ hs.short l) (fun l e => length l ▸ hs.room l (room ▸ e)) (fun l => ?_) next
  rw [State.serialsOn, State.serialsOn, queues, exposure, ended]

/-- A verify queue loses its head. -/
theorem State.serialsBut.pop {l : Line} {e : VerifyEntry} {rest : List VerifyEntry} (hs : s.serialsBut φ)
    (hq : s.queue l = e :: rest) (ended : ψ.ended = φ.ended) (room : ψ.room = φ.room ∨ ψ.room = some l) :
    (s.setQueue l rest).serialsBut ψ := by
  have shorter : rest.length < 16 := by have := hs.short l; rw [hq, List.length_cons] at this; omega
  have queue (k : Line) : (s.setQueue l rest).queue k = if k = l then rest else s.queue k := by
    split
    · next e => subst e; exact State.queue_setQueue_self s k rest
    · next e => exact State.queue_setQueue_of_ne s rest e
  refine hs.fewer (fun k => ?_) (fun k e => ?_) (fun k => ?_) rfl
  · rw [queue]; split
    · exact shorter.le
    · exact hs.short k
  · rw [queue]; split
    · exact shorter
    · next ne =>
      rcases room with same | own
      · exact hs.room k (same ▸ e)
      · exact absurd (Option.some.inj (own.symm.trans e)).symm ne
  · rw [State.serialsOn, State.serialsOn, queue, ended]
    refine List.Sublist.subperm ((List.Sublist.refl _).append (List.Sublist.map _ ?_))
    split
    · next e => subst e; rw [hq]; exact List.sublist_cons_self _ _
    · exact List.Sublist.refl _

/-- The copy in exposure on a line leaves the channel. -/
theorem State.serialsBut.ends {l : Line} (hs : s.serialsBut φ) (queues : t.queue = s.queue)
    (channels : ∀ k, k ≠ l → (t.channel k).exposure = (s.channel k).exposure)
    (own : ψ.ended = some l ∨ (t.channel l).exposure = none ∧ ψ.ended = none)
    (owed : φ.ended = none ∨ φ.ended = some l)
    (next : t.serialNext = s.serialNext) (room : ψ.room = φ.room) : t.serialsBut ψ := by
  refine hs.fewer (fun k => queues ▸ hs.short k) (fun k e => queues ▸ hs.room k (room ▸ e)) (fun k => ?_) next
  rw [State.serialsOn, State.serialsOn, queues]
  refine List.Sublist.subperm (List.Sublist.append ?_ (List.Sublist.refl _))
  by_cases hk : k = l
  · subst hk
    rcases own with e | ⟨idle, -⟩
    · simp [e]
    · simp [idle]
  · have before : φ.ended ≠ some k := by
      rcases owed with e | e
      · simp [e]
      · simpa [e] using Ne.symm hk
    rw [channels k hk, if_neg before]
    split
    · exact List.nil_sublist _
    · exact List.Sublist.refl _

/-- The copy in exposure on a line joins the tail of its verify queue. -/
theorem State.serialsBut.push {l : Line} {e : Exposure} {x : VerifyEntry} (hs : s.serialsBut φ) (owed : φ.ended = none)
    (he : (s.channel l).exposure = some e) (serial : x.serial = e.copy.serial)
    (room : φ.room = some l ∨ (s.queue l).length < 16) (ended : ψ.ended = some l) (used : ψ.room = none)
    (channels : t.channels = s.channels) (queues : t.queues = (s.setQueue l (s.queue l ++ [x])).queues)
    (next : t.serialNext = s.serialNext) : t.serialsBut ψ := by
  have space : (s.queue l).length < 16 := room.elim (hs.room l) id
  have queue (k : Line) : t.queue k = if k = l then s.queue l ++ [x] else s.queue k := by
    rw [State.queue, queues]
    split
    · next e => subst e; exact State.queue_setQueue_self s k _
    · next e => exact State.queue_setQueue_of_ne s _ e
  refine hs.fewer (fun k => ?_) (fun k e => by simp [used] at e) (fun k => ?_) next
  · rw [queue]; split
    · rw [List.length_append, List.length_singleton]; exact space
    · exact hs.short k
  · rw [State.serialsOn, State.serialsOn, queue, State.channel, channels, ended, owed]
    split
    · next same =>
      obtain rfl : l = k := Option.some.inj same
      refine List.Perm.subperm ?_
      rw [if_pos rfl, if_neg (by simp), he, List.map_append, List.map_singleton,
        serial]
      exact List.perm_append_comm (l₂ := [e.copy.serial])
    · next ne => rw [if_neg (by simpa using Ne.symm ne), if_neg (by simp)]; exact List.Subperm.refl _

theorem State.nextSerial_fresh {l : Line} {c : Channel} (hs : s.serialsBut φ)
    (ended : φ.ended = some l ∨ φ.ended = none ∧ (s.channel l).exposure = none) :
    let n := (s.setChannel l c).nextSerial
    1 ≤ n ∧ n ≤ 65535 ∧ ∀ k, n ∉ s.serialsOn φ.ended k := by
  obtain ⟨j, e, fresh, -⟩ := (s.setChannel l c).nextSerial_issues hs.next.1 hs.next.2 hs.short
  refine ⟨by rw [e]; omega, by rw [e]; omega, fun k mem => fresh ?_⟩
  rcases List.mem_append.mp mem with mem | mem
  · split at mem
    · cases mem
    · next ne =>
      obtain ⟨x, hx, same⟩ := Option.map_eq_some_iff.mp (Option.mem_toList.mp mem)
      refine .inl ⟨k, x, ?_, same⟩
      by_cases hk : k = l
      · subst hk
        rcases ended with e | ⟨-, idle⟩
        · exact absurd e ne
        · simp [idle] at hx
      · rw [State.channel_setChannel_of_ne _ _ hk]; exact hx
  · obtain ⟨f, hf, same⟩ := List.mem_map.mp mem
    exact .inr ⟨k, f, hf, same⟩

theorem serialAfter_range {n : Nat} : 1 ≤ serialAfter n ∧ serialAfter n ≤ 65535 := by
  unfold serialAfter
  split <;> omega

/-- A copy is loaded on a channel that is IDLE, or whose copy has been settled. -/
theorem State.serialsBut.load {l : Line} {i : Fin 128} {r : Plate} {p : Page} {n : Nat} {m : Seps (Fin 8)}
    {g : List (Fin 8)} (hs : s.serialsBut φ)
    (ended : φ.ended = some l ∨ φ.ended = none ∧ (s.channel l).exposure = none) (done : ψ.ended = none)
    (room : ψ.room = φ.room) (channels : t.channels = (s.loadCopy l i r p n m g).channels) (queues : t.queues = s.queues)
    (next : t.serialNext = (s.loadCopy l i r p n m g).serialNext) : t.serialsBut ψ := by
  obtain ⟨low, high, fresh⟩ := State.nextSerial_fresh (c := { s.channel l with exposure := none }) hs ended
  generalize hn : (s.setChannel l { s.channel l with exposure := none }).nextSerial = new at low high fresh
  have own : t.serialsOn none l = new :: (s.queue l).map VerifyEntry.serial := by
    rw [State.serialsOn, State.channel, State.queue, channels, queues]
    simp only [State.loadCopy, hn]
    rw [show (State.channels _).get l = _ from State.channel_setChannel_self _ l _]
    rfl
  have others (k : Line) (ne : k ≠ l) : t.serialsOn none k = s.serialsOn φ.ended k := by
    have none_ended : φ.ended ≠ some k := by
      rcases ended with e | e
      · simpa [e] using Ne.symm ne
      · simp [e.1]
    rw [State.serialsOn, State.serialsOn, State.channel, State.queue, channels, queues, if_neg nofun, if_neg none_ended]
    simp only [State.loadCopy]
    rw [show (State.channels _).get k = _ from State.channel_setChannel_of_ne _ _ ne]
    rfl
  have before : s.serialsOn φ.ended l = (s.queue l).map VerifyEntry.serial := by
    rcases ended with e | ⟨e, idle⟩
    · simp [State.serialsOn, e]
    · simp [State.serialsOn, e, idle]
  have grown (k : Line) : ∀ x ∈ t.serialsOn none k, k = l ∧ x = new ∨ x ∈ s.serialsOn φ.ended k := by
    intro x hx
    by_cases hk : k = l
    · subst hk
      rw [own, List.mem_cons] at hx
      rw [before]
      exact hx.imp_left (⟨rfl, ·⟩)
    · exact .inr (others k hk ▸ hx)
  have length (k : Line) : t.queue k = s.queue k := by rw [State.queue, queues]; rfl
  refine ⟨fun k => length k ▸ hs.short k, fun k e => length k ▸ hs.room k (room ▸ e), fun k => ?_, fun k j ne x hk hj => ?_,
    fun k x hx => ?_, ?_⟩
  · rw [done]
    by_cases hk : k = l
    · subst hk
      rw [own, List.nodup_cons, ← before]
      exact ⟨fresh k, hs.distinct k⟩
    · rw [others k hk]; exact hs.distinct k
  · rw [done] at hk hj
    rcases grown k x hk with ⟨rfl, rfl⟩ | hk
    · rcases grown j x hj with ⟨rfl, -⟩ | hj
      · exact ne rfl
      · exact fresh j hj
    · rcases grown j x hj with ⟨rfl, rfl⟩ | hj
      · exact fresh k hk
      · exact hs.apart k j ne hk hj
  · rw [done] at hx
    rcases grown k x hx with ⟨-, rfl⟩ | hx
    · exact ⟨low, high⟩
    · exact hs.range k x hx
  · rw [next]; exact serialAfter_range

theorem State.serialsBut_empty (queues : ∀ l, t.queue l = []) (idle : ∀ l, (t.channel l).exposure = none)
    (next : 1 ≤ t.serialNext ∧ t.serialNext ≤ 65535) : t.serialsBut ψ := by
  have empty (l : Line) : t.serialsOn ψ.ended l = [] := by simp [State.serialsOn, queues, idle]
  refine ⟨fun l => by simp [queues], fun l _ => by simp [queues], fun l => by simp [empty], fun l k _ => by simp [empty],
    fun l n mem => by simp [empty] at mem, next⟩

theorem Move.keeps_serialsBut (m : Move (φ, s) (ψ, t)) (hs : s.serialsBut φ) : t.serialsBut ψ := by
  cases m with
  | quiet h =>
    refine hs.congr h.serials (fun l => ?_) h.serialNext rfl rfl
    simpa [Option.map_map, Exposure.core, Function.comp_def] using
      congrArg (Option.map fun c : Fin 128 × Nat × List (Fin 8) => c.2.1) (h.exposure l)
  | raise i => rw [State.raise_frame]; exact hs.congr (fun _ => rfl) (fun _ => rfl) rfl rfl rfl
  | badSegment h n i => rw [State.raiseBadSegment_frame]; exact hs.congr (fun _ => rfl) (fun _ => rfl) rfl rfl rfl
  | clear n =>
    unfold State.clearIncidents
    split
    all_goals exact hs.congr (fun _ => rfl) (fun _ => rfl) rfl rfl rfl
  | take => rw [State.takeForIndexing_frame]; exact hs.congr (fun _ => rfl) (fun _ => rfl) rfl rfl rfl
  | supersede o =>
    rw [State.stopIndexing_frame, State.modifyPage_frame]; exact hs.congr (fun _ => rfl) (fun _ => rfl) rfl rfl rfl
  | free h p => rw [State.freeEntry_frame]; exact hs.congr (fun _ => rfl) (fun _ => rfl) rfl rfl rfl
  | record i v u h => rw [h.frame]; exact hs.congr (fun _ => rfl) (fun _ => rfl) rfl rfl rfl
  | pop l e rest hq => exact hs.pop hq rfl (.inl rfl)
  | makeRoom l e rest hq => exact hs.pop hq rfl (.inr rfl)
  | settle l e f owed =>
    rw [State.modifyPlate_frame]; exact hs.ends (l := l) rfl (fun _ _ => rfl) (.inl rfl) (.inl owed) rfl rfl
  | push l e x owed he serial room =>
    rw [State.modifyPlate_frame]; exact hs.push owed he serial room rfl rfl rfl rfl rfl
  | dispatch l i r p m g owed idle => exact hs.load (.inr ⟨owed, idle⟩) owed rfl rfl rfl rfl
  | reload l e r p n m owed => exact hs.load (.inl owed) rfl rfl rfl rfl rfl
  | idle l e c owed he hc =>
    rw [State.modifyPlate_frame]
    refine hs.ends (l := l) rfl (fun k ne => ?_) (.inr ⟨?_, rfl⟩) (.inr owed) rfl rfl
    · rw [State.channel_setChannel_of_ne _ _ ne]; rfl
    · rw [State.channel_setChannel_self]; exact hc
  | flush a b =>
    exact State.serialsBut_empty (Line.forall_iff.mpr ⟨rfl, rfl⟩) (Line.forall_iff.mpr ⟨a, b⟩) hs.next
  | powerOn b =>
    exact State.serialsBut_empty (Line.forall_iff.mpr ⟨rfl, rfl⟩) (Line.forall_iff.mpr ⟨rfl, rfl⟩)
      (show 1 ≤ 1 ∧ 1 ≤ 65535 by decide)
  | resolve | page | enqueue | indexed | openEntry | used =>
    exact hs.congr (fun _ => rfl) (fun _ => rfl) rfl rfl rfl

end

/-- Settles O14, move by move: between moves, a copy already settled no longer counts as in exposure on its channel. -/
theorem everyStepKeepsSerialsDistinct : Obligations.EveryStepKeepsSerialsDistinct := fun _ _ hs h =>
  (State.serialsDistinct_iff _).mpr
    (step_keeps (P := fun φ s => s.serialsBut φ) (fun _ _ _ _ m => m.keeps_serialsBut)
      (fun _ _ _ hs => hs.congr (fun _ => rfl) (fun _ => rfl) rfl rfl rfl) h
      ((State.serialsDistinct_iff _).mp hs))

end Sys2Proof.Machine
end

section
/-! The conditions that every step keeps, each shown for every move: the in-use counts, and the channels with the records on
them. -/

namespace Sys2Proof.Machine

open Sys2Proof

section
variable {φ ψ : Owed} {s t : State}

/-! ## The in-use counts (R83, R86, R87) -/

theorem State.setsCounted_iff (s : State) : s.setsCounted ↔ (∀ l, (s.channel l).group.Nodup) ∧
    ∀ i : Fin 8, (s.screens[i]).inUse = (s.channel .a).group.count i + (s.channel .b).group.count i := by
  rw [Line.forall_iff, and_assoc]; rfl

theorem Channel.group_eq (c : Channel) : c.group = ((c.exposure.map Exposure.core).map fun x => x.2.2).getD [] := by
  unfold Channel.group; cases c.exposure <;> rfl

theorem State.setsCounted_congr (hs : s.setsCounted) (groups : ∀ l, (t.channel l).group = (s.channel l).group)
    (inUse : ∀ i : Fin 8, (t.screens[i]).inUse = (s.screens[i]).inUse) : t.setsCounted := by
  rw [State.setsCounted_iff] at *
  exact ⟨fun l => groups l ▸ hs.1 l, fun i => by rw [inUse, groups, groups, hs.2]⟩

/-- The channel of a line takes or gives back its group, and every in-use count follows. -/
theorem State.setsCounted_of_line {l : Line} (hs : s.setsCounted)
    (others : ∀ k, k ≠ l → (t.channel k).group = (s.channel k).group) (distinct : (t.channel l).group.Nodup)
    (inUse : ∀ i : Fin 8, (t.screens[i]).inUse + (s.channel l).group.count i =
      (s.screens[i]).inUse + (t.channel l).group.count i) : t.setsCounted := by
  rw [State.setsCounted_iff] at *
  obtain ⟨nodup, counts⟩ := hs
  refine ⟨fun k => ?_, fun i => ?_⟩
  · by_cases hk : k = l
    · exact hk ▸ distinct
    · rw [others k hk]; exact nodup k
  · have total := inUse i
    have old := counts i
    cases l with
    | a => rw [others .b nofun]; omega
    | b => rw [others .a nofun]; omega

theorem Move.keeps_setsCounted (m : Move (φ, s) (ψ, t)) (hs : s.setsCounted) : t.setsCounted := by
  cases m with
  | quiet h =>
    exact State.setsCounted_congr hs (fun l => by rw [Channel.group_eq, Channel.group_eq, h.exposure]) h.inUse
  | raise i => rw [State.raise_frame]; exact State.setsCounted_congr hs (fun _ => rfl) fun _ => rfl
  | badSegment h n i => rw [State.raiseBadSegment_frame]; exact State.setsCounted_congr hs (fun _ => rfl) fun _ => rfl
  | clear n =>
    unfold State.clearIncidents
    split
    all_goals exact State.setsCounted_congr hs (fun _ => rfl) fun _ => rfl
  | take => rw [State.takeForIndexing_frame]; exact State.setsCounted_congr hs (fun _ => rfl) fun _ => rfl
  | supersede o =>
    rw [State.stopIndexing_frame, State.modifyPage_frame]; exact State.setsCounted_congr hs (fun _ => rfl) fun _ => rfl
  | free h p => rw [State.freeEntry_frame]; exact State.setsCounted_congr hs (fun _ => rfl) fun _ => rfl
  | record i v u h => rw [h.frame]; exact State.setsCounted_congr hs (fun _ => rfl) fun _ => rfl
  | settle | push => rw [State.modifyPlate_frame]; exact State.setsCounted_congr hs (fun _ => rfl) fun _ => rfl
  | dispatch l i r p m g owed idle hr hc left distinct =>
    have own : (((s.loadCopy l i r p 0 m g).countSets (· + 1) g).channel l).group = g :=
      congrArg Channel.group (State.channel_setChannel_self _ l _)
    refine State.setsCounted_of_line (l := l) hs (fun k ne => ?_) (by rw [own]; exact distinct) fun j => ?_
    · exact congrArg Channel.group (State.channel_setChannel_of_ne _ _ ne)
    · rw [((s.loadCopy l i r p 0 m g).countSets_get (· + 1) g distinct j).2, own, distinct.count]
      simp only [Channel.group, idle]
      split <;> rfl
  | reload l e r p n m owed he =>
    refine State.setsCounted_congr hs (fun k => ?_) fun _ => rfl
    by_cases hk : k = l
    · subst hk
      refine (congrArg Channel.group (State.channel_setChannel_self _ k _)).trans ?_
      simp [Channel.group, he]
    · exact congrArg Channel.group (State.channel_setChannel_of_ne _ _ hk)
  | idle l e c owed he hc =>
    rw [State.modifyPlate_frame]
    have held : (s.channel l).group = e.group := by simp [Channel.group, he]
    have distinct : e.group.Nodup := held ▸ ((State.setsCounted_iff s).mp hs).1 l
    refine State.setsCounted_of_line (l := l) hs (fun k ne => ?_) ?_ fun j => ?_
    · rw [State.channel_setChannel_of_ne _ _ ne]; rfl
    · rw [State.channel_setChannel_self]; simp [Channel.group, hc]
    · have counts := ((State.setsCounted_iff s).mp hs).2 j
      have least : (s.channel l).group.count j ≤ (s.screens[j]).inUse := by cases l <;> omega
      rw [State.channel_setChannel_self, held]
      rw [held, distinct.count] at least
      refine (congrArg (· + _) ((State.countSets_get _ (· - 1) e.group distinct j).2)).trans ?_
      rw [distinct.count]
      simp only [Channel.group, hc]
      split
      · next mem => rw [if_pos mem] at least; exact Nat.sub_add_cancel least
      · rfl
  | flush => exact State.setsCounted_congr hs (fun _ => rfl) fun _ => rfl
  | powerOn b =>
    refine (State.setsCounted_iff _).mpr ⟨Line.forall_iff.mpr ⟨List.nodup_nil, List.nodup_nil⟩, fun i => ?_⟩
    simp [State.powerOn, State.reset, State.channel, Lines.get, Channel.group, Channel.powerOn]
  | resolve | page | enqueue | indexed | openEntry | used | pop | makeRoom =>
    exact State.setsCounted_congr hs (fun _ => rfl) fun _ => rfl

/-! ## The channels and the records on them (R98, R109, R118) -/

/-- The channel and the copies exposing of a record. -/
def Plate.stage (r : Plate) : Option Line × Nat := (r.channel, r.exposing)

/-- The channel and the copies exposing of the record of an id; none for a free one. -/
def State.stageOf (s : State) (i : Fin 128) : Option Line × Nat := ((s.plate i).map Plate.stage).getD (none, 0)

/-- The record that the channel of a line holds. -/
def State.holder (s : State) (l : Line) : Option (Fin 128) := (s.channel l).exposure.map Exposure.plate

/-- The copies a record on a channel, or on none, has in exposure; the copy of an ended line is already settled. -/
def copiesOn (ended : Option Line) : Option Line → Nat
  | none => 0
  | some l => if ended = some l then 0 else 1

/-- Channels and records agree, where the copy of an ended line is already settled. -/
def State.channelsBut (s : State) (ended : Option Line) : Prop :=
  ∀ i, (∀ l, (s.stageOf i).1 = some l ↔ s.holder l = some i) ∧ (s.stageOf i).2 = copiesOn ended (s.stageOf i).1

theorem State.channelsHold_iff (s : State) : s.channelsHold ↔ s.channelsBut none := by
  constructor
  · rintro ⟨holds, held, off⟩ i
    cases hr : s.plate i with
    | none =>
      refine ⟨fun l => ?_, by simp [State.stageOf, hr, copiesOn]⟩
      simp only [State.stageOf, hr, State.holder, Option.map_eq_some_iff, Option.map_none, Option.getD_none, reduceCtorEq,
        false_iff, not_exists, not_and]
      rintro e he rfl
      obtain ⟨r, x, -⟩ := holds l e he
      simp [hr] at x
    | some r =>
      simp only [State.stageOf, hr, State.holder, Option.map_eq_some_iff, Option.map_some, Option.getD_some, Plate.stage]
      refine ⟨fun l => ⟨held i r l hr, ?_⟩, ?_⟩
      · rintro ⟨e, he, rfl⟩
        obtain ⟨q, x, on, -⟩ := holds l e he
        cases hr.symm.trans x
        exact on
      · cases hc : r.channel with
        | none => exact off i r hr hc
        | some l =>
          obtain ⟨e, he, rfl⟩ := held i r l hr hc
          obtain ⟨q, x, -, one⟩ := holds l e he
          cases hr.symm.trans x
          exact one
  · intro h
    have record {i : Fin 128} {r : Plate} (hr : s.plate i = some r) : s.stageOf i = (r.channel, r.exposing) := by
      simp [State.stageOf, hr, Plate.stage]
    refine ⟨fun l e he => ?_, fun i r l hr hc => ?_, fun i r hr hc => ?_⟩
    · have on := ((h e.plate).1 l).mpr (by simp [State.holder, he])
      have one := (h e.plate).2
      cases hr : s.plate e.plate with
      | none => simp [State.stageOf, hr] at on
      | some r =>
        rw [record hr] at on one
        exact ⟨r, rfl, on, by simpa [copiesOn, show r.channel = _ from on] using one⟩
    · have := ((h i).1 l).mp (by rw [record hr]; exact hc)
      simpa [State.holder] using this
    · have := (h i).2
      rw [record hr] at this
      simpa [hc, copiesOn] using this

theorem State.channelsBut_congr {o : Option Line} (hs : s.channelsBut o) (stages : ∀ i, t.stageOf i = s.stageOf i)
    (holders : ∀ l, t.holder l = s.holder l) : t.channelsBut o := fun i => by
  simp only [stages, holders]; exact hs i

theorem State.stageOf_setPlate (s : State) (i j : Fin 128) (v : Option Plate) :
    (s.setPlate i v).stageOf j = if j = i then (v.map Plate.stage).getD (none, 0) else s.stageOf j := by
  unfold State.stageOf
  rw [State.plate_setPlate]
  split <;> rfl

/-- A record that is freed is on no channel, so it has no copy exposing. -/
theorem State.recordChanged.stageOf {i : Fin 128} {v : Option Plate} (h : s.recordChanged t i v)
    (off : (s.stageOf i).1 = none → (s.stageOf i).2 = 0) (j : Fin 128) : t.stageOf j = s.stageOf j := by
  rw [h.frame]
  refine (State.stageOf_setPlate s i j v).trans ?_
  split
  · next e =>
    subst e
    have channel := h.channel
    unfold State.stageOf at *
    cases v with
    | none => cases hr : s.plate j <;> simp_all [Plate.stage]
    | some q =>
      have exposing := h.exposing q rfl
      cases hr : s.plate j <;> simp_all [Plate.stage]
  · rfl

/-- The copy in exposure on a line is settled in its record. -/
theorem State.channelsBut.settled {l : Line} {e : Exposure} (hs : s.channelsBut none)
    (he : (s.channel l).exposure = some e)
    (stages : ∀ j, t.stageOf j = if j = e.plate then ((s.stageOf j).1, (s.stageOf j).2 - 1) else s.stageOf j)
    (holders : ∀ k, t.holder k = s.holder k) : t.channelsBut (some l) := by
  have holder : s.holder l = some e.plate := by simp [State.holder, he]
  intro j
  obtain ⟨on, copies⟩ := hs j
  rw [stages j]
  simp only [holders]
  by_cases hj : j = e.plate
  · subst hj
    rw [if_pos rfl]
    have := (on l).mpr holder
    exact ⟨on, by simp [copies, this, copiesOn]⟩
  · rw [if_neg hj]
    refine ⟨on, copies.trans ?_⟩
    cases hc : (s.stageOf j).1 with
    | none => rfl
    | some k =>
      have ne : l ≠ k := by
        rintro rfl
        exact hj (Option.some.inj (((on l).mp hc).symm.trans holder))
      simp [copiesOn, ne]

theorem State.stageOf_modifyPlate (s : State) (i j : Fin 128) {f : Plate → Plate}
    (kept : ∀ r, (f r).channel = r.channel ∧ (f r).exposing = r.exposing - 1) :
    (s.modifyPlate i f).stageOf j = if j = i then ((s.stageOf j).1, (s.stageOf j).2 - 1) else s.stageOf j := by
  unfold State.stageOf
  rw [State.modifyPlate_plate]
  split
  · next e => subst e; cases s.plate j <;> simp [Plate.stage, kept]
  · rfl

/-- A record with copies to expose is loaded on a channel that is IDLE, or that holds it with its copy settled. -/
theorem State.channelsBut.load {l : Line} {i : Fin 128} {r : Plate} {p : Page} {n : Nat} {m : Seps (Fin 8)}
    {g : List (Fin 8)} {o : Option Line} (hs : s.channelsBut o) (hr : s.plate i = some r) (left : 0 < r.toExpose)
    (before : o = none ∧ s.holder l = none ∧ r.channel = none ∨ o = some l ∧ s.holder l = some i) :
    (s.loadCopy l i r p n m g).channelsBut none := by
  have stage : s.stageOf i = (r.channel, r.exposing) := by simp [State.stageOf, hr, Plate.stage]
  have none_exposing : r.exposing = 0 := by
    have copies := (hs i).2
    have on := (hs i).1 l
    rw [stage] at copies on
    rcases before with ⟨-, -, off⟩ | ⟨rfl, holder⟩
    · simpa [off, copiesOn] using copies
    · have : r.channel = some l := on.mpr holder
      simpa [this, copiesOn] using copies
  have stages (j : Fin 128) : (s.loadCopy l i r p n m g).stageOf j = if j = i then (some l, 1) else s.stageOf j := by
    refine (State.stageOf_setPlate s i j _).trans ?_
    split
    · simp [Plate.stage, Plate.beginCopy, left, none_exposing]
    · rfl
  have holders (k : Line) : (s.loadCopy l i r p n m g).holder k = if k = l then some i else s.holder k := by
    unfold State.holder
    split
    · next e => subst e; exact congrArg (fun c : Channel => c.exposure.map Exposure.plate) (State.channel_setChannel_self _ k _)
    · next ne => exact congrArg (fun c : Channel => c.exposure.map Exposure.plate) (State.channel_setChannel_of_ne _ _ ne)
  have own (k : Line) (ne : k ≠ l) : s.holder k ≠ some i := by
    rw [Ne, ← (hs i).1 k, stage]
    rcases before with ⟨-, -, off⟩ | ⟨-, holder⟩
    · simp [off]
    · have : r.channel = some l := by simpa [stage] using ((hs i).1 l).mpr holder
      simpa [this] using Ne.symm ne
  intro j
  obtain ⟨on, copies⟩ := hs j
  rw [stages j]
  simp only [holders]
  by_cases hj : j = i
  · subst hj
    rw [if_pos rfl]
    refine ⟨fun k => ?_, rfl⟩
    by_cases hk : k = l
    · simp [hk]
    · simpa [hk, own k hk] using Ne.symm hk
  · rw [if_neg hj]
    have off : (s.stageOf j).1 ≠ some l := by
      rw [Ne, on l]
      rcases before with ⟨-, idle, -⟩ | ⟨-, holder⟩
      · simp [idle]
      · rw [holder]; simpa using Ne.symm hj
    refine ⟨fun k => ?_, copies.trans ?_⟩
    · by_cases hk : k = l
      · subst hk; simpa [off] using Ne.symm hj
      · rw [if_neg hk]; exact on k
    · cases hc : (s.stageOf j).1 with
      | none => rfl
      | some k =>
        have ne : l ≠ k := by rintro rfl; exact off hc
        rcases before with ⟨rfl, -⟩ | ⟨rfl, -⟩
        · rfl
        · simp [copiesOn, ne]

theorem State.channelsBut.idle {l : Line} {e : Exposure} (hs : s.channelsBut (some l))
    (he : (s.channel l).exposure = some e)
    (stages : ∀ j, t.stageOf j = if j = e.plate then (none, (s.stageOf j).2) else s.stageOf j)
    (holders : ∀ k, t.holder k = if k = l then none else s.holder k) : t.channelsBut none := by
  have holder : s.holder l = some e.plate := by simp [State.holder, he]
  intro j
  obtain ⟨on, copies⟩ := hs j
  rw [stages j]
  simp only [holders]
  by_cases hj : j = e.plate
  · subst hj
    have here := (on l).mpr holder
    rw [if_pos rfl]
    refine ⟨fun k => ?_, by simpa [here, copiesOn] using copies⟩
    by_cases hk : k = l
    · simp [hk]
    · simpa [hk, ← on k, here] using Ne.symm hk
  · rw [if_neg hj]
    have off : (s.stageOf j).1 ≠ some l := by rw [Ne, on l, holder]; simpa using Ne.symm hj
    refine ⟨fun k => ?_, copies.trans ?_⟩
    · by_cases hk : k = l
      · subst hk; simpa using off
      · rw [if_neg hk]; exact on k
    · cases hc : (s.stageOf j).1 with
      | none => rfl
      | some k =>
        have ne : l ≠ k := by rintro rfl; exact off hc
        simp [copiesOn, ne]

theorem State.channelsBut_empty {o : Option Line} (plates : ∀ i, t.plate i = none) (idle : ∀ l, t.holder l = none) :
    t.channelsBut o := fun i => by simp [State.stageOf, plates, idle, copiesOn]

theorem Move.keeps_channelsBut (m : Move (φ, s) (ψ, t)) (hs : s.channelsBut φ.ended) : t.channelsBut ψ.ended := by
  cases m with
  | quiet h =>
    refine State.channelsBut_congr hs (fun i => by simp only [State.stageOf, State.plate, h.plates]) fun l => ?_
    simpa [State.holder, Option.map_map, Exposure.core, Function.comp_def] using
      congrArg (Option.map fun c : Fin 128 × Nat × List (Fin 8) => c.1) (h.exposure l)
  | raise i => rw [State.raise_frame]; exact State.channelsBut_congr hs (fun _ => rfl) fun _ => rfl
  | badSegment h n i => rw [State.raiseBadSegment_frame]; exact State.channelsBut_congr hs (fun _ => rfl) fun _ => rfl
  | clear n =>
    unfold State.clearIncidents
    split
    all_goals exact State.channelsBut_congr hs (fun _ => rfl) fun _ => rfl
  | take => rw [State.takeForIndexing_frame]; exact State.channelsBut_congr hs (fun _ => rfl) fun _ => rfl
  | supersede o =>
    rw [State.stopIndexing_frame, State.modifyPage_frame]; exact State.channelsBut_congr hs (fun _ => rfl) fun _ => rfl
  | free h p => rw [State.freeEntry_frame]; exact State.channelsBut_congr hs (fun _ => rfl) fun _ => rfl
  | record i v u h =>
    refine State.channelsBut_congr hs (h.stageOf fun off => by rw [(hs i).2, off]; rfl) fun _ => ?_
    rw [h.frame]; rfl
  | settle l e f owed he kept =>
    rw [owed] at hs
    exact hs.settled he (fun j => s.stageOf_modifyPlate e.plate j fun r => (kept r).2)
      fun _ => by rw [State.modifyPlate_frame]; rfl
  | push l e x owed he =>
    rw [owed] at hs
    exact hs.settled he (fun j => State.stageOf_modifyPlate _ e.plate j fun r => r.awaitCopy_exposing.2)
      fun _ => by rw [State.modifyPlate_frame]; rfl
  | dispatch l i r p m g owed idle hr hc left =>
    have := hs.load (l := l) (p := p) (n := 0) (m := m) (g := g) hr left
      (.inl ⟨owed, by simp [State.holder, idle], hc⟩)
    rw [owed]
    exact State.channelsBut_congr this (fun _ => rfl) fun _ => rfl
  | reload l e r p n m owed he hr left =>
    exact hs.load hr left (.inr ⟨owed, by simp [State.holder, he]⟩)
  | idle l e c owed he hc =>
    rw [owed] at hs
    refine hs.idle he (fun j => ?_) fun k => ?_
    · refine (show State.stageOf _ j = (s.modifyPlate e.plate fun r => { r with channel := none }).stageOf j from rfl).trans ?_
      unfold State.stageOf
      rw [State.modifyPlate_plate]
      split
      · next same => subst same; cases s.plate e.plate <;> rfl
      · rfl
    · unfold State.holder
      split
      · next same => subst same; rw [State.channel_setChannel_self, hc]; rfl
      · next ne => rw [State.channel_setChannel_of_ne _ _ ne, State.modifyPlate_frame]; rfl
  | flush a b =>
    exact State.channelsBut_empty (State.flushed_plate s)
      (Line.forall_iff.mpr ⟨congrArg (Option.map Exposure.plate) a, congrArg (Option.map Exposure.plate) b⟩)
  | powerOn b => exact State.channelsBut_empty (State.powerOn_plate s b) (Line.forall_iff.mpr ⟨rfl, rfl⟩)
  | resolve | page | enqueue | indexed | openEntry | used | pop | makeRoom =>
    exact State.channelsBut_congr hs (fun _ => rfl) fun _ => rfl

end

/-- Settles O15, move by move. -/
theorem everyStepKeepsTheInUseCounts : Obligations.EveryStepKeepsTheInUseCounts := fun _ _ hs h =>
  step_keeps (P := fun _ s => s.setsCounted) (fun _ _ _ _ m => m.keeps_setsCounted) (fun _ _ _ hs => hs) h hs

/-- Settles O16, move by move: between moves, a copy already settled may still stand on its channel. -/
theorem everyStepKeepsChannelsAndRecords : Obligations.EveryStepKeepsChannelsAndRecords := fun _ _ hs h =>
  (State.channelsHold_iff _).mpr
    (step_keeps (P := fun φ s => s.channelsBut φ.ended) (fun _ _ _ _ m => m.keeps_channelsBut) (fun _ _ _ hs => hs) h
      ((State.channelsHold_iff _).mp hs))

end Sys2Proof.Machine
end

section
/-! The machine as a whole: a step, the power-on reset, and how a request and an event are taken. -/

namespace Sys2Proof.Machine

open Sys2Proof

/-! ## How a command is taken (R182, R190) -/

/-- A request whose effect and reply are known. -/
theorem State.request_answers {s t : State} {p : Port} {f : State → State × Reply} {r : Reply}
    (running : s.resetAsserted = false) (answers : f s = (t, r)) : s.request p f = .next (t.setReply p r) := by
  rw [State.request_running s p f running, answers]

theorem State.request_asserted {s : State} (p : Port) (f : State → State × Reply) (h : s.resetAsserted = true) :
    s.request p f = .next s := if_pos h

theorem State.event_asserted {s : State} (f : State → State) (h : s.resetAsserted = true) : s.event f = .next s := if_pos h

theorem execUnknownRequest_asserted {s : State} (p : Port) (code : Word) (ws : List Word) (h : s.resetAsserted = true) :
    execUnknownRequest p code ws s = .next s := by
  unfold execUnknownRequest
  split
  · rfl
  · exact State.request_asserted _ _ h

theorem State.attention_asserted {s : State} (h : s.resetAsserted = true) (p : Port) : s.attention p = false := by
  cases p <;> simp [State.attention, State.attnFeed, State.attnPlan, State.attnLine, h]

/-- Settles O1, by unfolding the step on the queue's front. -/
theorem stepRunsFrontCommand : Obligations.StepRunsFrontCommand := by
  intro c rest s waiting
  unfold step
  rw [waiting]

/-- Settles O5: every command but the two reset events is a request or an event, and neither is taken. -/
theorem nothingHappensUnderReset : Obligations.NothingHappensUnderReset := by
  intro i s asserted notAsserted notNegated
  refine ⟨?_, State.attention_asserted asserted⟩
  cases i with
  | powerOnResetAsserted => exact absurd rfl notAsserted
  | powerOnResetNegated => exact absurd rfl notNegated
  | unknownRequest p code ws => exact execUnknownRequest_asserted p code ws asserted
  | clockAdvance | resendWaitExpiry | deadlineExpiry | verifyTimeout | stallTimerExpiry | indexerTake
  | indexingCompletion | renderArbiterChoice | renderTaskCompletion | discardedTaskEnd | stripEnd | markTick =>
    unfold exec
    exact State.event_asserted _ asserted
  | _ =>
    unfold exec
    exact State.request_asserted _ _ asserted

/-- Settles O6: both events put every block at its power-on values. -/
theorem powerOnResetRestoresEveryBlock : Obligations.PowerOnResetRestoresEveryBlock := by
  refine ⟨fun s => rfl, fun s asserted => ?_⟩
  show Host.Outcome.next (if s.resetAsserted then s.powerOn false else s) = _
  rw [asserted]
  rfl

/-! ## The conditions on every state, right after reset -/

theorem State.reset_page (h : Fin 64) : State.reset.page h = none := by simp [State.page, State.reset]

theorem State.reset_plate (i : Fin 128) : State.reset.plate i = none := by simp [State.plate, State.reset]

theorem State.reset_incidentsFit : State.reset.incidentsFit := ⟨Nat.zero_le _, Nat.zero_le _, List.Pairwise.nil⟩

theorem State.reset_accounted : State.reset.accounted := fun i r hr => by simp [State.reset_plate] at hr

theorem State.reset_retained : State.reset.retained :=
  (State.retained_iff _).mpr (State.retainedBut_empty State.reset_page State.reset_plate)

theorem State.reset_singleCurrent : State.reset.singleCurrent := fun h k p q hp => by simp [State.reset_page] at hp

theorem State.reset_queuesOfPages : State.reset.queuesOfPages := State.queuesOfPages_empty rfl rfl rfl State.reset_page

theorem State.reset_serialsDistinct : State.reset.serialsDistinct :=
  (State.serialsDistinct_iff _).mpr (State.serialsBut_empty (Line.forall_iff.mpr ⟨rfl, rfl⟩)
    (Line.forall_iff.mpr ⟨rfl, rfl⟩) (show 1 ≤ 1 ∧ 1 ≤ 65535 by decide))

theorem State.reset_setsCounted : State.reset.setsCounted :=
  ⟨List.nodup_nil, List.nodup_nil, fun i => by simp [State.reset, Channel.group, Channel.powerOn]⟩

theorem State.reset_channelsHold : State.reset.channelsHold :=
  (State.channelsHold_iff _).mpr (State.channelsBut_empty State.reset_plate (Line.forall_iff.mpr ⟨rfl, rfl⟩))

theorem ScreenSet.powerOn_knots (k : Fin 17) : ScreenSet.powerOn.knots[k] = min (256 * k.val) 4095 := by
  revert k; decide

/-- Settles O7, block by block. -/
theorem powerOnState : Obligations.PowerOnState := by
  have screen (i : Fin 8) : State.reset.screens[i] = { content := ScreenSet.powerOn, inUse := 0 } := by
    simp [State.reset]
  have channel (l : Line) : State.reset.channel l = Channel.powerOn := by cases l <;> rfl
  have decoder (l : Line) : State.reset.decoder l = Decoder.powerOn := by cases l <;> rfl
  have settings (l : Line) : State.reset.lineSettings l = LineSettings.powerOn := by cases l <;> rfl
  refine ⟨⟨State.reset_page, rfl, rfl, rfl, rfl, rfl, rfl⟩, fun i => ?_, fun e => by simp [State.reset, Edition.powerOn],
    ⟨rfl, State.reset_plate, rfl, rfl⟩, fun l => ?_, ⟨fun p => by cases p <;> rfl, rfl⟩,
    ⟨rfl, rfl, rfl, rfl, fun i => by simp [State.reset]⟩, ⟨rfl, rfl, fun p => ?_⟩, State.reset_incidentsFit,
    State.cellsConserved_empty rfl State.reset_page, State.reset_accounted, State.reset_retained, State.reset_singleCurrent,
    State.reset_queuesOfPages, State.reset_serialsDistinct, State.reset_setsCounted, State.reset_channelsHold⟩
  · rw [screen]
    exact ⟨rfl, rfl, rfl, rfl, rfl, ScreenSet.powerOn_knots, rfl, rfl, rfl⟩
  · rw [channel, decoder, settings]
    refine ⟨rfl, rfl, rfl, rfl, fun k => ?_, rfl, rfl, rfl, by cases l <;> rfl, rfl, rfl, rfl, rfl, rfl, rfl, rfl, rfl, rfl,
      rfl, rfl, rfl, rfl, rfl, rfl, rfl, rfl, rfl, rfl⟩
    simp [Channel.powerOn]
  · have idle (l : Line) : State.reset.eligibleIds l = [] :=
      List.filter_eq_nil_iff.mpr fun i _ => by simp [State.reset_plate]
    cases p with
    | feed => rfl
    | plan => rfl
    | imageA => simp [State.attention, State.attnLine, idle]
    | imageB => simp [State.attention, State.attnLine, idle]

end Sys2Proof.Machine
end

section
/-! Frames and requests (spec/10, spec/11): what reads back as what. -/

namespace Sys2Proof.Machine

open Sys2Proof

/-! ## Frames -/

theorem code_eq {code : Word} {n : Nat} (h : code.toNat = n) : code = BitVec.ofNat 16 n := by
  rw [← h, BitVec.ofNat_toNat, BitVec.setWidth_eq]

theorem encodeFrame_decodeFeed (code : Word) (ws : List Word) :
    encodeFrame (decodeFeed code ws) = some (.feed, code, ws) := by
  unfold decodeFeed
  split
  case h_8 => rfl
  all_goals next h => rw [code_eq h]; rfl

theorem encodeFrame_decodePlan (code : Word) (ws : List Word) :
    encodeFrame (decodePlan code ws) = some (.plan, code, ws) := by
  unfold decodePlan
  split
  case h_20 => rfl
  all_goals next h => rw [code_eq h]; rfl

theorem encodeFrame_decodeImage (l : Line) (code : Word) (ws : List Word) :
    encodeFrame (decodeImage l code ws) = some (l.imagePort, code, ws) := by
  unfold decodeImage
  split
  case h_6 => rfl
  all_goals next h => rw [code_eq h]; rfl

theorem encodeFrame_decodeFrame (p : Port) (code : Word) (ws : List Word) :
    encodeFrame (decodeFrame p code ws) = some (p, code, ws) := by
  cases p with
  | feed => exact encodeFrame_decodeFeed code ws
  | plan => exact encodeFrame_decodePlan code ws
  | imageA => exact encodeFrame_decodeImage .a code ws
  | imageB => exact encodeFrame_decodeImage .b code ws

theorem served_or_unknown_image (l : Line) (code : Word) (ws : List Word) :
    served l.imagePort code = true ∨ decodeImage l code ws = .unknownRequest l.imagePort code ws := by
  have port (v : List Word) : decodeFrame l.imagePort code v = decodeImage l code v := by cases l <;> rfl
  unfold decodeImage
  split
  case h_6 => exact .inr rfl
  all_goals next h => exact .inl (by simp only [served, port, decodeImage, h])

/-- A code is served, or read as UNKNOWN_REQUEST, whatever the parameters (R183). -/
theorem served_or_unknown (p : Port) (code : Word) (ws : List Word) :
    served p code = true ∨ decodeFrame p code ws = .unknownRequest p code ws := by
  cases p with
  | feed =>
    show _ ∨ decodeFeed code ws = _
    unfold decodeFeed
    split
    case h_8 => exact .inr rfl
    all_goals next h => exact .inl (by simp only [served, decodeFrame, decodeFeed, h])
  | plan =>
    show _ ∨ decodePlan code ws = _
    unfold decodePlan
    split
    case h_20 => exact .inr rfl
    all_goals next h => exact .inl (by simp only [served, decodeFrame, decodePlan, h])
  | imageA => exact served_or_unknown_image .a code ws
  | imageB => exact served_or_unknown_image .b code ws

theorem decodeFrame_of_not_served {p : Port} {code : Word} (h : served p code = false) (ws : List Word) :
    decodeFrame p code ws = .unknownRequest p code ws :=
  (served_or_unknown p code ws).resolve_left (by simp [h])

theorem not_served_of_wf {p : Port} {code : Word} {ws : List Word} (h : (Instr.unknownRequest p code ws).wf = true) :
    served p code = false := by
  simp only [Instr.wf, Bool.and_eq_true, Bool.not_eq_true'] at h
  exact h.2

theorem decodeFrame_encodeFrame {i : Instr} {p : Port} {code : Word} {ws : List Word} (h : i.wf = true)
    (he : encodeFrame i = some (p, code, ws)) : decodeFrame p code ws = i := by
  cases i with
  | unknownRequest => cases he; exact decodeFrame_of_not_served (not_served_of_wf h) ws
  | pageRead port | incidentRead port => cases he; cases port <;> rfl
  | plateRequest l | plateStart l | rowsRead l | plateEnd l | lineAbort l => cases he; cases l <;> rfl
  | _ => cases he <;> rfl

theorem receiveFrame_sendFrame {i : Instr} {p : Port} {f : List Word} (h : i.wf = true) (hs : sendFrame i = some (p, f)) :
    receiveFrame p f = some i := by
  obtain ⟨⟨q, code, ws⟩, he, e⟩ := Option.map_eq_some_iff.mp hs
  cases e
  have room := Instr.announced_of_wf h he
  unfold announced at room
  have count : ws.length = (BitVec.ofNat 16 ws.length).toNat := by simp_all; omega
  simp only [receiveFrame]
  rw [if_pos count, decodeFrame_encodeFrame h he]

theorem sendFrame_receiveFrame {i : Instr} {p : Port} {f : List Word} (h : receiveFrame p f = some i) :
    sendFrame i = some (p, f) := by
  unfold receiveFrame at h
  split at h
  · next code count ws =>
    split at h
    · next g =>
      cases h
      rw [sendFrame, encodeFrame_decodeFrame, Option.map_some, code_eq g.symm]
    · cases h
  · cases h

/-- Settles O2: each direction of the reading, first of the parameters and then of the whole frame. -/
theorem requestFramesReadBack : Obligations.RequestFramesReadBack := by
  refine ⟨fun _ _ _ _ => decodeFrame_encodeFrame, encodeFrame_decodeFrame, fun _ _ _ => receiveFrame_sendFrame,
    fun _ _ _ => sendFrame_receiveFrame, fun i p f hs => ?_⟩
  obtain ⟨⟨q, code, ws⟩, he, e⟩ := Option.map_eq_some_iff.mp hs
  cases e
  exact ⟨code, ws, he, rfl⟩

/-! ## Misfitting frames (R183, R191, R192) -/

theorem exec_unknownRequest {s : State} {p : Port} {code : Word} (running : s.resetAsserted = false)
    (h : served p code = false) (ws : List Word) :
    exec (.unknownRequest p code ws) s = .next (s.setReply p (Reply.bare .unknown)) := by
  show execUnknownRequest p code ws s = _
  unfold execUnknownRequest
  rw [h, if_neg Bool.false_ne_true]
  exact State.request_running s p _ running

theorem readSegment_misfit {ws : List Word} (h : (Instr.segment ws).fits = false) :
    8206 < ws.length ∨ readSegment ws = none := by
  by_cases long : 8206 < ws.length
  · exact .inl long
  · refine .inr (Option.eq_none_iff_forall_ne_some.mpr fun f e => ?_)
    have fits := (exists_carriedIn_iff ws).mp ⟨f, (readSegment_eq_some_iff ws f).mp e⟩
    have short : ws.length ≤ 8206 := by omega
    rw [Instr.fits, decide_eq_true short, Bool.true_and, beq_eq_false_iff_ne] at h
    exact h fits

theorem readLineSet_misfit {ws : List Word} (h : ws.length ≠ 15) : readLineSet ws = none := by
  unfold readLineSet
  split
  · simp at h
  · rfl

theorem readGeneralSet_misfit {ws : List Word} (h : ws.length ≠ 18) : readGeneralSet ws = none := by
  unfold readGeneralSet
  split
  · exact dif_neg fun e => h (by simp [e])
  · rfl

theorem readEditionSet_misfit {ws : List Word} (h : ws.length ≠ 10) : readEditionSet ws = none := by
  unfold readEditionSet
  split
  · simp at h
  · rfl

theorem readScreenLoad_misfit {ws : List Word} (h : (Instr.screenLoad ws).fits = false) : readScreenLoad ws = none := by
  rw [Instr.fits, beq_eq_false_iff_ne] at h
  refine if_neg fun e => h (e.trans ?_)
  simp [tileSides]

/-- A frame whose parameter count does not fit its request is refused and changes nothing (R183). -/
theorem exec_misfit {i : Instr} {p : Port} {code : Word} {ws : List Word} {s : State} (running : s.resetAsserted = false)
    (he : encodeFrame i = some (p, code, ws)) (misfit : i.fits = false) :
    exec i s = .next (s.setReply p (Reply.bare .badValue)) := by
  cases i with
  | pageOpen | pageClose | resendList | clockSet | plateRead | incidentRead | pageRelease | lineReset | incidentClear
  | rowsRead | plateEnd | linkSet | plateOrder | clockRead | flush | plateRequest | plateStart | lineAbort =>
    cases he
    unfold exec
    refine State.request_answers running ?_
    split
    · simp [Instr.fits] at misfit
    · rfl
  | pageRead | plateCancel =>
    cases he
    unfold exec
    refine State.request_answers running ?_
    split
    · simp [Instr.fits] at misfit
    · simp [Instr.fits] at misfit
    · rfl
  | pageAbandon | pageRetire =>
    cases he
    unfold exec
    refine State.request_answers running ?_
    unfold State.dropPage
    split
    · simp [Instr.fits] at misfit
    · rfl
  | lineHold | lineRelease =>
    cases he
    unfold exec
    refine State.request_answers running ?_
    unfold State.holdLine
    split
    · simp [Instr.fits] at misfit
    · rfl
  | segment ws =>
    cases he
    unfold exec
    refine State.request_answers running ?_
    rcases readSegment_misfit misfit with long | none
    · exact if_pos long
    · rw [none, ite_self]
  | lineSet ws =>
    cases he
    unfold exec
    refine State.request_answers running ?_
    rw [readLineSet_misfit (by simpa [Instr.fits] using misfit)]
    rfl
  | generalSet ws =>
    cases he
    unfold exec
    refine State.request_answers running ?_
    rw [readGeneralSet_misfit (by simpa [Instr.fits] using misfit)]
  | editionSet ws =>
    cases he
    unfold exec
    refine State.request_answers running ?_
    rw [readEditionSet_misfit (by simpa [Instr.fits] using misfit)]
  | screenLoad ws =>
    cases he
    unfold exec
    refine State.request_answers running ?_
    rw [readScreenLoad_misfit misfit]
  | unknownRequest => simp [Instr.fits] at misfit
  | _ => cases he

/-- Settles O4: a code not served, and each request with a parameter count that does not fit it. -/
theorem framesThatDoNotFitAreRefused : Obligations.FramesThatDoNotFitAreRefused :=
  ⟨fun p _ ws s running h => ⟨exec_unknownRequest running h ws, s.replyFrame_setReply p _⟩,
    fun _ p _ _ s running he misfit => ⟨exec_misfit running he misfit, s.replyFrame_setReply p _⟩⟩

end Sys2Proof.Machine
end

section
/-! Every request forms one reply, on its own port, and an event forms none. -/

namespace Sys2Proof.Machine

open Sys2Proof

section
variable {s t : State}

/-- No move changes the replies that stand or the commands that wait. -/
theorem Move.keeps_door {φ ψ : Owed} (m : Move (φ, s) (ψ, t)) : t.replies = s.replies ∧ t.pending = s.pending := by
  cases m with
  | quiet h => exact ⟨h.replies, h.pending⟩
  | raise i => rw [State.raise_frame]; exact ⟨rfl, rfl⟩
  | badSegment h n i => rw [State.raiseBadSegment_frame]; exact ⟨rfl, rfl⟩
  | clear n =>
    unfold State.clearIncidents
    split
    all_goals exact ⟨rfl, rfl⟩
  | take => rw [State.takeForIndexing_frame]; exact ⟨rfl, rfl⟩
  | supersede o => rw [State.stopIndexing_frame, State.modifyPage_frame]; exact ⟨rfl, rfl⟩
  | free h p => rw [State.freeEntry_frame]; exact ⟨rfl, rfl⟩
  | record i v u h => rw [h.frame]; exact ⟨rfl, rfl⟩
  | settle | push => rw [State.modifyPlate_frame]; exact ⟨rfl, rfl⟩
  | idle => rw [State.modifyPlate_frame]; exact ⟨rfl, rfl⟩
  | _ => exact ⟨rfl, rfl⟩

theorem Moves.keeps_door (m : Moves {} s {} t) : t.replies = s.replies ∧ t.pending = s.pending := by
  have all (x : Owed × State) (m : Relation.ReflTransGen Move ({}, s) x) :
      x.2.replies = s.replies ∧ x.2.pending = s.pending := by
    induction m with
    | refl => exact ⟨rfl, rfl⟩
    | tail _ m ih => exact ⟨m.keeps_door.1.trans ih.1, m.keeps_door.2.trans ih.2⟩
  exact all ({}, t) m

theorem State.request_next (s : State) (p : Port) (f : State → State × Reply) : ∃ t, s.request p f = .next t := by
  unfold State.request
  split
  · exact ⟨_, rfl⟩
  · exact ⟨_, rfl⟩

theorem State.event_next (s : State) (f : State → State) : ∃ t, s.event f = .next t := by
  unfold State.event
  split
  · exact ⟨_, rfl⟩
  · exact ⟨_, rfl⟩

theorem execUnknownRequest_next (p : Port) (code : Word) (ws : List Word) (s : State) :
    ∃ t, execUnknownRequest p code ws s = .next t := by
  unfold execUnknownRequest
  split
  · exact ⟨_, rfl⟩
  · exact State.request_next s p _

/-- Every command has a next state. -/
theorem exec_next (i : Instr) (s : State) : ∃ t, exec i s = .next t := by
  cases i with
  | powerOnResetAsserted => exact ⟨_, rfl⟩
  | powerOnResetNegated => exact ⟨_, rfl⟩
  | unknownRequest p code ws => exact execUnknownRequest_next p code ws s
  | clockAdvance | resendWaitExpiry | deadlineExpiry | verifyTimeout | stallTimerExpiry | indexerTake
  | indexingCompletion | renderArbiterChoice | renderTaskCompletion | discardedTaskEnd | stripEnd | markTick =>
    unfold exec
    exact State.event_next s _
  | _ =>
    unfold exec
    exact State.request_next s _ _

end

/-- Settles O3: a request is a run of moves and then its reply, an event a run of moves, and no move makes a reply. -/
theorem everyRequestIsAnsweredOnItsPort : Obligations.EveryRequestIsAnsweredOnItsPort := by
  intro i s running wf
  obtain ⟨t, next⟩ := exec_next i s
  constructor
  · intro p code ws he
    have reply : ∃ u r, Moves {} s {} u ∧ t = u.setReply p r := by
      by_cases known : i = .unknownRequest p code ws
      · subst known
        rw [exec_unknownRequest running (not_served_of_wf wf)] at next
        cases next
        exact ⟨s, _, .refl, rfl⟩
      · have answered := exec_answered he known next
        rw [State.answered, running] at answered
        simpa using answered
    obtain ⟨u, r, run, rfl⟩ := reply
    obtain ⟨replies, pending⟩ := run.keeps_door
    refine ⟨_, r, next, ?_, pending, ?_⟩
    · rw [State.replies_setReply, replies]
    · rw [State.replyFrame_setReply, Status.code_word]
  · intro he notAsserted notNegated
    exact ⟨t, next, (exec_occurred he notAsserted notNegated next).keeps_door⟩

end Sys2Proof.Machine
end

section
/-! The page catalogue (spec/01): closing, dropping and releasing entries, and the settings and the clock. -/

namespace Sys2Proof.Machine

open Sys2Proof

/-! ## Parameters and words (R191) -/

theorem readHandle_of_eq {n : Nat} {h : Fin 64} (e : n = h.val) : readHandle n = some h := by
  subst e; exact dif_pos h.isLt

theorem readHandle_of_lt {n : Nat} (e : 63 < n) : readHandle n = none := dif_neg (by omega)

theorem Line.ofCode_of_lt {n : Nat} (e : 1 < n) : Line.ofCode n = none := by
  unfold Line.ofCode
  split
  · omega
  · omega
  · rfl

theorem Line.ofCode_codeIn (l : Line) : Line.ofCode (codeIn [Line.a, .b] l).toNat = some l := by cases l <;> rfl

theorem word_toNat (w : Word) : word w.toNat = w := by simp [word]

theorem toNat_word {n : Nat} (h : n ≤ 65535) : (word n).toNat = n := by
  rw [word, BitVec.toNat_ofNat]
  exact Nat.mod_eq_of_lt (by omega)

theorem asRead32_append (hi lo : Word) : asRead32 (hi ++ lo) = [hi, lo] := by
  have high : (hi ++ lo).extractLsb' 16 16 = hi := by
    ext i h
    rw [BitVec.getElem_extractLsb', BitVec.getLsbD_append]
    simp [BitVec.getLsbD_eq_getElem h]
  have low : (hi ++ lo).extractLsb' 0 16 = lo := by
    ext i h
    rw [BitVec.getElem_extractLsb', BitVec.getLsbD_append]
    simp [h]
  rw [asRead32, high, low]

theorem words32_read32 (hi lo : Word) : words32 (read32 hi lo).toNat = [hi, lo] :=
  (words32_toNat _).trans (asRead32_append hi lo)

/-! ## Dropping and releasing an entry (R11, R17, R19) -/

section
variable {s : State} {hw : Word} {h : Fin 64} {p : Page}

theorem State.dropPage_of_bad_handle (bad : 63 < hw.toNat) : s.dropPage [hw] = (s, Reply.bare .badValue) := by
  simp only [State.dropPage, readHandle_of_lt bad]

theorem State.dropPage_of_free (hh : hw.toNat = h.val) (free : s.page h = none) :
    s.dropPage [hw] = (s, Reply.bare .noPage) := by
  simp only [State.dropPage, readHandle_of_eq hh, free]

theorem State.dropPage_of_named (hh : hw.toNat = h.val) (hp : s.page h = some p) (named : 0 < p.retention) :
    s.dropPage [hw] = (s, Reply.bare .inUse) := by
  simp only [State.dropPage, readHandle_of_eq hh, hp, if_pos named]

theorem State.dropPage_of_unnamed (hh : hw.toNat = h.val) (hp : s.page h = some p) (unnamed : p.retention = 0) :
    s.dropPage [hw] = (s.freeEntry h, Reply.ok []) := by
  simp only [State.dropPage, readHandle_of_eq hh, hp, unnamed, Nat.lt_irrefl, if_false]

theorem exec_pageAbandon {t : State} {r : Reply} (running : s.resetAsserted = false) (e : s.dropPage [hw] = (t, r)) :
    exec (.pageAbandon [hw]) s = .next (t.setReply .feed r) := by
  unfold exec
  exact State.request_answers running e

theorem exec_pageRetire {t : State} {r : Reply} (running : s.resetAsserted = false) (e : s.dropPage [hw] = (t, r)) :
    exec (.pageRetire [hw]) s = .next (t.setReply .plan r) := by
  unfold exec
  exact State.request_answers running e

end

/-- Settles O21: both requests drop the entry in one way. -/
theorem pageAbandonAndRetireFreeTheEntry : Obligations.PageAbandonAndRetireFreeTheEntry := by
  have both {s t : State} {hw : Word} {r : Reply} (running : s.resetAsserted = false) (e : s.dropPage [hw] = (t, r)) :=
    And.intro (exec_pageAbandon running e) (exec_pageRetire running e)
  refine ⟨fun s hw running => ⟨fun bad => both running (State.dropPage_of_bad_handle bad),
    fun h hh free => both running (State.dropPage_of_free hh free)⟩, fun s hw h p running hh hp => ⟨fun unnamed => ?_,
    fun named => both running (State.dropPage_of_named hh hp named)⟩⟩
  have dropped := both running (State.dropPage_of_unnamed hh hp unnamed)
  exact ⟨⟨_, dropped.1, State.freeEntry_freed s h p hp⟩, _, dropped.2, State.freeEntry_freed s h p hp⟩

/-- Settles O22, by the handle and the entry's state. -/
theorem pageReleaseMakesAFaultedEntryComplete : Obligations.PageReleaseMakesAFaultedEntryComplete := by
  refine ⟨fun s hw running => ⟨fun bad => ?_, fun h hh free => ?_⟩,
    fun s hw h p running hh hp => ⟨fun faulted => ?_, fun other => ?_⟩⟩
  all_goals unfold exec; refine State.request_answers running ?_
  · simp only [readHandle_of_lt bad]; rfl
  · simp only [readHandle_of_eq hh, free]; rfl
  · simp only [readHandle_of_eq hh, hp, faulted, ne_eq, not_true_eq_false, if_false]; rfl
  · simp only [readHandle_of_eq hh, hp, ne_eq, other, not_false_eq_true, if_true]; rfl

/-! ## Closing an entry (R7, R8, R38) -/

section
variable {s : State} {h : Fin 64} {p : Page} {n : Nat}

theorem Page.holds_eq_false_iff (p : Page) (k : Nat) : p.holds k = false ↔ ∀ g ∈ p.held, g.number ≠ k := by
  simp [Page.holds]

theorem Page.notHeld_eq (p : Page) (n : Nat) :
    p.notHeld n = (List.range n).filter fun k => decide (∀ g ∈ p.held, g.number ≠ k) := by
  refine List.filter_congr fun k _ => ?_
  rw [Bool.eq_iff_iff, Bool.not_eq_true', Page.holds_eq_false_iff, decide_eq_true_iff]

theorem Page.notHeld_isEmpty_iff (p : Page) (n : Nat) :
    (p.notHeld n).isEmpty = true ↔ ∀ k, k < n → ∃ g ∈ p.held, g.number = k := by
  rw [Page.notHeld_eq, List.isEmpty_iff, List.filter_eq_nil_iff]
  simp

/-- What is numbered N or more is not among the numbers below N that are not held. -/
theorem Page.closeAt_notHeld (p : Page) (n : Nat) (now : Seconds) : (p.closeAt n now).notHeld n = p.notHeld n := by
  rw [Page.notHeld_eq, Page.notHeld_eq]
  refine List.filter_congr fun k hk => ?_
  have low := List.mem_range.mp hk
  rw [Bool.eq_iff_iff, decide_eq_true_iff, decide_eq_true_iff]
  constructor
  · intro none g hg e
    exact none g (List.mem_filter.mpr ⟨hg, by simpa [e] using low⟩) e
  · intro none g hg
    exact none g (List.mem_filter.mp hg).1

theorem filter_not_lt (held : List Segment) (n : Nat) :
    held.filter (fun g => !decide (g.number < n)) = held.filter fun g => decide (n ≤ g.number) := by
  refine List.filter_congr fun g _ => ?_
  rw [Bool.eq_iff_iff, Bool.not_eq_true', decide_eq_false_iff_not, decide_eq_true_iff, Nat.not_lt]

/-- PAGE CLOSE of a RECEIVING entry is accepted with the N carried or with the entry's own (R7). -/
theorem exec_pageClose_accepted {hw nw : Word} (running : s.resetAsserted = false) (hh : hw.toNat = h.val)
    (hp : s.page h = some p) (receiving : p.state = .receiving) (low : 1 ≤ n) (high : n ≤ 4096)
    (carried : (numberCarried nw = some n ∧ (p.expected = none ∨ p.expected = some n)) ∨
      (numberCarried nw = none ∧ p.expected = some n)) :
    exec (.pageClose [hw, nw]) s = .next ((s.closePage h p n).1.setReply .feed (s.closePage h p n).2) := by
  unfold exec
  refine State.request_answers running ?_
  have inRange : ¬(n < 1 ∨ Config.maxSegments < n) := by simp only [Config.maxSegments]; omega
  simp only [readHandle_of_eq hh, hp, receiving, ne_eq, not_true_eq_false, if_false, readOpt_eq_numberCarried]
  rcases carried with ⟨e, own | own⟩ | ⟨e, own⟩
  · simp only [e, own, if_neg inRange]
  · simp only [e, own, not_true_eq_false, or_false, if_neg inRange]
  · simp only [e, own]

theorem exec_pageClose_refused {hw nw : Word} (running : s.resetAsserted = false) (hh : hw.toNat = h.val)
    (hp : s.page h = some p) (receiving : p.state = .receiving)
    (refused : nw ≠ 0xFFFF ∧ (nw.toNat < 1 ∨ 4096 < nw.toNat) ∨ nw = 0xFFFF ∧ p.expected = none ∨
      nw ≠ 0xFFFF ∧ ∃ m, p.expected = some m ∧ m ≠ nw.toNat) :
    exec (.pageClose [hw, nw]) s = .next (s.setReply .feed (Reply.bare .badValue)) := by
  unfold exec
  refine State.request_answers running ?_
  simp only [readHandle_of_eq hh, hp, receiving, ne_eq, not_true_eq_false, if_false, readOpt_eq_numberCarried]
  rcases refused with ⟨present, out⟩ | ⟨absent, none⟩ | ⟨present, m, own, other⟩
  · simp only [numberCarried, if_neg present]
    cases p.expected with
    | none => exact if_pos out
    | some m => exact if_pos (or_assoc.mp (.inl out))
  · simp only [numberCarried, if_pos absent, none]
  · simp only [numberCarried, if_neg present, own]
    exact if_pos (.inr (.inr (Ne.symm other)))

end

/-- Settles O20: the refusals in the order of R7, and the two states an accepted request moves the entry to. -/
theorem pageCloseMovesTheEntryOn : Obligations.PageCloseMovesTheEntryOn := by
  intro s hw nw running
  refine ⟨fun bad => ?_, fun h hh => ⟨fun free => ?_, fun p hp => ⟨fun other => ?_,
    fun receiving refused => exec_pageClose_refused running hh hp receiving refused,
    fun n receiving low high carried => ?_⟩⟩⟩
  · unfold exec
    refine State.request_answers running ?_
    simp only [readHandle_of_lt bad]; rfl
  · unfold exec
    refine State.request_answers running ?_
    simp only [readHandle_of_eq hh, free]; rfl
  · unfold exec
    refine State.request_answers running ?_
    simp only [readHandle_of_eq hh, hp, ne_eq, other, not_false_eq_true, if_true]; rfl
  · have accepted := exec_pageClose_accepted running hh hp receiving low high carried
    unfold State.closePage at accepted
    simp only [Page.closeAt_notHeld, filter_not_lt] at accepted
    refine ⟨_, accepted, ?_⟩
    split
    · next full =>
      rw [Page.notHeld_isEmpty_iff] at full
      refine ⟨fun k hk => State.page_setPage_of_ne _ _ hk, rfl, rfl, rfl, fun _ => ⟨State.page_setPage_self _ _ _, rfl, rfl⟩, ?_⟩
      rintro ⟨k, hk, lacks⟩
      obtain ⟨g, hg, e⟩ := full k hk
      exact absurd e (lacks g hg)
    · next lacking =>
      rw [Page.notHeld_isEmpty_iff] at lacking
      refine ⟨fun k hk => State.page_setPage_of_ne _ _ hk, rfl, rfl, rfl, fun full => absurd full lacking, fun _ => ?_⟩
      refine ⟨State.page_setPage_self _ _ _, rfl, ?_⟩
      rw [Page.notHeld_eq]
      rfl

end Sys2Proof.Machine
end

section
/-! The settings requests, FLUSH and the deadlines (spec/05, R90 to R95; spec/10, R186 to R189). -/

namespace Sys2Proof.Machine

open Sys2Proof

/-! ## The held flag (R107) -/

theorem State.holdLine_of_bad_line {s : State} {w : Word} (bad : 1 < w.toNat) (held : Bool) :
    s.holdLine [w] held = (s, Reply.bare .badValue) := by
  simp only [State.holdLine, Line.ofCode_of_lt bad]

theorem State.holdLine_of_line (s : State) (l : Line) (held : Bool) :
    s.holdLine [codeIn [Line.a, .b] l] held =
      (s.setChannel l { s.channel l with held }, Reply.ok [flagWord held, (s.channel l).stateAsRead]) := by
  simp only [State.holdLine, Line.ofCode_codeIn, Channel.stateCode_word]

theorem exec_lineHold {s t : State} {w : Word} {r : Reply} (running : s.resetAsserted = false)
    (e : s.holdLine [w] true = (t, r)) : exec (.lineHold [w]) s = .next (t.setReply .plan r) := by
  unfold exec
  exact State.request_answers running e

theorem exec_lineRelease {s t : State} {w : Word} {r : Reply} (running : s.resetAsserted = false)
    (e : s.holdLine [w] false = (t, r)) : exec (.lineRelease [w]) s = .next (t.setReply .plan r) := by
  unfold exec
  exact State.request_answers running e

/-- Settles O45: both requests write the flag in one way. -/
theorem lineHoldAndReleaseMoveTheHeldFlag : Obligations.LineHoldAndReleaseMoveTheHeldFlag := fun s running =>
  ⟨fun _ bad => ⟨exec_lineHold running (State.holdLine_of_bad_line bad true),
      exec_lineRelease running (State.holdLine_of_bad_line bad false)⟩,
    fun l => ⟨exec_lineHold running (s.holdLine_of_line l true), exec_lineRelease running (s.holdLine_of_line l false)⟩⟩

/-! ## LINK SET and GENERAL SET (R28, R187, R188) -/

theorem ArbMode.ofCode_of_lt {n : Nat} (e : 2 < n) : ArbMode.ofCode n = none := by
  unfold ArbMode.ofCode
  split
  · omega
  · omega
  · omega
  · rfl

theorem ArbMode.ofCode_codeIn (m : ArbMode) :
    ArbMode.ofCode (codeIn [ArbMode.fixed, .rotating, .leastFilled] m).toNat = some m := by cases m <;> rfl

theorem word_eq_zero_iff (w : Word) : w = 0 ↔ w.toNat = 0 := by
  rw [← BitVec.toNat_inj]; rfl

theorem map_toNat_map_word {ns : List Nat} (small : ∀ n ∈ ns, n ≤ 65535) : (ns.map word).map BitVec.toNat = ns := by
  rw [List.map_map]
  exact (List.map_congr_left fun n hn => toNat_word (small n hn)).trans (List.map_id _)

theorem readGeneralSet_refused {unit mode : Word} {entries : List Word} (length : entries.length = 16)
    (refused : unit = 0 ∨ 4095 < unit.toNat ∨ 2 < mode.toNat ∨ ∃ x ∈ entries, 255 < x.toNat) :
    readGeneralSet ([unit, mode] ++ entries) = some none := by
  refine (dif_pos length).trans (congrArg some ?_)
  split
  · next m hm =>
    refine if_pos ?_
    rw [List.any_eq_true]
    rcases refused with zero | high | bad | ⟨x, hx, bad⟩
    · exact .inl ((word_eq_zero_iff unit).mp zero)
    · exact .inr (.inl high)
    · rw [ArbMode.ofCode_of_lt bad] at hm
      cases hm
    · exact .inr (.inr ⟨x, hx, decide_eq_true bad⟩)
  · rfl

theorem readGeneralSet_accepted {unit : Nat} {mode : ArbMode} {table : Vector Nat 16} (low : 1 ≤ unit) (high : unit ≤ 4095)
    (entries : ∀ x ∈ table.toList, x ≤ 255) :
    readGeneralSet ([word unit, codeIn [ArbMode.fixed, .rotating, .leastFilled] mode] ++ table.toList.map word) =
      some (some { renderUnit := unit, mode := mode, table := table }) := by
  have unitRead : (word unit).toNat = unit := toNat_word (by omega)
  have tableRead : (table.toList.map word).map BitVec.toNat = table.toList :=
    map_toNat_map_word fun n hn => (entries n hn).trans (by omega)
  refine (dif_pos (by simp)).trans (congrArg some ?_)
  rw [ArbMode.ofCode_codeIn]
  refine (if_neg ?_).trans ?_
  · rw [unitRead, List.any_eq_true]
    rintro (zero | above | ⟨x, hx, bad⟩)
    · omega
    · omega
    · obtain ⟨n, hn, rfl⟩ := List.mem_map.mp hx
      have small := entries n hn
      rw [toNat_word (by omega), decide_eq_true_iff] at bad
      omega
  · change some (GeneralSettings.mk _ _ ⟨((table.toList.map word).map BitVec.toNat).toArray, _⟩) = _
    simp only [unitRead, tableRead]
    rfl

/-- Settles O35, by the fields each request reads. -/
theorem linkSetAndGeneralSetWriteTheirSettings : Obligations.LinkSetAndGeneralSetWriteTheirSettings := by
  refine fun s running => ⟨fun len hi lo fits => ?_, fun len hi lo bad => ?_, fun unit mode entries length refused => ?_,
    fun unit mode table low high entries => ?_⟩
  all_goals unfold exec; refine State.request_answers running ?_
  · refine (if_neg (Nat.not_lt.mpr fits)).trans ?_
    rw [word_toNat, words32_read32]
    rfl
  · exact if_pos bad
  · simp only [readGeneralSet_refused length refused]
    rfl
  · simp only [readGeneralSet_accepted low high entries, ArbMode.code_word]
    rfl

/-! ## FLUSH (R189) -/

/-- With the list empty and the lost count 0, no page live and no record live, nothing asks for attention. -/
theorem State.flushed_attention (s : State) (r : Reply) (p : Port) : (s.flushed.setReply .plan r).attention p = false := by
  have noRecord (l : Line) : (s.flushed.setReply .plan r).eligibleIds l = [] := by
    refine List.filter_eq_nil_iff.mpr fun i _ => ?_
    simp [State.flushed_plate]
  cases p with
  | feed => exact Bool.and_false _
  | plan => exact Bool.and_false _
  | imageA => simp [State.attention, State.attnLine, noRecord]
  | imageB => simp [State.attention, State.attnLine, noRecord]

theorem exec_flush_idle {s : State} (running : s.resetAsserted = false) (idleA : (s.channel .a).exposure = none)
    (idleB : (s.channel .b).exposure = none) :
    exec (.flush []) s = .next (s.flushed.setReply .plan (Reply.ok
      [word (handles.filter fun h => (s.page h).isSome).length, word (plateIds.filter fun i => (s.plate i).isSome).length,
        word s.incidents.length])) := by
  unfold exec
  refine State.request_answers running (if_neg ?_)
  rintro (h | h)
  · exact Option.isSome_iff_ne_none.mp h idleA
  · exact Option.isSome_iff_ne_none.mp h idleB

/-- Settles O60, by whether a channel holds a copy. -/
theorem flushEmptiesTheNightsWork : Obligations.FlushEmptiesTheNightsWork := by
  refine fun s running => ⟨fun idleA idleB => ?_, fun busy => ?_⟩
  · exact ⟨_, exec_flush_idle running idleA idleB, s.flushed_page, s.flushed_plate, rfl, rfl, rfl, rfl, rfl,
      Line.forall_iff.mpr ⟨rfl, rfl⟩, rfl, rfl, s.flushed_attention _, rfl, rfl⟩
  · unfold exec
    exact State.request_answers running (if_pos (busy.imp Option.isSome_iff_ne_none.mpr Option.isSome_iff_ne_none.mpr))

/-! ## The deadlines (R93 to R95) -/

/-- An edition entry after a deadline check at a time (R94). -/
def Edition.checked (x : Edition) (now : Seconds) : Edition :=
  { x with
    passed := x.passed ||
      match x.deadline with
      | some d => decide (d.toNat ≤ now.toNat)
      | none => false }

theorem Edition.checked_of_due {x : Edition} {now : Seconds} (h : x.due now = true) :
    x.checked now = { x with passed := true } := by
  obtain ⟨_ | d, sets, limit, wait, passed⟩ := x
  · simp [Edition.due] at h
  · have reached := (Bool.and_eq_true_iff.mp h).2
    simpa [Edition.checked] using Or.inr (of_decide_eq_true reached)

theorem Edition.checked_of_not_due {x : Edition} {now : Seconds} (h : x.due now = false) : x.checked now = x := by
  obtain ⟨_ | d, sets, limit, wait, passed⟩ := x
  · simp [Edition.checked]
  · cases passed
    · simpa [Edition.checked, Edition.due] using h
    · rfl

section
variable {s : State} {e f : Fin 16}

theorem State.expireDeadline_editions (s : State) (e : Fin 16) :
    (s.expireDeadline e).editions = s.editions.set e ((s.editions[e]).checked s.clock) := by
  unfold State.expireDeadline
  split
  · next due => rw [State.deadlineMissedAll_frame, Edition.checked_of_due due]
  · next notDue =>
    rw [Edition.checked_of_not_due (Bool.eq_false_iff.mpr notDue)]
    exact (Vector.set_getElem_self e.isLt).symm

theorem State.expireDeadline_editions_of_ne (s : State) (h : f ≠ e) :
    (s.expireDeadline e).editions[f] = s.editions[f] := by
  rw [State.expireDeadline_editions]
  exact Vector.getElem_set_ne e.isLt f.isLt fun he => h (Fin.ext he.symm)

theorem State.expireDeadline_editions_self (s : State) (e : Fin 16) :
    (s.expireDeadline e).editions[e] = (s.editions[e]).checked s.clock := by
  rw [State.expireDeadline_editions]
  exact Vector.getElem_set_self e.isLt

theorem State.expireDeadline_clock (s : State) (e : Fin 16) : (s.expireDeadline e).clock = s.clock := by
  rw [State.expireDeadline_frame]

/-- Which incidents a missed deadline makes depends on the records and the pages, which no expiry changes. -/
theorem State.expireDeadline_deadlinesMissed (s : State) (e f : Fin 16) (now : Seconds) :
    (s.expireDeadline e).deadlinesMissed now f = s.deadlinesMissed now f := by
  rw [State.expireDeadline_frame]; rfl

/-- A run of deadline checks over distinct editions: each is checked once. -/
theorem State.expireDeadlines_editions (es : List (Fin 16)) (once : es.Nodup) (s : State) (e : Fin 16) :
    (es.foldl State.expireDeadline s).editions[e] =
      if e ∈ es then (s.editions[e]).checked s.clock else s.editions[e] := by
  induction es generalizing s with
  | nil => rfl
  | cons f es ih =>
    obtain ⟨new, rest⟩ := List.nodup_cons.mp once
    rw [List.foldl_cons, ih rest, State.expireDeadline_clock]
    by_cases he : e = f
    · subst he
      rw [if_neg new, if_pos List.mem_cons_self, State.expireDeadline_editions_self]
    · simp only [State.expireDeadline_editions_of_ne s he, List.mem_cons, he, false_or]

/-- A run of deadline checks over distinct editions: the incidents of each deadline reached, in the order of the run. -/
theorem State.expireDeadlines_recordedAll (es : List (Fin 16)) (once : es.Nodup) (s : State) :
    s.recordedAll (es.foldl State.expireDeadline s) (es.flatMap fun e =>
      if (s.editions[e]).reached s.clock then s.deadlinesMissed s.clock e else []) := by
  induction es generalizing s with
  | nil => exact s.recordedAll_nil
  | cons f es ih =>
    obtain ⟨new, rest⟩ := List.nodup_cons.mp once
    refine (s.expireDeadline_recordedAll f).append ?_
    have later := ih rest (s.expireDeadline f)
    rw [State.expireDeadline_clock] at later
    refine cast (congrArg _ (List.flatMap_congr fun e he => ?_)) later
    rw [State.expireDeadline_editions_of_ne s (ne_of_mem_of_not_mem he new), State.expireDeadline_deadlinesMissed]

theorem State.deadlineCheck_editions (s : State) (e : Fin 16) :
    s.deadlineCheck.editions[e] = (s.editions[e]).checked s.clock :=
  (State.expireDeadlines_editions _ (List.nodup_finRange 16) s e).trans (if_pos (List.mem_finRange e))

theorem State.deadlineCheck_recordedAll (s : State) :
    s.recordedAll s.deadlineCheck ((List.finRange 16).flatMap fun e =>
      if (s.editions[e]).reached s.clock then s.deadlinesMissed s.clock e else []) :=
  State.expireDeadlines_recordedAll _ (List.nodup_finRange 16) s

theorem Edition.due_of {x : Edition} {now d : Seconds} (present : x.deadline = some d) (clear : x.passed = false)
    (le : d.toNat ≤ now.toNat) : x.due now = true := by
  simp [Edition.due, present, clear, le]

theorem Edition.reached_of {x : Edition} {now d : Seconds} (present : x.deadline = some d) (clear : x.passed = false)
    (le : d.toNat ≤ now.toNat) : x.reached now = true := by
  simp [Edition.reached, present, clear, le]

end

/-- Settles O41: the expiry of an edition's deadline, as every deadline check makes it. -/
theorem deadlineExpiryRaisesItsIncidents : Obligations.DeadlineExpiryRaisesItsIncidents := by
  intro s e d running present clear reached
  have expired : exec (.deadlineExpiry e) s = .next (s.expireDeadline e) := by
    unfold exec
    exact State.event_running s _ running
  have made := s.expireDeadline_recordedAll e
  rw [if_pos (Edition.reached_of present clear reached)] at made
  refine ⟨_, expired, ?_, made, s.expireDeadline_frame e⟩
  rw [State.expireDeadline_editions, Edition.checked_of_due (Edition.due_of present clear reached)]

/-- Settles O39: the clock is loaded, and then every deadline checked. -/
theorem clockSetLoadsTheClock : Obligations.ClockSetLoadsTheClock := by
  intro s hi lo running
  have answered : exec (.clockSet [hi, lo]) s =
      .next ({ s with clock := hi ++ lo }.deadlineCheck.setReply .plan (Reply.ok [hi, lo])) := by
    unfold exec
    refine State.request_answers running ?_
    simp only [words32_read32]
    rfl
  have editions := State.deadlineCheck_editions { s with clock := hi ++ lo }
  have made := State.deadlineCheck_recordedAll { s with clock := hi ++ lo }
  have frame := State.deadlineCheck_frame { s with clock := hi ++ lo }
  generalize { s with clock := hi ++ lo }.deadlineCheck = t at answered editions made frame
  refine ⟨_, answered, congrArg State.clock frame, editions, made, ?_, ?_⟩
  · rw [frame]; rfl
  · rw [frame]; rfl

end Sys2Proof.Machine
end

section
/-! EDITION SET and SCREEN LOAD (spec/05, R84, R85, R90, R91). -/

namespace Sys2Proof.Machine

open Sys2Proof

/-! ## EDITION SET (R90, R91) -/

theorem readEdition_word (e : Fin 16) : readEdition (word e.val).toNat = some e := by
  rw [toNat_word (by omega)]
  exact dif_pos e.isLt

theorem readSet_word (i : Fin 8) : readSet (word i.val).toNat = some i := by
  rw [toNat_word (by omega)]
  exact dif_pos i.isLt

theorem readEdition_of_lt {n : Nat} (h : 15 < n) : readEdition n = none := dif_neg (by omega)

theorem readSet_of_lt {n : Nat} (h : 7 < n) : readSet n = none := dif_neg (by omega)

section
variable {pr hi lo lim wt : Word}

theorem readEditionSet_accepted (e : Fin 16) (k c m y : Fin 8) (limit : lim.toNat ≤ 8) (wait : wt.toNat ≤ 3600) :
    readEditionSet [word e.val, pr, hi, lo, word k.val, word c.val, word m.val, word y.val, lim, wt] =
      some (some { edition := e, deadline := readOpt32 pr hi lo, sets := ⟨k, c, m, y⟩
                   remakeLimit := if lim.toNat = 0 then 8 else lim.toNat, resendWait := wt.toNat }) := by
  simp only [readEditionSet, readEdition_word, readSet_word]
  exact congrArg some (if_neg (by omega))

theorem readEditionSet_refused {en kw cw mw yw : Word}
    (refused : 15 < en.toNat ∨ 7 < kw.toNat ∨ 7 < cw.toNat ∨ 7 < mw.toNat ∨ 7 < yw.toNat ∨ 8 < lim.toNat ∨ 3600 < wt.toNat) :
    readEditionSet [en, pr, hi, lo, kw, cw, mw, yw, lim, wt] = some none := by
  refine congrArg some ?_
  split
  · next e k c m y he hk hc hm hy =>
    refine if_pos ?_
    rcases refused with bad | bad | bad | bad | bad | bad
    · exact absurd he (by rw [readEdition_of_lt bad]; nofun)
    · exact absurd hk (by rw [readSet_of_lt bad]; nofun)
    · exact absurd hc (by rw [readSet_of_lt bad]; nofun)
    · exact absurd hm (by rw [readSet_of_lt bad]; nofun)
    · exact absurd hy (by rw [readSet_of_lt bad]; nofun)
    · exact bad
  · rfl

end

section
variable (s : State) (f : EditionFields)

theorem State.setEdition_editions_self :
    (s.setEdition f).editions[f.edition] = (f.entry (s.editions[f.edition])).checked s.clock := by
  rw [State.setEdition, State.expireDeadline_editions_self]
  exact congrArg (Edition.checked · s.clock) (Vector.getElem_set_self f.edition.isLt)

theorem State.setEdition_editions_of_ne {e : Fin 16} (h : e ≠ f.edition) :
    (s.setEdition f).editions[e] = s.editions[e] := by
  rw [State.setEdition, State.expireDeadline_editions_of_ne _ h]
  exact Vector.getElem_set_ne f.edition.isLt e.isLt fun he => h (Fin.ext he.symm)

theorem State.setEdition_recordedAll :
    s.recordedAll (s.setEdition f)
      (if (f.entry (s.editions[f.edition])).reached s.clock then s.deadlinesMissed s.clock f.edition else []) := by
  have made := State.expireDeadline_recordedAll
    { s with editions := s.editions.set f.edition (f.entry s.editions[f.edition]) } f.edition
  have written : ({ s with editions := s.editions.set f.edition (f.entry s.editions[f.edition]) } : State).editions[f.edition] =
      f.entry (s.editions[f.edition]) := Vector.getElem_set_self f.edition.isLt
  rw [written] at made
  exact made

theorem State.setEdition_frame :
    s.setEdition f =
      { s with
        editions := (s.setEdition f).editions, incidents := (s.setEdition f).incidents, lost := (s.setEdition f).lost } :=
  State.expireDeadline_frame _ _

/-- The marker of an entry as written and then checked (R91, R94). -/
theorem EditionFields.entry_checked (old : Edition) (now : Seconds) :
    (f.entry old).checked now =
      { deadline := f.deadline, sets := f.sets, remakeLimit := f.remakeLimit, resendWait := f.resendWait
        passed := (decide (f.deadline = old.deadline) && old.passed) ||
          match f.deadline with
          | some x => decide (x.toNat ≤ now.toNat)
          | none => false } := by
  unfold Edition.checked EditionFields.entry
  by_cases same : f.deadline = old.deadline
  · rw [if_pos same, decide_eq_true same, Bool.true_and] <;> rfl
  · rw [if_neg same, decide_eq_false same, Bool.false_and] <;> rfl

/-- A deadline as written expires where it then stands passed, and did not already (R91). -/
theorem EditionFields.entry_reached_iff (old : Edition) (now : Seconds) :
    (f.entry old).reached now = true ↔
      ((f.entry old).checked now).passed = true ∧ ¬(f.deadline = old.deadline ∧ old.passed = true) := by
  rw [EditionFields.entry_checked]
  unfold Edition.reached EditionFields.entry
  obtain ⟨e, d, sets, limit, wait⟩ := f
  obtain ⟨d', sets', limit', wait', passed⟩ := old
  by_cases same : d = d'
  · subst same
    cases passed <;> cases d <;> simp
  · cases d <;> simp [same]

end

/-- Settles O37: the entry is written, and its deadline checked. -/
theorem editionSetWritesTheEntry : Obligations.EditionSetWritesTheEntry := by
  refine fun s e pr hi lo lim wt k c m y running => ⟨fun limit wait => ?_, fun en kw cw mw yw refused => ?_⟩
  · let f : EditionFields :=
      { edition := e, deadline := readOpt32 pr hi lo, sets := ⟨k, c, m, y⟩
        remakeLimit := if lim.toNat = 0 then 8 else lim.toNat, resendWait := wt.toNat }
    have answered : exec (.editionSet
        [word e.val, pr, hi, lo, word k.val, word c.val, word m.val, word y.val, lim, wt]) s =
        .next ((s.setEdition f).setReply .plan (Reply.ok ((s.setEdition f).editions[e]).words)) := by
      unfold exec
      refine State.request_answers running ?_
      simp only [readEditionSet_accepted e k c m y limit wait]
      rfl
    have written : (s.setEdition f).editions[e] = (f.entry (s.editions[e])).checked s.clock := s.setEdition_editions_self f
    have others (g : Fin 16) (h : g ≠ e) := s.setEdition_editions_of_ne f (e := g) h
    have made := s.setEdition_recordedAll f
    have frame := s.setEdition_frame f
    rw [Edition.words_eq_asRead] at answered
    generalize s.setEdition f = t at answered written others made frame
    refine ⟨_, _, ((f.entry (s.editions[e])).checked s.clock).passed, answered, rfl, ?_, ?_, others, ?_,
      ⟨Reply.ok (t.editions[e]).asRead, ?_, rfl, rfl⟩, ?_⟩
    · rw [EditionFields.entry_checked]; rfl
    · rw [State.setReply_editions, written, EditionFields.entry_checked]; rfl
    · simp only [EditionFields.entry_reached_iff] at made
      exact made
    · rw [State.replies_setReply, frame]
    · rw [frame]; rfl
  · unfold exec
    refine State.request_answers running ?_
    simp only [readEditionSet_refused refused]
    rfl

/-! ## SCREEN LOAD (R84, R85) -/

/-- The parameter words that carry a content for a set (R192). -/
def ScreenSet.loadWords (c : ScreenSet) (i : Fin 8) : List Word :=
  [word i.val] ++ c.knots.toList.map word ++
    [word c.floorF, word c.ceilG, word c.side, word c.yoff, word c.xoff, word c.xshift] ++ c.tile.map word

section
variable {c : ScreenSet} (i : Fin 8)

theorem ScreenSet.loadWords_set (c : ScreenSet) (i : Fin 8) : ((c.loadWords i).getD 0 0).toNat = i.val := by
  refine Eq.trans (congrArg BitVec.toNat ?_) (toNat_word (n := i.val) (by omega))
  rw [ScreenSet.loadWords, List.append_assoc, List.append_assoc, List.singleton_append, List.getD_cons_zero]

theorem ScreenSet.loadWords_knot (small : ∀ k ∈ c.knots.toList, k ≤ 4095) (k : Fin 17) :
    ((c.loadWords i).getD (1 + k.val) 0).toNat = c.knots[k] := by
  have mem : c.knots[k] ∈ c.knots.toList := Vector.mem_toList_iff.mpr (Vector.getElem_mem k.isLt)
  refine Eq.trans (congrArg BitVec.toNat ?_) (toNat_word (n := c.knots[k]) ((small _ mem).trans (by omega)))
  rw [ScreenSet.loadWords, List.append_assoc, List.append_assoc, List.singleton_append, Nat.add_comm,
    List.getD_cons_succ, List.getD_append _ _ _ _ (by simp), List.getD_eq_getElem _ _ (by simp)]
  simp

theorem ScreenSet.loadWords_field (c : ScreenSet) {k : Nat} (h : k < 6) : (c.loadWords i).getD (18 + k) 0 =
    [word c.floorF, word c.ceilG, word c.side, word c.yoff, word c.xoff, word c.xshift].getD k 0 := by
  have low : ([word i.val] ++ c.knots.toList.map word).length = 18 := by simp
  rw [ScreenSet.loadWords, List.append_assoc, List.getD_append_right _ _ _ _ (by omega), low, Nat.add_sub_cancel_left,
    List.getD_append _ _ _ _ h]

theorem ScreenSet.loadWords_tile (small : ∀ t ∈ c.tile, t ≤ 4095) :
    ((c.loadWords i).drop 24).map BitVec.toNat = c.tile := by
  rw [ScreenSet.loadWords, List.drop_left' (by simp), map_toNat_map_word fun t ht => (small t ht).trans (by omega)]

theorem ScreenSet.loadWords_length (c : ScreenSet) : (c.loadWords i).length = 24 + c.tile.length := by
  simp [ScreenSet.loadWords]
  omega

theorem ScreenSet.loadable.side_le (h : c.loadable) : c.side ≤ 32 := by
  obtain ⟨hside, -⟩ := h
  simp only [tileSides, List.mem_cons, List.not_mem_nil, or_false] at hside
  omega

/-- A content that passes the checks is read back as it stands. -/
theorem readScreenLoad_loadWords (h : c.loadable) :
    readScreenLoad (c.loadWords i) = some { set := i.val, content := c, valid := true } := by
  have sideSmall := h.side_le
  obtain ⟨hside, htile, hy, hx, hs, hf, hg, hg', hknots, hts⟩ := h
  have field (k : Nat) (hk : k < 6) {n : Nat} (small : n ≤ 65535)
      (e : [word c.floorF, word c.ceilG, word c.side, word c.yoff, word c.xoff, word c.xshift].getD k 0 = word n) :
      ((c.loadWords i).getD (18 + k) 0).toNat = n := by
    rw [c.loadWords_field i hk, e, toNat_word small]
  have floorF := field 0 (by omega) (n := c.floorF) (by omega) rfl
  have ceilG := field 1 (by omega) (n := c.ceilG) (by omega) rfl
  have side := field 2 (by omega) (n := c.side) (by omega) rfl
  have yoff := field 3 (by omega) (n := c.yoff) (by omega) rfl
  have xoff := field 4 (by omega) (n := c.xoff) (by omega) rfl
  have xshift := field 5 (by omega) (n := c.xshift) (by omega) rfl
  have knots : (Vector.ofFn fun k : Fin 17 => ((c.loadWords i).getD (1 + k.val) 0).toNat) = c.knots := by
    ext k hk
    rw [Vector.getElem_ofFn]
    exact ScreenSet.loadWords_knot i hknots ⟨k, hk⟩
  have length : (c.loadWords i).length = 24 + c.side * c.side := htile ▸ c.loadWords_length i
  simp only [readScreenLoad, floorF, ceilG, side, yoff, xoff, xshift, c.loadWords_set i, ScreenSet.loadWords_tile i hts,
    knots, length, if_pos hside, if_true]
  have valid : (decide (i.val < 8) && tileSides.contains c.side && decide (c.yoff < c.side) && decide (c.xoff < c.side) &&
      decide (c.xshift < c.side) && decide (c.floorF ≤ 2047) && decide (2048 ≤ c.ceilG) && decide (c.ceilG ≤ 4095) &&
      c.knots.toList.all (fun k => decide (k ≤ 4095)) && c.tile.all fun t => decide (t ≤ 4095)) = true := by
    simp only [Bool.and_eq_true, decide_eq_true_iff, List.contains_iff_mem, List.all_eq_true]
    exact ⟨⟨⟨⟨⟨⟨⟨⟨⟨i.isLt, hside⟩, hy⟩, hx⟩, hs⟩, hf⟩, hg⟩, hg'⟩, hknots⟩, hts⟩
  rw [valid]

end

/-- Settles O38, by the words as read and whether a channel holds the set. -/
theorem screenLoadReplacesAnUnusedSet : Obligations.ScreenLoadReplacesAnUnusedSet := by
  refine ⟨fun s ws running refused => ?_, fun s i c ws running loadable words => ?_⟩
  · obtain ⟨x, read, invalid⟩ := readScreenLoad_of_refused refused
    unfold exec
    refine State.request_answers running ?_
    simp only [read, invalid]
    rfl
  · obtain rfl : ws = c.loadWords i := words
    have chosen : readSet i.val = some i := dif_pos i.isLt
    constructor
    all_goals
      intro use
      unfold exec
      refine State.request_answers running ?_
      simp only [readScreenLoad_loadWords i loadable, if_true, chosen]
    · rw [if_neg (by omega), ← use]
      rfl
    · rw [if_pos use]
      rfl

end Sys2Proof.Machine
end

section
/-! The composition of patches (spec/04), the held list and the resend wait (spec/02), and the queue order (spec/06). -/

namespace Sys2Proof.Machine

open Sys2Proof

/-! ## The patches over a dot (R75) -/

section
variable {p : Page} {sp : Sep} {screens : Vector ScreenSlot 8} {mapped : Fin 8} {x y : Nat}

/-- Where every patch that covers a dot is OVERPRINT, the dot keeps the ink it has and takes theirs (R74). -/
theorem Page.overprints_iff {patches : List Patch} (overprints : ∀ u ∈ patches, u.head.covers x y = true → u.head.mode = .overprint)
    (line : Bool) : patches.foldl (p.composite sp screens mapped x y) line = true ↔
      line = true ∨ ∃ u ∈ patches, u.head.covers x y = true ∧ p.screened sp screens mapped u x y = true := by
  induction patches generalizing line with
  | nil => simp
  | cons u us ih =>
    obtain ⟨first, rest⟩ := List.forall_mem_cons.mp overprints
    rw [List.foldl_cons, ih rest]
    simp only [List.mem_cons, exists_eq_or_imp]
    by_cases covers : u.head.covers x y = true
    · rw [Page.composite_of_overprint covers (first covers), Bool.or_eq_true]
      simp only [covers, true_and, or_assoc]
    · rw [Page.composite_of_not_covers (Bool.eq_false_iff.mpr covers)]
      simp only [covers, false_and, false_or, Bool.false_eq_true]

end

/-- Settles O34: a KNOCKOUT patch starts the composite afresh, and OVERPRINT patches add to it. -/
theorem lastKnockoutDecidesTheDot : Obligations.LastKnockoutDecidesTheDot := by
  refine fun p sp screens mapped x y line => ⟨fun before after q patches covers knockout overprints => ?_,
    fun overprints => Page.overprints_iff overprints line⟩
  rw [Page.dot, patches, List.foldl_append, List.foldl_cons, Page.composite_of_knockout covers knockout,
    Page.overprints_iff overprints]

/-! ## The held list (R24) -/

theorem mem_insertSegment (g x : Segment) (gs : List Segment) : x ∈ insertSegment g gs ↔ x = g ∨ x ∈ gs := by
  induction gs with
  | nil => simp [insertSegment]
  | cons y ys ih =>
    unfold insertSegment
    split
    · rw [List.mem_cons]
    · rw [List.mem_cons, ih, List.mem_cons, or_left_comm]

theorem insertSegment_ascending (g : Segment) {gs : List Segment} (ascending : gs.Pairwise fun x y => x.number < y.number)
    (new : ∀ x ∈ gs, x.number ≠ g.number) : (insertSegment g gs).Pairwise fun x y => x.number < y.number := by
  induction gs with
  | nil => exact List.pairwise_singleton _ _
  | cons y ys ih =>
    obtain ⟨least, rest⟩ := List.pairwise_cons.mp ascending
    obtain ⟨notFirst, notRest⟩ := List.forall_mem_cons.mp new
    unfold insertSegment
    split
    · next before =>
      refine List.pairwise_cons.mpr ⟨fun x hx => ?_, ascending⟩
      rcases List.mem_cons.mp hx with rfl | later
      · exact before
      · exact before.trans (least x later)
    · next notBefore =>
      refine List.pairwise_cons.mpr ⟨fun x hx => ?_, ih rest notRest⟩
      rcases (mem_insertSegment g x ys).mp hx with rfl | later
      · omega
      · exact least x later

/-- Settles O27, by induction on the held list. -/
theorem heldSegmentsStayInAscendingOrder : Obligations.HeldSegmentsStayInAscendingOrder :=
  fun g gs ascending new => ⟨insertSegment_ascending g ascending new, fun x => mem_insertSegment g x gs⟩

/-! ## The resend wait (R39) -/

theorem Page.notHeld_head? {p : Page} {n m : Nat} (low : m < n) (lacks : ∀ g ∈ p.held, g.number ≠ m)
    (held : ∀ k, k < m → ∃ g ∈ p.held, g.number = k) : (p.notHeld n).head? = some m := by
  rw [Page.notHeld_eq, List.head?_filter, List.find?_range_eq_some]
  refine ⟨decide_eq_true lacks, List.mem_range.mpr low, fun k hk => ?_⟩
  obtain ⟨g, hg, e⟩ := held k hk
  simpa using ⟨g, hg, e⟩

theorem State.expireResend_of_due {s : State} {h : Fin 64} {p : Page} {x : ResendTimer} (hp : s.page h = some p)
    (waiting : p.state = .waiting) (timer : p.timer = some x) (due : x.wait ≤ x.count) :
    s.expireResend h = (s.setPage h (some { p with timer := none })).raise
      { kind := .pageIncomplete, time := s.clock, label := some p.label, version := some p.version, handle := some h
        segment := (p.notHeld (p.expected.getD 0)).head?, disposition := .resendNeeded } := by
  simp only [State.expireResend, hp, timer, if_pos (And.intro waiting due)]

/-- Settles O28: the expiry is due, and the lowest number lacking is the one named. -/
theorem resendWaitExpiryRaisesPageIncomplete : Obligations.ResendWaitExpiryRaisesPageIncomplete := by
  intro s h p x n m running hp waiting timer due expected low lacks held
  have expired : exec (.resendWaitExpiry h) s = .next (s.expireResend h) := by
    unfold exec
    exact State.event_running s _ running
  have first : (p.notHeld (p.expected.getD 0)).head? = some m := by
    rw [expected]
    exact Page.notHeld_head? low lacks held
  rw [State.expireResend_of_due hp waiting timer due, first] at expired
  refine ⟨_, expired, ?_, fun k hk => ?_, State.raise_recorded (s.setPage h (some { p with timer := none })) _, ?_⟩
  · rw [State.raise_frame]
    exact State.page_setPage_self s h _
  · rw [State.raise_frame]
    exact State.page_setPage_of_ne s _ hk
  · rw [State.raise_frame]
    rfl

/-! ## The queue order and eligibility (R105, R106, R108) -/

section
variable {s : State}

/-- The queue order as a lexicographic order of four numbers. -/
theorem State.before_iff_keys (s : State) (i j : Fin 128) (r q : Plate) : s.before i r j q = true ↔
    s.deadlineKey r < s.deadlineKey q ∨ s.deadlineKey r = s.deadlineKey q ∧
      ((!r.remake).toNat < (!q.remake).toNat ∨ (!r.remake).toNat = (!q.remake).toNat ∧
        (r.arrival.toNat < q.arrival.toNat ∨ r.arrival.toNat = q.arrival.toNat ∧ i.val < j.val)) := by
  unfold State.before
  by_cases deadline : s.deadlineKey r = s.deadlineKey q
  · by_cases remake : r.remake = q.remake
    · by_cases arrival : r.arrival = q.arrival
      · simp [deadline, remake, arrival]
      · have differ : r.arrival.toNat ≠ q.arrival.toNat := fun e => arrival (BitVec.eq_of_toNat_eq e)
        simp [deadline, remake, arrival, differ]
    · cases hr : r.remake <;> cases hq : q.remake <;> simp_all
  · simp only [ne_eq, deadline, not_false_eq_true, if_true, decide_eq_true_iff, false_and, or_false]

theorem State.before_total {i j : Fin 128} (h : i ≠ j) (r q : Plate) :
    s.before i r j q = true ↔ s.before j q i r = false := by
  have ids : i.val ≠ j.val := fun e => h (Fin.ext e)
  rw [← Bool.not_eq_true, State.before_iff_keys, State.before_iff_keys]
  omega

theorem State.before_trans {i j k : Fin 128} {r q u : Plate} (h : s.before i r j q = true) (g : s.before j q k u = true) :
    s.before i r k u = true := by
  rw [State.before_iff_keys] at h g ⊢
  omega

theorem State.deadlineKey_lt_iff (s : State) (r q : Plate) : s.deadlineKey r < s.deadlineKey q ↔
    match (s.editionOf r.label).deadline, (s.editionOf q.label).deadline with
    | some x, some y => x.toNat < y.toNat
    | some _, none => True
    | none, _ => False := by
  unfold State.deadlineKey
  cases (s.editionOf r.label).deadline <;> cases (s.editionOf q.label).deadline <;> simp <;> omega

theorem State.deadlineKey_eq_iff (s : State) (r q : Plate) :
    s.deadlineKey r = s.deadlineKey q ↔ (s.editionOf r.label).deadline = (s.editionOf q.label).deadline := by
  unfold State.deadlineKey
  cases (s.editionOf r.label).deadline <;> cases (s.editionOf q.label).deadline <;> simp [← BitVec.toNat_inj] <;> omega

theorem LineChoice.allows_iff (x : LineChoice) (l : Line) :
    x.allows l = true ↔ x = .either ∨ x = .a ∧ l = .a ∨ x = .b ∧ l = .b := by
  cases x <;> cases l <;> decide

theorem State.eligible_iff (s : State) (r : Plate) (l : Line) : s.eligible r l = true ↔
    (r.channel = none ∧ 0 < r.toExpose) ∧ (r.choice = .either ∨ r.choice = .a ∧ l = .a ∨ r.choice = .b ∧ l = .b) ∧
      ∃ (h : Fin 64) (p : Page), r.page = some h ∧ s.page h = some p ∧ p.state = .complete := by
  rw [← LineChoice.allows_iff, show (r.channel = none ∧ 0 < r.toExpose) ↔ r.derived = .waiting from (Plate.derived_waits r).symm]
  unfold State.eligible
  cases r.page with
  | none => simp
  | some h => cases hp : s.page h <;> simp [hp, and_assoc]

theorem State.mem_eligibleIds (l : Line) (i : Fin 128) :
    i ∈ s.eligibleIds l ↔ ∃ r, s.plate i = some r ∧ s.eligible r l = true := by
  unfold State.eligibleIds
  rw [List.mem_filter]
  cases hr : s.plate i <;> simp [plateIds]

/-- The candidate is the first, in queue order, of the live records looked at so far. -/
def State.leads (s : State) (seen : List (Fin 128)) : Option (Fin 128) → Prop
  | none => seen = []
  | some i => i ∈ seen ∧ ∃ r, s.plate i = some r ∧
      ∀ j ∈ seen, j ≠ i → ∀ q, s.plate j = some q → s.before i r j q = true

theorem State.firstOf_leads {seen : List (Fin 128)} {best : Option (Fin 128)} {i : Fin 128} {r : Plate}
    (h : s.leads seen best) (hr : s.plate i = some r) : s.leads (seen ++ [i]) (s.firstOf best i) := by
  cases best with
  | none =>
    obtain rfl : seen = [] := h
    have first : s.firstOf none i = some i := by simp [State.firstOf, hr]
    rw [first]
    exact ⟨List.mem_singleton_self i, r, hr, fun j hj ne => absurd (List.mem_singleton.mp hj) ne⟩
  | some k =>
    obtain ⟨mem, u, hu, first⟩ := h
    have compare : s.firstOf (some k) i = if s.before i r k u then some i else some k := by simp [State.firstOf, hr, hu]
    rw [compare]
    split
    · next before =>
      refine ⟨by simp, r, hr, fun j hj ne q hq => ?_⟩
      rcases List.mem_append.mp hj with old | new
      · by_cases e : j = k
        · subst e
          obtain rfl : u = q := Option.some.inj (hu.symm.trans hq)
          exact before
        · exact State.before_trans before (first j old e q hq)
      · exact absurd (List.mem_singleton.mp new) ne
    · next notBefore =>
      refine ⟨by simp [mem], u, hu, fun j hj ne q hq => ?_⟩
      rcases List.mem_append.mp hj with old | new
      · exact first j old ne q hq
      · obtain rfl := List.mem_singleton.mp new
        obtain rfl : r = q := Option.some.inj (hr.symm.trans hq)
        exact (State.before_total ne.symm u r).mpr (Bool.eq_false_iff.mpr notBefore)

theorem State.firstOf_foldl_leads {ids seen : List (Fin 128)} {best : Option (Fin 128)} (h : s.leads seen best)
    (live : ∀ i ∈ ids, ∃ r, s.plate i = some r) : s.leads (seen ++ ids) (ids.foldl s.firstOf best) := by
  induction ids generalizing seen best with
  | nil => simpa using h
  | cons i ids ih =>
    obtain ⟨⟨r, hr⟩, rest⟩ := List.forall_mem_cons.mp live
    have step := ih (State.firstOf_leads h hr) rest
    rwa [List.append_assoc, List.singleton_append] at step

theorem State.firstEligible_leads (s : State) (l : Line) : s.leads (s.eligibleIds l) (s.firstEligible l) :=
  State.firstOf_foldl_leads (seen := []) (best := none) rfl fun i hi => by
    obtain ⟨r, hr, -⟩ := (State.mem_eligibleIds l i).mp hi
    exact ⟨r, hr⟩

theorem State.eligibleIds_eq_nil_iff (l : Line) :
    s.eligibleIds l = [] ↔ ∀ i r, s.plate i = some r → s.eligible r l = false := by
  rw [List.eq_nil_iff_forall_not_mem]
  simp only [State.mem_eligibleIds, not_exists, not_and, Bool.not_eq_true]

theorem State.firstEligible_eq_none_iff (l : Line) :
    s.firstEligible l = none ↔ ∀ i r, s.plate i = some r → s.eligible r l = false := by
  rw [← State.eligibleIds_eq_nil_iff]
  have leads := s.firstEligible_leads l
  cases e : s.firstEligible l with
  | none =>
    rw [e] at leads
    exact iff_of_true rfl leads
  | some i =>
    rw [e] at leads
    exact iff_of_false nofun (List.ne_nil_of_mem leads.1)

theorem State.attention_line (l : Line) : s.attention l.imagePort = s.attnLine l := by cases l <;> rfl

end

/-- Settles O44: the order is lexicographic in four numbers, and the dispatcher's fold keeps the first so far. -/
theorem dispatcherTakesTheFirstEligibleRecord : Obligations.DispatcherTakesTheFirstEligibleRecord := by
  refine fun s => ⟨fun i j r q ne => State.before_total ne r q, fun i j k r q u => State.before_trans, ?_, s.eligible_iff,
    fun l => ⟨State.firstEligible_eq_none_iff l, fun i first => ?_, fun running => ?_⟩⟩
  · rintro i j r q d e rfl rfl
    rw [State.before_iff_keys, State.deadlineKey_lt_iff, State.deadlineKey_eq_iff, Fin.lt_def, BitVec.toNat_inj]
    cases r.remake <;> cases q.remake <;> simp <;> rfl
  · have leads := s.firstEligible_leads l
    rw [first] at leads
    obtain ⟨mem, r, hr, before⟩ := leads
    exact ⟨r, hr, s.firstEligible_eligible first hr, fun j q hq eligible ne =>
      before j ((State.mem_eligibleIds l j).mpr ⟨q, hq, eligible⟩) ne q hq⟩
  · rw [State.attention_line, State.attnLine, running]
    simp only [Bool.not_false, Bool.true_and, Bool.and_eq_true, Bool.not_eq_true', Option.isNone_iff_eq_none, and_assoc,
      ← Bool.not_eq_true, List.isEmpty_iff, List.eq_nil_iff_forall_not_mem, State.mem_eligibleIds, not_forall, not_not]

end Sys2Proof.Machine
end

section
/-! The reads (spec/01, R21; spec/02, R36 and R37; spec/05, R93; spec/06, R116; spec/09, R171). -/

namespace Sys2Proof.Machine

open Sys2Proof

/-! ## PAGE READ (R21) -/

section
variable {s : State} (port : ReadPort)

theorem State.readPage_of_free {h : Fin 64} (free : s.page h = none) : s.readPage (some h) = Reply.bare .noPage := by
  simp only [State.readPage, Option.bind_some, free, Option.map_none]

theorem State.readPage_of_live {h : Fin 64} {p : Page} (hp : s.page h = some p) :
    s.readPage (some h) = Reply.ok (p.asRead h) := by
  simp only [State.readPage, Option.bind_some, hp, Option.map_some, Page.words_eq_asRead]

theorem exec_pageRead_handle {hw : Word} {h : Fin 64} (running : s.resetAsserted = false) (hh : hw.toNat = h.val) :
    exec (.pageRead port [hw]) s = .next (s.setReply port.port (s.readPage (some h))) := by
  unfold exec
  refine State.request_answers running ?_
  simp only [readHandle_of_eq hh]

theorem exec_pageRead_label {l0 l1 : Word} {l : Label} (running : s.resetAsserted = false) (carried : labelCarried l0 l1 l) :
    exec (.pageRead port [l0, l1]) s = .next (s.setReply port.port (s.readPage (s.currentEntry l))) := by
  unfold exec
  refine State.request_answers running ?_
  simp only [(readLabel_eq_some_iff l0 l1 l).mpr carried]

theorem exec_pageRead_bad_handle {hw : Word} (running : s.resetAsserted = false) (bad : 63 < hw.toNat) :
    exec (.pageRead port [hw]) s = .next (s.setReply port.port (Reply.bare .badValue)) := by
  unfold exec
  refine State.request_answers running ?_
  simp only [readHandle_of_lt bad]

theorem exec_pageRead_bad_label {l0 l1 : Word} (running : s.resetAsserted = false) (bad : badLabel l0 l1) :
    exec (.pageRead port [l0, l1]) s = .next (s.setReply port.port (Reply.bare .badValue)) := by
  unfold exec
  refine State.request_answers running ?_
  simp only [(readLabel_eq_none_iff l0 l1).mpr bad]

end

/-! ## The other reads of lists and the clock (R37, R93, R171) -/

section
variable {s : State}

theorem exec_incidentRead (port : ReadPort) (n : Word) (running : s.resetAsserted = false) :
    exec (.incidentRead port [n]) s = .next (s.setReply port.port (Reply.ok
      ([word s.incidents.length, word s.lost, word ((s.incidents.drop n.toNat).take 8).length] ++
        ((s.incidents.drop n.toNat).take 8).flatMap Incident.asRead))) := by
  unfold exec
  refine State.request_answers running ?_
  simp only [State.readIncidents, funext Incident.words_eq_asRead]

theorem exec_resendList (hi lo : Word) (running : s.resetAsserted = false) :
    exec (.resendList [hi, lo]) s = .next (s.setReply .feed (Reply.ok
      ([word (s.resendView.length / 65536), word s.resendView.length, word s.freeCells] ++
        ((s.resendView.drop (hi ++ lo).toNat).take 64).flatMap fun x => x.1.asRead ++ [word x.2]))) := by
  unfold exec
  exact State.request_answers running rfl

theorem exec_clockRead (running : s.resetAsserted = false) :
    exec (.clockRead []) s = .next (s.setReply .plan (Reply.ok (asRead32 s.clock))) := by
  unfold exec
  refine State.request_answers running ?_
  simp only [words32_toNat]

end

/-! ## The resend view (R36) -/

section
variable {s : State}

theorem Page.mem_resendNeeds (p : Page) (n : Nat) : n ∈ p.resendNeeds ↔
    p.state = .waiting ∧ n < p.expected.getD 0 ∧ (∀ g ∈ p.held, g.number ≠ n) ∨ p.state = .receiving ∧ n ∈ p.damaged := by
  unfold Page.resendNeeds
  cases p.state <;> simp [Page.notHeld_eq]

theorem State.resendView_eq (s : State) : s.resendView = s.openOrder.flatMap fun h =>
    match s.page h with
    | some p =>
      (match p.state with
        | .waiting => (List.range (p.expected.getD 0)).filter fun n => decide (∀ g ∈ p.held, g.number ≠ n)
        | .receiving => p.damaged
        | _ => []).map fun n => (p.label, n)
    | none => [] := by
  refine List.flatMap_congr fun h _ => ?_
  cases s.page h with
  | none => rfl
  | some p =>
    refine congrArg (List.map fun n => (p.label, n)) ?_
    unfold Page.resendNeeds
    cases p.state with
    | waiting => exact p.notHeld_eq _
    | _ => rfl

theorem State.mem_resendView (listed : ∀ h, h ∈ s.openOrder ↔ (s.page h).isSome = true) (l : Label) (n : Nat) :
    (l, n) ∈ s.resendView ↔ ∃ (h : Fin 64) (p : Page), s.page h = some p ∧ p.label = l ∧ n ∈ p.resendNeeds := by
  unfold State.resendView
  rw [List.mem_flatMap]
  refine exists_congr fun h => ?_
  rw [listed h]
  cases s.page h with
  | none => simp
  | some p => simp [and_comm]

theorem State.attention_feed_iff (running : s.resetAsserted = false) : s.attention .feed = true ↔ s.resendView ≠ [] := by
  simp [State.attention, State.attnFeed, running]

end

/-! ## PLATE READ (R116) -/

theorem readPlateId_of_eq {n : Nat} {i : Fin 128} (e : n = i.val) : readPlateId n = some i := by
  subst e; exact dif_pos i.isLt

theorem readPlateId_of_lt {n : Nat} (e : 127 < n) : readPlateId n = none := dif_neg (by omega)

theorem twoOfCode_of_lt {n : Nat} (e : 1 < n) : twoOfCode n = none := by
  unfold twoOfCode
  split
  · omega
  · omega
  · rfl

section
variable {s : State} {i : Fin 128}

theorem State.plateFor_exact_of_free (free : s.plate i = none) : s.plateFor i false = none := by
  simp [State.plateFor, free]

theorem State.plateFor_exact_of_live {r : Plate} (hr : s.plate i = some r) : s.plateFor i false = some i := by
  simp [State.plateFor, hr]

theorem State.plateFor_next_of_none (none : ∀ k, i ≤ k → s.plate k = none) : s.plateFor i true = .none := by
  refine List.find?_eq_none.mpr fun k _ => ?_
  simp only [Bool.and_eq_true, decide_eq_true_iff, not_and]
  intro le
  simp [none k le]

theorem State.plateFor_next_of_first {j : Fin 128} {r : Plate} (le : i ≤ j) (hr : s.plate j = some r)
    (first : ∀ k, i ≤ k → k < j → s.plate k = none) : s.plateFor i true = some j := by
  refine List.find?_eq_some_iff_getElem.mpr ⟨?_, j.val, by simp [plateIds], by simp [plateIds], fun k hk => ?_⟩
  · simp [hr, Fin.le_def.mp le]
  · by_cases below : i.val ≤ k
    · have free := first ⟨k, by omega⟩ below hk
      simp [plateIds, free]
    · simp [plateIds, below]

theorem exec_plateRead_refused {iw mw : Word} (running : s.resetAsserted = false) (bad : 127 < iw.toNat ∨ 1 < mw.toNat) :
    exec (.plateRead [iw, mw]) s = .next (s.setReply .plan (Reply.bare .badValue)) := by
  unfold exec
  refine State.request_answers running ?_
  rcases bad with badId | badMode
  · simp only [readPlateId_of_lt badId]
  · simp only [twoOfCode_of_lt badMode]
    cases readPlateId iw.toNat <;> rfl

theorem exec_plateRead_none {iw mw : Word} {next : Bool} (running : s.resetAsserted = false) (hi : iw.toNat = i.val)
    (mode : twoOfCode mw.toNat = some next) (none : s.plateFor i next = .none) :
    exec (.plateRead [iw, mw]) s = .next (s.setReply .plan (Reply.bare .noPage)) := by
  unfold exec
  refine State.request_answers running ?_
  simp only [readPlateId_of_eq hi, mode, none, Option.bind_none]

theorem exec_plateRead_some {iw mw : Word} {next : Bool} {j : Fin 128} {r : Plate} (running : s.resetAsserted = false)
    (hi : iw.toNat = i.val) (mode : twoOfCode mw.toNat = some next) (found : s.plateFor i next = some j)
    (hr : s.plate j = some r) :
    exec (.plateRead [iw, mw]) s = .next (s.setReply .plan (Reply.ok (s.plateAsRead j r))) := by
  unfold exec
  refine State.request_answers running ?_
  simp only [readPlateId_of_eq hi, mode, found, Option.bind_some, hr, Option.map_some, State.plateWords_eq_asRead]

end

/-- Settles O23: each read is the state's own words, and a refusal names what is missing. -/
theorem readsReportAndChangeNothing : Obligations.ReadsReportAndChangeNothing := by
  refine fun s running => ⟨fun port hw => ⟨exec_pageRead_bad_handle port running, fun h hh => ⟨fun free => ?_, fun p hp => ?_⟩⟩,
    fun port l0 l1 => ⟨exec_pageRead_bad_label port running, fun l carried => ⟨fun none => ?_, fun h p current hp => ?_⟩⟩,
    fun port n => exec_incidentRead port n running, fun hi lo => exec_resendList hi lo running, s.resendView_eq,
    fun listed l n => ?_, State.attention_feed_iff running, exec_clockRead running,
    fun iw mw bad => exec_plateRead_refused running bad, fun iw i hi => ⟨fun free => ?_, fun r hr => ?_, fun none => ?_,
      fun j r le hr first => ?_⟩⟩
  · rw [exec_pageRead_handle port running hh, State.readPage_of_free free]; rfl
  · rw [exec_pageRead_handle port running hh, State.readPage_of_live hp]; rfl
  · rw [exec_pageRead_label port running carried, State.currentEntry_of_noCurrent none]; rfl
  · rw [exec_pageRead_label port running carried, State.currentEntry_of_isCurrent current, State.readPage_of_live hp]; rfl
  · simp only [State.mem_resendView listed, Page.mem_resendNeeds]
  · exact exec_plateRead_none running hi rfl (State.plateFor_exact_of_free free)
  · exact exec_plateRead_some running hi rfl (State.plateFor_exact_of_live hr) hr
  · exact exec_plateRead_none running hi rfl (State.plateFor_next_of_none none)
  · exact exec_plateRead_some running hi rfl (State.plateFor_next_of_first le hr first) hr

end Sys2Proof.Machine
end

section
/-! Segment intake (spec/02): the tests of R31 in their order, the damaged segment, the stored one and the link check. -/

namespace Sys2Proof.Machine

open Sys2Proof

/-! ## The tests of a SEGMENT (R27, R31) -/

theorem SegKind.ofCode_eq (n : Nat) : SegKind.ofCode n = [SegKind.line, .patchHead, .patchData][n]? := by
  match n with
  | 0 | 1 | 2 => rfl
  | _ + 3 => rfl

theorem Sep.ofCode_eq (n : Nat) : Sep.ofCode n = sepList[n]? := by
  match n with
  | 0 | 1 | 2 | 3 => rfl
  | _ + 4 => rfl

section
variable {s : State} {ws : List Word} {f : SegmentFrame}

theorem exec_segment {t : State} {r : Reply} (running : s.resetAsserted = false) (short : ws.length ≤ 8206)
    (carried : f.carriedIn ws) (e : s.intake f = (t, r)) : exec (.segment ws) s = .next (t.setReply .feed r) := by
  unfold exec
  refine State.request_answers running ((if_neg (Nat.not_lt.mpr short)).trans ?_)
  simp only [(readSegment_eq_some_iff ws f).mpr carried, e]

theorem State.intake_of_no_page
    (none : 63 < f.handle ∨ ∃ h : Fin 64, h.val = f.handle ∧ (s.page h).map Page.state ∈ [none, some .superseded]) :
    s.intake f = (s, Reply.bare .noPage) := by
  rcases none with high | ⟨h, hh, absent⟩
  · simp only [State.intake, readHandle_of_lt high]
  · simp only [State.intake, readHandle_of_eq hh.symm]
    cases hp : s.page h with
    | none => rfl
    | some p =>
      rw [hp] at absent
      exact if_pos (by simpa using absent)

end

section
variable {s : State} {f : SegmentFrame} {h : Fin 64} {p : Page}

/-- The answer of a SEGMENT that passes test 2, with the state it leaves (R34). -/
def State.segmentAnswer (t : State) (h : Fin 64) (n : Nat) (st : Status) : State × Reply :=
  (t, { status := st, results := t.segmentWords h n })

theorem State.segmentAnswer_of_page {t : State} {q : Page} (hq : t.page h = some q) (n : Nat) (st : Status) :
    t.segmentAnswer h n st = (t,
      { status := st, results := [word h.val, word n, q.state.asRead, numberAsRead q.lacking, word t.freeCells] }) := by
  simp only [State.segmentAnswer, State.segmentWords, hq, PageState.code_word, Page.missingCount_eq_lacking,
    optWord_eq_numberAsRead]

theorem State.intake_of_refused (hh : f.handle = h.val) (hp : s.page h = some p) (live : p.state ≠ .superseded)
    (refused : f.refusedFor p) : s.intake f = (s, Reply.bare .badValue) := by
  simp only [State.intake, readHandle_of_eq hh, hp, if_neg live]
  rcases (f.refusedFor_iff p).mp refused with kind | sep | rest
  · simp only [kind]
  · simp only [sep]
    cases SegKind.ofCode f.kind <;> rfl
  · split
    · next kind sp _ hsp =>
      refine if_pos ?_
      rcases rest with number | expected | ⟨sp', hsp', lacks⟩ | long
      · exact .inl number
      · exact .inr (.inl expected)
      · obtain rfl : sp = sp' := Option.some.inj (hsp.symm.trans hsp')
        exact .inr (.inr (.inl lacks))
      · exact .inr (.inr (.inr long))
    · rfl

/-- A frame that passes test 2 has a kind and a separation. -/
theorem SegmentFrame.exists_kind_sep (accepted : ¬f.refusedFor p) :
    ∃ kind sp, [SegKind.line, .patchHead, .patchData][f.kind]? = some kind ∧ sepList[f.sep]? = some sp := by
  rw [f.refusedFor_iff p] at accepted
  rw [← SegKind.ofCode_eq, ← Sep.ofCode_eq]
  obtain ⟨kind, hk⟩ := Option.ne_none_iff_exists'.mp fun e => accepted (.inl e)
  obtain ⟨sp, hs⟩ := Option.ne_none_iff_exists'.mp fun e => accepted (.inr (.inl e))
  exact ⟨kind, sp, hk, hs⟩

/-- A segment that passes test 2 meets the tests 3 to 5 in their order (R31). -/
theorem State.intake_of_accepted {kind : SegKind} {sp : Sep} (hh : f.handle = h.val) (hp : s.page h = some p)
    (live : p.state ≠ .superseded) (hkind : [SegKind.line, .patchHead, .patchData][f.kind]? = some kind)
    (hsp : sepList[f.sep]? = some sp) (accepted : ¬f.refusedFor p) :
    s.intake f =
      if p.holds f.number then s.segmentAnswer h f.number .duplicate
      else if !checkPasses s.link f then (s.segmentBad h p sp f.number).segmentAnswer h f.number .checkFailed
      else if !admits s.freeCells p.state (cellsFor f.payload.length) then s.segmentAnswer h f.number .full
      else
        (s.storeSegment h p { number := f.number, kind, sep := sp, header := f.header, payload := f.payload }).segmentAnswer
          h f.number .done := by
  rw [f.refusedFor_iff p] at accepted
  rw [← SegKind.ofCode_eq] at hkind
  rw [← Sep.ofCode_eq] at hsp
  simp only [State.intake, readHandle_of_eq hh, hp, if_neg live, hkind, hsp]
  refine if_neg fun refused => accepted (.inr (.inr ?_))
  rcases refused with number | expected | lacks | long
  · exact .inl number
  · exact .inr (.inl expected)
  · exact .inr (.inr (.inl ⟨sp, hsp, lacks⟩))
  · exact .inr (.inr (.inr long))

theorem Page.holds_eq_true_iff (p : Page) (n : Nat) : p.holds n = true ↔ ∃ g ∈ p.held, g.number = n := by
  simp [Page.holds]

end

/-- Settles O26, by the tests of R31 in their order. -/
theorem segmentsTurnedAwayChangeNothing : Obligations.SegmentsTurnedAwayChangeNothing := by
  refine fun s ws f running short carried => ⟨fun none => exec_segment running short carried (State.intake_of_no_page none),
    fun h p k hh hp live cells => ⟨fun refused => exec_segment running short carried (State.intake_of_refused hh hp live refused),
      fun accepted held => ?_, fun accepted new passes full => ?_⟩⟩
  all_goals
    obtain ⟨kind, sp, hkind, hsp⟩ := f.exists_kind_sep accepted
    refine exec_segment running short carried ((State.intake_of_accepted hh hp live hkind hsp accepted).trans ?_)
  · rw [if_pos ((p.holds_eq_true_iff _).mpr held)]
    exact State.segmentAnswer_of_page hp _ _
  · have turnedAway : admits s.freeCells p.state (cellsFor f.payload.length) = false := by
      rw [carried.payload_length, cellsFor, ← cells]
      rcases full with ⟨st, low⟩ | ⟨st, low⟩
      · rw [st, admits]
        exact decide_eq_false (by simp only [Config.reserveCells]; omega)
      · rw [st, admits]
        exact decide_eq_false (by omega)
    rw [(p.holds_eq_false_iff _).mpr new, passes, turnedAway]
    exact State.segmentAnswer_of_page hp _ _

/-! ## A damaged segment (R32, R35, R169) -/

section
variable {s : State} {h : Fin 64} {n : Nat} {i : Incident}

theorem State.raiseBadSegment_new (new : ∀ j ∈ s.incidents, j.isBadSegment h n = false) :
    s.raiseBadSegment h n i = s.raise i := by
  refine if_neg ?_
  rw [List.any_eq_true]
  rintro ⟨j, hj, bad⟩
  exact Bool.false_ne_true ((new j hj).symm.trans bad)

theorem State.raiseBadSegment_repeated (old : ∃ j ∈ s.incidents, j.isBadSegment h n = true) :
    s.raiseBadSegment h n i =
      { s with incidents := s.incidents.map fun j => if j.isBadSegment h n then j.repeated else j } :=
  if_pos (List.any_eq_true.mpr old)

end

section
variable {s : State} {h : Fin 64} {p : Page} {sp : Sep} {n : Nat}

theorem State.segmentBad_frame : s.segmentBad h p sp n =
    { s with
      pages := (s.segmentBad h p sp n).pages, incidents := (s.segmentBad h p sp n).incidents
      lost := (s.segmentBad h p sp n).lost } := by
  rw [State.segmentBad, State.raiseBadSegment_frame]
  rfl

theorem State.segmentBad_pages :
    (s.segmentBad h p sp n).page = (s.setPage h (some { p with damaged := insertNumber n p.damaged })).page := by
  rw [State.segmentBad, State.raiseBadSegment_frame]
  rfl

theorem State.segmentBad_page_self :
    (s.segmentBad h p sp n).page h = some { p with damaged := insertNumber n p.damaged } := by
  rw [State.segmentBad_pages]
  exact State.page_setPage_self s h _

theorem State.segmentBad_page_of_ne {k : Fin 64} (hk : k ≠ h) : (s.segmentBad h p sp n).page k = s.page k := by
  rw [State.segmentBad_pages]
  exact State.page_setPage_of_ne s _ hk

theorem State.segmentBad_recorded (new : ∀ j ∈ s.incidents, j.isBadSegment h n = false) :
    s.recorded (s.segmentBad h p sp n)
      { kind := .segmentBad, time := s.clock, label := some p.label, version := some p.version, handle := some h
        sep := some sp, segment := some n, disposition := .resendNeeded } := by
  rw [State.segmentBad, State.raiseBadSegment_new (s := s.setPage h _) new]
  exact State.raise_recorded (s.setPage h (some { p with damaged := insertNumber n p.damaged })) _

theorem State.segmentBad_repeated (old : ∃ j ∈ s.incidents, j.isBadSegment h n = true) :
    (s.segmentBad h p sp n).lost = s.lost ∧ (s.segmentBad h p sp n).incidents =
      s.incidents.map fun j => if j.isBadSegment h n then { j with repeats := min (j.repeats + 1) 255 } else j := by
  rw [State.segmentBad, State.raiseBadSegment_repeated (s := s.setPage h _) old]
  exact ⟨rfl, rfl⟩

end

/-- Settles O25: the damaged set takes the number, and the incident is new or coalesced. -/
theorem damagedSegmentIsRecorded : Obligations.DamagedSegmentIsRecorded := by
  refine ⟨fun n ns => ⟨mem_insertNumber n ns, insertNumber_ascending n ns, insertNumber_of_mem n ns⟩,
    Incident.isBadSegment_iff, fun s ws f h p sp running short carried hh hp live hsp accepted new fails => ?_⟩
  obtain ⟨kind, -, hkind, -⟩ := f.exists_kind_sep accepted
  have page := State.segmentBad_page_self (s := s) (h := h) (p := p) (sp := sp) (n := f.number)
  have answered := exec_segment running short carried
    ((State.intake_of_accepted hh hp live hkind hsp accepted).trans
      (((if_neg (Bool.eq_false_iff.mp ((p.holds_eq_false_iff _).mpr new))).trans (if_pos (by rw [fails]; rfl))).trans
        (State.segmentAnswer_of_page page _ _)))
  have others (k : Fin 64) (hk : k ≠ h) := State.segmentBad_page_of_ne (s := s) (p := p) (sp := sp) (n := f.number) hk
  have raised := State.segmentBad_recorded (s := s) (p := p) (sp := sp) (h := h) (n := f.number)
  have repeated := State.segmentBad_repeated (s := s) (p := p) (sp := sp) (h := h) (n := f.number)
  have frame := State.segmentBad_frame (s := s) (h := h) (p := p) (sp := sp) (n := f.number)
  generalize s.segmentBad h p sp f.number = t at answered page others raised repeated frame
  have cells : t.freeCells = s.freeCells := by rw [frame]
  have replies : t.replies = s.replies := by rw [frame]
  rw [cells] at answered
  refine ⟨_, answered, page, others, raised, repeated,
    ⟨_, (State.replies_setReply t .feed _).trans (by rw [replies]), rfl, rfl⟩, ?_⟩
  rw [frame]
  rfl

end Sys2Proof.Machine
end

section
/-! The segment stored (spec/02, R9, R33) and the link check (R29, R30). -/

namespace Sys2Proof.Machine

open Sys2Proof

/-! ## The segment stored (R9, R33) -/

/-- A page entry with a segment listed and its number out of the damaged set (R33). -/
def Page.stored (p : Page) (g : Segment) : Page :=
  { p with held := insertSegment g p.held, damaged := p.damaged.filter fun n => n != g.number }

/-- A page entry whose intake is complete (R9). -/
def Page.complete (p : Page) : Page := { p with state := .indexing, timer := none }

theorem resolvedWhere_resolvedWhere (a b : Incident → Bool) (is : List Incident)
    (blind : ∀ i : Incident, b { i with resolved := true } = b i) :
    resolvedWhere b (resolvedWhere a is) = resolvedWhere (fun i => a i || b i) is := by
  unfold resolvedWhere
  rw [List.map_map]
  refine List.map_congr_left fun i _ => ?_
  simp only [Function.comp_apply]
  by_cases ha : a i = true
  · simp [ha, blind]
  · simp [ha]

section
variable {s : State} {h : Fin 64} {p : Page} {g : Segment}

/-- The state with a segment stored, before it is seen whether the page is complete. -/
def State.storedIn (s : State) (h : Fin 64) (p : Page) (g : Segment) : State :=
  ({ s with freeCells := s.freeCells - g.cells }.setPage h (some (p.stored g))).resolve (Incident.isBadSegment h g.number)

theorem State.storedIn_page : (s.storedIn h p g).page h = some (p.stored g) := State.page_setPage_self _ h _

theorem State.storeSegment_keeps (incomplete : ¬(p.state = .waiting ∧ (p.stored g).lacking = some 0)) :
    s.storeSegment h p g = s.storedIn h p g := by
  change (s.storedIn h p g).completeIntake h = _
  simp only [State.completeIntake, State.storedIn_page, Page.missingCount_eq_lacking]
  exact if_neg incomplete

theorem State.storeSegment_completes (waiting : p.state = .waiting) (whole : (p.stored g).lacking = some 0) :
    s.storeSegment h p g =
      ({ s.storedIn h p g with indexQueue := s.indexQueue ++ [h] }.setPage h (some (p.stored g).complete)).resolve
        (fun i => i.kind == IncidentKind.pageIncomplete && i.handle == some h) := by
  change (s.storedIn h p g).completeIntake h = _
  simp only [State.completeIntake, State.storedIn_page, Page.missingCount_eq_lacking]
  exact if_pos ⟨waiting, whole⟩

theorem State.storeSegment_page : (s.storeSegment h p g).page h =
    some (if p.state = .waiting ∧ (p.stored g).lacking = some 0 then (p.stored g).complete else p.stored g) := by
  split
  · next done =>
    rw [State.storeSegment_completes done.1 done.2]
    exact State.page_setPage_self _ h _
  · next not =>
    rw [State.storeSegment_keeps not]
    exact State.storedIn_page

theorem State.storeSegment_page_of_ne {k : Fin 64} (hk : k ≠ h) : (s.storeSegment h p g).page k = s.page k := by
  by_cases done : p.state = .waiting ∧ (p.stored g).lacking = some 0
  · rw [State.storeSegment_completes done.1 done.2]
    exact (State.page_setPage_of_ne _ _ hk).trans (State.page_setPage_of_ne _ _ hk)
  · rw [State.storeSegment_keeps done]
    exact State.page_setPage_of_ne _ _ hk

theorem State.storeSegment_frame : s.storeSegment h p g =
    { s with
      pages := (s.storeSegment h p g).pages, freeCells := s.freeCells - g.cells
      indexQueue := (s.storeSegment h p g).indexQueue, incidents := (s.storeSegment h p g).incidents } := by
  by_cases done : p.state = .waiting ∧ (p.stored g).lacking = some 0
  · rw [State.storeSegment_completes done.1 done.2]; rfl
  · rw [State.storeSegment_keeps done]; rfl

theorem State.storeSegment_incidents_completes (waiting : p.state = .waiting) (whole : (p.stored g).lacking = some 0) :
    (s.storeSegment h p g).incidents = resolvedWhere
      (fun i => i.isBadSegment h g.number || (i.kind == IncidentKind.pageIncomplete && i.handle == some h)) s.incidents := by
  rw [State.storeSegment_completes waiting whole]
  exact resolvedWhere_resolvedWhere _ (fun i => i.kind == IncidentKind.pageIncomplete && i.handle == some h) s.incidents
    fun _ => rfl

/-- The reply of a stored segment (R34). -/
theorem State.storeSegment_answer (st : Status) : (s.storeSegment h p g).segmentAnswer h g.number st =
    (s.storeSegment h p g,
      { status := st
        results := [word h.val, word g.number,
          if p.state = .waiting ∧ (p.stored g).lacking = some 0 then 3 else p.state.asRead,
          numberAsRead (p.stored g).lacking, word (s.freeCells - g.cells)] }) := by
  have cells : (s.storeSegment h p g).freeCells = s.freeCells - g.cells := by rw [State.storeSegment_frame]
  rw [State.segmentAnswer_of_page State.storeSegment_page, cells]
  split <;> rfl

end

theorem cellsOf_eq (gs : List Segment) : cellsOf gs = (gs.map fun g => (16 + g.payload.length + 4095) / 4096).sum := rfl

section
variable {s : State} {ws : List Word} {f : SegmentFrame} {h : Fin 64} {p : Page} {kind : SegKind} {sp : Sep}

/-- A segment that passes every test of R31 is stored and answered DONE. -/
theorem exec_segment_stored (running : s.resetAsserted = false) (short : ws.length ≤ 8206) (carried : f.carriedIn ws)
    (hh : f.handle = h.val) (hp : s.page h = some p) (live : p.state ≠ .superseded)
    (hkind : [SegKind.line, .patchHead, .patchData][f.kind]? = some kind) (hsp : sepList[f.sep]? = some sp)
    (accepted : ¬f.refusedFor p) (new : ∀ g ∈ p.held, g.number ≠ f.number) (passes : checkPasses s.link f = true)
    (admitted : admits s.freeCells p.state (cellsFor f.payload.length) = true) {g : Segment}
    (hg : g = { number := f.number, kind, sep := sp, header := f.header, payload := f.payload }) :
    exec (.segment ws) s = .next ((s.storeSegment h p g).setReply .feed
      { status := .done
        results := [word h.val, word f.number,
          if p.state = .waiting ∧ (p.stored g).lacking = some 0 then 3 else p.state.asRead,
          numberAsRead (p.stored g).lacking, word (s.freeCells - g.cells)] }) := by
  subst hg
  refine exec_segment running short carried ((State.intake_of_accepted hh hp live hkind hsp accepted).trans ?_)
  rw [(p.holds_eq_false_iff _).mpr new, passes, admitted]
  exact State.storeSegment_answer .done

end

/-! ## The link check (R29, R30) -/

theorem lowBits_getLsbD {len : Nat} (v : BitVec 32) (i : Nat) (short : len ≤ 32) :
    (lowBits len v).getLsbD i = (decide (i < len) && v.getLsbD i) := by
  rw [lowBits, BitVec.getLsbD_and, BitVec.getLsbD_ofNat, Nat.testBit_two_pow_sub_one]
  by_cases h : i < len
  · simp [h, show i < 32 by omega]
  · simp [h]

/-- One step of the register, bit by bit (R29). -/
theorem crcBit_getLsbD {k : LinkProfile} (short : k.length ≤ 32) (reg : BitVec 32) (b : Bool) (i : Nat) :
    (crcBit k reg b).getLsbD i =
      (decide (i < k.length) && ((decide (0 < i) && reg.getLsbD (i - 1)) !=
        ((reg.getLsbD (k.length - 1) != b) && k.poly.getLsbD i))) := by
  by_cases low : i < k.length
  · have inWidth : i < 32 := by omega
    unfold crcBit
    cases reg.getLsbD (k.length - 1) != b
    · simp [-BitVec.getLsbD_eq_getElem, lowBits_getLsbD _ _ short, low, inWidth, Nat.pos_iff_ne_zero]
    · simp [-BitVec.getLsbD_eq_getElem, lowBits_getLsbD _ _ short, low, inWidth, Nat.pos_iff_ne_zero]
  · unfold crcBit
    split <;> simp [lowBits_getLsbD _ _ short, low]

/-- The bits of a word, the most significant first. -/
theorem wordBits (w : Word) : (bytesOf [w]).flatMap byteBits = (List.range 16).map fun n => w.getLsbD (15 - n) := by
  simp [bytesOf, byteBits, List.range_succ]

theorem bytesOf_bits_getD (ws : List Word) {n : Nat} (h : n < 16 * ws.length) :
    ((bytesOf ws).flatMap byteBits)[n]? = some ((ws.getD (n / 16) 0).getLsbD (15 - n % 16)) := by
  induction ws generalizing n with
  | nil => simp at h
  | cons w ws ih =>
    have bits : (bytesOf (w :: ws)).flatMap byteBits =
        (List.range 16).map (fun n => w.getLsbD (15 - n)) ++ (bytesOf ws).flatMap byteBits := by
      rw [← wordBits, ← List.flatMap_append]
      simp [bytesOf]
    rw [bits]
    by_cases first : n < 16
    · rw [List.getElem?_append_left (by simpa using first)]
      simp [first, Nat.div_eq_of_lt first, Nat.mod_eq_of_lt first]
    · rw [List.getElem?_append_right (by simp; omega), List.length_map, List.length_range,
        ih (by simp at h; omega), show n / 16 = (n - 16) / 16 + 1 by omega, List.getD_cons_succ,
        show n % 16 = (n - 16) % 16 by omega]

theorem bits_take (bs : List Byte) (m : Nat) : (bs.take m).flatMap byteBits = (bs.flatMap byteBits).take (8 * m) := by
  induction bs generalizing m with
  | nil => simp
  | cons b bs ih =>
    cases m with
    | zero => simp
    | succ m =>
      have eight : (byteBits b).length = 8 := rfl
      rw [List.take_succ_cons, List.flatMap_cons, List.flatMap_cons, ih, List.take_append, eight,
        List.take_of_length_le (l := byteBits b) (by omega), show 8 * (m + 1) - 8 = 8 * m by omega]

theorem bits_length (bs : List Byte) : (bs.flatMap byteBits).length = 8 * bs.length := by
  induction bs with
  | nil => rfl
  | cons b bs ih => rw [List.flatMap_cons, List.length_append, ih]; simp [byteBits]; omega

section
variable {f : SegmentFrame} {ws : List Word} (carried : f.carriedIn ws)
include carried

/-- The bytes the check is made over: those before the check value, then those of the payload (R29). -/
theorem SegmentFrame.carriedIn.checked_bytes :
    f.header.take 12 ++ f.payload = (bytesOf (ws.take 6 ++ ws.drop 8)).take (12 + f.length) := by
  obtain ⟨w0, w1, w2, w3, w4, w5, w6, w7, data, rfl, -, -, -, -, -, -, -, header, payload⟩ := carried
  have bytes : bytesOf (([w0, w1, w2, w3, w4, w5, w6, w7] ++ data).take 6 ++ ([w0, w1, w2, w3, w4, w5, w6, w7] ++ data).drop 8) =
      bytesOf [w0, w1, w2, w3, w4, w5] ++ bytesOf data := by
    simp [bytesOf]
  have twelve : (bytesOf [w0, w1, w2, w3, w4, w5]).length = 12 := by rw [bytesOf_length]; rfl
  rw [bytes, header, payload, List.take_append, twelve, Nat.add_sub_cancel_left,
    List.take_of_length_le (l := bytesOf [w0, w1, w2, w3, w4, w5]) (by omega)]
  rfl

theorem SegmentFrame.carriedIn.bits_fit : 8 * (12 + f.length) ≤ 16 * (ws.take 6 ++ ws.drop 8).length := by
  obtain ⟨w0, w1, w2, w3, w4, w5, w6, w7, data, rfl, length, -, -, -, -, carriedLength, -⟩ := carried
  simp only [List.length_append, List.length_take, List.length_drop, List.length_cons, List.length_nil]
  omega

theorem SegmentFrame.carriedIn.check_eq : f.check = ws.getD 6 0 ++ ws.getD 7 0 := by
  obtain ⟨w0, w1, w2, w3, w4, w5, w6, w7, data, rfl, -, -, -, -, -, -, check, -⟩ := carried
  exact check

/-- The bits the register takes, each where the words hold it (R29, step 2). -/
theorem SegmentFrame.carriedIn.checked_bit {n : Nat} (h : n < 8 * (12 + f.length)) :
    ((f.header.take 12 ++ f.payload).flatMap byteBits)[n]? =
      some (((ws.take 6 ++ ws.drop 8).getD (n / 16) 0).getLsbD (15 - n % 16)) := by
  rw [carried.checked_bytes, bits_take, List.getElem?_take_of_lt h,
    bytesOf_bits_getD _ (Nat.lt_of_lt_of_le h carried.bits_fit)]

theorem SegmentFrame.carriedIn.checked_length :
    ((f.header.take 12 ++ f.payload).flatMap byteBits).length = 8 * (12 + f.length) := by
  rw [carried.checked_bytes, bits_take, List.length_take, bits_length, bytesOf_length]
  have := carried.bits_fit
  omega

end

/-- A register that starts with L ones and takes the bits one after another stands where the machine's does (R29). -/
theorem register_eq {k : LinkProfile} (short : k.length ≤ 32) {bits : List Bool} {register : Nat → Nat → Bool}
    (start : ∀ i, i < k.length → register 0 i = true)
    (next : ∀ n i b, bits[n]? = some b → i < k.length → register (n + 1) i =
      ((decide (0 < i) && register n (i - 1)) != ((register n (k.length - 1) != b) && k.poly.getLsbD i)))
    {n : Nat} (hn : n ≤ bits.length) {i : Nat} (hi : i < k.length) :
    register n i = ((bits.take n).foldl (crcBit k) (lowBits k.length 0xFFFFFFFF)).getLsbD i := by
  induction n generalizing i with
  | zero =>
    have ones : (0xFFFFFFFF : BitVec 32).getLsbD i = true := by
      have : i < 32 := by omega
      rw [show (0xFFFFFFFF : BitVec 32) = BitVec.allOnes 32 from rfl, BitVec.getLsbD_allOnes, decide_eq_true this]
    rw [start i hi, List.take_zero, List.foldl_nil, lowBits_getLsbD _ _ short, ones, decide_eq_true hi]
    rfl
  | succ n ih =>
    have bit : bits[n]? = some bits[n] := List.getElem?_eq_getElem hn
    rw [next n i _ bit hi, List.take_succ_eq_append_getElem hn, List.foldl_append, List.foldl_cons, List.foldl_nil,
      crcBit_getLsbD short, ← ih (by omega) (by omega : k.length - 1 < k.length)]
    by_cases zero : i = 0
    · subst zero
      simp [hi]
    · rw [← ih (by omega) (by omega : i - 1 < k.length), decide_eq_true hi, Bool.true_and]

/-- The check value of any bytes has its bits above L clear. -/
theorem crc_getLsbD_of_le {k : LinkProfile} (short : k.length ≤ 32) (bits : List Bool) {i : Nat} (hi : k.length ≤ i) :
    (bits.foldl (crcBit k) (lowBits k.length 0xFFFFFFFF)).getLsbD i = false := by
  induction bits using List.reverseRecOn with
  | nil => rw [List.foldl_nil, lowBits_getLsbD _ _ short, decide_eq_false (by omega), Bool.false_and]
  | append_singleton bits b _ =>
    rw [List.foldl_append, List.foldl_cons, List.foldl_nil, crcBit_getLsbD short, decide_eq_false (by omega), Bool.false_and]

theorem checkPasses_of_unchecked {k : LinkProfile} (none : k.length = 0) (f : SegmentFrame) : checkPasses k f = true := by
  simp [checkPasses, none]

theorem checkPasses_iff {k : LinkProfile} {f : SegmentFrame} (low : 1 ≤ k.length) (short : k.length ≤ 32) :
    checkPasses k f = true ↔
      ∀ i, i < k.length → (crc k (f.header.take 12 ++ f.payload)).getLsbD i = f.check.getLsbD i := by
  have checked : checkPasses k f = (crc k (f.header.take 12 ++ f.payload) == lowBits k.length f.check) := by
    rw [checkPasses, beq_eq_false_iff_ne.mpr (by omega), Bool.false_or]
  rw [checked, beq_iff_eq]
  constructor
  · intro e i hi
    rw [e, lowBits_getLsbD _ _ short, decide_eq_true hi, Bool.true_and]
  · intro e
    refine BitVec.eq_of_getLsbD_eq fun i hi => ?_
    rw [lowBits_getLsbD _ _ short]
    by_cases inside : i < k.length
    · rw [e i inside, decide_eq_true inside, Bool.true_and]
    · rw [crc, crc_getLsbD_of_le short _ (by omega), decide_eq_false inside, Bool.false_and]

/-- The link check is the register of R29 compared with the low L bits of the check value (R30). -/
theorem checkPasses_iff_register {k : LinkProfile} {ws : List Word} {f : SegmentFrame} (carried : f.carriedIn ws)
    (low : 1 ≤ k.length) (short : k.length ≤ 32) {register : Nat → Nat → Bool}
    (start : ∀ i, i < k.length → register 0 i = true)
    (next : ∀ n i, n < 8 * (12 + f.length) → i < k.length → register (n + 1) i =
      ((decide (0 < i) && register n (i - 1)) !=
        ((register n (k.length - 1) != ((ws.take 6 ++ ws.drop 8).getD (n / 16) 0).getLsbD (15 - n % 16)) &&
          k.poly.getLsbD i))) :
    checkPasses k f = true ↔
      ∀ i, i < k.length → register (8 * (12 + f.length)) i = (ws.getD 6 0 ++ ws.getD 7 0).getLsbD i := by
  rw [checkPasses_iff low short, carried.check_eq]
  refine forall₂_congr fun i hi => ?_
  have length := carried.checked_length
  have stands := register_eq short (bits := (f.header.take 12 ++ f.payload).flatMap byteBits) start
    (fun n i b bit hi => by
      have inside : n < 8 * (12 + f.length) := length ▸ (List.getElem?_eq_some_iff.mp bit).1
      rw [carried.checked_bit inside] at bit
      rw [next n i inside hi, Option.some.inj bit]) (Nat.le_of_eq length.symm) hi
  rw [stands, ← length, List.take_length, crc]

/-- Settles O24: the link check, the words of a frame, and the two states a stored segment leaves its page in. -/
theorem segmentIsStored : Obligations.SegmentIsStored := by
  refine ⟨fun k ws f carried => ⟨fun none => checkPasses_of_unchecked none f,
    fun low short register start next => checkPasses_iff_register carried low short start next⟩, cellsOf_eq,
    exists_carriedIn_iff, ?_⟩
  rintro s ws f h p kind sp st k running short carried hh hp rfl hkind hsp accepted new passes cells free
  have cellsEq : cellsFor f.payload.length = k := by rw [carried.payload_length, cells]; rfl
  have live : p.state ≠ .superseded := by
    rcases free with ⟨st, -⟩ | ⟨st, -⟩ <;> rw [st] <;> nofun
  have admitted : admits s.freeCells p.state (cellsFor f.payload.length) = true := by
    rw [cellsEq]
    rcases free with ⟨st, room⟩ | ⟨st, room⟩ <;> rw [st] <;> exact decide_eq_true room
  obtain ⟨g, hg⟩ : ∃ g : Segment, g = { number := f.number, kind, sep := sp, header := f.header, payload := f.payload } :=
    ⟨_, rfl⟩
  have answered := exec_segment_stored running short carried hh hp live hkind hsp accepted new passes admitted hg
  have number : g.number = f.number := by rw [hg]
  have stored : p.stored g = { p with
      held := insertSegment { number := f.number, kind, sep := sp, header := f.header, payload := f.payload } p.held
      damaged := p.damaged.filter fun n => n != f.number } := by rw [hg]; rfl
  have gcells : g.cells = k := by rw [hg]; exact cellsEq
  have state : (if p.state = .waiting ∧ (p.stored g).lacking = some 0 then 3 else p.state.asRead) =
      if p.state = .waiting ∧ (p.stored g).lacking = some 0 then 3 else if p.state = .receiving then 1 else (2 : Word) := by
    rcases free with ⟨st, -⟩ | ⟨st, -⟩ <;> rw [st] <;> rfl
  have page := State.storeSegment_page (s := s) (h := h) (p := p) (g := g)
  have others (j : Fin 64) (hj : j ≠ h) := State.storeSegment_page_of_ne (s := s) (p := p) (g := g) hj
  have frame := State.storeSegment_frame (s := s) (h := h) (p := p) (g := g)
  have keeps := State.storeSegment_keeps (s := s) (h := h) (p := p) (g := g)
  have completes := State.storeSegment_completes (s := s) (h := h) (p := p) (g := g)
  have resolved := State.storeSegment_incidents_completes (s := s) (h := h) (p := p) (g := g)
  rw [state, gcells] at answered
  rw [gcells] at frame
  rw [← number]
  generalize s.storeSegment h p g = t at answered page others frame keeps completes resolved
  refine ⟨_, p.stored g, answered, number ▸ stored, ?_, others, fun incomplete => ?_, fun done => ?_,
    ⟨_, (State.replies_setReply t .feed _).trans (by rw [frame]), rfl, ?_⟩, ?_⟩
  · rw [frame]; rfl
  · have not : ¬(p.state = .waiting ∧ (p.stored g).lacking = some 0) := fun done =>
      incomplete.elim (fun receiving => PageState.noConfusion (receiving.symm.trans done.1)) fun lacks => lacks done.2
    rw [if_neg not] at page
    refine ⟨page, ?_, ?_⟩
    · rw [keeps not]; rfl
    · rw [keeps not]; rfl
  · rw [if_pos done] at page
    refine ⟨page, ?_, resolved done.1 done.2⟩
    rw [completes done.1 done.2]
    rfl
  · rw [number]
  · rw [frame]; rfl

end Sys2Proof.Machine
end

section
/-! Overdue heads (spec/08, R159, R160): the copies removed are settled in the order removed, on whatever queues. -/

namespace Sys2Proof.Machine

open Sys2Proof

/-! ## A settlement looks at no verify queue -/

/-- A state with other verify queues. -/
def State.withQueues (s : State) (q : Lines (List VerifyEntry)) : State := { s with queues := q }

section
variable (s : State) (q : Lines (List VerifyEntry))

theorem State.raise_withQueues (i : Incident) : (s.withQueues q).raise i = (s.raise i).withQueues q := by
  unfold State.raise
  rw [apply_ite (State.withQueues · q)]
  rfl

theorem State.takeForIndexing_withQueues : (s.withQueues q).takeForIndexing = s.takeForIndexing.withQueues q := by
  have indexer : (s.withQueues q).indexer = s.indexer := rfl
  have queue : (s.withQueues q).indexQueue = s.indexQueue := rfl
  unfold State.takeForIndexing
  rw [indexer, queue]
  cases s.indexer <;> cases s.indexQueue <;> rfl

theorem State.stopIndexing_withQueues (h : Fin 64) :
    (s.withQueues q).stopIndexing h = (s.stopIndexing h).withQueues q := by
  unfold State.stopIndexing
  simp only
  rw [apply_ite (State.withQueues · q), ← State.takeForIndexing_withQueues]
  rfl

theorem State.freeEntry_withQueues (h : Fin 64) : (s.withQueues q).freeEntry h = (s.freeEntry h).withQueues q := by
  have page : (s.withQueues q).page h = s.page h := rfl
  unfold State.freeEntry
  rw [page]
  cases s.page h with
  | none => rfl
  | some p =>
    exact congrArg (fun t : State => (t.resolve fun i => i.handle == some h).setPage h none)
      (State.stopIndexing_withQueues { s with
        freeCells := s.freeCells + cellsOf p.held, openOrder := s.openOrder.filter (· != h) } q h)

theorem State.modifyPage_withQueues (h : Fin 64) (f : Page → Page) :
    (s.withQueues q).modifyPage h f = (s.modifyPage h f).withQueues q := by
  have page : (s.withQueues q).page h = s.page h := rfl
  unfold State.modifyPage
  rw [page]
  cases s.page h <;> rfl

theorem State.freeIfUnused_withQueues (h : Fin 64) :
    (s.withQueues q).freeIfUnused h = (s.freeIfUnused h).withQueues q := by
  have page : (s.withQueues q).page h = s.page h := rfl
  unfold State.freeIfUnused
  rw [page]
  cases s.page h with
  | none => rfl
  | some p =>
    simp only
    split
    · exact State.freeEntry_withQueues s q h
    · rfl

theorem State.release_withQueues (h : Fin 64) : (s.withQueues q).release h = (s.release h).withQueues q := by
  rw [State.release, State.modifyPage_withQueues, State.freeIfUnused_withQueues, State.release]

theorem State.freePlate_withQueues (i : Fin 128) : (s.withQueues q).freePlate i = (s.freePlate i).withQueues q := by
  have plate : (s.withQueues q).plate i = s.plate i := rfl
  unfold State.freePlate
  rw [plate]
  cases s.plate i with
  | none => rfl
  | some r =>
    simp only
    cases r.page with
    | none => rfl
    | some h => exact State.release_withQueues (s.setPlate i none) q h

theorem State.freeIfSpent_withQueues (i : Fin 128) :
    (s.withQueues q).freeIfSpent i = (s.freeIfSpent i).withQueues q := by
  have plate : (s.withQueues q).plate i = s.plate i := rfl
  unfold State.freeIfSpent
  rw [plate]
  cases s.plate i with
  | none => rfl
  | some r =>
    simp only
    split
    · exact State.freePlate_withQueues s q i
    · rfl

theorem State.settleLost_withQueues (f : VerifyEntry) (kind : IncidentKind) :
    (s.withQueues q).settleLost f kind = (s.settleLost f kind).withQueues q := by
  have plate : (s.withQueues q).plate f.plate = s.plate f.plate := rfl
  unfold State.settleLost State.damageCopy
  rw [plate]
  cases s.plate f.plate with
  | none => exact State.freeIfSpent_withQueues s q f.plate
  | some r =>
    refine Eq.trans ?_ (State.freeIfSpent_withQueues _ q f.plate)
    exact congrArg (State.freeIfSpent · f.plate) (State.raise_withQueues (s.setPlate f.plate _) q _)

end

/-! ## The heads removed (R159, R160) -/

/-- Entries settled as MISSING, one after another (R160). -/
def State.loseAll (s : State) (gone : List VerifyEntry) : State := gone.foldl (fun s f => s.settleLost f .missing) s

section
variable {s : State} {l : Line} {gone kept : List VerifyEntry}

theorem State.loseAll_cons (s : State) (f : VerifyEntry) (gone : List VerifyEntry) :
    s.loseAll (f :: gone) = (s.settleLost f .missing).loseAll gone := rfl

theorem State.loseAll_append (s : State) (a b : List VerifyEntry) : s.loseAll (a ++ b) = (s.loseAll a).loseAll b :=
  List.foldl_append

theorem State.loseAll_withQueues (s : State) (q : Lines (List VerifyEntry)) (gone : List VerifyEntry) :
    (s.withQueues q).loseAll gone = (s.loseAll gone).withQueues q := by
  induction gone generalizing s with
  | nil => rfl
  | cons f gone ih => rw [State.loseAll_cons, State.settleLost_withQueues, ih, State.loseAll_cons]

theorem State.loseAll_frame (s : State) (gone : List VerifyEntry) : s.loseAll gone =
    { s with
      plates := (s.loseAll gone).plates, pages := (s.loseAll gone).pages, freeCells := (s.loseAll gone).freeCells
      openOrder := (s.loseAll gone).openOrder, indexQueue := (s.loseAll gone).indexQueue
      indexer := (s.loseAll gone).indexer, incidents := (s.loseAll gone).incidents, lost := (s.loseAll gone).lost } := by
  induction gone generalizing s with
  | nil => rfl
  | cons f gone ih => rw [State.loseAll_cons, ih, State.settleLost_frame]

theorem Lines.set_set {α : Type} (x : Lines α) (l : Line) (v w : α) : (x.set l v).set l w = x.set l w := by
  cases l <;> rfl

theorem VerifyEntry.overdue_iff (f : VerifyEntry) (w : Nat) : f.overdue w = true ↔ 0 < w ∧ w < f.age := by
  simp [VerifyEntry.overdue]

/-- The overdue test removes the overdue heads and settles them as MISSING in the order removed, whatever the records. -/
theorem State.removeOverdue_eq (n : Nat) (enough : gone.length ≤ n)
    (split : overdueSplit (s.lineSettings l).verifyWindow (s.queue l) gone kept) :
    State.removeOverdue l n s = (s.loseAll gone).withQueues (s.queues.set l kept) := by
  obtain ⟨queue, overdue, head⟩ := split
  induction gone generalizing s n with
  | nil =>
    have same : (s.loseAll []).withQueues (s.queues.set l kept) = s := by
      rw [← show s.queue l = kept from queue]
      exact s.setQueue_queue l
    rw [same]
    cases n with
    | zero => rfl
    | succ n =>
      unfold State.removeOverdue
      split
      · next f rest hq =>
        refine if_neg fun late => ?_
        have kept := head f (by rw [← show s.queue l = kept from queue, hq]; rfl)
        have late := (f.overdue_iff _).mp late
        omega
      · rfl
  | cons f gone ih =>
    cases n with
    | zero => simp at enough
    | succ n =>
      have first : s.queue l = f :: (gone ++ kept) := queue
      have late := (f.overdue_iff _).mpr (overdue f List.mem_cons_self)
      have removed : (s.setQueue l (gone ++ kept)).settleLost f .missing =
          (s.settleLost f .missing).withQueues (s.queues.set l (gone ++ kept)) :=
        State.settleLost_withQueues s _ f .missing
      have settings : ((s.settleLost f .missing).withQueues (s.queues.set l (gone ++ kept))).lineSettings l = s.lineSettings l := by
        rw [State.settleLost_frame]; rfl
      rw [State.removeOverdue]
      simp only [first, late, if_true, removed]
      rw [ih (s := (s.settleLost f .missing).withQueues (s.queues.set l (gone ++ kept))) n
          (Nat.le_of_succ_le_succ enough) (Lines.get_set_self s.queues l (gone ++ kept))
          (by rw [settings]; exact fun g hg => overdue g (List.mem_cons_of_mem _ hg)) (by rw [settings]; exact head),
        State.loseAll_withQueues, State.loseAll_cons]
      exact congrArg ((s.settleLost f .missing).loseAll gone).withQueues (Lines.set_set s.queues l _ _)

theorem State.overdueTest_eq (split : overdueSplit (s.lineSettings l).verifyWindow (s.queue l) gone kept) :
    s.overdueTest l = (s.loseAll gone).withQueues (s.queues.set l kept) :=
  State.removeOverdue_eq _ (by rw [split.1, List.length_append]; omega) split

end

/-! ## The heads removed where every copy is remade (R176 to R178) -/

/-- A record whose damaged copy in a verify queue is remade, the exposure step as it stands (R176, R177). -/
def Plate.remadeMissing (u : Plate) : Plate :=
  { u with
    awaiting := u.awaiting - 1, failed := u.failed + 1, attempts := u.attempts + 1, toExpose := u.toExpose + 1
    remake := true }

/-- The MISSING incident of an entry whose record u is remade (R178). -/
def VerifyEntry.missing (f : VerifyEntry) (u : Plate) (now : Seconds) : Incident :=
  { kind := .missing, time := now, label := some f.label, version := some f.version, handle := u.page
    sep := some f.sep, plate := some f.plate, serial := some f.serial, copyIndex := some f.copyIndex
    attempts := some (u.attempts + 1), disposition := .remakeQueued }

section
variable {s t : State} {f : VerifyEntry} {u : Plate} {gone : List VerifyEntry}

theorem State.remakes.damaged (h : s.remakes f u) :
    u.settleDamaged .awaiting .missing (s.editionOf u.label).remakeLimit = u.remadeMissing ∧
      u.decision (s.editionOf u.label).remakeLimit = .remakeQueued := by
  obtain ⟨-, awaiting, obsolete, cancelled, allowed⟩ := h
  have damaged : { u with awaiting := u.awaiting - 1 }.damagedAs
      (u.settleDamaged .awaiting .missing (s.editionOf u.label).remakeLimit) (s.editionOf u.label).remakeLimit u.step
      (u.decision (s.editionOf u.label).remakeLimit) :=
    u.settleDamaged_damagedAs .awaiting .missing (s.editionOf u.label).remakeLimit awaiting
  rw [Plate.damagedAs, if_neg (by simp [obsolete, cancelled]), if_pos allowed] at damaged
  exact ⟨damaged.2, damaged.1⟩

/-- The settlement of an entry whose copy is remade changes its record and makes one incident. -/
theorem State.settleLost_of_remakes (h : s.remakes f u) :
    s.settleLost f .missing = (s.setPlate f.plate (some u.remadeMissing)).raise (f.missing u s.clock) := by
  obtain ⟨record, decision⟩ := h.damaged
  obtain ⟨hu, -⟩ := h
  unfold State.settleLost State.damageCopy
  simp only [hu, record, decision]
  have after : (((s.setPlate f.plate (some u.remadeMissing)).raise (f.missing u s.clock)).plate f.plate) =
      some u.remadeMissing := by
    rw [State.raise_frame]
    exact State.plate_setPlate_self s f.plate _
  refine Eq.trans (b := ((s.setPlate f.plate (some u.remadeMissing)).raise (f.missing u s.clock)).freeIfSpent f.plate) rfl ?_
  rw [State.freeIfSpent, after]
  exact if_neg (by simp [Plate.spent, Plate.remadeMissing])

theorem State.missingOf_eq (hu : s.plate f.plate = some u) : s.missingOf f = some (f.missing u s.clock) := by
  rw [State.missingOf, hu]
  rfl

/-- Where every entry is remade, each in a record of its own, the records and the incidents are all that changes. -/
theorem State.loseAll_of_remakes (remakes : ∀ f ∈ gone, ∃ u, s.remakes f u) (own : (gone.map VerifyEntry.plate).Nodup) :
    s.remadeAsMissing (s.loseAll gone) gone ∧ (s.loseAll gone).pages = s.pages ∧ s.catalogueKept (s.loseAll gone) ∧
      s.recordedAll (s.loseAll gone) (gone.filterMap s.missingOf) := by
  induction gone generalizing s with
  | nil => exact ⟨⟨nofun, fun _ _ => rfl⟩, rfl, ⟨rfl, rfl, rfl, rfl⟩, s.recordedAll_nil⟩
  | cons f gone ih =>
    obtain ⟨⟨u, first⟩, rest⟩ := List.forall_mem_cons.mp remakes
    obtain ⟨new, ownRest⟩ := List.nodup_cons.mp own
    have apart (g : VerifyEntry) (hg : g ∈ gone) : g.plate ≠ f.plate := fun e => new (e ▸ List.mem_map_of_mem hg)
    have settled := State.settleLost_of_remakes first
    have frame := State.raise_frame (s.setPlate f.plate (some u.remadeMissing)) (f.missing u s.clock)
    have made := State.raise_recordedAll (s.setPlate f.plate (some u.remadeMissing)) (f.missing u s.clock)
    rw [← settled] at frame made
    rw [State.loseAll_cons]
    generalize s.settleLost f .missing = m at frame made
    have own (j : Fin 128) (hj : j ≠ f.plate) : m.plate j = s.plate j := by
      rw [frame]
      exact State.plate_setPlate_of_ne s _ hj
    have self : m.plate f.plate = some u.remadeMissing := by
      rw [frame]
      exact State.plate_setPlate_self s f.plate _
    have editions : m.editionOf = s.editionOf := by rw [frame]; rfl
    have later (g : VerifyEntry) (hg : g ∈ gone) : ∃ v, m.remakes g v := by
      obtain ⟨v, hv⟩ := rest g hg
      refine ⟨v, ?_⟩
      rw [State.remakes, own _ (apart g hg), editions]
      exact hv
    obtain ⟨⟨remade, others⟩, pages, ⟨cells, order, queue, indexer⟩, incidents⟩ := ih later ownRest
    have sameIncidents : gone.filterMap m.missingOf = gone.filterMap s.missingOf := by
      refine List.filterMap_congr fun g hg => ?_
      rw [State.missingOf, own _ (apart g hg), State.missingOf, frame]
      rfl
    refine ⟨⟨fun g hg v hv => ?_, fun j hj => ?_⟩, ?_, ⟨?_, ?_, ?_, ?_⟩, ?_⟩
    · rcases List.mem_cons.mp hg with rfl | hg
      · obtain rfl : u = v := Option.some.inj (first.1.symm.trans hv)
        rw [others g.plate fun x hx e => apart x hx e, self]
        rfl
      · exact remade g hg v ((own _ (apart g hg)).trans hv)
    · obtain ⟨notFirst, notRest⟩ := List.forall_mem_cons.mp hj
      rw [others j notRest, own j (Ne.symm notFirst)]
    · rw [pages, frame]; rfl
    · rw [cells, frame]; rfl
    · rw [order, frame]; rfl
    · rw [queue, frame]; rfl
    · rw [indexer, frame]; rfl
    · rw [List.filterMap_cons, State.missingOf_eq first.1, ← sameIncidents]
      exact State.recordedAll.append (s := s) made incidents

/-! ## The heads removed, whatever becomes of their copies -/

theorem State.loseAll_of_settledInTurn (h : s.settledInTurn (gone.map VerifyEntry.asMissing) t) : t = s.loseAll gone := by
  have e := State.settledInTurn_eq h fun x hx => by
    obtain ⟨f, -, rfl⟩ := List.mem_map.mp hx
    simp [VerifyEntry.asMissing]
  rw [e, List.foldl_map]
  rfl

theorem State.loseAll_overdueSettled (s : State) (gone : List VerifyEntry) : s.overdueSettled (s.loseAll gone) gone := by
  refine ⟨fun m hm => ?_, State.loseAll_of_remakes, ?_⟩
  · rw [State.loseAll_of_settledInTurn hm]
    exact ⟨rfl, rfl, rfl, rfl, rfl, rfl, rfl, rfl⟩
  · rintro f u q h p d rfl hu awaiting page hp damaged
    exact State.settleLost_settled hu awaiting page hp damaged

/-- What a settlement says of its result is said of any state that agrees with it in what a settlement changes. -/
theorem State.overdueSettled.congr {m : State} (h : s.overdueSettled m gone) (same : t.copiesAs m) : s.overdueSettled t gone := by
  obtain ⟨plates, pages, cells, order, queue, indexer, incidents, lost⟩ := same
  obtain ⟨inTurn, remade, single⟩ := h
  have plate : t.plate = m.plate := by unfold State.plate; rw [plates]
  have page : t.page = m.page := by unfold State.page; rw [pages]
  refine ⟨fun n hn => ?_, fun remakes own => ?_, fun f u q h p d one hu awaiting up hp damaged => ?_⟩
  · unfold State.copiesAs
    rw [plates, pages, cells, order, queue, indexer, incidents, lost]
    exact inTurn n hn
  · unfold State.remadeAsMissing State.catalogueKept State.recordedAll
    rw [plate, pages, cells, order, queue, indexer, incidents, lost]
    exact remade remakes own
  · unfold State.recordSettled State.catalogueKept State.leftIndexing
    rw [plate, page, cells, order, queue, indexer, incidents, lost]
    exact single f u q h p d one hu awaiting up hp damaged

/-- A settlement looks at no verify queue, line setting or decoder. -/
theorem State.overdueSettled.of_under {q : Lines (List VerifyEntry)} {x : Lines LineSettings} {d : Lines Decoder}
    (h : State.overdueSettled { s with queues := q, settings := x, decoders := d } t gone) : s.overdueSettled t gone :=
  ⟨fun m hm => h.1 { m with queues := q, settings := x, decoders := d } (State.settledInTurn_under hm q x d), h.2.1, h.2.2⟩

end

/-- Settles O58: the overdue test removes the heads and settles each. -/
theorem verifyTimeoutSettlesTheHeadAsMissing : Obligations.VerifyTimeoutSettlesTheHeadAsMissing := by
  intro s l gone kept running split
  have next : exec (.verifyTimeout l) s = .next (s.overdueTest l) := by
    unfold exec
    exact State.event_running s _ running
  have settled := s.loseAll_overdueSettled gone
  have frame := s.loseAll_frame gone
  rw [State.overdueTest_eq split] at next
  generalize s.loseAll gone = t at next settled frame
  refine ⟨_, next, rfl, settled.congr ⟨rfl, rfl, rfl, rfl, rfl, rfl, rfl, rfl⟩, ?_⟩
  rw [frame]
  rfl

end Sys2Proof.Machine
end

section
/-! The advance of the plant clock (spec/05, R92): the resend-wait timers, the deadlines and the ages. -/

namespace Sys2Proof.Machine

open Sys2Proof

/-! ## The resend-wait timers (R38, R39) -/

/-- A page entry after one advance of its resend-wait timer, which stops where it reaches its wait (R38, R39). -/
def Page.tick (p : Page) : Page :=
  match p.timer with
  | some x =>
    if p.state = .waiting ∧ x.wait ≤ x.count + 1 then { p with timer := none }
    else { p with timer := some { x with count := x.count + 1 } }
  | none => p

/-- The PAGE INCOMPLETE of an entry whose timer reaches its wait at the next advance (R39). -/
def State.incompleteAt (s : State) (now : Seconds) (h : Fin 64) : Option Incident :=
  ((s.page h).filter fun p => p.state == .waiting && p.timer.any fun x => decide (x.wait ≤ x.count + 1)).map fun p =>
    { kind := .pageIncomplete, time := now, label := some p.label, version := some p.version, handle := some h
      segment := ((List.range (p.expected.getD 0)).filter fun n => decide (∀ g ∈ p.held, g.number ≠ n)).head?
      disposition := .resendNeeded }

/-- One page's timer counts an advance, and expires where it reaches its wait. -/
def State.countResend (s : State) (h : Fin 64) : State := (s.modifyPage h Page.countAdvance).expireResend h

section
variable {s : State} {h : Fin 64} {p : Page}

theorem State.countResend_of_free (free : s.page h = none) : s.countResend h = s := by
  have same : s.modifyPage h Page.countAdvance = s := by simp only [State.modifyPage, free]
  rw [State.countResend, same, State.expireResend, free]

theorem State.countResend_of_live (hp : s.page h = some p) :
    s.countResend h = (s.setPage h (some p.countAdvance)).expireResend h := by
  simp only [State.countResend, State.modifyPage, hp]

theorem State.countResend_of_stopped (hp : s.page h = some p) (stopped : p.timer = none) :
    s.countResend h = s.setPage h (some p.tick) := by
  have timer : p.countAdvance.timer = none := by rw [Page.countAdvance, stopped]; rfl
  rw [State.countResend_of_live hp, State.expireResend, State.page_setPage_self]
  simp only [timer, Page.tick, stopped]
  rw [Page.countAdvance, stopped, Option.map_none, ← stopped]

theorem State.countResend_of_running {x : ResendTimer} (hp : s.page h = some p) (timer : p.timer = some x)
    (running : ¬(p.state = .waiting ∧ x.wait ≤ x.count + 1)) : s.countResend h = s.setPage h (some p.tick) := by
  have advanced : p.countAdvance = { p with timer := some { x with count := x.count + 1 } } := by
    rw [Page.countAdvance, timer]; rfl
  have ticked : p.tick = { p with timer := some { x with count := x.count + 1 } } := by
    simp only [Page.tick, timer, if_neg running]
  rw [State.countResend_of_live hp, advanced, ticked, State.expireResend, State.page_setPage_self]
  exact if_neg running

theorem State.countResend_of_due {x : ResendTimer} (hp : s.page h = some p) (timer : p.timer = some x)
    (waiting : p.state = .waiting) (due : x.wait ≤ x.count + 1) :
    s.countResend h = ((s.setPage h (some p.countAdvance)).setPage h (some p.tick)).raise
      { kind := .pageIncomplete, time := s.clock, label := some p.label, version := some p.version, handle := some h
        segment := (p.notHeld (p.expected.getD 0)).head?, disposition := .resendNeeded } := by
  have advanced : p.countAdvance.timer = some { x with count := x.count + 1 } := by
    rw [Page.countAdvance, timer]; rfl
  have ticked : p.tick = { p with timer := none } := by simp only [Page.tick, timer, if_pos (And.intro waiting due)]
  rw [State.countResend_of_live hp, ticked]
  exact State.expireResend_of_due (p := p.countAdvance) (State.page_setPage_self s h _) waiting advanced due

theorem State.countResend_frame (s : State) (h : Fin 64) : s.countResend h =
    { s with
      pages := (s.countResend h).pages, incidents := (s.countResend h).incidents, lost := (s.countResend h).lost } := by
  rw [State.countResend, State.expireResend_frame, State.modifyPage_frame]

theorem State.incompleteAt_of_not_due (now : Seconds) (hp : s.page h = some p)
    (not : ∀ x, p.timer = some x → ¬(p.state = .waiting ∧ x.wait ≤ x.count + 1)) : s.incompleteAt now h = none := by
  have kept : (p.state == .waiting && p.timer.any fun x => decide (x.wait ≤ x.count + 1)) = false := by
    rw [Bool.eq_false_iff]
    intro due
    simp only [Bool.and_eq_true, beq_iff_eq, Option.any_eq_true_iff_get] at due
    obtain ⟨waiting, some, le⟩ := due
    exact not _ (Option.some_get some).symm ⟨waiting, of_decide_eq_true le⟩
  rw [State.incompleteAt, hp, Option.filter_some, kept]
  rfl

theorem State.incompleteAt_of_due {x : ResendTimer} (now : Seconds) (hp : s.page h = some p) (timer : p.timer = some x)
    (waiting : p.state = .waiting) (due : x.wait ≤ x.count + 1) : s.incompleteAt now h = some
      { kind := .pageIncomplete, time := now, label := some p.label, version := some p.version, handle := some h
        segment := (p.notHeld (p.expected.getD 0)).head?, disposition := .resendNeeded } := by
  have taken : (p.state == .waiting && p.timer.any fun x => decide (x.wait ≤ x.count + 1)) = true := by
    simp [waiting, timer, due]
  rw [State.incompleteAt, hp, Option.filter_some, taken, Page.notHeld_eq]
  rfl

/-- One page's timer: the entry ticks, every other is as it was, and a PAGE INCOMPLETE is made where it expires. -/
theorem State.countResend_spec (s : State) (h : Fin 64) :
    (s.countResend h).page h = (s.page h).map Page.tick ∧ (∀ k, k ≠ h → (s.countResend h).page k = s.page k) ∧
      s.recordedAll (s.countResend h) (s.incompleteAt s.clock h).toList := by
  cases hp : s.page h with
  | none =>
    rw [State.countResend_of_free hp, hp, State.incompleteAt, hp]
    exact ⟨rfl, fun _ _ => rfl, s.recordedAll_nil⟩
  | some p =>
    by_cases due : ∃ x, p.timer = some x ∧ p.state = .waiting ∧ x.wait ≤ x.count + 1
    · obtain ⟨x, timer, waiting, due⟩ := due
      rw [State.incompleteAt_of_due s.clock hp timer waiting due, State.countResend_of_due hp timer waiting due]
      refine ⟨?_, fun k hk => ?_, ?_⟩
      · rw [State.raise_frame]
        exact State.page_setPage_self _ h _
      · rw [State.raise_frame]
        exact (State.page_setPage_of_ne _ _ hk).trans (State.page_setPage_of_ne s _ hk)
      · exact State.raise_recordedAll ((s.setPage h (some p.countAdvance)).setPage h (some p.tick)) _
    · have not (x : ResendTimer) (timer : p.timer = some x) : ¬(p.state = .waiting ∧ x.wait ≤ x.count + 1) :=
        fun d => due ⟨x, timer, d⟩
      have ticks : s.countResend h = s.setPage h (some p.tick) := by
        cases timer : p.timer with
        | none => exact State.countResend_of_stopped hp timer
        | some x => exact State.countResend_of_running hp timer (not x timer)
      rw [State.incompleteAt_of_not_due s.clock hp not, ticks]
      exact ⟨State.page_setPage_self s h _, fun k hk => State.page_setPage_of_ne s _ hk,
        State.recordedAll_nil (s.setPage h (some p.tick))⟩

/-- A run of timers over distinct entries: each ticks once, and the PAGE INCOMPLETEs are made in the order of the run. -/
theorem State.countResends_spec (hs : List (Fin 64)) (once : hs.Nodup) (s : State) :
    (∀ k, (hs.foldl State.countResend s).page k = if k ∈ hs then (s.page k).map Page.tick else s.page k) ∧
      s.recordedAll (hs.foldl State.countResend s) (hs.filterMap (s.incompleteAt s.clock)) := by
  induction hs generalizing s with
  | nil => exact ⟨fun _ => rfl, s.recordedAll_nil⟩
  | cons h hs ih =>
    obtain ⟨new, rest⟩ := List.nodup_cons.mp once
    obtain ⟨self, others, made⟩ := s.countResend_spec h
    obtain ⟨pages, incidents⟩ := ih rest (s.countResend h)
    have clock : (s.countResend h).clock = s.clock := by rw [State.countResend_frame]
    have later : hs.filterMap ((s.countResend h).incompleteAt (s.countResend h).clock) = hs.filterMap (s.incompleteAt s.clock) :=
      List.filterMap_congr fun k hk => by
        rw [clock, State.incompleteAt, others k (ne_of_mem_of_not_mem hk new)]
        rfl
    refine ⟨fun k => ?_, ?_⟩
    · rw [List.foldl_cons, pages k]
      by_cases e : k = h
      · subst e
        rw [if_neg new, if_pos List.mem_cons_self, self]
      · simp only [others k e, List.mem_cons, e, false_or]
    · rw [later] at incidents
      rw [List.foldl_cons, List.filterMap_eq_flatMap_toList, List.flatMap_cons, ← List.filterMap_eq_flatMap_toList]
      exact made.append incidents

end

/-! ## The deadlines and the ages (R94, R157) -/

/-- The state before the removals of an advance: the clock, the timers, the deadlines and the queues as they are left. -/
def State.advanced (s : State) (kept : Line → List VerifyEntry) : State :=
  ({ s with clock := s.clock + 1 }.countResends.deadlineCheck).withQueues { a := kept .a, b := kept .b }

section
variable {s : State}

theorem Page.tick_version (p : Page) : p.tick.version = p.version := by
  unfold Page.tick
  split
  · split <;> rfl
  · rfl

theorem State.countResends_page (s : State) (h : Fin 64) : s.countResends.page h = (s.page h).map Page.tick :=
  ((State.countResends_spec handles (List.nodup_finRange 64) s).1 h).trans (if_pos (List.mem_finRange h))

theorem State.countResends_recordedAll (s : State) :
    s.recordedAll s.countResends (handles.filterMap (s.incompleteAt s.clock)) :=
  (State.countResends_spec handles (List.nodup_finRange 64) s).2

/-- No timer changes what a missed deadline makes: the records stay, and the entries keep their versions. -/
theorem State.countResends_deadlinesMissed (s : State) (now : Seconds) (e : Fin 16) :
    s.countResends.deadlinesMissed now e = s.deadlinesMissed now e := by
  have frame := s.countResends_frame
  have page := s.countResends_page
  generalize s.countResends = t at frame page ⊢
  have plate (i : Fin 128) : t.plate i = s.plate i := by rw [frame]; rfl
  have version (r : Plate) : (r.page.bind t.page).map Page.version = (r.page.bind s.page).map Page.version := by
    cases r.page with
    | none => rfl
    | some h =>
      rw [Option.bind_some, Option.bind_some, page, Option.map_map]
      exact congrArg (fun f => Option.map f (s.page h)) (funext Page.tick_version)
  unfold State.deadlinesMissed
  simp only [plate, version]

theorem State.deadlineCheck_page (s : State) (h : Fin 64) : s.deadlineCheck.page h = s.page h := by
  have frame := s.deadlineCheck_frame
  generalize s.deadlineCheck = t at frame ⊢
  rw [frame]; rfl

end

theorem advanceClock_eq {s : State} {gone kept : Line → List VerifyEntry}
    (split : ∀ l, overdueSplit (s.lineSettings l).verifyWindow
      ((s.queue l).map fun e => { e with age := min (e.age + 1) 65535 }) (gone l) (kept l)) :
    s.advanceClock = (s.advanced kept).loseAll (gone .a ++ gone .b) := by
  obtain ⟨m, hm⟩ : ∃ m, m = { s with clock := s.clock + 1 }.countResends.deadlineCheck := ⟨_, rfl⟩
  have frame : m.settings = s.settings ∧ m.queues = s.queues := by
    rw [hm, State.deadlineCheck_frame, State.countResends_frame]
    exact ⟨rfl, rfl⟩
  obtain ⟨settings, queues⟩ := frame
  have aged : ∀ l, m.ageQueues.queue l = (s.queue l).map VerifyEntry.older :=
    Line.forall_iff.mpr ⟨congrArg (fun q => q.a.map VerifyEntry.older) queues, congrArg (fun q => q.b.map VerifyEntry.older) queues⟩
  have same (l : Line) : m.ageQueues.lineSettings l = s.lineSettings l := congrArg (Lines.get · l) settings
  have first : m.ageQueues.overdueTest .a =
      (m.ageQueues.loseAll (gone .a)).withQueues (m.ageQueues.queues.set .a (kept .a)) :=
    State.overdueTest_eq (by rw [aged, same]; exact split .a)
  have second : (m.ageQueues.overdueTest .a).overdueTest .b = _ :=
    State.overdueTest_eq (gone := gone .b) (kept := kept .b) (by
      rw [first, State.loseAll_frame]
      exact (congrArg₂ (fun w q => overdueSplit w q (gone .b) (kept .b))
        (congrArg LineSettings.verifyWindow (same .b)) (aged .b)).mpr (split .b))
  have advance : s.advanceClock = (m.ageQueues.overdueTest .a).overdueTest .b := by rw [hm]; rfl
  have aging : m.ageQueues = m.withQueues { a := m.queues.a.map VerifyEntry.older, b := m.queues.b.map VerifyEntry.older } := rfl
  rw [advance, second, first, State.loseAll_withQueues, ← State.loseAll_append, State.advanced, ← hm, aging,
    State.loseAll_withQueues, State.loseAll_withQueues, State.loseAll_withQueues m { a := kept .a, b := kept .b }]
  rfl

section
variable {s : State} (kept : Line → List VerifyEntry)

theorem State.advanced_frame : s.advanced kept =
    { s with
      clock := s.clock + 1, pages := (s.advanced kept).pages, editions := (s.advanced kept).editions
      queues := { a := kept .a, b := kept .b }, incidents := (s.advanced kept).incidents
      lost := (s.advanced kept).lost } := by
  have counted := State.countResends_frame { s with clock := s.clock + 1 }
  rw [State.advanced]
  generalize State.countResends { s with clock := s.clock + 1 } = c at counted ⊢
  have checked := c.deadlineCheck_frame
  generalize c.deadlineCheck = d at checked ⊢
  rw [checked, counted]
  rfl

theorem State.advanced_page (h : Fin 64) : (s.advanced kept).page h = (s.page h).map Page.tick := by
  have pages := State.deadlineCheck_page (State.countResends { s with clock := s.clock + 1 }) h
  have ticked := State.countResends_page { s with clock := s.clock + 1 } h
  rw [State.advanced]
  generalize State.countResends { s with clock := s.clock + 1 } = c at pages ticked ⊢
  generalize c.deadlineCheck = d at pages ⊢
  exact pages.trans ticked

theorem State.advanced_edition (e : Fin 16) :
    (s.advanced kept).editions[e] = (s.editions[e]).checked (s.clock + 1) := by
  have checked := State.deadlineCheck_editions (State.countResends { s with clock := s.clock + 1 }) e
  have counted := State.countResends_frame { s with clock := s.clock + 1 }
  rw [State.advanced]
  generalize State.countResends { s with clock := s.clock + 1 } = c at checked counted ⊢
  generalize c.deadlineCheck = d at checked ⊢
  rw [counted] at checked
  exact checked

theorem State.advanced_recordedAll : s.recordedAll (s.advanced kept)
    (handles.filterMap (s.incompleteAt (s.clock + 1)) ++ (List.finRange 16).flatMap fun e =>
      if (s.editions[e]).reached (s.clock + 1) then s.deadlinesMissed (s.clock + 1) e else []) := by
  have incomplete := State.countResends_recordedAll { s with clock := s.clock + 1 }
  have missed := State.deadlineCheck_recordedAll (State.countResends { s with clock := s.clock + 1 })
  have same := State.countResends_deadlinesMissed { s with clock := s.clock + 1 }
  have counted := State.countResends_frame { s with clock := s.clock + 1 }
  rw [State.advanced]
  generalize State.countResends { s with clock := s.clock + 1 } = c at incomplete missed same counted ⊢
  have clock : c.clock = s.clock + 1 := by rw [counted]
  have editions : c.editions = s.editions := by rw [counted]
  rw [clock, editions] at missed
  simp only [same] at missed
  generalize c.deadlineCheck = d at missed ⊢
  exact State.recordedAll.append (s := s) incomplete missed

end

/-- Settles O40: the state before the removals is the clock, the timers, the deadlines and the ages in turn, and the two
overdue tests settle the heads of both lines one after another. -/
theorem clockAdvanceDrivesTheTimers : Obligations.ClockAdvanceDrivesTheTimers := by
  intro s gone kept running split
  have next : exec .clockAdvance s = .next s.advanceClock := by
    unfold exec
    exact State.event_running s _ running
  rw [advanceClock_eq split] at next
  have settled := (s.advanced kept).loseAll_overdueSettled (gone .a ++ gone .b)
  have removed := (s.advanced kept).loseAll_frame (gone .a ++ gone .b)
  have pages := State.advanced_page (s := s) kept
  have editions := State.advanced_edition (s := s) kept
  have made := State.advanced_recordedAll (s := s) kept
  have frame := State.advanced_frame (s := s) kept
  generalize s.advanced kept = m at next settled removed pages editions made frame
  refine ⟨m, _, next, ?_, pages, editions, ?_, made, ?_, settled, removed⟩
  · rw [frame]
  · rw [frame]
    exact Line.forall_iff.mpr ⟨rfl, rfl⟩
  · rw [frame]

end Sys2Proof.Machine
end

section
/-! LINE SET (spec/08, R145 to R147; spec/10, R186). -/

namespace Sys2Proof.Machine

open Sys2Proof

/-! ## The words of a LINE SET (R145, R186) -/

theorem twoOfCode_flagAsRead (b : Bool) : twoOfCode (flagAsRead b).toNat = some b := by cases b <;> rfl

section
variable {s : State} {l : Line}

/-- The settings as stored: the stall limit is taken as 1 to 1,000 (R186). -/
def LineSettings.stored (x : LineSettings) : LineSettings := { x with stallLimit := min (max x.stallLimit 1) 1000 }

theorem readLineSet_accepted (l : Line) {x : LineSettings} (h : x.acceptable) :
    (readLineSet (codeIn [Line.a, .b] l :: x.asRead)).bind LineSetFields.settings = some (l, x.stored) := by
  obtain ⟨overhead, rowTime, rowTime', stall, tick, tick', s0, s1, z0, z1, o0, o1, sz, so, zo, window⟩ := h
  have apart (w v : Window) (h : w.apart v) : w.overlaps v = false :=
    Bool.eq_false_iff.mpr fun e => (w.overlaps_iff v).mp e h
  have tickRead := toNat_word (n := x.mark.tick) (by omega)
  have windowRead := toNat_word (n := x.verifyWindow) (by omega)
  simp only [LineSettings.asRead, readLineSet, Option.bind_some, LineSetFields.settings, Line.ofCode_codeIn,
    twoOfCode_flagAsRead, toNat_word overhead, toNat_word rowTime', toNat_word stall, tickRead, windowRead, toNat_word s0,
    toNat_word s1, toNat_word z0, toNat_word z1, toNat_word o0, toNat_word o1]
  refine (if_neg ?_).trans rfl
  simp only [apart _ _ sz, apart _ _ so, apart _ _ zo, Bool.false_eq_true, or_false]
  omega

theorem readLineSet_refused {line ov row limit pol fil tick s0 s1 z0 z1 o0 o1 ver win : Word}
    (refused : 1 < line.toNat ∨ row = 0 ∨ 1 < pol.toNat ∨ 1 < fil.toNat ∨ tick = 0 ∨ 255 < tick.toNat ∨ 1 < ver.toNat ∨
      600 < win.toNat ∨ ¬Window.apart ⟨s0.toNat, s1.toNat⟩ ⟨z0.toNat, z1.toNat⟩ ∨
      ¬Window.apart ⟨s0.toNat, s1.toNat⟩ ⟨o0.toNat, o1.toNat⟩ ∨
      ¬Window.apart ⟨z0.toNat, z1.toNat⟩ ⟨o0.toNat, o1.toNat⟩) :
    (readLineSet [line, ov, row, limit, pol, fil, tick, s0, s1, z0, z1, o0, o1, ver, win]).bind LineSetFields.settings =
      none := by
  rw [word_eq_zero_iff, word_eq_zero_iff] at refused
  simp only [← Window.overlaps_iff] at refused
  simp only [readLineSet, Option.bind_some, LineSetFields.settings]
  split
  · next l inverted filter verification hl hp hf hv =>
    have codes : ¬1 < line.toNat ∧ ¬1 < pol.toNat ∧ ¬1 < fil.toNat ∧ ¬1 < ver.toNat := by
      refine ⟨fun bad => ?_, fun bad => ?_, fun bad => ?_, fun bad => ?_⟩
      · exact absurd hl (by rw [Line.ofCode_of_lt bad]; nofun)
      · exact absurd hp (by rw [twoOfCode_of_lt bad]; nofun)
      · exact absurd hf (by rw [twoOfCode_of_lt bad]; nofun)
      · exact absurd hv (by rw [twoOfCode_of_lt bad]; nofun)
    obtain ⟨okLine, okPolarity, okFilter, okVerification⟩ := codes
    refine if_pos ?_
    simp only [okLine, okPolarity, okFilter, okVerification, false_or] at refused
    tauto
  · rfl

end

/-! ## The settings written (R146, R186) -/

/-- The state with a line's settings written, before the overdue test: an IDLE decoder takes the mark settings at once. -/
def State.lineWritten (s : State) (l : Line) (y : LineSettings) : State :=
  { s with
    settings := s.settings.set l y
    decoders := if (s.decoder l).strip.isNone then s.decoders.set l ((s.decoder l).adopt y.mark) else s.decoders }

section
variable {s : State} {l : Line} {y : LineSettings}

theorem State.setLine_eq : s.setLine l y = (s.lineWritten l y).overdueTest l := by
  have decoder : { s with settings := s.settings.set l y }.decoder l = s.decoder l := rfl
  unfold State.setLine State.lineWritten
  simp only [decoder]
  split <;> rfl

theorem State.lineWritten_verifyWindow : ((s.lineWritten l y).lineSettings l).verifyWindow = y.verifyWindow :=
  congrArg LineSettings.verifyWindow (Lines.get_set_self s.settings l y)

theorem State.lineWritten_decoder_other : (s.lineWritten l y).decoder l.other = s.decoder l.other := by
  have other : l.other ≠ l := by cases l <;> nofun
  unfold State.lineWritten State.decoder
  split
  · exact Lines.get_set_of_ne s.decoders _ other
  · rfl

theorem State.lineWritten_decoder_reading (reading : (s.decoder l).strip ≠ none) :
    (s.lineWritten l y).decoder l = s.decoder l :=
  congrArg (Lines.get · l) (if_neg (mt Option.isNone_iff_eq_none.mp reading))

theorem State.lineWritten_decoder_idle (idle : (s.decoder l).strip = none) :
    (s.lineWritten l y).decoder l = (s.decoder l).adopt y.mark :=
  (congrArg (Lines.get · l) (if_pos (Option.isNone_iff_eq_none.mpr idle))).trans (Lines.get_set_self _ l _)

theorem exec_lineSet {x : LineSettings} (running : s.resetAsserted = false) (h : x.acceptable) :
    exec (.lineSet (codeIn [Line.a, .b] l :: x.asRead)) s =
      .next ((s.setLine l x.stored).setReply .plan (Reply.ok x.stored.asRead)) := by
  unfold exec
  refine State.request_answers running ?_
  simp only [readLineSet_accepted l h, LineSettings.words_eq_asRead]

theorem exec_lineSet_refused {ws : List Word} (running : s.resetAsserted = false)
    (refused : (readLineSet ws).bind LineSetFields.settings = none) :
    exec (.lineSet ws) s = .next (s.setReply .plan (Reply.bare .badValue)) := by
  unfold exec
  refine State.request_answers running ?_
  simp only [refused]

end

/-! ## Mark settings taken into force (R146) -/

section
variable (d : Decoder) (m : MarkTiming)

theorem Decoder.adopt_of_same (same : d.inForce.inverted = m.inverted ∧ d.inForce.filter = m.filter ∧ d.inForce.tick = m.tick) :
    d.adopt m = { d with inForce := m } := by
  obtain ⟨inverted, filter, tick⟩ := same
  exact if_pos ⟨inverted.symm, filter.symm, tick.symm⟩

theorem Decoder.adopt_of_differ
    (differ : d.inForce.inverted ≠ m.inverted ∨ d.inForce.filter ≠ m.filter ∨ d.inForce.tick ≠ m.tick) :
    d.adopt m = { d with inForce := m, seen := none, filterCount := 0 } := by
  refine if_neg ?_
  rintro ⟨inverted, filter, tick⟩
  rcases differ with h | h | h
  · exact h inverted.symm
  · exact h filter.symm
  · exact h tick.symm

theorem Decoder.adopt_keeps : (d.adopt m).inForce = m ∧ (d.adopt m).strip = d.strip ∧ (d.adopt m).count = d.count := by
  unfold Decoder.adopt
  simp only
  split <;> exact ⟨rfl, rfl, rfl⟩

end

/-- Settles O36: the settings are written, and the overdue test removes the heads they make overdue. -/
theorem lineSetWritesTheLine : Obligations.LineSetWritesTheLine := by
  refine ⟨fun s line ov row limit pol fil tick s0 s1 z0 z1 o0 o1 ver win running refused =>
    exec_lineSet_refused running (readLineSet_refused refused), ?_⟩
  rintro s l x y gone kept running acceptable rfl split
  have answered := exec_lineSet (l := l) running acceptable
  rw [State.setLine_eq, State.overdueTest_eq (s := s.lineWritten l x.stored) (gone := gone) (kept := kept)
    (by rw [State.lineWritten_verifyWindow]; exact split)] at answered
  have settled := ((s.lineWritten l x.stored).loseAll_overdueSettled gone)
  have frame := (s.lineWritten l x.stored).loseAll_frame gone
  generalize (s.lineWritten l x.stored).loseAll gone = m at answered settled frame
  have decoders : m.decoders = (s.lineWritten l x.stored).decoders := by rw [frame]
  have other : l.other ≠ l := by cases l <;> nofun
  have mark : x.stored.mark = x.mark := rfl
  refine ⟨_, answered, ?_, ?_, fun reading => ?_, fun idle => ?_, ?_, ?_, ?_, ?_, ?_⟩
  · rw [frame]; rfl
  · exact (congrArg (Lines.get · l.other) decoders).trans State.lineWritten_decoder_other
  · exact (congrArg (Lines.get · l) decoders).trans (State.lineWritten_decoder_reading reading)
  · have decoder := (congrArg (Lines.get · l) decoders).trans (State.lineWritten_decoder_idle idle)
    obtain ⟨inForce, strip, count⟩ := (s.decoder l).adopt_keeps x.mark
    refine ⟨(congrArg Decoder.inForce decoder).trans inForce, (congrArg Decoder.strip decoder).trans (strip.trans idle),
      (congrArg Decoder.count decoder).trans count, fun same => ?_, fun differ => ?_⟩
    · rw [mark, Decoder.adopt_of_same _ _ same] at decoder
      exact ⟨(congrArg Decoder.seen decoder).trans rfl, (congrArg Decoder.filterCount decoder).trans rfl⟩
    · rw [mark, Decoder.adopt_of_differ _ _ differ] at decoder
      exact ⟨congrArg Decoder.seen decoder, congrArg Decoder.filterCount decoder⟩
  · exact Lines.get_set_self s.queues l kept
  · exact Lines.get_set_of_ne s.queues kept other
  · exact (State.overdueSettled.of_under settled).congr ⟨rfl, rfl, rfl, rfl, rfl, rfl, rfl, rfl⟩
  · rw [State.replies_setReply, frame]; rfl
  · rw [frame]; rfl

end Sys2Proof.Machine
end

section
/-! RUNS rows (spec/03, R50), the arbiter (spec/07, R122, R123) and ROWS READ (spec/07, R130 to R133). -/

namespace Sys2Proof.Machine

open Sys2Proof

/-! ## The row of a RUNS record (R50) -/

theorem buildRow_length (vs : List Nat) (left : Nat) (ink : Bool) : (buildRow left ink vs).length = left := by
  induction vs generalizing left ink with
  | nil => exact List.length_replicate
  | cons v vs ih =>
    rw [buildRow, List.length_append, List.length_replicate, ih]
    omega

theorem buildRow_cons_of_lt {left x v : Nat} (ink : Bool) (vs : List Nat) (inside : x < left) (run : x < v) :
    (buildRow left ink (v :: vs))[x]? = some ink := by
  rw [buildRow, List.getElem?_append_left (by rw [List.length_replicate]; omega), List.getElem?_replicate,
    if_pos (by omega)]

theorem buildRow_cons_of_le {left x v : Nat} (ink : Bool) (vs : List Nat) (inside : x < left) (later : v ≤ x) :
    (buildRow left ink (v :: vs))[x]? = (buildRow (left - v) (!ink) vs)[x - v]? := by
  rw [buildRow, List.getElem?_append_right (by rw [List.length_replicate]; omega), List.length_replicate,
    Nat.min_eq_left (by omega)]

/-- The dots of run k have the colour of the first run where k is even, and the other where it is odd. -/
theorem buildRow_run (vs : List Nat) (ink : Bool) {left k x : Nat} (inside : x < left) (start : (vs.take k).sum ≤ x)
    (stop : x < (vs.take (k + 1)).sum) : (buildRow left ink vs)[x]? = some (ink != decide (k % 2 = 1)) := by
  induction vs generalizing left ink k x with
  | nil => simp at stop
  | cons v vs ih =>
    rw [List.take_succ_cons, List.sum_cons] at stop
    cases k with
    | zero =>
      rw [buildRow_cons_of_lt ink vs inside (by simpa using stop)]
      simp
    | succ k =>
      rw [List.take_succ_cons, List.sum_cons] at start
      rw [buildRow_cons_of_le ink vs inside (by omega), ih (!ink) (k := k) (by omega) (by omega) (by omega)]
      have parity : decide ((k + 1) % 2 = 1) = !decide (k % 2 = 1) := by
        rw [← decide_not, decide_eq_decide]
        omega
      rw [parity]
      cases ink <;> simp

/-- The dots beyond the last run are white. -/
theorem buildRow_beyond (vs : List Nat) (ink : Bool) {left x : Nat} (inside : x < left) (beyond : vs.sum ≤ x) :
    (buildRow left ink vs)[x]? = some false := by
  induction vs generalizing left ink x with
  | nil => exact List.getElem?_replicate.trans (if_pos inside)
  | cons v vs ih =>
    rw [List.sum_cons] at beyond
    rw [buildRow_cons_of_le ink vs inside (by omega)]
    exact ih (!ink) (by omega) (by omega)

/-- Settles O29, by induction on the runs. -/
theorem runsAlternateWithinTheWidth : Obligations.RunsAlternateWithinTheWidth := fun w vs =>
  ⟨buildRow_length vs w false,
    fun k x inside start stop => (buildRow_run vs false inside start stop).trans (by rw [Bool.false_bne]),
    fun x inside beyond => buildRow_beyond vs false inside beyond⟩

/-! ## The arbiter's choice (R122, R123) -/

section
variable {s : State} {l : Line}

theorem Line.other_eq_iff (k l : Line) : k.other = l ↔ l ≠ k := by cases k <;> cases l <;> decide

theorem State.arbiterPicks_iff (asks : s.requests l) :
    s.arbiterPicks l ↔ (s.requests l.other → s.chosenOfBoth = l) := by
  unfold State.arbiterPicks State.chosenOfBoth
  rw [and_iff_right asks]
  refine imp_congr_right fun _ => ?_
  cases s.mode with
  | fixed => exact eq_comm
  | rotating => exact (Line.other_eq_iff s.lastChosen l).symm
  | leastFilled =>
    simp only [Channel.filledCount_eq]
    change _ ↔ (if (s.channel .a).slotsFilled < (s.channel .b).slotsFilled then Line.a
      else if (s.channel .b).slotsFilled < (s.channel .a).slotsFilled then Line.b else s.lastChosen.other) = l
    rcases Nat.lt_trichotomy (s.channel .a).slotsFilled (s.channel .b).slotsFilled with less | equal | more
    · rw [if_pos less]
      cases l <;> simp [Line.other] <;> omega
    · rw [if_neg (by omega), if_neg (by omega), Line.other_eq_iff]
      cases l <;> simp [Line.other, equal]
    · rw [if_neg (by omega), if_pos more]
      cases l <;> simp [Line.other] <;> omega

theorem State.chosen_of_both (first : s.requests .a) (second : s.requests .b) : s.chosen = some s.chosenOfBoth := by
  simp only [State.chosen, (s.renderRequest_iff .a).mpr first, (s.renderRequest_iff .b).mpr second]

theorem State.chosen_of_one (asks : s.requests l) (alone : ¬s.requests l.other) : s.chosen = some l := by
  have request := (s.renderRequest_iff l).mpr asks
  have none := Bool.eq_false_iff.mpr (mt (s.renderRequest_iff l.other).mp alone)
  cases l
  · simp only [State.chosen, request, show s.renderRequest .b = false from none]
  · simp only [State.chosen, request, show s.renderRequest .a = false from none]

theorem State.chosen_of_none (first : ¬s.requests .a) (second : ¬s.requests .b) : s.chosen = none := by
  simp only [State.chosen, Bool.eq_false_iff.mpr (mt (s.renderRequest_iff .a).mp first),
    Bool.eq_false_iff.mpr (mt (s.renderRequest_iff .b).mp second)]

theorem State.arbiterPicks.chosen (picks : s.arbiterPicks l) : s.chosen = some l := by
  obtain ⟨asks, -⟩ := id picks
  by_cases other : s.requests l.other
  · have preferred := (State.arbiterPicks_iff asks).mp picks other
    rw [← preferred]
    cases l
    · exact State.chosen_of_both asks other
    · exact State.chosen_of_both other asks
  · exact State.chosen_of_one asks other

theorem State.exists_arbiterPicks (asks : s.requests .a ∨ s.requests .b) : ∃ l, s.arbiterPicks l := by
  by_cases first : s.requests .a
  · by_cases second : s.requests .b
    · refine ⟨s.chosenOfBoth, (State.arbiterPicks_iff ?_).mpr fun _ => rfl⟩
      cases s.chosenOfBoth
      · exact first
      · exact second
    · exact ⟨.a, (State.arbiterPicks_iff first).mpr fun second' => absurd second' second⟩
  · have second := asks.resolve_left first
    exact ⟨.b, (State.arbiterPicks_iff second).mpr fun first' => absurd first' first⟩

end

/-- Settles O53: the arbiter picks the line that the machine chooses. -/
theorem arbiterGivesTheEngineByItsMode : Obligations.ArbiterGivesTheEngineByItsMode := by
  refine fun s running idle => ⟨?_, State.exists_arbiterPicks, fun first second => ?_⟩
  · rintro l c picks rfl
    unfold exec
    refine (State.event_running s _ running).trans ?_
    simp only [idle, picks.chosen]
    rfl
  · unfold exec
    refine (State.event_running s _ running).trans ?_
    simp only [idle, State.chosen_of_none first second]

/-! ## ROWS READ (R130, R131, R133) -/

section
variable {s : State} {l : Line} {e : Exposure} {r : Plate} {h : Fin 64} {p : Page}

theorem State.exposes.loadedPage (x : s.exposes l e r h p) : s.loadedPage l = some (r, p) := by
  obtain ⟨exposure, plate, handle, page⟩ := x
  simp only [State.loadedPage, exposure, Option.bind_some, plate, handle, page, Option.map_some]

theorem exec_rowsRead_bad_count {nw : Word} (running : s.resetAsserted = false) (bad : nw.toNat < 1 ∨ 8 < nw.toNat) :
    exec (.rowsRead l [nw]) s = .next (s.setReply l.imagePort (Reply.bare .badValue)) := by
  unfold exec
  exact State.request_answers running (if_pos bad)

theorem exec_rowsRead_not_running {nw : Word} (running : s.resetAsserted = false) (low : 1 ≤ nw.toNat) (high : nw.toNat ≤ 8)
    (not : ∀ e, (s.channel l).exposure = some e → e.phase ≠ .running) :
    exec (.rowsRead l [nw]) s = .next (s.setReply l.imagePort (Reply.bare .state)) := by
  unfold exec
  refine State.request_answers running ((if_neg (by omega)).trans ?_)
  split
  · next e r p exposure _ => exact if_neg (not e exposure)
  · rfl

theorem exec_rowsRead_running {n : Nat} {t : State} {reply : Reply} (running : s.resetAsserted = false)
    (x : s.exposes l e r h p) (phase : e.phase = .running) (low : 1 ≤ n) (high : n ≤ 8)
    (read : s.readRows l e p n = (t, reply)) :
    exec (.rowsRead l [word n]) s = .next (t.setReply l.imagePort reply) := by
  have count : (word n).toNat = n := toNat_word (by omega)
  unfold exec
  refine State.request_answers running ((if_neg (by omega)).trans ?_)
  simp only [x.1, x.loadedPage, phase, if_true, count, read]

theorem Slot.readTo_eq (y : Nat) (x : Slot) : x.readTo y =
    match x with
    | .filled b rows => if 256 * b + rows.length ≤ y then .free else .filled b rows
    | _ => x := by
  cases x <;> rfl

/-- What ROWS READ makes of the rows that stand ready, before an underrun. -/
theorem State.readRows_of_ready {n : Nat} {rows : List Row} (underrun : (s.channel l).underrun = false)
    (ready : (s.channel l).rowsFrom n (s.channel l).rowsDelivered = rows) (some : 0 < rows.length) :
    s.readRows l e p n = (s.setChannel l ((s.channel l).deliver e rows.length p.height),
      rowsReply (s.channel l).rowsDelivered false rows) := by
  have present : rows.isEmpty = false := by cases rows with
    | nil => simp at some
    | cons => rfl
  simp only [State.readRows, underrun, ready, present, Bool.false_eq_true, if_false]

theorem State.readRows_of_none {n : Nat} (underrun : (s.channel l).underrun = false)
    (ready : (s.channel l).rowsFrom n (s.channel l).rowsDelivered = []) :
    s.readRows l e p n = (s.setChannel l { s.channel l with
        stall := some ((s.channel l).stall.getD { elapsed := 0, limit := (s.lineSettings l).stallLimit }) },
      Reply.bare .notReady) := by
  simp only [State.readRows, underrun, ready, List.isEmpty_nil, Bool.false_eq_true, if_false, if_true]

theorem State.readRows_of_underrun {n : Nat} (underrun : (s.channel l).underrun = true) :
    s.readRows l e p n =
      (s.setChannel l ((s.channel l).deliver e (min n (p.height - (s.channel l).rowsDelivered)) p.height),
        rowsReply (s.channel l).rowsDelivered true
          (List.replicate (min n (p.height - (s.channel l).rowsDelivered)) (whiteRow p.width))) := by
  simp only [State.readRows, underrun, if_true]

end

/-- Settles O48, by the underrun flag and whether a row stands ready. -/
theorem rowsReadDeliversRows : Obligations.RowsReadDeliversRows := by
  refine ⟨fun s l nw running => ⟨exec_rowsRead_bad_count running, exec_rowsRead_not_running running⟩,
    Channel.rowAt_eq_some_iff, Slot.readTo_eq, rowWords_dot, ?_⟩
  rintro s l e r h p n m rows c running x phase low high rfl rfl ready stop fits
  have rowsFrom := (s.channel l).rowsFrom_eq rows n (s.channel l).rowsDelivered fits ready stop
  have delivered (k : Nat) : (s.channel l).deliver e k p.height = { s.channel l with
      rowsDelivered := (s.channel l).rowsDelivered + k, stall := none
      ring := (s.channel l).ring.map (Slot.readTo ((s.channel l).rowsDelivered + k))
      exposure := some { e with phase := if p.height ≤ (s.channel l).rowsDelivered + k then .finishing else .running } } := by
    rw [Channel.deliver, phase]
  refine ⟨fun underrun some => ?_, fun underrun none => ?_, ?_⟩
  · rw [exec_rowsRead_running running x phase low high (State.readRows_of_ready underrun rowsFrom some), delivered]
    rfl
  · obtain rfl := List.length_eq_zero_iff.mp none
    exact exec_rowsRead_running running x phase low high (State.readRows_of_none underrun rowsFrom)
  · rintro underrun w rfl
    rw [exec_rowsRead_running running x phase low high (State.readRows_of_underrun underrun), delivered, rowsReply,
      List.length_replicate]
    rfl

end Sys2Proof.Machine
end

section
/-! The stall timers (spec/07, R131, R132). -/

namespace Sys2Proof.Machine

open Sys2Proof

/-! ## Underrun (R125, R132) -/

section
variable {s : State} {l : Line}

theorem State.taskOf_eq_true {s : State} {l : Line} (h : s.taskOf l = true) :
    ∃ b, s.engine = some { line := l, band := b, discarded := false } := by
  unfold State.taskOf at h
  split at h
  · next t engine =>
    obtain ⟨line, band, discarded⟩ := t
    simp only [Bool.and_eq_true, beq_iff_eq, Bool.not_eq_true'] at h
    obtain ⟨rfl, rfl⟩ := h
    exact ⟨band, engine⟩
  · cases h

theorem State.underrun_channel (s : State) (l : Line) : (s.underrun l).channel l =
    { s.channel l with
      underrun := true, stall := none, ring := (s.channel l).ring.map Slot.emptied
      context := if s.taskOf l then lostContext s.freeCount else (s.channel l).context } :=
  Lines.get_set_self s.channels l _

theorem State.underrun_channel_other (s : State) (l : Line) : (s.underrun l).channel l.other = s.channel l.other :=
  Lines.get_set_of_ne s.channels _ (by cases l <;> nofun)

theorem Slot.emptied_eq : Slot.emptied = fun
    | .rendering b => .rendering b
    | _ => .free := by
  funext x
  cases x <;> rfl

theorem State.underrun_underran (s : State) (l : Line) : s.underran (s.underrun l) l := by
  unfold State.underran
  rw [State.underrun_channel, Slot.emptied_eq]
  refine ⟨rfl, fun idle => if_neg fun task => ?_⟩
  obtain ⟨b, engine⟩ := State.taskOf_eq_true task
  exact idle b engine

/-! ## One millisecond (R131) -/

/-- A stall timer reaches its limit at the next millisecond. -/
def Channel.stalls (c : Channel) : Bool := c.stall.any fun x => decide (x.limit ≤ x.elapsed + 1)

theorem State.countStall_of_stopped (stopped : (s.channel l).stall = none) : s.countStall l = s := by
  simp only [State.countStall, stopped]

theorem State.countStall_of_running {x : StallTimer} (timer : (s.channel l).stall = some x) (running : x.elapsed + 1 < x.limit) :
    s.countStall l = s.setChannel l { s.channel l with stall := some { x with elapsed := x.elapsed + 1 } } := by
  simp only [State.countStall, timer, if_neg (Nat.not_le.mpr running)]

theorem State.countStall_of_due {x : StallTimer} (timer : (s.channel l).stall = some x) (due : x.limit ≤ x.elapsed + 1) :
    s.countStall l = s.underrun l := by
  simp only [State.countStall, timer, if_pos due]

theorem State.countStall_of_stalls (stalls : (s.channel l).stalls = true) : s.countStall l = s.underrun l := by
  obtain ⟨x, timer, due⟩ := (Option.any_eq_true _ _).mp stalls
  exact State.countStall_of_due timer (of_decide_eq_true due)

/-- Where the timer does not expire, at most the channel's count changes. -/
theorem State.countStall_of_not_stalls (not : (s.channel l).stalls = false) :
    ∃ c, s.countStall l = s.setChannel l c := by
  cases timer : (s.channel l).stall with
  | none =>
    refine ⟨s.channel l, (State.countStall_of_stopped timer).trans ?_⟩
    cases s; cases l <;> rfl
  | some x =>
    rw [Channel.stalls, timer] at not
    exact ⟨_, State.countStall_of_running timer (Nat.not_le.mp (of_decide_eq_false not))⟩

theorem State.countStall_channel_other (s : State) (l : Line) : (s.countStall l).channel l.other = s.channel l.other := by
  cases stalls : (s.channel l).stalls with
  | true =>
    rw [State.countStall_of_stalls stalls]
    exact State.underrun_channel_other s l
  | false =>
    obtain ⟨c, e⟩ := State.countStall_of_not_stalls stalls
    rw [e]
    exact State.channel_setChannel_of_ne s c (by cases l <;> nofun)

theorem State.countStall_engine (s : State) (l : Line) : (s.countStall l).engine = s.engine.map fun k =>
    if k.line = l ∧ (s.channel l).stalls = true then { k with discarded := true } else k := by
  cases stalls : (s.channel l).stalls with
  | true =>
    rw [State.countStall_of_stalls stalls]
    simp only [and_true]
    rfl
  | false =>
    obtain ⟨c, e⟩ := State.countStall_of_not_stalls stalls
    rw [e]
    simp

theorem State.countStall_frame (s : State) (l : Line) : s.countStall l =
    { s with
      channels := (s.countStall l).channels, engine := (s.countStall l).engine, freeCount := (s.countStall l).freeCount } := by
  cases stalls : (s.channel l).stalls with
  | true => rw [State.countStall_of_stalls stalls]; rfl
  | false =>
    obtain ⟨c, e⟩ := State.countStall_of_not_stalls stalls
    rw [e]; rfl

end

/-- What one millisecond does to one channel, and to a task in flight for it. -/
structure State.stallCounted (s t : State) (l : Line) : Prop where
  stopped : (s.channel l).stall = none → t.channel l = s.channel l
  running : ∀ x, (s.channel l).stall = some x → x.elapsed + 1 < x.limit →
    t.channel l = { s.channel l with stall := some { x with elapsed := x.elapsed + 1 } }
  due : ∀ x, (s.channel l).stall = some x → x.limit ≤ x.elapsed + 1 → s.underran t l

section
variable {s t u : State} {l : Line}

theorem State.countStall_counted (s : State) (l : Line) : s.stallCounted (s.countStall l) l where
  stopped stopped := by rw [State.countStall_of_stopped stopped]
  running x timer running := by
    rw [State.countStall_of_running timer running]
    exact State.channel_setChannel_self s l _
  due x timer due := by
    rw [State.countStall_of_due timer due]
    exact State.underrun_underran s l

/-- What is said of one channel is said of any state that agrees with the result on it. -/
theorem State.stallCounted.congr_after (h : s.stallCounted t l) (same : u.channel l = t.channel l) : s.stallCounted u l where
  stopped e := same.trans (h.stopped e)
  running x e r := same.trans (h.running x e r)
  due x e d := by
    unfold State.underran
    rw [same]
    exact h.due x e d

/-- Where the other line's task is all that differs before, the same is said of the state before. -/
theorem State.stallCounted.congr_before (h : u.stallCounted t l) (same : u.channel l = s.channel l)
    (task : (∀ b, s.engine ≠ some { line := l, band := b, discarded := false }) →
      ∀ b, u.engine ≠ some { line := l, band := b, discarded := false }) : s.stallCounted t l where
  stopped e := (h.stopped (same ▸ e)).trans same
  running x e r := same ▸ h.running x (same ▸ e) r
  due x e d := by
    obtain ⟨channel, context⟩ := h.due x (same ▸ e) d
    rw [same] at channel context
    exact ⟨channel, fun none => context (task none)⟩

end

theorem State.millisecond_counted (s : State) : ∀ l, s.stallCounted ((s.countStall .a).countStall .b) l := by
  refine Line.forall_iff.mpr ⟨?_, ?_⟩
  · exact (s.countStall_counted .a).congr_after ((s.countStall .a).countStall_channel_other .b)
  · refine ((s.countStall .a).countStall_counted .b).congr_before (s.countStall_channel_other .a) fun none b task => ?_
    rw [State.countStall_engine] at task
    obtain ⟨k, engine, changed⟩ := Option.map_eq_some_iff.mp task
    by_cases mine : k.line = .a ∧ (s.channel .a).stalls = true
    · rw [if_pos mine] at changed
      exact absurd (congrArg Task.discarded changed) nofun
    · rw [if_neg mine] at changed
      exact none b (changed ▸ engine)

theorem State.millisecond_engine (s : State) : ((s.countStall .a).countStall .b).engine = s.engine.map fun k =>
    if (s.channel k.line).stalls = true then { k with discarded := true } else k := by
  have other : (s.countStall .a).channel .b = s.channel .b := s.countStall_channel_other .a
  rw [State.countStall_engine, State.countStall_engine, other, Option.map_map]
  congr 1
  funext k
  obtain ⟨line, band, discarded⟩ := k
  cases line
  · simp [apply_ite Task.line]
  · simp

theorem step_millisecond {s : State} (waiting : s.pending = []) : step s = .next s.millisecond := by
  simp only [step, waiting]

/-- Settles O49: the expiry of one timer, and the two timers of a millisecond one after the other. -/
theorem stallTimerExpiryUnderruns : Obligations.StallTimerExpiryUnderruns := by
  refine ⟨fun s l x running timer => ?_, fun s waiting => ⟨fun asserted => ?_, fun running => ?_⟩⟩
  · have expired : exec (.stallTimerExpiry l) s = .next (s.underrun l) := by
      unfold exec
      refine (State.event_running s _ running).trans ?_
      rw [timer]; rfl
    exact ⟨_, expired, s.underrun_underran l, s.underrun_channel_other l, rfl, rfl⟩
  · rw [step_millisecond waiting, State.millisecond, if_pos asserted]
  · have counted := s.millisecond_counted
    refine ⟨(s.countStall .a).countStall .b, ?_, fun l => (counted l).stopped, fun l => (counted l).running,
      fun l => (counted l).due, s.millisecond_engine, ?_⟩
    · rw [step_millisecond waiting, State.millisecond, running]; rfl
    · rw [State.countStall_frame, State.countStall_frame s]

end Sys2Proof.Machine
end

section
/-! PROOF. The mark code: its fields stand at the bits of R194, and a code reads back as its identity (R154, R155). -/

namespace Sys2Proof.Machine

open Sys2Proof

/-! ## The fields of a code -/

/-- The fields of a code, the last the lowest, are the bits at their places (R194). -/
theorem fields_of_append (chk : BitVec 10) (index : BitVec 3) (sep : BitVec 2) (page : BitVec 8) (sect : BitVec 5)
    (edition : BitVec 4) (serial : BitVec 16) (c : BitVec 48)
    (code : c = chk ++ index ++ sep ++ page ++ sect ++ edition ++ serial) :
    c.extractLsb' 0 16 = serial ∧ c.extractLsb' 16 4 = edition ∧ c.extractLsb' 20 5 = sect ∧
      c.extractLsb' 25 8 = page ∧ c.extractLsb' 33 2 = sep ∧ c.extractLsb' 35 3 = index ∧
      c.extractLsb' 38 10 = chk := by
  subst code
  refine ⟨?_, ?_, ?_, ?_, ?_, ?_, ?_⟩
  · rw [BitVec.extractLsb'_append_eq_right]
  · rw [BitVec.extractLsb'_append_eq_of_le (by omega), BitVec.extractLsb'_append_eq_right]
  · iterate 2 rw [BitVec.extractLsb'_append_eq_of_le (by omega)]
    rw [BitVec.extractLsb'_append_eq_right]
  · iterate 3 rw [BitVec.extractLsb'_append_eq_of_le (by omega)]
    rw [BitVec.extractLsb'_append_eq_right]
  · iterate 4 rw [BitVec.extractLsb'_append_eq_of_le (by omega)]
    rw [BitVec.extractLsb'_append_eq_right]
  · iterate 5 rw [BitVec.extractLsb'_append_eq_of_le (by omega)]
    rw [BitVec.extractLsb'_append_eq_right]
  · iterate 6 rw [BitVec.extractLsb'_append_eq_of_le (by omega)]
    rw [BitVec.extractLsb'_eq_self]

theorem Sep.code_eq_idxOf (sep : Sep) : sep.code = sepList.idxOf sep := by cases sep <;> rfl

theorem sepOfBits_code (sep : Sep) : sepOfBits (BitVec.ofNat 2 sep.code) = sep := by cases sep <;> rfl

theorem sepList_getElem_sepOfBits (b : BitVec 2) : sepList[b.toNat]? = some (sepOfBits b) := by
  revert b; decide

/-- The fields of an identity's code (R154, R194). -/
theorem MarkIdentity.code_fields (m : MarkIdentity) :
    m.code.extractLsb' 0 16 = BitVec.ofNat 16 m.serial ∧
      m.code.extractLsb' 16 4 = BitVec.ofNat 4 m.label.edition.val ∧
      m.code.extractLsb' 20 5 = BitVec.ofNat 5 m.label.section_.val ∧
      m.code.extractLsb' 25 8 = BitVec.ofNat 8 m.label.page.val ∧
      m.code.extractLsb' 33 2 = BitVec.ofNat 2 m.sep.code ∧
      m.code.extractLsb' 35 3 = BitVec.ofNat 3 m.index ∧ m.code.extractLsb' 38 10 = BitVec.ofNat 10 m.check :=
  fields_of_append _ _ _ _ _ _ _ _ rfl

/-- The code of an identity within the ranges of its fields reads back as the identity (R154). -/
theorem markIdentity_code (m : MarkIdentity) (serial : m.serial ≤ 65535) (index : m.index ≤ 7) :
    markIdentity m.code = m := by
  obtain ⟨serialBits, editionBits, sectionBits, pageBits, sepBits, indexBits, _⟩ := m.code_fields
  obtain ⟨n, ⟨e, t, p⟩, sep, i⟩ := m
  unfold markIdentity
  rw [serialBits, editionBits, sectionBits, pageBits, sepBits, indexBits, sepOfBits_code]
  have serialBack : n % 2 ^ 16 = n := Nat.mod_eq_of_lt (by simp only at serial; omega)
  have indexBack : i % 2 ^ 3 = i := Nat.mod_eq_of_lt (by simp only at index; omega)
  simp only [BitVec.toNat_ofNat, serialBack, indexBack, MarkIdentity.mk.injEq, Label.mk.injEq, and_true, true_and]
  exact ⟨Fin.ext (Nat.mod_eq_of_lt e.isLt), Fin.ext (Nat.mod_eq_of_lt t.isLt), Fin.ext (Nat.mod_eq_of_lt p.isLt)⟩

/-- The check field of an identity's code is its check (R154, R194). -/
theorem markCheck_code (m : MarkIdentity) : markCheck m.code = m.check := by
  obtain ⟨_, _, _, _, _, _, checkBits⟩ := m.code_fields
  unfold markCheck
  rw [checkBits, BitVec.toNat_ofNat]
  exact Nat.mod_eq_of_lt (Nat.mod_lt _ (by omega))

/-! ## The bits of a run -/

/-- The number whose bits are those of a list, the first the lowest, has them in its places. -/
theorem testBit_foldr_bits (bits : List Bool) (i : Nat) :
    (bits.foldr (fun (b : Bool) n => 2 * n + b.toNat) 0).testBit i = bits.getD i false := by
  induction bits generalizing i with
  | nil => simp
  | cons b bits ih =>
    cases i with
    | zero => cases b <;> simp [Nat.testBit_zero]
    | succ i =>
      have half : (2 * bits.foldr (fun (b : Bool) n => 2 * n + b.toNat) 0 + b.toNat) / 2 =
          bits.foldr (fun (b : Bool) n => 2 * n + b.toNat) 0 := by have := b.toNat_lt; omega
      simpa [Nat.testBit_succ, half] using ih i

/-- A run of a code's bits reads back as the code (R152). -/
theorem Run.code_of_bits (r : Run) (c : BitVec 48) (bits : r.bits = (List.range 48).map c.getLsbD) : r.code = c := by
  apply BitVec.eq_of_getLsbD_eq
  intro i low
  unfold Run.code
  rw [BitVec.getLsbD_ofNat, testBit_foldr_bits, bits]
  simp [-BitVec.getLsbD_eq_getElem, List.getD_eq_getElem?_getD, low]

/-- A run of an identity's code with neither marker is valid (R155). -/
theorem Run.valid_of_code (m : MarkIdentity) (serial : m.serial ≤ 65535) (index : m.index ≤ 7) (r : Run)
    (bits : r.bits = (List.range 48).map m.code.getLsbD) (clean : r.barFault = false) (short : r.overlong = false) :
    r.valid = true := by
  have length : r.bits.length = 48 := by rw [bits, List.length_map, List.length_range]
  have checks : markCheck r.code = (markIdentity r.code).check := by
    rw [r.code_of_bits m.code bits, markIdentity_code m serial index, markCheck_code]
  simp only [Run.valid, length, clean, short, checks, beq_self_eq_true, Bool.not_false, Bool.and_true]

/-- Settles O55: the code is the concatenation of its fields, and a code's bits, read back, are the code. -/
theorem markCodesReadBack : Obligations.MarkCodesReadBack := by
  unfold Obligations.MarkCodesReadBack
  refine ⟨fun c => ⟨rfl, rfl, rfl, rfl, sepList_getElem_sepOfBits _, rfl, rfl⟩, fun m r serial index => ?_⟩
  obtain ⟨serialBits, editionBits, sectionBits, pageBits, sepBits, indexBits, checkBits⟩ := m.code_fields
  rw [← Sep.code_eq_idxOf]
  refine ⟨serialBits, editionBits, sectionBits, pageBits, sepBits, indexBits, checkBits,
    markIdentity_code m serial index, markCheck_code m, ?_⟩
  rintro rfl
  exact ⟨Run.valid_of_code m serial index _ rfl rfl rfl, Run.code_of_bits _ _ rfl⟩

end Sys2Proof.Machine
end

section
/-! PROOF. Mark ticks: the level seen at a sample, the bars measured, and what a tick does in IDLE and in a strip (R147
to R153, R155, R156). -/

namespace Sys2Proof.Machine

open Sys2Proof

/-! ## The level seen at a sample (R147) -/

section See

variable {d : Decoder} {level sample v : Bool} (sampled : sample = (level != d.inForce.inverted))

include sampled

theorem Decoder.see_of_afresh (seen : d.seen = none) :
    d.see level = ({ d with seen := some sample, filterCount := 0 }, false) := by
  subst sampled
  simp only [Decoder.see, seen]

theorem Decoder.see_of_unfiltered (seen : d.seen = some v) (filter : d.inForce.filter = false) :
    d.see level = ({ d with seen := some sample }, sample && !v) := by
  subst sampled
  simp only [Decoder.see, seen, filter, Bool.false_eq_true, if_false]

theorem Decoder.see_of_no_edge (seen : d.seen = some v) (filter : d.inForce.filter = false)
    (quiet : sample = false ∨ v = true) : d.see level = ({ d with seen := some sample }, false) := by
  have no_edge : (sample && !v) = false := by
    rcases quiet with low | high
    · rw [low, Bool.false_and]
    · rw [high, Bool.not_true, Bool.and_false]
  rw [Decoder.see_of_unfiltered sampled seen filter, no_edge]

theorem Decoder.see_of_same (seen : d.seen = some v) (filter : d.inForce.filter = true) (same : sample = v) :
    d.see level = ({ d with filterCount := 0 }, false) := by
  subst sampled
  simp only [Decoder.see, seen, filter, same, if_true]

theorem Decoder.see_of_early (seen : d.seen = some v) (filter : d.inForce.filter = true) (differs : sample ≠ v)
    (early : d.filterCount < 2) : d.see level = ({ d with filterCount := d.filterCount + 1 }, false) := by
  subst sampled
  simp only [Decoder.see, seen, filter, differs, early, if_true, if_false]

theorem Decoder.see_of_third (seen : d.seen = some v) (filter : d.inForce.filter = true) (differs : sample ≠ v)
    (third : d.filterCount = 2) : d.see level = ({ d with seen := some sample, filterCount := 0 }, sample) := by
  subst sampled
  simp only [Decoder.see, seen, filter, differs, third, Nat.lt_irrefl, if_true, if_false]

end See

/-! ## A tick -/

/-- In IDLE a tick with no edge counts (R148). -/
theorem Decoder.tick_of_idle {d y : Decoder} {level : Bool} (idle : d.strip = none) (sees : d.see level = (y, false)) :
    d.tick level = ({ y with count := min (d.count + 1) 65535 }, false) := by
  simp only [Decoder.tick, idle, sees, Bool.false_eq_true, false_and, if_false]
  rfl

/-- In IDLE a rising edge begins a strip where a window is enabled (R150). -/
theorem Decoder.tick_of_edge {d y : Decoder} {level : Bool} (idle : d.strip = none) (sees : d.see level = (y, true))
    (enabled : d.inForce.start.enabled = true ∨ d.inForce.zero.enabled = true ∨ d.inForce.one.enabled = true) :
    d.tick level = ({ y with count := 0, strip := some Strip.begin }, false) := by
  have any : d.inForce.largestMax.isSome = true := by
    rw [MarkTiming.largestMax_isSome, Bool.or_assoc]
    simpa only [Bool.or_eq_true] using enabled
  simp only [Decoder.tick, idle, sees, any, true_and, if_true]

/-- In IDLE a rising edge sets the count to 0 and begins no strip where no window is enabled (R150). -/
theorem Decoder.tick_of_edge_disabled {d y : Decoder} {level : Bool} (idle : d.strip = none)
    (sees : d.see level = (y, true)) (start : d.inForce.start.enabled = false)
    (zero : d.inForce.zero.enabled = false) (one : d.inForce.one.enabled = false) :
    d.tick level = ({ y with count := 0 }, false) := by
  have none : d.inForce.largestMax.isSome = false := by
    rw [MarkTiming.largestMax_isSome, start, zero, one]; rfl
  simp only [Decoder.tick, idle, sees, none, Bool.false_eq_true, and_false, if_true, if_false]

/-- In a strip a rising edge below the highest count is a measurement (R148). -/
theorem Decoder.tick_of_measurement {d y : Decoder} {level : Bool} {x : Strip} (strip : d.strip = some x)
    (sees : d.see level = (y, true)) (below : d.count < 65535) :
    d.tick level =
      ({ y with count := 0, strip := some (x.measure (d.inForce.classify (d.count + 1))) }, false) := by
  have runs : d.endsNow true = false := by
    simp only [Decoder.endsNow, Config.maxCount, Bool.not_true, Bool.false_and]
    split
    · exact beq_false_of_ne (Nat.ne_of_lt below)
    · rfl
  have counted : d.counted = d.count + 1 := Nat.min_eq_left (by simp only [Config.maxCount]; omega)
  simp only [Decoder.tick, strip, sees, runs, counted, Bool.false_eq_true, if_false, if_true]

/-- In a strip a tick with no edge only counts while the count is below the largest enabled maximum (R148, R153). -/
theorem Decoder.tick_of_quiet {d y : Decoder} {level : Bool} {x : Strip} (strip : d.strip = some x)
    (sees : d.see level = (y, false))
    (below : ∃ m, d.inForce.largestMax = some m ∧ d.count < m ∧ m ≤ 65535) :
    d.tick level = ({ y with count := d.count + 1 }, false) := by
  obtain ⟨m, largest, low, high⟩ := below
  have counted : d.counted = d.count + 1 := Nat.min_eq_left (by simp only [Config.maxCount]; omega)
  have runs : d.endsNow false = false := by
    simp only [Decoder.endsNow, largest, Option.getD_some, counted, Config.maxCount, Bool.not_false, Bool.true_and]
    split
    · exact beq_false_of_ne (by omega)
    · exact decide_eq_false (by omega)
  simp only [Decoder.tick, strip, sees, runs, counted, Bool.false_eq_true, if_false]

/-- MARK_TICK leaves the decoder as its tick does, where the strip does not end at it. -/
theorem exec_markTick_of_tick {s : State} {l : Line} {level : Bool} {y : Decoder} (running : s.resetAsserted = false)
    (ticks : (s.decoder l).tick level = (y, false)) :
    exec (.markTick l level) s = .next (s.setDecoder l y) := by
  unfold exec
  refine (State.event_running s _ running).trans ?_
  simp only [ticks, Bool.false_eq_true, if_false]

/-! ## Measurements (R149, R151, R152, R155, R156) -/

section Measure

variable {m : MarkTiming} {n : Nat}

theorem MarkTiming.classify_of_start (inside : m.start.contains n = true) : m.classify n = .start := by
  simp only [MarkTiming.classify, inside, if_true]

theorem MarkTiming.classify_of_fault (start : m.start.contains n = false) (zero : m.zero.contains n = false)
    (one : m.one.contains n = false) : m.classify n = .fault := by
  simp only [MarkTiming.classify, start, zero, one, Bool.false_eq_true, if_false]

theorem MarkTiming.classify_of_bit (start : m.start.contains n = false)
    (bit : (m.zero.contains n || m.one.contains n) = true) :
    m.classify n = if m.zero.contains n = true then .zero else .one := by
  cases zero : m.zero.contains n with
  | true => simp only [MarkTiming.classify, start, zero, Bool.false_eq_true, if_false, if_true]
  | false =>
    rw [zero, Bool.false_or] at bit
    simp only [MarkTiming.classify, start, zero, bit, Bool.false_eq_true, if_false, if_true]

theorem MarkTiming.classify_ne_start (outside : m.start.contains n = false) : m.classify n ≠ .start := by
  unfold MarkTiming.classify
  rw [outside]
  cases m.zero.contains n <;> cases m.one.contains n <;> decide

end Measure

/-- In HUNT a START opens a run (R151). -/
theorem Strip.measure_hunt_start {x : Strip} (hunt : x.run = none) :
    x.measure .start = { x with run := some Run.empty, measured := true } := by
  simp only [Strip.measure, Strip.act, hunt]

/-- In HUNT any other measurement is passed over (R151). -/
theorem Strip.measure_hunt_other {x : Strip} {c : BarClass} (hunt : x.run = none) (other : c ≠ .start) :
    x.measure c = { x with measured := true } := by
  cases c with
  | start => exact absurd rfl other
  | zero | one | fault => simp only [Strip.measure, Strip.act, hunt]

/-- In DATA a ZERO or ONE goes to the open run (R152). -/
theorem Strip.measure_bit {x : Strip} {r : Run} (data : x.run = some r) (zero : Bool) :
    x.measure (if zero = true then .zero else .one) =
      { x with run := some (if r.bits.length < 48 then { r with bits := r.bits ++ [!zero] } else { r with overlong := true })
               measured := true } := by
  cases zero with
  | true => simp only [Strip.measure, Strip.act, data, if_true]; rfl
  | false => simp only [Strip.measure, Strip.act, data, Bool.false_eq_true, if_false]; rfl

/-- In DATA a bar fault marks the open run (R152). -/
theorem Strip.measure_fault {x : Strip} {r : Run} (data : x.run = some r) :
    x.measure .fault = { x with run := some { r with barFault := true }, measured := true } := by
  simp only [Strip.measure, Strip.act, data]

theorem Run.valid_iff (r : Run) : r.valid = true ↔ r.bits.length = 48 ∧ r.barFault = false ∧ r.overlong = false ∧
    markCheck r.code = (markIdentity r.code).check := by
  simp only [Run.valid, Bool.and_eq_true, Bool.not_eq_true', beq_iff_eq, and_assoc]

/-- In DATA a START closes and evaluates the open run, and opens the next (R152, R155, R156). -/
theorem Strip.measure_start {x : Strip} {r : Run} (data : x.run = some r) :
    x.measure .start =
      { run := some Run.empty
        code := if r.valid = true then some (x.code.getD r.code) else x.code
        disagree := x.disagree || (r.valid && x.code.any (· != r.code)), measured := true } := by
  obtain ⟨run, code, disagree, measured⟩ := x
  simp only at data
  subst data
  simp only [Strip.measure, Strip.act, Strip.close]
  cases r.valid with
  | false => simp
  | true =>
    cases code with
    | none => simp
    | some c => by_cases same : c = r.code <;> simp [same]

/-- A rising edge in a strip measures: the strip acts on the class of the bar (R148). -/
theorem exec_markTick_of_measurement {s : State} {l : Line} {level : Bool} {x x' : Strip}
    (running : s.resetAsserted = false) (strip : (s.decoder l).strip = some x)
    (sampled : true = (level != (s.decoder l).inForce.inverted)) (seen : (s.decoder l).seen = some false)
    (ready : (s.decoder l).inForce.filter = false ∨ (s.decoder l).filterCount = 2) (below : (s.decoder l).count < 65535)
    (acts : x.measure ((s.decoder l).inForce.classify ((s.decoder l).count + 1)) = x') :
    exec (.markTick l level) s =
      .next (s.setDecoder l { s.decoder l with
        seen := some true, count := 0
        filterCount := if (s.decoder l).inForce.filter then 0 else (s.decoder l).filterCount
        strip := some x' }) := by
  subst acts
  cases filter : (s.decoder l).inForce.filter with
  | false =>
    exact exec_markTick_of_tick running
      (Decoder.tick_of_measurement strip (Decoder.see_of_unfiltered sampled seen filter) below)
  | true =>
    have third : (s.decoder l).filterCount = 2 := ready.resolve_left (by rw [filter]; exact Bool.noConfusion)
    exact exec_markTick_of_tick running (Decoder.tick_of_measurement strip
      (Decoder.see_of_third sampled seen filter Bool.false_ne_true.symm third) below)

/-! ## O56 -/

/-- Settles O56: what is seen at the tick decides what the decoder does, by its phase and the class of the bar. -/
theorem markTicksAreSampledAndMeasured : Obligations.MarkTicksAreSampledAndMeasured := by
  unfold Obligations.MarkTicksAreSampledAndMeasured
  refine ⟨fun w => ⟨decide_eq_true_iff, w.contains_iff⟩, MarkTiming.largestMax_eq_some_iff, ?_⟩
  rintro s l _ level sample v running rfl sampled
  refine ⟨fun seen idle => ?fresh, fun seen idle filter => ⟨fun quiet => ?quiet, ?edge, ?edgeDisabled⟩,
    fun seen idle filter => ⟨?same, ?early, ?falls, ?rises, ?risesDisabled⟩, ?strip⟩
  case fresh =>
    exact exec_markTick_of_tick running (Decoder.tick_of_idle idle (Decoder.see_of_afresh sampled seen))
  case quiet =>
    exact exec_markTick_of_tick running
      (Decoder.tick_of_idle idle (Decoder.see_of_no_edge sampled seen filter quiet))
  case edge =>
    rintro rfl rfl enabled
    exact exec_markTick_of_tick running
      (Decoder.tick_of_edge idle (Decoder.see_of_unfiltered sampled seen filter) enabled)
  case edgeDisabled =>
    rintro rfl rfl start zero one
    exact exec_markTick_of_tick running
      (Decoder.tick_of_edge_disabled idle (Decoder.see_of_unfiltered sampled seen filter) start zero one)
  case same =>
    exact fun same => exec_markTick_of_tick running
      (Decoder.tick_of_idle idle (Decoder.see_of_same sampled seen filter same))
  case early =>
    exact fun differs early => exec_markTick_of_tick running
      (Decoder.tick_of_idle idle (Decoder.see_of_early sampled seen filter differs early))
  case falls =>
    rintro rfl rfl third
    exact exec_markTick_of_tick running
      (Decoder.tick_of_idle idle (Decoder.see_of_third sampled seen filter Bool.false_ne_true third))
  case rises =>
    rintro rfl rfl third enabled
    exact exec_markTick_of_tick running
      (Decoder.tick_of_edge idle (Decoder.see_of_third sampled seen filter Bool.false_ne_true.symm third) enabled)
  case risesDisabled =>
    rintro rfl rfl third start zero one
    exact exec_markTick_of_tick running (Decoder.tick_of_edge_disabled idle
      (Decoder.see_of_third sampled seen filter Bool.false_ne_true.symm third) start zero one)
  case strip =>
    rintro x _ y strip rfl
    refine ⟨?measures, fun seen filter quiet below => ?counts, fun below => ⟨fun seen => ?afresh, fun seen filter =>
      ⟨?sameCounts, ?earlyCounts, ?fallCounts⟩⟩⟩
    case measures =>
      rintro seen ready rfl below rfl
      have measured := fun x' (acts : x.measure ((s.decoder l).inForce.classify ((s.decoder l).count + 1)) = x') =>
        exec_markTick_of_measurement running strip sampled seen ready below acts
      refine ⟨fun hunt start => ?_, fun hunt other => ?_, fun r data =>
        ⟨fun other bit => ?_, fun start zero one => ?_, fun good valid start => ?_⟩⟩
      · exact measured _ (by rw [MarkTiming.classify_of_start start, Strip.measure_hunt_start hunt]; rfl)
      · exact measured _ (Strip.measure_hunt_other hunt (MarkTiming.classify_ne_start other))
      · exact measured _ (by rw [Bool.decide_eq_true] at bit; rw [MarkTiming.classify_of_bit other bit, Strip.measure_bit data])
      · exact measured _ (by rw [MarkTiming.classify_of_fault start zero one, Strip.measure_fault data])
      · have same : good = r.valid := Bool.eq_iff_iff.mpr (valid.trans r.valid_iff.symm)
        subst same
        exact measured _ (by rw [MarkTiming.classify_of_start start, Strip.measure_start data]; rfl)
    case counts =>
      exact exec_markTick_of_tick running
        (Decoder.tick_of_quiet strip (Decoder.see_of_no_edge sampled seen filter quiet) below)
    case afresh =>
      exact exec_markTick_of_tick running (Decoder.tick_of_quiet strip (Decoder.see_of_afresh sampled seen) below)
    case sameCounts =>
      exact fun same => exec_markTick_of_tick running
        (Decoder.tick_of_quiet strip (Decoder.see_of_same sampled seen filter same) below)
    case earlyCounts =>
      exact fun differs early => exec_markTick_of_tick running
        (Decoder.tick_of_quiet strip (Decoder.see_of_early sampled seen filter differs early) below)
    case fallCounts =>
      rintro rfl rfl third
      exact exec_markTick_of_tick running
        (Decoder.tick_of_quiet strip (Decoder.see_of_third sampled seen filter Bool.false_ne_true third) below)

end Sys2Proof.Machine
end

section
/-! PROOF. The end of a strip: it is judged with the decoder as the end finds it, and settled against the verify queue (R153,
R158 to R160). -/

namespace Sys2Proof.Machine

open Sys2Proof

/-! ## A removal that leaves its record live -/

theorem Plate.spent_eq_false_iff (q : Plate) :
    q.spent = false ↔ q.channel ≠ none ∨ 0 < q.toExpose ∨ 0 < q.exposing ∨ 0 < q.awaiting := by
  simp only [Plate.spent, Bool.and_eq_false_iff, beq_eq_false_iff_ne, Option.isNone_eq_false_iff,
    Option.isSome_iff_ne_none, or_assoc, Nat.pos_iff_ne_zero]

/-- A record with something left is not freed (R114). -/
theorem State.freeIfSpent_of_live {s : State} {i : Fin 128} {q : Plate} (hq : s.plate i = some q)
    (live : q.spent = false) : s.freeIfSpent i = s := by
  simp only [State.freeIfSpent, hq, live, Bool.false_eq_true, if_false]

/-- An incident made is recorded, and nothing else changes. -/
theorem State.raised_of_eq {s t : State} {i : Incident} (made : s.raise i = t) :
    s.recorded t i ∧ t = { s with incidents := t.incidents, lost := t.lost } := by
  subst made
  exact ⟨s.raise_recorded i, s.raise_frame i⟩

section Removals

variable {s t : State} {l : Line} {e : VerifyEntry} {rest : List VerifyEntry}

/-- A damaged copy whose record lives on changes its record and makes one incident (R160, R176 to R178). -/
theorem State.settleLost_of_live {kind : IncidentKind} {r q : Plate} {d : Disposition}
    (hr : s.plate e.plate = some r) (awaiting : 0 < r.awaiting)
    (damaged : { r with awaiting := r.awaiting - 1 }.damagedAs q (s.editionOf r.label).remakeLimit (stepAfter kind r.step) d)
    (live : q.spent = false) (settled : s.settleLost e kind = t) :
    t.plate e.plate = some q ∧ (∀ j, j ≠ e.plate → t.plate j = s.plate j) ∧
      s.recorded t
        { kind, time := s.clock, label := some e.label, version := some e.version, handle := r.page, sep := some e.sep
          plate := some e.plate, serial := some e.serial, copyIndex := some e.copyIndex, attempts := some q.attempts
          disposition := d } ∧
      t = { s with plates := t.plates, incidents := t.incidents, lost := t.lost } := by
  subst settled
  obtain ⟨rfl, rfl⟩ := damaged.unique (r.settleDamaged_damagedAs .awaiting kind (s.editionOf r.label).remakeLimit awaiting)
  unfold State.settleLost State.damageCopy
  simp only [hr]
  have after := State.plate_setPlate_self s e.plate
    (some (r.settleDamaged .awaiting kind (s.editionOf r.label).remakeLimit))
  have others (j : Fin 128) (hj : j ≠ e.plate) := State.plate_setPlate_of_ne s
    (some (r.settleDamaged .awaiting kind (s.editionOf r.label).remakeLimit)) hj
  generalize hn : s.setPlate e.plate (some (r.settleDamaged .awaiting kind (s.editionOf r.label).remakeLimit)) = n
    at after others
  generalize hi : Incident.mk .. = i
  have frame := n.raise_frame i
  have recorded := n.raise_recorded i
  rw [State.freeIfSpent_of_live (by rw [frame]; exact after) live]
  generalize n.raise i = m at frame recorded
  subst hn
  exact ⟨by rw [frame]; exact after, fun j hj => by rw [frame]; exact others j hj, recorded, by rw [frame]; rfl⟩

/-- A verified copy whose record lives on changes its record only (R160). -/
theorem State.settleVerified_of_live {r q : Plate} (hr : s.plate e.plate = some r) (awaiting : 0 < r.awaiting)
    (live : r.channel ≠ none ∨ 0 < r.toExpose ∨ 0 < r.exposing ∨ 1 < r.awaiting)
    (verified : q = { r with
      awaiting := r.awaiting - 1, verified := if r.obsolete then r.verified else r.verified + 1
      withdrawn := if r.obsolete then r.withdrawn + 1 else r.withdrawn })
    (settled : s.settleVerified e = t) :
    t.plate e.plate = some q ∧ (∀ j, j ≠ e.plate → t.plate j = s.plate j) ∧ t = { s with plates := t.plates } := by
  have good : r.settleGood .awaiting = q := by
    rw [verified]
    simp only [Plate.settleGood, Plate.inStage, Plate.takeOut, awaiting, if_true]
    cases r.obsolete <;> rfl
  have unspent : q.spent = false := by
    rw [Plate.spent_eq_false_iff, verified]
    exact live.imp_right (Or.imp_right (Or.imp_right Nat.sub_pos_of_lt))
  have kept : s.settleVerified e = s.setPlate e.plate (some q) := by
    unfold State.settleVerified State.modifyPlate
    simp only [hr, good]
    exact State.freeIfSpent_of_live (State.plate_setPlate_self s e.plate _) unspent
  subst settled
  rw [kept]
  exact ⟨State.plate_setPlate_self s e.plate _, fun j hj => State.plate_setPlate_of_ne s _ hj, rfl⟩

/-- A head that is not overdue ends the overdue test (R159). -/
theorem State.overdueTest_of_quiet (queue : s.queue l = rest)
    (quiet : ∀ u ∈ rest.head?, (s.lineSettings l).verifyWindow = 0 ∨ u.age ≤ (s.lineSettings l).verifyWindow) :
    s.overdueTest l = s := by
  rw [State.overdueTest_settled (gone := []) (kept := rest) (m := s) ⟨queue, nofun, quiet⟩ rfl, ← queue,
    State.setQueue_queue]

end Removals

/-! ## What a strip settles (R158) -/

theorem VerifyEntry.answers_iff (m : MarkIdentity) (e : VerifyEntry) :
    e.answers m = true ↔ m = { serial := e.serial, label := e.label, sep := e.sep, index := e.copyIndex } := by
  obtain ⟨serial, label, sep, index⟩ := m
  simp only [VerifyEntry.answers, Bool.and_eq_true, beq_iff_eq, MarkIdentity.mk.injEq, and_assoc, eq_comm (a := serial),
    eq_comm (a := label), eq_comm (a := sep), eq_comm (a := index)]

theorem VerifyEntry.answers_eq_false_iff (m : MarkIdentity) (e : VerifyEntry) : e.answers m = false ↔
    e.serial ≠ m.serial ∨ e.label ≠ m.label ∨ e.sep ≠ m.sep ∨ e.copyIndex ≠ m.index := by
  simp only [VerifyEntry.answers, Bool.and_eq_false_iff, beq_eq_false_iff_ne, or_assoc]

section Strips

variable {s : State} {l : Line} {e f : VerifyEntry} {rest : List VerifyEntry}

/-- An unreadable strip settles the head alone where the new head is not overdue (R158, R159). -/
theorem State.settleUnreadable_of_quiet (queue : s.queue l = e :: rest)
    (quiet : ∀ u ∈ rest.head?, (s.lineSettings l).verifyWindow = 0 ∨ u.age ≤ (s.lineSettings l).verifyWindow) :
    s.settleUnreadable l = (s.setQueue l rest).settleLost e .unreadable := by
  have frame := State.settleLost_frame (s.setQueue l rest) e .unreadable
  simp only [State.settleUnreadable, queue]
  generalize (s.setQueue l rest).settleLost e .unreadable = t at frame
  refine State.overdueTest_of_quiet (rest := rest) ?_ ?_
  · rw [frame]; exact s.setQueue_queue_self l rest
  · rw [frame]; exact quiet

/-- A readable strip that the head answers verifies it alone where the new head is not overdue (R158, R159). -/
theorem State.settleReadable_of_head {code : BitVec 48} (queue : s.queue l = e :: rest)
    (answers : e.answers (markIdentity code) = true)
    (quiet : ∀ u ∈ rest.head?, (s.lineSettings l).verifyWindow = 0 ∨ u.age ≤ (s.lineSettings l).verifyWindow) :
    s.settleReadable l code = (s.setQueue l rest).settleVerified e := by
  have frame := State.settleVerified_frame (s.setQueue l rest) e
  have found : (s.queue l).findIdx? (VerifyEntry.answers (markIdentity code)) = some 0 := by
    rw [queue, List.findIdx?_cons, answers, if_pos rfl]
  simp only [State.settleReadable, found]
  simp only [State.passOver, queue]
  generalize (s.setQueue l rest).settleVerified e = t at frame
  refine State.overdueTest_of_quiet (rest := rest) ?_ ?_
  · rw [frame]; exact s.setQueue_queue_self l rest
  · rw [frame]; exact quiet

/-- A readable strip that the second entry answers passes the head over as MISSING and verifies the second (R158). -/
theorem State.settleReadable_of_second {code : BitVec 48} (queue : s.queue l = f :: e :: rest)
    (passed : f.answers (markIdentity code) = false) (answers : e.answers (markIdentity code) = true)
    (quiet : ∀ u ∈ rest.head?, (s.lineSettings l).verifyWindow = 0 ∨ u.age ≤ (s.lineSettings l).verifyWindow) :
    s.settleReadable l code =
      (((s.setQueue l (e :: rest)).settleLost f .missing).setQueue l rest).settleVerified e := by
  have found : (s.queue l).findIdx? (VerifyEntry.answers (markIdentity code)) = some 1 := by
    rw [queue, List.findIdx?_cons, passed, List.findIdx?_cons, answers]; rfl
  have lost := State.settleLost_frame (s.setQueue l (e :: rest)) f .missing
  simp only [State.settleReadable, found]
  simp only [State.passOver, queue]
  generalize (s.setQueue l (e :: rest)).settleLost f .missing = m at lost
  have next : m.queue l = e :: rest := by rw [lost]; exact s.setQueue_queue_self l (e :: rest)
  have frame := State.settleVerified_frame (m.setQueue l rest) e
  simp only [next]
  generalize (m.setQueue l rest).settleVerified e = t at frame
  refine State.overdueTest_of_quiet (rest := rest) ?_ ?_
  · rw [frame]; exact m.setQueue_queue_self l rest
  · rw [frame, lost]; exact quiet

/-- A readable strip that no entry answers is FOREIGN (R158). -/
theorem State.settleReadable_of_foreign {code : BitVec 48}
    (foreign : ∀ e ∈ s.queue l, e.answers (markIdentity code) = false) :
    s.settleReadable l code =
      s.raise { kind := .foreign, time := s.clock, label := some (markIdentity code).label
                sep := some (markIdentity code).sep, serial := some (markIdentity code).serial
                copyIndex := some (markIdentity code).index, disposition := .noted } := by
  have found : (s.queue l).findIdx? (VerifyEntry.answers (markIdentity code)) = none :=
    List.findIdx?_eq_none_iff.mpr foreign
  simp only [State.settleReadable, found]

end Strips

/-! ## The end of a strip (R153) -/

section Ends

variable {s : State} {l : Line} {c : Instr} {y : Decoder} {x : Strip}

theorem State.judge_of_readable {t : Strip} {code : BitVec 48} (measured : t.measured = true)
    (readable : t.readable = some code) : s.judge l t = s.settleReadable l code := by
  simp only [State.judge, measured, readable, if_true]

theorem State.judge_of_unreadable {t : Strip} (measured : t.measured = true) (unreadable : t.readable = none) :
    s.judge l t = s.settleUnreadable l := by
  simp only [State.judge, measured, unreadable, if_true]

/-- What a command that ends a strip leaves: the judgement's state m, with the decoder in IDLE under the settings as
written (R146, R153). -/
theorem exec_of_judged {m : State} (running : s.resetAsserted = false) (strip : (s.decoder l).strip = some x)
    (ends : (s.decoder l).stripEndsBy y l c) (judged : (s.setDecoder l y).judge l x.finish = m) :
    exec c s = .next { m with decoders := s.decoders.set l (y.idleUnder (s.lineSettings l).mark) } := by
  obtain ⟨ended, kept⟩ := exec_of_stripEndsBy running strip ends
  have decoders : m.decoders = s.decoders.set l y := by rw [← judged, State.judge_frame]; rfl
  rw [ended, State.endStrip_of_strip s l y x kept, judged, State.setDecoder, decoders, Lines.set_set]

end Ends

/-- Settlements look at no decoder, and leave the verify queues. -/
theorem State.settledInTurn_decoders {s t : State} {xs : List (VerifyEntry × Option IncidentKind)}
    (settled : s.settledInTurn xs t) (d : Lines Decoder) :
    { s with decoders := d }.settledInTurn xs { t with decoders := d } ∧ t.queues = s.queues := by
  have under := State.settledInTurn_under settled s.queues s.settings d
  have frame := State.settledInTurn_frame settled
  have queues : t.queues = s.queues := by rw [frame]
  have settings : t.settings = s.settings := by rw [frame]
  have same : { t with queues := s.queues, settings := s.settings, decoders := d } = { t with decoders := d } := by
    rw [← queues, ← settings]
  exact ⟨same ▸ under, queues⟩

/-- Settles O57: a strip's end is its judgement, and each outcome of the judgement is one settlement or the settlements in
the order removed. -/
theorem stripEndSettlesTheQueue : Obligations.StripEndSettlesTheQueue := by
  unfold Obligations.StripEndSettlesTheQueue
  refine ⟨Strip.finish_readable, fun s xs => State.settledInTurn_exists, ?_⟩
  rintro s l c _ y _ x running rfl strip ends rfl
  have judged {m : State} (h : (s.setDecoder l y).judge l x.finish = m) := exec_of_judged running strip ends h
  have measuredEnd : x.finish.measured = x.measured := x.finish_measured
  refine ⟨?quiet, ?stray, ?remade, ?damaged, ?inTurn, ?readable⟩
  case quiet =>
    intro unmeasured
    rw [judged (m := s.setDecoder l y) (by simp only [State.judge, measuredEnd, unmeasured, Bool.false_eq_true, if_false])]
    rfl
  case stray =>
    intro measured unreadable empty
    have raised : (s.setDecoder l y).judge l x.finish =
        (s.setDecoder l y).raise { kind := .strayStrip, time := s.clock, disposition := .noted } := by
      have queue : (s.setDecoder l y).queue l = [] := empty
      rw [State.judge_of_unreadable (measuredEnd.trans measured) unreadable]
      simp only [State.settleUnreadable, queue]
      rfl
    obtain ⟨recorded, frame⟩ := State.raised_of_eq raised.symm
    generalize (s.setDecoder l y).judge l x.finish = m at recorded frame judged
    exact ⟨_, judged rfl, rfl, recorded, by rw [frame]; rfl⟩
  case remade =>
    intro e rest r measured unreadable queue quiet hr awaiting obsolete cancelled allowed
    have settled := (State.judge_of_unreadable (measuredEnd.trans measured) unreadable).trans
      (State.settleUnreadable_of_quiet (s := s.setDecoder l y) queue quiet)
    have damaged : { r with awaiting := r.awaiting - 1 }.damagedAs
        { r with
          awaiting := r.awaiting - 1, failed := r.failed + 1, attempts := r.attempts + 1, toExpose := r.toExpose + 1
          remake := true, step := min (r.step + 1) 7 }
        (s.editionOf r.label).remakeLimit (min (r.step + 1) 7) .remakeQueued := by
      rw [Plate.damagedAs, if_neg (by simp [obsolete, cancelled]), if_pos allowed]
      exact ⟨rfl, rfl⟩
    obtain ⟨self, others, recorded, frame⟩ := State.settleLost_of_live (s := (s.setDecoder l y).setQueue l rest)
      (kind := .unreadable) hr awaiting damaged
      ((Plate.spent_eq_false_iff _).mpr (Or.inr (Or.inl r.toExpose.succ_pos))) settled.symm
    generalize (s.setDecoder l y).judge l x.finish = m at self others recorded frame judged
    exact ⟨_, judged rfl, rfl, by rw [frame]; rfl, self, others, recorded, by rw [frame]; rfl⟩
  case damaged =>
    intro e rest r q h p d measured unreadable queue quiet hr awaiting page hp damaged
    have settled := (State.judge_of_unreadable (measuredEnd.trans measured) unreadable).trans
      (State.settleUnreadable_of_quiet (s := s.setDecoder l y) queue quiet)
    have record := State.settleLost_settled (s := (s.setDecoder l y).setQueue l rest) (kind := .unreadable) hr awaiting page
      hp damaged
    have frame := State.settleLost_frame ((s.setDecoder l y).setQueue l rest) e .unreadable
    rw [← settled] at record frame
    generalize (s.setDecoder l y).judge l x.finish = m at record frame judged
    exact ⟨_, judged rfl, rfl, by rw [frame]; rfl, record, by rw [frame]; rfl⟩
  case inTurn =>
    intro e rest gone kept t measured unreadable queue split settled
    obtain ⟨under, queues⟩ := State.settledInTurn_decoders settled (s.setDecoder l y).decoders
    rw [judged ((State.judge_of_unreadable (measuredEnd.trans measured) unreadable).trans
      (State.settleUnreadable_settled (s := s.setDecoder l y) queue split under)), ← queues]
    rfl
  case readable =>
    rintro code _ measured readable rfl
    have settles := State.judge_of_readable (s := s.setDecoder l y) (l := l) (measuredEnd.trans measured) readable
    simp only [← VerifyEntry.answers_eq_false_iff, ← VerifyEntry.answers_iff]
    refine ⟨?foreign, ?inTurn, ?head, ?live⟩
    case foreign =>
      intro foreign
      have raised := settles.trans (State.settleReadable_of_foreign (s := s.setDecoder l y) foreign)
      obtain ⟨recorded, frame⟩ := State.raised_of_eq raised.symm
      generalize (s.setDecoder l y).judge l x.finish = m at recorded frame judged
      exact ⟨_, judged rfl, rfl, recorded, by rw [frame]; rfl⟩
    case inTurn =>
      intro passed e rest gone kept t others answers queue split settled
      obtain ⟨under, queues⟩ := State.settledInTurn_decoders settled (s.setDecoder l y).decoders
      rw [judged (settles.trans
        (State.settleReadable_settled (s := s.setDecoder l y) others answers queue split under)), ← queues]
      rfl
    case head =>
      rintro e rest r _ h p answers queue quiet hr awaiting page hp rfl
      have settled := settles.trans (State.settleReadable_of_head (s := s.setDecoder l y) queue answers quiet)
      have record := State.settleVerified_settled (s := (s.setDecoder l y).setQueue l rest) hr awaiting page hp
      have frame := State.settleVerified_frame ((s.setDecoder l y).setQueue l rest) e
      rw [← settled] at record frame
      generalize (s.setDecoder l y).judge l x.finish = m at record frame judged
      exact ⟨_, judged rfl, rfl, by rw [frame]; rfl, record, by rw [frame]; rfl⟩
    case live =>
      intro e rest r q answers quiet hr awaiting live verified
      refine ⟨fun queue => ?_, fun f u queue passed apart hu owed obsolete cancelled allowed => ?_⟩
      · have settled := settles.trans (State.settleReadable_of_head (s := s.setDecoder l y) queue answers quiet)
        obtain ⟨self, others, frame⟩ := State.settleVerified_of_live (s := (s.setDecoder l y).setQueue l rest) hr awaiting
          live verified settled.symm
        generalize (s.setDecoder l y).judge l x.finish = m at self others frame judged
        exact ⟨_, judged rfl, rfl, by rw [frame]; rfl, self, others, by rw [frame]; rfl⟩
      · have settled := settles.trans
          (State.settleReadable_of_second (s := s.setDecoder l y) queue passed answers quiet)
        have damaged : { u with awaiting := u.awaiting - 1 }.damagedAs u.remadeMissing
            (s.editionOf u.label).remakeLimit u.step .remakeQueued := by
          rw [Plate.damagedAs, if_neg (by simp [obsolete, cancelled]), if_pos allowed]
          exact ⟨rfl, rfl⟩
        obtain ⟨lost, kept, recorded, lostFrame⟩ := State.settleLost_of_live
          (s := (s.setDecoder l y).setQueue l (e :: rest)) (kind := .missing) hu owed damaged
          ((Plate.spent_eq_false_iff _).mpr (Or.inr (Or.inl u.toExpose.succ_pos))) rfl
        generalize ((s.setDecoder l y).setQueue l (e :: rest)).settleLost f .missing = n
          at lost kept recorded lostFrame settled
        obtain ⟨self, others, frame⟩ := State.settleVerified_of_live (s := n.setQueue l rest)
          ((kept e.plate (Ne.symm apart)).trans hr) awaiting live verified settled.symm
        generalize (s.setDecoder l y).judge l x.finish = m at self others frame judged
        refine ⟨_, judged rfl, rfl, ?_, self, (others f.plate apart).trans lost,
          fun j hj hf => (others j hj).trans (kept j hf), ?_, ?_⟩
        · rw [frame, lostFrame]
          exact Lines.set_set s.queues l (e :: rest) rest
        · rw [frame]; exact recorded
        · rw [frame, lostFrame]; rfl

end Sys2Proof.Machine
end

section
/-! PROOF. The end of a copy in exposure: what becomes of its record, and the channel's return to IDLE (R135 to R141). -/

namespace Sys2Proof.Machine

open Sys2Proof

/-! ## A record moved on -/

/-- The record i is now u and incidents have been made; nothing else has changed. -/
def State.recordMoved (s m : State) (i : Fin 128) (u : Plate) (is : List Incident) : Prop :=
  m.plate i = some u ∧ (∀ j, j ≠ i → m.plate j = s.plate j) ∧ s.recordedAll m is ∧
    m = { s with plates := m.plates, incidents := m.incidents, lost := m.lost }

section Moves

variable {s : State} {l : Line} {e : Exposure} {r q : Plate} {h : Fin 64} {p : Page}

theorem State.setPlate_recordMoved (s : State) (i : Fin 128) (u : Plate) : s.recordMoved (s.setPlate i (some u)) i u [] :=
  ⟨s.plate_setPlate_self i _, fun _ hj => s.plate_setPlate_of_ne _ hj, State.recordedAll_nil s, rfl⟩

theorem State.modifyPlate_recordMoved {i : Fin 128} (hr : s.plate i = some r) (f : Plate → Plate) :
    s.recordMoved (s.modifyPlate i f) i (f r) [] := by
  simp only [State.modifyPlate, hr]
  exact s.setPlate_recordMoved i (f r)

/-- A damaged copy moves its record on by the remake decision and makes one incident (R176 to R178). -/
theorem State.damageCopy_recordMoved {i : Fin 128} {stage : Stage} {kind : IncidentKind} {c : CopyIdentity}
    {d : Disposition} (hr : s.plate i = some r) (inStage : 0 < r.inStage stage)
    (damaged : (r.takeOut stage).damagedAs q (s.editionOf r.label).remakeLimit (stepAfter kind r.step) d) :
    s.recordMoved (s.damageCopy i stage kind c).1 i q
        [{ kind, time := s.clock, label := some c.label, version := c.version, handle := r.page, sep := some c.sep
           plate := some i, serial := some c.serial, copyIndex := some c.index, attempts := some q.attempts
           disposition := d }] ∧
      (s.damageCopy i stage kind c).2 = d := by
  obtain ⟨rfl, rfl⟩ := damaged.unique (r.settleDamaged_damagedAs stage kind (s.editionOf r.label).remakeLimit inStage)
  unfold State.damageCopy
  simp only [hr]
  obtain ⟨self, others, -, -⟩ :=
    s.setPlate_recordMoved i (r.settleDamaged stage kind (s.editionOf r.label).remakeLimit)
  generalize hn : s.setPlate i (some (r.settleDamaged stage kind (s.editionOf r.label).remakeLimit)) = n at self others
  generalize hi : Incident.mk .. = x
  have frame := n.raise_frame x
  have recorded := n.raise_recordedAll x
  generalize n.raise x = m at frame recorded
  subst hn
  exact ⟨⟨by rw [frame]; exact self, fun j hj => by rw [frame]; exact others j hj, recorded, by rw [frame]; rfl⟩, trivial⟩

theorem State.versionOf_of_exposes (exposes : s.exposes l e r h p) : s.versionOf r = some p.version := by
  obtain ⟨-, -, page, hp⟩ := exposes
  simp only [State.versionOf, page, Option.bind_some, hp, Option.map_some]

/-- The copy in exposure, damaged (R135, R137, R178). -/
theorem State.damageExposed_recordMoved {kind : IncidentKind} {d : Disposition} (exposes : s.exposes l e r h p)
    (one : r.exposing = 1)
    (damaged : { r with exposing := 0 }.damagedAs q (s.editionOf r.label).remakeLimit (stepAfter kind r.step) d) :
    s.recordMoved (s.damageExposed e kind).1 e.plate q
        [{ kind, time := s.clock, label := some r.label, version := some p.version, handle := some h, sep := some r.sep
           plate := some e.plate, serial := some e.copy.serial, copyIndex := some e.copy.index
           attempts := some q.attempts, disposition := d }] ∧
      (s.damageExposed e kind).2 = d := by
  have version := State.versionOf_of_exposes exposes
  obtain ⟨-, hr, page, -⟩ := exposes
  have out : r.takeOut .exposing = { r with exposing := 0 } := by rw [Plate.takeOut, one]
  have moved := State.damageCopy_recordMoved (stage := .exposing)
    (c := { serial := e.copy.serial, index := e.copy.index, label := r.label, version := s.versionOf r, sep := r.sep })
    hr (by rw [Plate.inStage, one]; exact Nat.one_pos) (out ▸ damaged)
  rw [version, page] at moved
  simp only [State.damageExposed, hr, version]
  exact moved

/-- The remake decision looks at no channel. -/
theorem Plate.damagedAs.withChannel {limit step : Nat} {d : Disposition} (damaged : r.damagedAs q limit step d)
    (c : Option Line) : { r with channel := c }.damagedAs { q with channel := c } limit step d := by
  unfold Plate.damagedAs at damaged ⊢
  by_cases noted : r.cancelled = true ∨ r.obsolete = true
  · rw [if_pos noted] at damaged
    obtain ⟨rfl, rfl⟩ := damaged
    rw [if_pos noted]
    exact ⟨rfl, rfl⟩
  · rw [if_neg noted] at damaged
    rw [if_neg noted]
    by_cases allowed : r.attempts < limit
    · rw [if_pos allowed] at damaged
      obtain ⟨rfl, rfl⟩ := damaged
      rw [if_pos allowed]
      exact ⟨rfl, rfl⟩
    · rw [if_neg allowed] at damaged
      obtain ⟨rfl, rfl⟩ := damaged
      rw [if_neg allowed]
      exact ⟨rfl, rfl⟩

end Moves

/-! ## The return to IDLE (R139) -/

theorem Line.other_ne (l : Line) : l.other ≠ l := by cases l <;> nofun

/-- The channel returns to IDLE: the group is released, the tasks in flight are discarded, and the record is freed where
nothing is left of it (R87, R114, R125, R139). -/
theorem State.returnToIdle_settled {s m : State} {l : Line} {e : Exposure} {u : Plate} {h : Fin 64} {p : Page}
    {is : List Incident} (exposure : (s.channel l).exposure = some e) (moved : s.recordMoved m e.plate u is)
    (page : u.page = some h) (hp : s.page h = some p) (once : e.group.Nodup) :
    (m.returnToIdle l).channel l = (s.channel l).leftIdle ∧
      (m.returnToIdle l).channel l.other = s.channel l.other ∧ s.groupReleased (m.returnToIdle l) e.group ∧
      (m.returnToIdle l).engine = s.tasksDiscarded l ∧
      s.recordSettled (m.returnToIdle l) e.plate { u with channel := none } h p is := by
  obtain ⟨hu, others, recorded, frame⟩ := moved
  have channel (k : Line) : m.channel k = s.channel k := by rw [frame]; rfl
  obtain ⟨hu', others', -, -⟩ := State.modifyPlate_recordMoved hu fun r => { r with channel := none }
  have frame' := State.modifyPlate_frame m e.plate fun r => { r with channel := none }
  have group := State.countSets_get (m.modifyPlate e.plate fun r => { r with channel := none }) (· - 1) e.group once
  unfold State.returnToIdle
  simp only [channel, exposure]
  generalize m.modifyPlate e.plate (fun r => { r with channel := none }) = n at group hu' others' frame'
  have screens : n.screens = s.screens := by rw [frame', frame]
  have channels : n.channels = s.channels := by rw [frame', frame]
  have engine : n.engine = s.engine := by rw [frame', frame]
  generalize hv : ((n.countSets (· - 1) e.group).discardTask l).setChannel l _ = v
  have settled : s.recordSettled (v.freeIfSpent e.plate) e.plate { u with channel := none } h p is := by
    refine State.freeIfSpent_settled (s := { s with channels := v.channels, screens := v.screens, engine := v.engine })
      ?_ ?_ ?_ ?_ page hp
    · subst hv
      rw [frame', frame]
      rfl
    · subst hv; exact hu'
    · subst hv; exact fun j hj => (others' j hj).trans (others j hj)
    · subst hv
      rw [frame']
      exact recorded
  have kept := State.freeIfSpent_frame v e.plate
  generalize v.freeIfSpent e.plate = w at kept settled
  have channelsW : w.channels = s.channels.set l (s.channel l).leftIdle := by
    rw [kept, ← hv, ← channels]; rfl
  refine ⟨?_, ?_, fun k => ?_, ?_, settled⟩
  · rw [State.channel, channelsW]; exact Lines.get_set_self _ l _
  · rw [State.channel, channelsW]; exact Lines.get_set_of_ne _ _ (Line.other_ne l)
  · obtain ⟨content, inUse⟩ := group k
    have screensW : w.screens = (n.countSets (· - 1) e.group).screens := by rw [kept, ← hv]; rfl
    rw [screensW, content, inUse, screens]
    refine ⟨rfl, ?_⟩
    split
    · rfl
    · rfl
  · rw [kept, ← hv, State.tasksDiscarded, ← engine]
    rfl

/-! ## Abort and reset (R140, R141) -/

section Aborts

variable {s : State} {l : Line} {e : Exposure} {r q : Plate} {h : Fin 64} {p : Page}

/-- A LOADED copy returns to to_expose, or to withdrawn (R15, R104, R140). -/
theorem Plate.returnCopy_of_one (one : r.exposing = 1) :
    r.returnCopy = if r.cancelled = true ∨ r.obsolete = true then { r with exposing := 0, withdrawn := r.withdrawn + 1 }
      else { r with exposing := 0, toExpose := r.toExpose + 1 } := by
  simp only [Plate.returnCopy, one, Nat.one_pos, if_true, Nat.sub_self, Bool.or_eq_true]

theorem State.abandonCopy_of_begun (begun : e.phase ≠ .loaded) :
    s.abandonCopy e = ((s.damageExposed e .aborted).1,
      { settlement := .damaged, kind := some .aborted, disposition := some (s.damageExposed e .aborted).2 }) := by
  unfold State.abandonCopy
  cases phase : e.phase with
  | loaded => exact absurd phase begun
  | running => rfl
  | finishing => rfl

/-- A copy in exposure that is given up: the record with the channel still on it, and the words of what became of it
(R15, R104, R140, R176). -/
theorem State.abandonCopy_recordMoved {code disposition : Word} {d : Option Disposition} (exposes : s.exposes l e r h p)
    (one : r.exposing = 1)
    (givenUp : r.givenUpAs q e.phase (s.editionOf r.label).remakeLimit code disposition d) :
    ∃ u, s.recordMoved (s.abandonCopy e).1 e.plate u (d.toList.map (s.abortedAs e r q h p)) ∧
      { u with channel := none } = q ∧ u.page = some h ∧ word (s.abandonCopy e).2.settlement.code = code ∧
      optWord ((s.abandonCopy e).2.disposition.map Disposition.code) = disposition := by
  have hr : s.plate e.plate = some r := exposes.2.1
  have page : r.page = some h := exposes.2.2.1
  unfold Plate.givenUpAs at givenUp
  by_cases loaded : e.phase = .loaded
  · rw [if_pos loaded] at givenUp
    obtain ⟨rfl, rfl, givenUp⟩ := givenUp
    have moved := State.modifyPlate_recordMoved hr Plate.returnCopy
    rw [Plate.returnCopy_of_one one] at moved
    have gone : (s.plate e.plate).any (fun r => r.cancelled || r.obsolete) = (r.cancelled || r.obsolete) := by rw [hr]; rfl
    simp only [State.abandonCopy, loaded, gone]
    by_cases withdrawn : r.cancelled = true ∨ r.obsolete = true
    · rw [if_pos withdrawn] at givenUp moved
      obtain ⟨rfl, rfl⟩ := givenUp
      have word : (r.cancelled || r.obsolete) = true := (Bool.or_eq_true _ _).mpr withdrawn
      exact ⟨_, moved, rfl, page, by rw [word]; rfl, rfl⟩
    · rw [if_neg withdrawn] at givenUp moved
      obtain ⟨rfl, rfl⟩ := givenUp
      have word : (r.cancelled || r.obsolete) = false := Bool.eq_false_iff.mpr fun x => withdrawn ((Bool.or_eq_true _ _).mp x)
      exact ⟨_, moved, rfl, page, by rw [word]; rfl, rfl⟩
  · rw [if_neg loaded] at givenUp
    obtain ⟨d, rfl, rfl, rfl, damaged⟩ := givenUp
    have settled := r.settleDamaged_damagedAs .exposing .aborted (s.editionOf r.label).remakeLimit
      (by rw [Plate.inStage, one]; exact Nat.one_pos)
    rw [Plate.takeOut, one] at settled
    obtain ⟨rfl, rfl⟩ := damaged.unique (settled.withChannel none)
    obtain ⟨moved, decided⟩ := State.damageExposed_recordMoved (kind := .aborted) exposes one settled
    rw [State.abandonCopy_of_begun loaded, decided]
    exact ⟨_, moved, rfl, settled.page.trans page, rfl, Disposition.code_word _⟩

/-- A copy given up on a line, and the channel's return to IDLE (R140). -/
theorem State.abortLine_settled {code disposition : Word} {d : Option Disposition} (exposes : s.exposes l e r h p)
    (one : r.exposing = 1) (once : e.group.Nodup)
    (givenUp : r.givenUpAs q e.phase (s.editionOf r.label).remakeLimit code disposition d) :
    (s.abortLine l).2 = [word e.copy.serial, word e.copy.index, code, disposition] ∧
      (s.abortLine l).1.channel l = (s.channel l).leftIdle ∧
      (s.abortLine l).1.channel l.other = s.channel l.other ∧ s.groupReleased (s.abortLine l).1 e.group ∧
      (s.abortLine l).1.engine = s.tasksDiscarded l ∧
      s.recordSettled (s.abortLine l).1 e.plate q h p (d.toList.map (s.abortedAs e r q h p)) ∧
      (s.abortLine l).1 = { s with
        channels := (s.abortLine l).1.channels, engine := (s.abortLine l).1.engine
        screens := (s.abortLine l).1.screens, plates := (s.abortLine l).1.plates, pages := (s.abortLine l).1.pages
        freeCells := (s.abortLine l).1.freeCells, openOrder := (s.abortLine l).1.openOrder
        indexQueue := (s.abortLine l).1.indexQueue, indexer := (s.abortLine l).1.indexer
        incidents := (s.abortLine l).1.incidents, lost := (s.abortLine l).1.lost } := by
  obtain ⟨u, moved, rfl, page, settlement, disposes⟩ := State.abandonCopy_recordMoved exposes one givenUp
  obtain ⟨channel, other, group, engine, settled⟩ := State.returnToIdle_settled exposes.1 moved page exposes.2.2.2 once
  have frame := State.returnToIdle_frame (s.abandonCopy e).1 l
  obtain ⟨-, -, -, kept⟩ := moved
  have exposure : (s.channel l).exposure = some e := exposes.1
  simp only [State.abortLine, exposure, settlement, disposes]
  refine ⟨trivial, channel, other, group, engine, settled, ?_⟩
  generalize (s.abandonCopy e).1.returnToIdle l = t at frame
  rw [frame, kept]

end Aborts

/-- Settles O51: the copy is given up and the channel returns to IDLE. -/
theorem lineAbortGivesUpTheCopy : Obligations.LineAbortGivesUpTheCopy := by
  unfold Obligations.LineAbortGivesUpTheCopy
  intro s l running
  refine ⟨fun idle => ?_, fun e r q h p code disposition d exposes _ one once givenUp => ?_⟩
  · unfold exec
    refine State.request_answers running ?_
    simp only [idle]
    rfl
  · obtain ⟨words, channel, other, group, engine, settled, frame⟩ := State.abortLine_settled exposes one once givenUp
    have aborts : exec (.lineAbort l []) s = .next ((s.abortLine l).1.setReply l.imagePort
        { status := .done, results := [word e.copy.serial, word e.copy.index, code, disposition] }) := by
      unfold exec
      refine State.request_answers running ?_
      simp only [exposes.1, Option.isSome_some, if_true, words]
      rfl
    generalize (s.abortLine l).1 = t at aborts channel other group engine settled frame
    refine ⟨_, aborts, channel, other, group, settled, engine, ?_, ?_⟩
    · rw [frame]; rfl
    · rw [frame]; rfl

/-- Settles O52: a copy on the line is given up, the held flag clears and the decoder returns to IDLE. -/
theorem lineResetIdlesTheLine : Obligations.LineResetIdlesTheLine := by
  unfold Obligations.LineResetIdlesTheLine
  refine ⟨fun s w running high => ?_, fun s l d running decoder => ⟨fun idle => ?_, ?_⟩⟩
  · unfold exec
    refine State.request_answers running ?_
    simp only [Line.ofCode_of_lt high]
    rfl
  · subst decoder
    unfold exec
    refine State.request_answers running ?_
    have state : word (s.channel l).stateCode = 0 := by rw [Channel.stateCode, idle]; rfl
    simp only [Line.ofCode_codeIn, State.resetLine, State.abortLine, idle, state]
    rfl
  · subst decoder
    intro e r q h p state code disposition x exposes _ one once phase givenUp
    obtain ⟨words, channel, other, group, engine, settled, frame⟩ := State.abortLine_settled exposes one once givenUp
    have stateWord : word (s.channel l).stateCode = state := by
      rw [Channel.stateCode, exposes.1]
      rcases phase with ⟨phase, rfl⟩ | ⟨phase, rfl⟩ | ⟨phase, rfl⟩
      · simp only [phase]; rfl
      · simp only [phase]; rfl
      · simp only [phase]; rfl
    have resets : exec (.lineReset [codeIn [Line.a, .b] l]) s = .next ((s.resetLine l).setReply .plan
        { status := .done, results := [state, word e.copy.serial, word e.copy.index, code, disposition, 0] }) := by
      unfold exec
      refine State.request_answers running ?_
      simp only [Line.ofCode_codeIn, words, stateWord]
      rfl
    unfold State.resetLine at resets
    simp only [channel] at resets
    generalize (s.abortLine l).1 = t at resets channel other group engine settled frame
    have decoders : t.decoders = s.decoders := by rw [frame]
    refine ⟨_, resets, Lines.get_set_self _ l _, (Lines.get_set_of_ne _ _ (Line.other_ne l)).trans other,
      Lines.get_set_self _ l _, ?_, group, settled, engine, ?_, ?_⟩
    · exact (Lines.get_set_of_ne _ _ (Line.other_ne l)).trans (congrArg (·.get l.other) decoders)
    · rw [frame]; rfl
    · rw [frame]; rfl

end Sys2Proof.Machine
end

section
/-! PROOF. PLATE END: the copy is settled, and the channel reloads or returns to IDLE (R135 to R139). -/

namespace Sys2Proof.Machine

open Sys2Proof

/-! ## What a settlement keeps of a record -/

/-- Two states of a record agree in what its copies are made of and in its flags. -/
def Plate.keepsOrder (q r : Plate) : Prop :=
  q.label = r.label ∧ q.sep = r.sep ∧ q.page = r.page ∧ q.copies = r.copies ∧ q.cancelled = r.cancelled ∧
    q.obsolete = r.obsolete ∧ q.channel = r.channel ∧ q.exposing = r.exposing

theorem Plate.damagedAs.keepsOrder {r q : Plate} {limit step : Nat} {d : Disposition}
    (damaged : r.damagedAs q limit step d) : q.keepsOrder r := by
  unfold Plate.damagedAs at damaged
  split at damaged
  · obtain ⟨-, rfl⟩ := damaged
    exact ⟨rfl, rfl, rfl, rfl, rfl, rfl, rfl, rfl⟩
  · split at damaged
    · obtain ⟨-, rfl⟩ := damaged
      exact ⟨rfl, rfl, rfl, rfl, rfl, rfl, rfl, rfl⟩
    · obtain ⟨-, rfl⟩ := damaged
      exact ⟨rfl, rfl, rfl, rfl, rfl, rfl, rfl, rfl⟩

theorem Plate.keepsOrder.trans {a b c : Plate} (h : a.keepsOrder b) (g : b.keepsOrder c) : a.keepsOrder c := by
  obtain ⟨h1, h2, h3, h4, h5, h6, h7, h8⟩ := h
  obtain ⟨g1, g2, g3, g4, g5, g6, g7, g8⟩ := g
  exact ⟨h1.trans g1, h2.trans g2, h3.trans g3, h4.trans g4, h5.trans g5, h6.trans g6, h7.trans g7, h8.trans g8⟩

section Kept

variable {s t : State}

/-- A record live after the settlement of a copy was live before it, of the same order. -/
theorem State.copySettled.plate_back {f : VerifyEntry} {kind : Option IncidentKind} (settled : s.copySettled t f kind)
    {i : Fin 128} {q : Plate} (live : t.plate i = some q) : ∃ r, s.plate i = some r ∧ q.keepsOrder r := by
  obtain ⟨u, v, h, p, is, hu, -, -, -, becomes, ⟨others, -, -, outcome⟩, -⟩ := settled
  by_cases same : i = f.plate
  · subst same
    have kept : v.keepsOrder u := by
      cases kind with
      | none => obtain ⟨-, rfl⟩ := becomes; exact ⟨rfl, rfl, rfl, rfl, rfl, rfl, rfl, rfl⟩
      | some k => obtain ⟨d, damaged, -⟩ := becomes; exact damaged.keepsOrder
    split at outcome
    · rw [outcome.1] at live; cases live
    · obtain rfl : v = q := Option.some.inj (outcome.1.symm.trans live)
      exact ⟨u, hu, kept⟩
  · exact ⟨q, (others i same).symm.trans live, rfl, rfl, rfl, rfl, rfl, rfl, rfl, rfl⟩

/-- An entry live after the settlement of a copy was live before it, with the same version. -/
theorem State.copySettled.page_back {f : VerifyEntry} {kind : Option IncidentKind} (settled : s.copySettled t f kind)
    {k : Fin 64} {x : Page} (live : t.page k = some x) : ∃ y, s.page k = some y ∧ x.version = y.version := by
  obtain ⟨_, _, h, p, _, -, -, -, hp, -, ⟨-, others, -, outcome⟩, -⟩ := settled
  by_cases same : k = h
  · subst same
    refine ⟨p, hp, ?_⟩
    split at outcome
    · obtain ⟨-, outcome⟩ := outcome
      split at outcome
      · rw [outcome.1] at live; cases live
      · cases outcome.1.symm.trans live; rfl
    · cases outcome.2.1.symm.trans live; rfl
  · exact ⟨x, (others k same).symm.trans live, rfl⟩

theorem State.settledInTurn_plate_back {xs : List (VerifyEntry × Option IncidentKind)} (settled : s.settledInTurn xs t)
    {i : Fin 128} {q : Plate} (live : t.plate i = some q) : ∃ r, s.plate i = some r ∧ q.keepsOrder r := by
  induction xs generalizing s with
  | nil => cases settled; exact ⟨q, live, rfl, rfl, rfl, rfl, rfl, rfl, rfl, rfl⟩
  | cons x xs ih =>
    obtain ⟨m, first, rest⟩ := settled
    obtain ⟨u, hu, kept⟩ := ih rest
    obtain ⟨r, hr, before⟩ := first.plate_back hu
    exact ⟨r, hr, kept.trans before⟩

theorem State.settledInTurn_page_back {xs : List (VerifyEntry × Option IncidentKind)} (settled : s.settledInTurn xs t)
    {k : Fin 64} {x : Page} (live : t.page k = some x) : ∃ y, s.page k = some y ∧ x.version = y.version := by
  induction xs generalizing s with
  | nil => cases settled; exact ⟨x, live, rfl⟩
  | cons _ xs ih =>
    obtain ⟨m, first, rest⟩ := settled
    obtain ⟨u, hu, kept⟩ := ih rest
    obtain ⟨y, hy, before⟩ := first.page_back hu
    exact ⟨y, hy, kept.trans before⟩

end Kept

/-! ## The settlement of an ended copy (R135, R136) -/

section Settles

variable {s b : State} {l : Line} {e : Exposure} {r r₀ q : Plate} {h : Fin 64} {p p₀ : Page}

/-- A good exposure with verification on joins the tail of the queue, b being s once room has been made in it (R136,
R157). -/
theorem State.settleEnded_of_queued (finishing : e.phase = .finishing) (good : (s.channel l).underrun = false)
    (verification : (s.lineSettings l).verification = true) (room : s.expel l = b) (before : s.exposes l e r₀ h p₀)
    (exposes : b.exposes l e r h p) (kept : r.keepsOrder r₀) (version : p.version = p₀.version) (one : r.exposing = 1) :
    ∃ m, s.settleEnded l e false = (m, { settlement := .queuedForVerify, kind := none, disposition := none }) ∧
      (b.setQueue l (b.queue l ++ [e.entry r p])).recordMoved m e.plate
        { r with exposing := 0, awaiting := r.awaiting + 1 } [] := by
  have versionOf := State.versionOf_of_exposes before
  obtain ⟨label, sep, -⟩ := kept
  have entry : ({ serial := e.copy.serial, plate := e.plate, copyIndex := e.copy.index, label := r₀.label
                  version := (s.versionOf r₀).getD 0, sep := r₀.sep, age := 0 } : VerifyEntry) = e.entry r p := by
    rw [versionOf, ← label, ← sep, Option.getD_some, ← version, Exposure.entry]
  have ends : s.settleEnded l e false = s.settleExposed l e := by
    simp only [State.settleEnded, endingDamage, finishing, good, Bool.false_eq_true, if_false]
  have moved := State.modifyPlate_recordMoved (s := b.setQueue l (b.queue l ++ [e.entry r p])) exposes.2.1 Plate.awaitCopy
  rw [Plate.awaitCopy, if_pos (by rw [one]; exact Nat.one_pos), one] at moved
  refine ⟨_, ?_, moved⟩
  · rw [ends, State.settleExposed]
    simp only [before.2.1, verification, if_true, entry, State.pushCopy, room]

/-- A good exposure with verification off is settled at once (R136). -/
theorem State.settleEnded_of_unverified (finishing : e.phase = .finishing) (good : (s.channel l).underrun = false)
    (verification : (s.lineSettings l).verification = false) (exposes : s.exposes l e r h p) (one : r.exposing = 1) :
    ∃ m, s.settleEnded l e false =
        (m, { settlement := if r.obsolete then .withdrawn else .verified, kind := none, disposition := none }) ∧
      s.recordMoved m e.plate
        (if r.obsolete = true then { r with exposing := 0, withdrawn := r.withdrawn + 1 }
          else { r with exposing := 0, verified := r.verified + 1 }) [] := by
  have ends : s.settleEnded l e false = s.settleExposed l e := by
    simp only [State.settleEnded, endingDamage, finishing, good, Bool.false_eq_true, if_false]
  have moved := State.modifyPlate_recordMoved exposes.2.1 (Plate.settleGood .exposing)
  simp only [Plate.settleGood, Plate.inStage, Plate.takeOut, one, Nat.one_pos, if_true, Nat.sub_self] at moved
  refine ⟨_, ?_, moved⟩
  · rw [ends, State.settleExposed]
    simp only [exposes.2.1, verification, Bool.false_eq_true, if_false]

/-- A damaged exposure is settled by the remake decision (R135, R137). -/
theorem State.settleEnded_of_damaged {fault : Bool} {kind : IncidentKind} {d : Disposition}
    (ends : endingDamage e.phase (s.channel l).underrun fault = some kind) (exposes : s.exposes l e r h p)
    (one : r.exposing = 1)
    (damaged : { r with exposing := 0 }.damagedAs q (s.editionOf r.label).remakeLimit (stepAfter kind r.step) d) :
    ∃ m, s.settleEnded l e fault = (m, { settlement := .damaged, kind := some kind, disposition := some d }) ∧
      s.recordMoved m e.plate q
        [{ kind, time := s.clock, label := some r.label, version := some p.version, handle := some h, sep := some r.sep
           plate := some e.plate, serial := some e.copy.serial, copyIndex := some e.copy.index
           attempts := some q.attempts, disposition := d }] := by
  obtain ⟨moved, decided⟩ := State.damageExposed_recordMoved exposes one damaged
  refine ⟨_, ?_, moved⟩
  rw [State.settleEnded]
  simp only [ends, decided]

theorem State.expel_of_room (room : (s.queue l).length < 16) : s.expel l = s := by
  unfold State.expel
  split
  · exact if_neg (by simp only [Config.maxQueue]; omega)
  · rfl

/-- The damage of an ending (R135, R137). -/
theorem endingDamage_of_ending {underrun : Bool} {fault : Word} {kind : IncidentKind} {step : Nat} (low : fault.toNat < 2)
    (ending : e.phase ≠ .finishing ∧ kind = .shortExposure ∧ step = r.step ∨
      e.phase = .finishing ∧ underrun = true ∧ kind = .underrun ∧ step = r.step ∨
      e.phase = .finishing ∧ underrun = false ∧ fault = 1 ∧ kind = .exposeFault ∧ step = min (r.step + 1) 7) :
    ∃ late, twoOfCode fault.toNat = some late ∧ endingDamage e.phase underrun late = some kind ∧
      step = stepAfter kind r.step := by
  have coded : ∃ late, twoOfCode fault.toNat = some late := by
    have : fault.toNat = 0 ∨ fault.toNat = 1 := by omega
    rcases this with code | code
    · exact ⟨false, by rw [code]; rfl⟩
    · exact ⟨true, by rw [code]; rfl⟩
  obtain ⟨late, coded⟩ := coded
  rcases ending with ⟨phase, rfl, rfl⟩ | ⟨phase, rfl, rfl, rfl⟩ | ⟨phase, rfl, rfl, rfl, rfl⟩
  · refine ⟨late, coded, ?_, rfl⟩
    cases begun : e.phase with
    | finishing => exact absurd begun phase
    | loaded => rfl
    | running => rfl
  · exact ⟨late, coded, by rw [phase]; rfl, rfl⟩
  · exact ⟨true, rfl, by rw [phase]; rfl, rfl⟩

/-- Room made in the queue: what was exposed before, and what it leaves (R157). -/
theorem State.madeRoom.expels (room : s.madeRoom b l e) (exposes : b.exposes l e r h p) :
    s.expel l = b ∧ ∃ r₀ p₀, s.exposes l e r₀ h p₀ ∧ r.keepsOrder r₀ ∧ p.version = p₀.version := by
  obtain ⟨-, -, -, f, rest, gone, kept, m, queue, length, split, settled, rfl⟩ := room
  obtain ⟨exposure, hr, page, hp⟩ := exposes
  have frame := State.settledInTurn_frame settled
  have queues : m.queues = s.queues := by rw [frame]
  have channels : m.channels = s.channels := by rw [frame]
  refine ⟨?_, ?_⟩
  · rw [State.expel_settled queue length split settled, ← queues]
    rfl
  · obtain ⟨r₀, hr₀, kept⟩ := State.settledInTurn_plate_back settled hr
    obtain ⟨p₀, hp₀, version⟩ := State.settledInTurn_page_back settled hp
    exact ⟨r₀, p₀, ⟨(congrArg (fun c => (c.get l).exposure) channels).symm.trans exposure, hr₀,
      kept.2.2.1.symm.trans page, hp₀⟩, kept, version⟩

/-- The settlement of an ended copy, its words, and its record and queue as it leaves them. -/
theorem State.settleEnded_of_endedAs {fault : Word} {words : List Word} {is : List Incident} {added : List VerifyEntry}
    (base : b = s ∨ s.madeRoom b l e ∧ fault = 0) (exposes : b.exposes l e r h p) (one : r.exposing = 1)
    (ended : b.endedAs l e r h p fault q words is added) :
    ∃ (late : Bool) (m : State) (x : Ending), twoOfCode fault.toNat = some late ∧ s.settleEnded l e late = (m, x) ∧
      [word x.settlement.code, optWord (x.kind.map IncidentKind.code), optWord (x.disposition.map Disposition.code)] =
        words ∧
      (b.setQueue l (b.queue l ++ added)).recordMoved m e.plate q is ∧ q.keepsOrder { r with exposing := 0 } := by
  have unqueued : b.setQueue l (b.queue l ++ []) = b := by rw [List.append_nil, State.setQueue_queue]
  have same : (s.channel l).underrun = (b.channel l).underrun ∧ (s.lineSettings l) = b.lineSettings l := by
    rcases base with rfl | ⟨⟨-, -, -, f, rest, gone, kept, m, queue, length, split, settled, rfl⟩, -⟩
    · exact ⟨rfl, rfl⟩
    · rw [State.settledInTurn_frame settled]; exact ⟨rfl, rfl⟩
  obtain ⟨sameUnderrun, sameSettings⟩ := same
  rcases ended with ⟨finishing, good, rfl, rfl, ⟨verification, rfl, settled⟩ |
      ⟨verification, room, rfl, rfl, rfl⟩⟩ | ⟨kind, step, d, rfl, low, ending, damaged, rfl, rfl⟩
  · obtain rfl : b = s := base.resolve_right fun x => by
      have on : (s.lineSettings l).verification = true := x.1.2.2.1
      rw [sameSettings, verification] at on
      exact Bool.false_ne_true on
    obtain ⟨m, ends, moved⟩ := State.settleEnded_of_unverified finishing good verification exposes one
    rw [unqueued]
    rcases settled with ⟨obsolete, rfl, rfl⟩ | ⟨obsolete, rfl, rfl⟩
    · rw [if_pos obsolete] at ends moved
      exact ⟨false, m, _, rfl, ends, rfl, moved, rfl, rfl, rfl, rfl, rfl, rfl, rfl, rfl⟩
    · rw [if_neg (by rw [obsolete]; exact Bool.false_ne_true)] at ends moved
      exact ⟨false, m, _, rfl, ends, rfl, moved, rfl, rfl, rfl, rfl, rfl, rfl, rfl, rfl⟩
  · have before : s.expel l = b ∧ ∃ r₀ p₀, s.exposes l e r₀ h p₀ ∧ r.keepsOrder r₀ ∧ p.version = p₀.version := by
      rcases base with rfl | ⟨made, -⟩
      · exact ⟨State.expel_of_room room, r, p, exposes, ⟨rfl, rfl, rfl, rfl, rfl, rfl, rfl, rfl⟩, rfl⟩
      · exact made.expels exposes
    obtain ⟨expels, r₀, p₀, exposed, kept, version⟩ := before
    obtain ⟨m, ends, moved⟩ := State.settleEnded_of_queued finishing (sameUnderrun.trans good)
      ((congrArg LineSettings.verification sameSettings).trans verification) expels exposed exposes kept version one
    exact ⟨false, m, _, rfl, ends, rfl, moved, rfl, rfl, rfl, rfl, rfl, rfl, rfl, rfl⟩
  · obtain rfl : b = s := base.resolve_right fun ⟨⟨finishing, good, _⟩, zero⟩ => by
      rcases ending with ⟨other, -⟩ | ⟨-, late, -⟩ | ⟨-, -, bad, -⟩
      · exact other finishing
      · exact Bool.false_ne_true (good.symm.trans (sameUnderrun.trans late))
      · exact absurd (zero.symm.trans bad) (by decide)
    obtain ⟨late, faulted, ends, rfl⟩ := endingDamage_of_ending low ending
    obtain ⟨m, settles, moved⟩ := State.settleEnded_of_damaged ends exposes one damaged
    rw [unqueued]
    refine ⟨late, m, _, faulted, settles, ?_, moved, damaged.keepsOrder⟩
    rw [Option.map_some, Option.map_some, optWord, optWord, IncidentKind.code_word, Disposition.code_word]
    rfl

end Settles

/-! ## The channel after an ended copy (R138, R139) -/

section After

variable {s b m : State} {l : Line} {e : Exposure} {r q : Plate} {h : Fin 64} {p : Page} {is : List Incident}

theorem Plate.reloads_iff (q : Plate) (index : Nat) :
    q.reloads index = true ↔ 0 < q.toExpose ∧ q.cancelled = false ∧ q.obsolete = false ∧ index < 7 := by
  simp only [Plate.reloads, Bool.and_eq_true, Bool.not_eq_true', decide_eq_true_eq, and_assoc]

theorem State.reloadOrIdle_of_idle (hq : m.plate e.plate = some q) (page : q.page = some h) (hp : m.page h = some p)
    (last : q.toExpose = 0 ∨ q.cancelled = true ∨ q.obsolete = true ∨ 7 ≤ e.copy.index) :
    m.reloadOrIdle l e = m.returnToIdle l := by
  have stays : q.reloads e.copy.index = false := by
    rw [Bool.eq_false_iff, ne_eq, Plate.reloads_iff]
    rintro ⟨owed, cancelled, obsolete, low⟩
    rcases last with none | gone | gone | high
    · omega
    · exact Bool.false_ne_true (cancelled.symm.trans gone)
    · exact Bool.false_ne_true (obsolete.symm.trans gone)
    · omega
  simp only [State.reloadOrIdle, hq, page, Option.bind_some, hp, Option.map_some, stays, Bool.false_eq_true, if_false]

theorem State.reloadOrIdle_of_reload (hq : m.plate e.plate = some q) (page : q.page = some h) (hp : m.page h = some p)
    (owed : 0 < q.toExpose) (cancelled : q.cancelled = false) (obsolete : q.obsolete = false) (low : e.copy.index < 7) :
    m.reloadOrIdle l e = (m.discardTask l).loadCopy l e.plate q p (e.copy.index + 1) e.mapping e.group := by
  have reloads : q.reloads e.copy.index = true := (q.reloads_iff _).mpr ⟨owed, cancelled, obsolete, low⟩
  simp only [State.reloadOrIdle, hq, page, Option.bind_some, hp, Option.map_some, reloads, if_true]

theorem exec_plateEnd {fault : Word} {late : Bool} {x : Ending} (running : s.resetAsserted = false)
    (coded : twoOfCode fault.toNat = some late) (exposure : (s.channel l).exposure = some e)
    (settles : s.settleEnded l e late = (m, x)) :
    exec (.plateEnd l [fault]) s = .next ((m.reloadOrIdle l e).setReply l.imagePort
      { status := .done, results := (m.reloadOrIdle l e).endWords l e x }) := by
  unfold exec
  refine State.request_answers running ?_
  simp only [coded, exposure, settles]
  rfl

/-- The words of a PLATE END after which the channel is IDLE. -/
theorem State.endWords_of_idle {x : Ending} (idle : (m.channel l).exposure = none) :
    m.endWords l e x = [word e.copy.serial, word e.copy.index] ++
      [word x.settlement.code, optWord (x.kind.map IncidentKind.code), optWord (x.disposition.map Disposition.code)] ++
      [0, 0] := by
  have state : word (m.channel l).stateCode = 0 := by rw [Channel.stateCode, idle]; rfl
  have header : m.headerWords l = [] := by simp only [State.headerWords, idle]
  rw [State.endWords, state, header, idle]
  rfl

/-- The words of a PLATE END after which the channel holds the next copy. -/
theorem State.endWords_of_reload {x : Ending} {f : Exposure} (exposes : m.exposes l f r h p) (loaded : f.phase = .loaded) :
    m.endWords l e x = [word e.copy.serial, word e.copy.index] ++
      [word x.settlement.code, optWord (x.kind.map IncidentKind.code), optWord (x.disposition.map Disposition.code)] ++
      [1, 1] ++ f.copy.header f.plate r p := by
  have state : word (m.channel l).stateCode = 1 := by rw [Channel.stateCode, exposes.1]; simp only [loaded]; rfl
  rw [State.endWords, state, State.headerWords_eq exposes, exposes.1]
  rfl

/-- PLATE END after which the channel is IDLE, b being s with room made in the queue (R139). -/
theorem exec_plateEnd_of_idle {fault : Word} {late : Bool} {x : Ending} {queue : List VerifyEntry}
    (running : s.resetAsserted = false) (coded : twoOfCode fault.toNat = some late)
    (exposure : (s.channel l).exposure = some e) (settles : s.settleEnded l e late = (m, x))
    (exposed : (b.channel l).exposure = some e) (hp : b.page h = some p) (once : e.group.Nodup)
    (moved : (b.setQueue l queue).recordMoved m e.plate q is) (page : q.page = some h)
    (last : q.toExpose = 0 ∨ q.cancelled = true ∨ q.obsolete = true ∨ 7 ≤ e.copy.index) :
    ∃ t : State, exec (.plateEnd l [fault]) s = .next t ∧ t.channel l = (b.channel l).leftIdle ∧
      t.channel l.other = b.channel l.other ∧ b.groupReleased t e.group ∧ t.engine = b.tasksDiscarded l ∧
      t.queue l = queue ∧ t.queue l.other = b.queue l.other ∧
      b.recordSettled t e.plate { q with channel := none } h p is ∧
      t.replies = b.replies.set l.imagePort (some
        { status := .done
          results := [word e.copy.serial, word e.copy.index] ++ [word x.settlement.code,
            optWord (x.kind.map IncidentKind.code), optWord (x.disposition.map Disposition.code)] ++ [0, 0] }) ∧
      t = { b with
        channels := t.channels, engine := t.engine, screens := t.screens, plates := t.plates, queues := t.queues
        pages := t.pages, freeCells := t.freeCells, openOrder := t.openOrder, indexQueue := t.indexQueue
        indexer := t.indexer, incidents := t.incidents, lost := t.lost, replies := t.replies } := by
  obtain ⟨channel, other, group, engine, settled⟩ := State.returnToIdle_settled (s := b.setQueue l queue) exposed moved
    page hp once
  have returns := State.returnToIdle_frame m l
  obtain ⟨hq, -, -, frame⟩ := moved
  have hpm : m.page h = some p := by rw [frame]; exact hp
  have ends := exec_plateEnd running coded exposure settles
  rw [State.reloadOrIdle_of_idle hq page hpm last] at ends
  generalize m.returnToIdle l = t at ends returns channel other group engine settled
  rw [State.endWords_of_idle (by rw [channel]; rfl)] at ends
  have queues : t.queues = (b.setQueue l queue).queues := by rw [returns, frame]
  have replies : t.replies = b.replies := by rw [returns, frame]; rfl
  refine ⟨_, ends, channel, other, group, engine, ?_, ?_, settled, ?_, ?_⟩
  · exact (congrArg (·.get l) queues).trans (b.setQueue_queue_self l queue)
  · exact (congrArg (·.get l.other) queues).trans (Lines.get_set_of_ne _ _ (Line.other_ne l))
  · rw [← replies]; rfl
  · rw [returns, frame]; rfl

/-- PLATE END after which the channel holds the next copy, b being s with room made in the queue (R138). -/
theorem exec_plateEnd_of_reload {fault : Word} {late : Bool} {x : Ending} {queue : List VerifyEntry} {n : Nat} {copy : Copy}
    (running : s.resetAsserted = false) (coded : twoOfCode fault.toNat = some late)
    (exposure : (s.channel l).exposure = some e) (settles : s.settleEnded l e late = (m, x))
    (hp : b.page h = some p) (moved : (b.setQueue l queue).recordMoved m e.plate q is) (page : q.page = some h)
    (kept : q.keepsOrder { r with exposing := 0 }) (on : r.channel = some l)
    (owed : 0 < q.toExpose) (cancelled : r.cancelled = false) (obsolete : r.obsolete = false) (low : e.copy.index < 7)
    (serial : n = ((b.setChannel l { b.channel l with exposure := none }).setQueue l queue).nextSerial)
    (next : copy =
      { serial := n, index := e.copy.index + 1, level := b.levelOf q
        markCode := MarkIdentity.code { serial := n, label := r.label, sep := r.sep, index := e.copy.index + 1 } }) :
    ∃ t : State, exec (.plateEnd l [fault]) s = .next t ∧
      t.plate e.plate = some { q with toExpose := q.toExpose - 1, exposing := 1 } ∧
      (∀ j, j ≠ e.plate → t.plate j = b.plate j) ∧ t.queue l = queue ∧
      t.queue l.other = b.queue l.other ∧
      t.channel l = { b.channel l with
        exposure := some { e with phase := .loaded, copy := copy }, underrun := false, rowsDelivered := 0
        nextBand := 0, stall := none, ring := (b.channel l).ring.map Slot.emptied
        context := RenderContext.start p r.sep } ∧
      t.channel l.other = b.channel l.other ∧ t.engine = b.tasksDiscarded l ∧ t.serialNext = serialAfter n ∧
      b.recordedAll t is ∧
      t.replies = b.replies.set l.imagePort (some
        { status := .done
          results := [word e.copy.serial, word e.copy.index] ++ [word x.settlement.code,
            optWord (x.kind.map IncidentKind.code), optWord (x.disposition.map Disposition.code)] ++ [1, 1] ++
            copy.header e.plate r p }) ∧
      t = { b with
        channels := t.channels, engine := t.engine, plates := t.plates, queues := t.queues
        serialNext := t.serialNext, incidents := t.incidents, lost := t.lost, replies := t.replies } := by
  obtain ⟨hq, others, recorded, frame⟩ := moved
  obtain ⟨label, sep, -, copies, sameCancelled, sameObsolete, channel, exposing⟩ := kept
  have hpm : m.page h = some p := by rw [frame]; exact hp
  have ends := exec_plateEnd running coded exposure settles
  rw [State.reloadOrIdle_of_reload hq page hpm owed (sameCancelled.trans cancelled) (sameObsolete.trans obsolete) low] at ends
  have begun : { q.beginCopy with channel := some l } = { q with toExpose := q.toExpose - 1, exposing := 1 } := by
    rw [Plate.beginCopy, if_pos owed, exposing, ← on, ← channel]
  have issued : ((m.discardTask l).setChannel l { b.channel l with exposure := none }).nextSerial = n := by
    rw [serial, frame]; rfl
  have level : (m.discardTask l).levelOf q = b.levelOf q := by rw [frame]; rfl
  have channels : m.channels = b.channels := by rw [frame]; rfl
  have before : (m.discardTask l).channel l = b.channel l := congrArg (·.get l) channels
  have loaded : (m.discardTask l).loadCopy l e.plate q p (e.copy.index + 1) e.mapping e.group =
      (({ m.discardTask l with serialNext := serialAfter n }).setPlate e.plate
          (some { q with toExpose := q.toExpose - 1, exposing := 1 })).setChannel l
        { b.channel l with
          exposure := some { e with phase := .loaded, copy := copy }, underrun := false, rowsDelivered := 0
          nextBand := 0, stall := none, ring := (b.channel l).ring.map Slot.emptied
          context := RenderContext.start p r.sep } := by
    unfold State.loadCopy
    simp only [before, issued, begun, level, label, sep, next]
  rw [loaded] at ends
  generalize ht : State.setChannel _ l _ = t at ends
  have self : t.plate e.plate = some { q with toExpose := q.toExpose - 1, exposing := 1 } := by
    rw [← ht]
    exact State.plate_setPlate_self { m.discardTask l with serialNext := serialAfter n } e.plate _
  have channelT : t.channel l = { b.channel l with
      exposure := some { e with phase := .loaded, copy := copy }, underrun := false, rowsDelivered := 0
      nextBand := 0, stall := none, ring := (b.channel l).ring.map Slot.emptied
      context := RenderContext.start p r.sep } := by
    rw [← ht]
    exact State.channel_setChannel_self _ l _
  have header := State.endWords_of_reload (m := t) (l := l) (e := e) (x := x)
    (f := { e with phase := .loaded, copy := copy }) ⟨by rw [channelT], self, page, by rw [← ht]; exact hpm⟩ rfl
  have copied : copy.header e.plate { q with toExpose := q.toExpose - 1, exposing := 1 } p = copy.header e.plate r p := by
    simp only [Copy.header, label, sep, copies]
  rw [header, copied] at ends
  refine ⟨_, ends, self, fun j hj => ?_, ?_, ?_, channelT, ?_, ?_, ?_, ?_, ?_, ?_⟩
  · rw [← ht]
    exact (State.plate_setPlate_of_ne { m.discardTask l with serialNext := serialAfter n } _ hj).trans (others j hj)
  · rw [← ht, frame]; exact b.setQueue_queue_self l queue
  · rw [← ht, frame]; exact Lines.get_set_of_ne _ _ (Line.other_ne l)
  · rw [← ht, frame]; exact Lines.get_set_of_ne _ _ (Line.other_ne l)
  · rw [← ht, frame]; rfl
  · rw [← ht]; rfl
  · rw [← ht]; exact recorded
  · rw [← ht, frame]; rfl
  · rw [← ht, frame]; rfl


end After

/-- PLATE END of a good exposure that finds 16 entries in the queue: the head is expelled and remade, and the channel
returns to IDLE (R136, R139, R157). -/
theorem exec_plateEnd_of_full {s : State} {l : Line} {e : Exposure} {r u : Plate} {h : Fin 64} {p : Page}
    {f : VerifyEntry} {rest : List VerifyEntry} (running : s.resetAsserted = false) (exposes : s.exposes l e r h p)
    (one : r.exposing = 1) (once : e.group.Nodup) (finishing : e.phase = .finishing)
    (good : (s.channel l).underrun = false) (verification : (s.lineSettings l).verification = true)
    (last : r.toExpose = 0 ∨ r.cancelled = true ∨ r.obsolete = true ∨ 7 ≤ e.copy.index)
    (queue : s.queue l = f :: rest) (length : rest.length = 15)
    (quiet : ∀ g ∈ rest.head?, (s.lineSettings l).verifyWindow = 0 ∨ g.age ≤ (s.lineSettings l).verifyWindow)
    (apart : f.plate ≠ e.plate) (hu : s.plate f.plate = some u) (owed : 0 < u.awaiting) (obsolete : u.obsolete = false)
    (cancelled : u.cancelled = false) (allowed : u.attempts < (s.editionOf u.label).remakeLimit) :
    ∃ t : State, exec (.plateEnd l [0]) s = .next t ∧ t.channel l = (s.channel l).leftIdle ∧
      t.channel l.other = s.channel l.other ∧ s.groupReleased t e.group ∧
      t.plate e.plate = some { r with exposing := 0, awaiting := r.awaiting + 1, channel := none } ∧
      t.plate f.plate = some u.remadeMissing ∧ (∀ j, j ≠ e.plate → j ≠ f.plate → t.plate j = s.plate j) ∧
      t.queue l = rest ++ [e.entry r p] ∧ t.queue l.other = s.queue l.other ∧ t.engine = s.tasksDiscarded l ∧
      s.recorded t (f.missing u s.clock) ∧
      t.replies = s.replies.set l.imagePort (some
        { status := .done
          results := [word e.copy.serial, word e.copy.index, 0, 0xFFFF, 0xFFFF, 0, 0] }) ∧
      t = { s with
        channels := t.channels, engine := t.engine, screens := t.screens, plates := t.plates, queues := t.queues
        incidents := t.incidents, lost := t.lost, replies := t.replies } := by
  obtain ⟨exposure, hr, page, hp⟩ := exposes
  have expels : s.expel l = (s.setQueue l rest).settleLost f .missing := by
    have lost := State.settleLost_frame (s.setQueue l rest) f .missing
    simp only [State.expel, queue, Config.maxQueue, List.length_cons, length, Nat.reduceAdd, Nat.le_refl, if_true]
    generalize (s.setQueue l rest).settleLost f .missing = n at lost
    refine State.overdueTest_of_quiet (rest := rest) ?_ ?_
    · rw [lost]; exact s.setQueue_queue_self l rest
    · rw [lost]; exact quiet
  have damaged : { u with awaiting := u.awaiting - 1 }.damagedAs u.remadeMissing
      (s.editionOf u.label).remakeLimit u.step .remakeQueued := by
    rw [Plate.damagedAs, if_neg (by simp [obsolete, cancelled]), if_pos allowed]
    exact ⟨rfl, rfl⟩
  obtain ⟨lost, others, recorded, frame⟩ := State.settleLost_of_live (s := s.setQueue l rest) (kind := .missing) hu owed
    damaged ((Plate.spent_eq_false_iff _).mpr (Or.inr (Or.inl u.toExpose.succ_pos))) rfl
  generalize (s.setQueue l rest).settleLost f .missing = n at expels lost others recorded frame
  have exposedN : n.exposes l e r h p := by
    refine ⟨?_, (others e.plate (Ne.symm apart)).trans hr, page, ?_⟩
    · rw [frame]; exact exposure
    · rw [frame]; exact hp
  have queueN : n.queue l = rest := by rw [frame]; exact s.setQueue_queue_self l rest
  obtain ⟨m, settles, moved⟩ := State.settleEnded_of_queued finishing good verification expels
    ⟨exposure, hr, page, hp⟩ exposedN ⟨rfl, rfl, rfl, rfl, rfl, rfl, rfl, rfl⟩ rfl one
  rw [queueN] at moved
  obtain ⟨t, ends, channel, other, group, engine, queueT, queueOther, settled, replies, frameT⟩ :=
    exec_plateEnd_of_idle (fault := 0) running rfl exposure settles exposedN.1 exposedN.2.2.2 once moved page last
  obtain ⟨otherPlates, otherPages, lostT, outcome⟩ := settled
  rw [if_neg (by rintro ⟨-, -, -, none⟩; exact Nat.succ_ne_zero _ none)] at outcome
  obtain ⟨self, pageT, ⟨cells, order, index, indexer⟩, incidents⟩ := outcome
  have pages : t.pages = s.pages := by
    refine State.pages_ext fun k => ?_
    by_cases hk : k = h
    · subst hk; exact pageT.trans hp.symm
    · rw [otherPages k hk, frame]; rfl
  refine ⟨t, ends, ?_, ?_, ?_, self, (otherPlates _ apart).trans lost,
    fun j hj hf => (otherPlates j hj).trans (others j hf), queueT, ?_, ?_, ?_, ?_, ?_⟩
  · rw [channel, frame]; rfl
  · rw [other, frame]; rfl
  · rw [frame] at group; exact group
  · rw [queueOther, frame]; exact Lines.get_set_of_ne _ _ (Line.other_ne l)
  · rw [engine, frame]; rfl
  · have noMore : t.incidents = n.incidents ∧ t.lost = n.lost := by
      refine ⟨incidents.trans ?_, lostT⟩
      rw [State.incidentsWith, List.take_nil, List.append_nil]
    rw [State.recorded, noMore.1, noMore.2]
    exact recorded
  · rw [replies, frame]; rfl
  · refine frameT.trans ?_
    rw [pages, cells, order, index, indexer, frame]
    rfl

/-- Settles O50: the copy is settled as its ending says, and the channel reloads or returns to IDLE with the record and
the queue as the settlement leaves them. -/
theorem plateEndSettlesTheCopy : Obligations.PlateEndSettlesTheCopy := by
  unfold Obligations.PlateEndSettlesTheCopy
  refine ⟨fun s l w running => ⟨fun high => ?_, fun low idle => ?_⟩, ?_⟩
  · unfold exec
    refine State.request_answers running ?_
    simp only [twoOfCode_of_lt high]
    rfl
  · have coded : ∃ late, twoOfCode w.toNat = some late := by
      have : w.toNat = 0 ∨ w.toNat = 1 := by omega
      rcases this with code | code
      · exact ⟨false, by rw [code]; rfl⟩
      · exact ⟨true, by rw [code]; rfl⟩
    obtain ⟨late, coded⟩ := coded
    unfold exec
    refine State.request_answers running ?_
    simp only [coded, idle]
    rfl
  · intro s b l e r h p running base exposes on one once
    refine ⟨fun fault q words is added faulted ended => ?_, ?_⟩
    · have base : b = s ∨ s.madeRoom b l e ∧ fault = 0 := base.elim Or.inl fun room => faulted.imp_right fun z => ⟨room, z⟩
      have exposure : (s.channel l).exposure = some e := by
        rcases base with rfl | ⟨room, -⟩
        · exact exposes.1
        · obtain ⟨-, r₀, p₀, before, -⟩ := room.expels exposes
          exact before.1
      obtain ⟨late, m, x, coded, settles, rfl, moved, kept⟩ := State.settleEnded_of_endedAs base exposes one ended
      have page : q.page = some h := kept.2.2.1.trans exposes.2.2.1
      refine ⟨fun n copy owed cancelled obsolete low serial next => ?_, fun last => ?_⟩
      · exact exec_plateEnd_of_reload running coded exposure settles exposes.2.2.2 moved page kept on owed
          cancelled obsolete low serial next
      · obtain ⟨-, -, -, -, cancelled, obsolete, -⟩ := kept
        exact exec_plateEnd_of_idle running coded exposure settles exposes.1 exposes.2.2.2 once moved page
          (by rw [cancelled, obsolete]; exact last)
    · rintro f rest u rfl finishing good verification last queue length quiet apart hu owed obsolete cancelled allowed
      exact exec_plateEnd_of_full running exposes one once finishing good verification last queue length quiet apart hu owed
        obsolete cancelled allowed

end Sys2Proof.Machine
end

section
/-! PROOF. PLATE REQUEST hands the first eligible record to the channel (R108 to R112, R127, R128). -/

namespace Sys2Proof.Machine

open Sys2Proof

/-! ## Serials, contexts and levels -/

theorem serialAfter_eq {n : Nat} (low : n ≤ 65535) : serialAfter n = if n = 65535 then 1 else n + 1 := by
  unfold serialAfter
  by_cases last : n = 65535
  · rw [if_pos last, if_neg (by omega)]
  · rw [if_neg last, if_pos (by omega)]

theorem State.levelOf_of_entry {s : State} {r : Plate} {v : Nat}
    (entry : s.exposureTable.toList[r.step * 2 + if r.sep = .k then 0 else 1]? = some v) : s.levelOf r = v := by
  rw [State.levelOf, List.getD_eq_getElem?_getD, entry, Option.getD_some]

theorem RenderContext.start_eq (p : Page) (sp : Sys2Proof.Machine.Sep) : RenderContext.start p sp =
    { segment := ((p.held.filter fun g => g.kind == .line && g.sep == sp).head?).map Segment.number, offset := 2
      rowsLeft := 0, carry := List.replicate p.width false, rowCount := 0
      patchCursors := (p.results.get sp).patches.map fun _ => 0 } := by
  have segment : ((p.linePayloads sp).head?).map (·.1) =
      ((p.held.filter fun g => g.kind == .line && g.sep == sp).head?).map Segment.number := by
    rw [Page.linePayloads, List.head?_map, Option.map_map]
    rfl
  rw [RenderContext.start, segment, List.map_const']
  rfl

section HandOver

variable {s : State} {l : Line} {i : Fin 128} {r : Plate} {h : Fin 64} {p : Page}

/-- A loaded copy on a channel that was IDLE (R109, R127, R128). -/
theorem State.loadCopy_of_idle (idle : (s.channel l).exposure = none) (owed : 0 < r.toExpose) (mapping : Seps (Fin 8))
    (group : List (Fin 8)) :
    s.loadCopy l i r p 0 mapping group =
      (({ s with serialNext := serialAfter s.nextSerial }).setPlate i
          (some { r with toExpose := r.toExpose - 1, exposing := r.exposing + 1, channel := some l })).setChannel l
        { s.channel l with
          underrun := false
          exposure := some
            { phase := .loaded, plate := i, mapping, group
              copy :=
                { serial := s.nextSerial, index := 0, level := s.levelOf r
                  markCode := MarkIdentity.code { serial := s.nextSerial, label := r.label, sep := r.sep, index := 0 } } }
          rowsDelivered := 0, nextBand := 0, stall := none, ring := (s.channel l).ring.map Slot.emptied
          context := RenderContext.start p r.sep } := by
  have same : s.setChannel l { s.channel l with exposure := none } = s := by
    rw [← idle]
    cases l <;> rfl
  have begun : { r.beginCopy with channel := some l } =
      { r with toExpose := r.toExpose - 1, exposing := r.exposing + 1, channel := some l } := by
    rw [Plate.beginCopy, if_pos owed]
  unfold State.loadCopy
  simp only [same, begun]

/-- A record handed to an IDLE channel is loaded, checked for lateness, and its group counted (R86, R109, R112). -/
theorem State.handOver_eq (idle : (s.channel l).exposure = none) (owed : 0 < r.toExpose) :
    s.handOver l i r p =
      (((({ s with serialNext := serialAfter s.nextSerial }).setPlate i
          (some { r with toExpose := r.toExpose - 1, exposing := r.exposing + 1, channel := some l })).setChannel l
        { s.channel l with
          underrun := false
          exposure := some
            { phase := .loaded, plate := i, mapping := (s.editionOf r.label).sets
              group := setGroup (s.editionOf r.label).sets r p
              copy :=
                { serial := s.nextSerial, index := 0, level := s.levelOf r
                  markCode := MarkIdentity.code { serial := s.nextSerial, label := r.label, sep := r.sep, index := 0 } } }
          rowsDelivered := 0, nextBand := 0, stall := none, ring := (s.channel l).ring.map Slot.emptied
          context := RenderContext.start p r.sep }).lateCheck i r (s.projectedFinish l r p) s.nextSerial).countSets (· + 1)
        (setGroup (s.editionOf r.label).sets r p) := by
  have loaded := State.loadCopy_of_idle (i := i) (p := p) idle owed (s.editionOf r.label).sets
    (setGroup (s.editionOf r.label).sets r p)
  simp only [State.handOver, loaded]

/-- The late check marks a late record once, and makes its LATE RISK (R112). -/
theorem State.lateCheck_eq {q : Plate} {finish serial : Nat} {late : Bool} (hq : s.plate i = some q)
    (decides : late = (s.editionOf r.label).deadline.any fun d => !r.lateRisk && decide (d.toNat < finish)) :
    s.lateCheck i r finish serial =
      if late = true then
        (s.setPlate i (some { q with lateRisk := true })).raise
          { kind := .lateRisk, time := s.clock, label := some r.label, version := s.versionOf r, handle := r.page
            sep := some r.sep, plate := some i, serial := some serial, copyIndex := some 0, attempts := some r.attempts
            disposition := .noted }
      else s := by
  subst decides
  unfold State.lateCheck State.modifyPlate
  cases (s.editionOf r.label).deadline with
  | none => rfl
  | some d => simp only [hq, Option.any_some]

/-- What the late check leaves of the record and the incident list (R112). -/
theorem State.lateCheck_leaves {q : Plate} {finish serial : Nat} {late : Bool} (hq : s.plate i = some q)
    (flag : q.lateRisk = r.lateRisk) (page : r.page = some h) (hp : s.page h = some p)
    (decides : late = (s.editionOf r.label).deadline.any fun d => !r.lateRisk && decide (d.toNat < finish)) {t : State}
    (checked : s.lateCheck i r finish serial = t) :
    t.plate i = some { q with lateRisk := r.lateRisk || late } ∧ (∀ j, j ≠ i → t.plate j = s.plate j) ∧
      (late = false → t.incidents = s.incidents ∧ t.lost = s.lost) ∧
      (late = true → s.recorded t
        { kind := .lateRisk, time := s.clock, label := some r.label, version := some p.version, handle := some h
          sep := some r.sep, plate := some i, serial := some serial, copyIndex := some 0
          attempts := some r.attempts, disposition := .noted }) ∧
      t = { s with plates := t.plates, incidents := t.incidents, lost := t.lost } := by
  have version : s.versionOf r = some p.version := by
    simp only [State.versionOf, page, Option.bind_some, hp, Option.map_some]
  rw [State.lateCheck_eq hq decides, version, page] at checked
  cases late with
  | false =>
    rw [if_neg Bool.false_ne_true] at checked
    subst checked
    refine ⟨?_, fun _ _ => rfl, fun _ => ⟨rfl, rfl⟩, nofun, rfl⟩
    rw [Bool.or_false, ← flag]
    exact hq
  | true =>
    rw [if_pos rfl] at checked
    obtain ⟨recorded, frame⟩ := State.raised_of_eq checked
    refine ⟨?_, fun j hj => ?_, nofun, fun _ => recorded, ?_⟩
    · rw [frame, Bool.or_true]
      exact State.plate_setPlate_self s i _
    · rw [frame]
      exact State.plate_setPlate_of_ne s _ hj
    · rw [frame]
      rfl

end HandOver

/-- Settles O46: the copy is loaded, its lateness checked and its group counted, one after another. -/
theorem plateRequestLoadsTheFirstEligibleRecord : Obligations.PlateRequestLoadsTheFirstEligibleRecord := by
  unfold Obligations.PlateRequestLoadsTheFirstEligibleRecord
  refine ⟨fun s r v => State.levelOf_of_entry, fun m r p => ⟨setGroup_nodup m r p, mem_setGroup m r p⟩,
    fun s => s.nextSerial_issues, fun n => serialAfter_eq, fun x => ?_, RenderContext.start_eq,
    fun s l running => ⟨fun busy => ?_, fun idle none => ?_⟩, ?_⟩
  · cases x <;> rfl
  · unfold exec
    refine State.request_answers running ?_
    simp only [Option.isSome_iff_ne_none.mpr busy, if_true]
    rfl
  · unfold exec
    refine State.request_answers running ?_
    have refused : (s.channel l).held = true ∨ s.firstEligible l = Option.none :=
      none.imp_right (State.firstEligible_eq_none_iff l).mpr
    rcases refused with held | noOne
    · simp only [idle, held, Option.isSome_none, Bool.false_eq_true, if_false, if_true]
      rfl
    · simp only [idle, noOne, Option.isSome_none, Bool.false_eq_true, if_false, Option.bind_none, ite_self]
      rfl
  · rintro s l i r h p late finish _ _ running idle free first hr page hp rfl decides rfl rfl
    have owed : 0 < r.toExpose := ((s.eligible_iff r l).mp (s.firstEligible_eligible first hr)).1.2
    have decides : late = (s.editionOf r.label).deadline.any fun d =>
        !r.lateRisk && decide (d.toNat < s.projectedFinish l r p) := by
      rw [decides]
      cases (s.editionOf r.label).deadline <;> rfl
    have hands : exec (.plateRequest l []) s =
        .next ((s.handOver l i r p).setReply l.imagePort (Reply.ok ((s.handOver l i r p).headerWords l))) := by
      unfold exec
      refine State.request_answers running ?_
      simp only [idle, free, first, hr, page, hp, Option.isSome_none, Bool.false_eq_true, if_false, Option.bind_some,
        Option.map_some]
    rw [State.handOver_eq idle owed] at hands
    generalize hn : State.setChannel _ l _ = n at hands
    have self : n.plate i =
        some { r with toExpose := r.toExpose - 1, exposing := r.exposing + 1, channel := some l } := by
      rw [← hn]
      exact State.plate_setPlate_self { s with serialNext := serialAfter s.nextSerial } i _
    obtain ⟨record, others, quiet, recorded, frame⟩ := State.lateCheck_leaves (r := r) (late := late) (finish := s.projectedFinish l r p) (h := h) (p := p)
      (serial := s.nextSerial) self rfl page (by rw [← hn]; exact hp) (by rw [← hn]; exact decides) rfl
    generalize n.lateCheck i r (s.projectedFinish l r p) s.nextSerial = m at hands record others quiet recorded frame
    have counted := State.countSets_get m (· + 1) _ (setGroup_nodup (s.editionOf r.label).sets r p)
    have kept := State.countSets_frame m (· + 1) (setGroup (s.editionOf r.label).sets r p)
    generalize m.countSets (· + 1) (setGroup (s.editionOf r.label).sets r p) = t at hands counted kept
    have channel : t.channel l = n.channel l := by rw [kept, frame]; rfl
    have screens : m.screens = s.screens := by rw [frame, ← hn]; rfl
    have loaded : n.channel l =
        { s.channel l with
          underrun := false
          exposure := some
            { phase := .loaded, plate := i, mapping := (s.editionOf r.label).sets
              group := setGroup (s.editionOf r.label).sets r p
              copy :=
                { serial := s.nextSerial, index := 0, level := s.levelOf r
                  markCode := MarkIdentity.code { serial := s.nextSerial, label := r.label, sep := r.sep, index := 0 } } }
          rowsDelivered := 0, nextBand := 0, stall := none, ring := (s.channel l).ring.map Slot.emptied
          context := RenderContext.start p r.sep } := by
      rw [← hn]
      exact State.channel_setChannel_self _ l _
    rw [loaded] at channel
    have pageT : t.page h = some p := by rw [kept, frame, ← hn]; exact hp
    have plates : t.plates = m.plates := by rw [kept]
    have recordT : t.plate i = some { r with
        toExpose := r.toExpose - 1, exposing := r.exposing + 1, channel := some l, lateRisk := r.lateRisk || late } := by
      rw [State.plate, plates]
      exact record
    have header := State.headerWords_eq (s := t) (l := l) ⟨congrArg Channel.exposure channel, recordT, page, pageT⟩
    rw [header] at hands
    have incidents : t.incidents = m.incidents ∧ t.lost = m.lost := by rw [kept]; exact ⟨rfl, rfl⟩
    refine ⟨_, hands, recordT, fun j hj => ?_, (congrArg Channel.exposure channel).trans rfl,
      (congrArg Channel.rowsDelivered channel).trans rfl, (congrArg Channel.nextBand channel).trans rfl,
      (congrArg Channel.underrun channel).trans rfl, (congrArg Channel.stall channel).trans rfl,
      (congrArg Channel.held channel).trans free, (congrArg Channel.ring channel).trans rfl,
      (congrArg Channel.context channel).trans rfl, ?_, ?_, fun k => ?_, fun none => ?_, fun some => ?_, ?_, ?_⟩
    · refine (congrArg (fun v => v[j]) plates).trans ((others j hj).trans ?_)
      rw [← hn]
      exact State.plate_setPlate_of_ne { s with serialNext := serialAfter s.nextSerial } _ hj
    · have channels : t.channels = n.channels := by rw [kept, frame]
      refine (congrArg (·.get l.other) channels).trans ?_
      rw [← hn]
      exact Lines.get_set_of_ne _ _ (Line.other_ne l)
    · rw [kept, frame, ← hn]; rfl
    · obtain ⟨content, inUse⟩ := counted k
      rw [screens] at content inUse
      refine ⟨content, inUse.trans ?_⟩
      split
      · rfl
      · rfl
    · obtain ⟨same, lost⟩ := quiet none
      refine ⟨incidents.1.trans (same.trans ?_), incidents.2.trans (lost.trans ?_)⟩
      · rw [← hn]; rfl
      · rw [← hn]; rfl
    · have made := recorded some
      rw [State.recorded, ← incidents.1, ← incidents.2, ← hn] at made
      exact made
    · rw [kept, frame, ← hn]; rfl
    · rw [kept, frame, ← hn]; rfl

end Sys2Proof.Machine
end

section
/-! PROOF. Records attached to the current entry of their label, or failed as a mismatch: PLATE ORDER and PAGE OPEN (R6,
R101). -/

namespace Sys2Proof.Machine

open Sys2Proof

/-! ## One record attached or failed (R6, R101) -/

section Attach

variable {s : State} {h : Fin 64} {l : Label} {p : Page} {i : Fin 128} {r : Plate}

theorem State.pageHas_of_page (hp : s.page h = some p) (sp : Sys2Proof.Machine.Sep) : s.pageHas h sp = p.seps.get sp := by
  simp only [State.pageHas, hp]

/-- A record that waits with no page leaves the table alone when it is freed. -/
theorem State.freePlate_of_unnamed (hr : s.plate i = some r) (page : r.page = none) :
    s.freePlate i = s.setPlate i none := by
  simp only [State.freePlate, hr, page]

/-- What becomes of a record by an entry of a label and a separation set: attached, freed as a mismatch, or left (R6). -/
def Plate.attachedTo (r : Plate) (h : Fin 64) (l : Label) (seps : Seps Bool) : Option Plate :=
  if r.waitsFor l then if seps.get r.sep then some { r with page := some h } else none else some r

/-- Whether an entry of a label and a separation set takes a record (R6). -/
def Plate.takenBy (r : Plate) (l : Label) (seps : Seps Bool) : Bool := decide (r.waitsFor l) && seps.get r.sep

/-- The ORDER MISMATCH of a record that an entry does not take (R6). -/
def State.mismatchOf (s : State) (h : Fin 64) (l : Label) (p : Page) (k : Fin 128) : Option Incident :=
  ((s.plate k).filter fun r => decide (r.waitsFor l) && !p.seps.get r.sep).map fun r =>
    r.untaken .orderMismatch s.clock p.version h k

theorem State.attachOne_eq (hr : s.plate i = some r) (hp : s.page h = some p) :
    State.attachOne h l s i =
      if r.waitsFor l then
        if p.seps.get r.sep = true then (s.setPlate i (some { r with page := some h })).retain h
        else (s.raise (r.untaken .orderMismatch s.clock p.version h i)).setPlate i none
      else s := by
  have waits : (r.page = none ∧ r.label = l ∧ r.derived = .waiting) ↔ r.waitsFor l := by
    rw [Plate.derived_waits]
  simp only [State.attachOne, hr, waits, State.pageHas_of_page hp]
  by_cases w : r.waitsFor l
  · simp only [if_pos w]
    by_cases taken : p.seps.get r.sep = true
    · simp only [taken, if_true]
    · simp only [taken]
      have incident : s.orderIncident .orderMismatch h r i = s.raise (r.untaken .orderMismatch s.clock p.version h i) := by
        rw [State.orderIncident, hp]
        rfl
      rw [incident, State.freePlate_of_unnamed (r := r) ?_ w.1]
      rw [State.raise_frame]
      exact hr
  · simp only [if_neg w]

theorem State.retain_leaves (hp : s.page h = some p) :
    (s.retain h).page h = some { p with retention := p.retention + 1 } ∧ (∀ k, k ≠ h → (s.retain h).page k = s.page k) ∧
      s.retain h = { s with pages := (s.retain h).pages } := by
  refine ⟨?_, fun k hk => ?_, s.retain_frame h⟩
  · rw [State.retain, State.modifyPage_page, if_pos rfl, hp, Option.map_some]
  · rw [State.retain, State.modifyPage_page, if_neg hk]

/-- One record treated by an entry (R6). -/
theorem State.attachOne_leaves (hp : s.page h = some p) {t : State} (attached : State.attachOne h l s i = t) :
    t.plate i = (s.plate i).bind (fun r => r.attachedTo h l p.seps) ∧ (∀ k, k ≠ i → t.plate k = s.plate k) ∧
      t.page h = some { p with retention := p.retention + if (s.plate i).any fun r => r.takenBy l p.seps then 1 else 0 } ∧
      (∀ k, k ≠ h → t.page k = s.page k) ∧ s.recordedAll t (s.mismatchOf h l p i).toList ∧
      t = { s with plates := t.plates, pages := t.pages, incidents := t.incidents, lost := t.lost } := by
  subst attached
  cases hr : s.plate i with
  | none =>
    have same : State.attachOne h l s i = s := by simp only [State.attachOne, hr]
    rw [same, State.mismatchOf, hr]
    exact ⟨rfl, fun _ _ => rfl, hp, fun _ _ => rfl, s.recordedAll_nil, rfl⟩
  | some r =>
    rw [State.attachOne_eq hr hp, State.mismatchOf, hr, Option.bind_some, Option.any_some, Plate.attachedTo, Plate.takenBy,
      Option.filter_some]
    by_cases waits : r.waitsFor l
    · rw [if_pos waits, if_pos waits, decide_eq_true waits, Bool.true_and, Bool.true_and]
      cases taken : p.seps.get r.sep with
      | true =>
        simp only [Bool.not_true, Bool.false_eq_true, if_true, if_false, Option.map_none, Option.toList_none]
        obtain ⟨page, pages, frame⟩ :=
          State.retain_leaves (s := s.setPlate i (some { r with page := some h })) (h := h) (p := p) hp
        generalize State.retain _ h = t at page pages frame
        have plates : t.plates = (s.setPlate i (some { r with page := some h })).plates := by rw [frame]
        refine ⟨?_, fun k hk => ?_, page, pages, ?_, ?_⟩
        · exact (congrArg (fun v => v[i]) plates).trans (s.plate_setPlate_self i _)
        · exact (congrArg (fun v => v[k]) plates).trans (s.plate_setPlate_of_ne _ hk)
        · rw [frame]; exact s.recordedAll_nil
        · rw [frame]; rfl
      | false =>
        simp only [Bool.not_false, Bool.false_eq_true, if_true, if_false, Option.map_some, Option.toList_some]
        have recorded := s.raise_recordedAll (r.untaken .orderMismatch s.clock p.version h i)
        have frame := s.raise_frame (r.untaken .orderMismatch s.clock p.version h i)
        generalize s.raise (r.untaken .orderMismatch s.clock p.version h i) = t at recorded frame
        refine ⟨t.plate_setPlate_self i _, fun k hk => (t.plate_setPlate_of_ne _ hk).trans ?_, ?_, fun k hk => ?_, recorded,
          ?_⟩
        · rw [frame]; rfl
        · rw [frame]; exact hp
        · rw [frame]; rfl
        · rw [frame]; rfl
    · rw [if_neg waits, if_neg waits, decide_eq_false waits, Bool.false_and]
      exact ⟨hr, fun _ _ => rfl, hp, fun _ _ => rfl, s.recordedAll_nil, rfl⟩

/-- Records treated by an entry one after another, each once (R6, R101). -/
theorem State.attachOne_foldl {ids : List (Fin 128)} (once : ids.Nodup) (hp : s.page h = some p) {t : State}
    (attached : ids.foldl (State.attachOne h l) s = t) :
    (∀ k ∈ ids, t.plate k = (s.plate k).bind fun r => r.attachedTo h l p.seps) ∧
      (∀ k, k ∉ ids → t.plate k = s.plate k) ∧
      t.page h = some { p with
        retention := p.retention + ids.countP fun k => (s.plate k).any fun r => r.takenBy l p.seps } ∧
      (∀ k, k ≠ h → t.page k = s.page k) ∧ s.recordedAll t (ids.filterMap (s.mismatchOf h l p)) ∧
      t = { s with plates := t.plates, pages := t.pages, incidents := t.incidents, lost := t.lost } := by
  induction ids generalizing s p with
  | nil => subst attached; exact ⟨nofun, fun _ _ => rfl, hp, fun _ _ => rfl, s.recordedAll_nil, rfl⟩
  | cons i ids ih =>
    obtain ⟨new, onceRest⟩ := List.nodup_cons.mp once
    obtain ⟨self, others, page, pages, made, frame⟩ := State.attachOne_leaves (l := l) (i := i) hp rfl
    rw [List.foldl_cons] at attached
    generalize State.attachOne h l s i = m at attached self others page pages made frame
    obtain ⟨treated, kept, pageT, pagesT, madeT, frameT⟩ := ih onceRest page attached
    have apart (k : Fin 128) (hk : k ∈ ids) : m.plate k = s.plate k := others k fun e => new (e ▸ hk)
    have clock : m.clock = s.clock := by rw [frame]
    have mismatches : ids.filterMap (m.mismatchOf h l { p with
        retention := p.retention + if (s.plate i).any fun r => r.takenBy l p.seps then 1 else 0 }) =
        ids.filterMap (s.mismatchOf h l p) :=
      List.filterMap_congr fun k hk => by rw [State.mismatchOf, State.mismatchOf, apart k hk, clock]
    have counts : (ids.countP fun k => (m.plate k).any fun r => r.takenBy l p.seps) =
        ids.countP fun k => (s.plate k).any fun r => r.takenBy l p.seps :=
      List.countP_congr fun k hk => by rw [apart k hk]
    refine ⟨fun k hk => ?_, fun k hk => ?_, ?_, fun k hk => (pagesT k hk).trans (pages k hk), ?_, ?_⟩
    · rcases List.mem_cons.mp hk with rfl | later
      · rw [kept k new, self]
      · rw [treated k later, apart k later]
    · obtain ⟨notFirst, notRest⟩ := List.ne_and_not_mem_of_not_mem_cons hk
      rw [kept k notRest, others k notFirst]
    · rw [pageT, List.countP_cons, ← counts]
      simp only [Option.some.injEq, Page.mk.injEq, and_true, true_and]
      omega
    · have all := State.recordedAll.append (s := s) made (mismatches ▸ madeT)
      rw [List.filterMap_cons]
      cases first : s.mismatchOf h l p i with
      | none => rw [first] at all; exact all
      | some x => rw [first] at all; exact all
    · rw [frameT, frame]

end Attach

end Sys2Proof.Machine
end

section
/-! PROOF. PLATE ORDER: the records are created, then treated by the current entry (R100 to R102). -/

namespace Sys2Proof.Machine

open Sys2Proof

/-! ## Creation (R101, R102) -/

theorem map_snd_zip_of_le {α β : Type} (a : List α) (b : List β) : (a.zip b).map Prod.snd = b.take a.length := by
  induction a generalizing b with
  | nil => rfl
  | cons x a ih =>
    cases b with
    | nil => rfl
    | cons y b => rw [List.zip_cons_cons, List.map_cons, ih b, List.length_cons, List.take_succ_cons]

theorem State.mem_freePlateIds_iff (s : State) (i : Fin 128) : i ∈ s.freePlateIds ↔ s.plate i = none := by
  simp [State.freePlateIds, plateIds]

theorem State.freePlateIds_pairwise (s : State) : s.freePlateIds.Pairwise (· < ·) :=
  (List.pairwise_lt_finRange 128).filter _

section Orders

variable {s t : State} {l : Label} {choice : LineChoice} {copies : Nat} {h : Fin 64} {p : Page}
  {pairs : List (Sys2Proof.Machine.Sep × Fin 128)}

/-- Records created on ids one after another (R101, R102). -/
theorem State.createOrdered_foldl (once : (pairs.map Prod.snd).Nodup)
    (created : pairs.foldl (State.createOrdered l choice copies) s = t) :
    (∀ (k : Nat) (sp : Sys2Proof.Machine.Sep) (i : Fin 128), pairs[k]? = some (sp, i) →
        t.plate i = some (Plate.create l none sp choice copies 0 .order (s.arrival + BitVec.ofNat 32 k))) ∧
      (∀ i, i ∉ pairs.map Prod.snd → t.plate i = s.plate i) ∧
      t.arrival = s.arrival + BitVec.ofNat 32 pairs.length ∧
      t = { s with plates := t.plates, arrival := t.arrival } := by
  induction pairs generalizing s with
  | nil =>
    subst created
    exact ⟨nofun, fun _ _ => rfl, (BitVec.add_zero _).symm, rfl⟩
  | cons x pairs ih =>
    rw [List.map_cons] at once
    obtain ⟨new, onceRest⟩ := List.nodup_cons.mp once
    rw [List.foldl_cons] at created
    obtain ⟨records, kept, arrival, frame⟩ := ih onceRest created
    have next (k : Nat) : (State.createOrdered l choice copies s x).arrival + BitVec.ofNat 32 k =
        s.arrival + BitVec.ofNat 32 (k + 1) := by
      rw [Nat.add_comm k 1, BitVec.ofNat_add, ← BitVec.add_assoc]
      rfl
    refine ⟨fun k sp i at_ => ?_, fun i hi => ?_, ?_, ?_⟩
    · cases k with
      | zero =>
        obtain rfl : x = (sp, i) := Option.some.inj at_
        rw [kept i new, BitVec.add_zero]
        exact s.plate_setPlate_self i _
      | succ k => rw [records k sp i at_, next]
    · obtain ⟨notFirst, notRest⟩ := List.ne_and_not_mem_of_not_mem_cons hi
      rw [kept i notRest]
      exact s.plate_setPlate_of_ne _ notFirst
    · rw [arrival, next, List.length_cons]
    · rw [frame]; rfl

/-! ## Treatment (R101) -/

theorem State.treatOrdered_none (s : State) : pairs.foldl (State.treatOrdered none) s = s := by
  induction pairs with
  | nil => rfl
  | cons x pairs ih => exact ih

/-- Records that wait for the label are treated by its current entry as records attached to it (R6, R101). -/
theorem State.treatOrdered_some (once : (pairs.map Prod.snd).Nodup) (hp : s.page h = some p)
    (waits : ∀ x ∈ pairs, ∃ r, s.plate x.2 = some r ∧ r.sep = x.1 ∧ r.waitsFor l) :
    pairs.foldl (State.treatOrdered (some h)) s = (pairs.map Prod.snd).foldl (State.attachOne h l) s := by
  induction pairs generalizing s p with
  | nil => rfl
  | cons x pairs ih =>
    rw [List.map_cons] at once
    obtain ⟨new, onceRest⟩ := List.nodup_cons.mp once
    obtain ⟨⟨r, hr, sep, first⟩, rest⟩ := List.forall_mem_cons.mp waits
    have same : State.treatOrdered (some h) s x = State.attachOne h l s x.2 := by
      have derived : r.derived = .waiting := (Plate.derived_waits r).mpr first.2.2
      simp only [State.treatOrdered, State.attachOne, hr, first.1, first.2.1, derived, sep, true_and, if_true]
    obtain ⟨-, others, page, -, -, -⟩ := State.attachOne_leaves (l := l) (i := x.2) hp rfl
    rw [List.foldl_cons, List.map_cons, List.foldl_cons, same]
    refine ih onceRest page fun y hy => ?_
    rw [others y.2 fun e => new (e ▸ List.mem_map_of_mem hy)]
    exact rest y hy

end Orders

theorem LineChoice.ofCode_eq (n : Nat) : LineChoice.ofCode n = [LineChoice.a, .b, .either][n]? := by
  match n with
  | 0 | 1 | 2 => rfl
  | n + 3 => rfl

theorem copiesTaken_eq (n : Nat) : copiesTaken n = max 1 (min n 8) := by
  unfold copiesTaken
  split <;> omega

theorem some_copies (n : Word) : 0 < max 1 (min n.toNat 8) := Nat.lt_of_lt_of_le Nat.one_pos (Nat.le_max_left 1 _)

theorem Plate.create_waitsFor {l : Label} {sp : Sys2Proof.Machine.Sep} {choice : LineChoice} {copies step : Nat}
    {origin : Origin} {arrival : BitVec 32} (some : 0 < copies) :
    (Plate.create l none sp choice copies step origin arrival).waitsFor l := ⟨rfl, rfl, rfl, some⟩

/-! ## The request (R100) -/

section Requests

variable {s : State} {l0 l1 sw n cw : Word} {l : Label} {choice : LineChoice}

theorem exec_plateOrder_of_bad (running : s.resetAsserted = false)
    (bad : badLabel l0 l1 ∨ sw.toNat % 16 = 0 ∨ 2 < cw.toNat) :
    exec (.plateOrder [l0, l1, sw, n, cw]) s = .next (s.setReply .plan { status := .badValue, results := [] }) := by
  unfold exec
  refine State.request_answers running ?_
  cases label : readLabel l0 l1 with
  | none => simp only [label]; rfl
  | some l =>
    cases coded : LineChoice.ofCode cw.toNat with
    | none => simp only [label, coded]; rfl
    | some choice =>
      have empty : sw.toNat % 16 = 0 := by
        rcases bad with bad | empty | high
        · exact absurd ((readLabel_eq_none_iff l0 l1).mpr bad) (by rw [label]; nofun)
        · exact empty
        · rw [LineChoice.ofCode_eq, List.getElem?_eq_none high] at coded
          cases coded
      simp only [label, coded, readSeps_eq_setCarried, (setCarried_members_isEmpty sw).mpr empty, if_true]
      rfl

variable (running : s.resetAsserted = false) (carried : labelCarried l0 l1 l)
  (coded : [LineChoice.a, .b, .either][cw.toNat]? = some choice) (nonempty : (setCarried sw).members ≠ [])

include running carried coded nonempty

theorem exec_plateOrder_of_full (full : s.freePlateIds.length < (setCarried sw).members.length) :
    exec (.plateOrder [l0, l1, sw, n, cw]) s = .next (s.setReply .plan { status := .full, results := [] }) := by
  unfold exec
  refine State.request_answers running ?_
  have members : (setCarried sw).members.isEmpty = false := List.isEmpty_eq_false_iff.mpr nonempty
  simp only [(readLabel_eq_some_iff l0 l1 l).mpr carried, (LineChoice.ofCode_eq _).trans coded, readSeps_eq_setCarried,
    members, full, Bool.false_eq_true, if_false, if_true]
  rfl

theorem exec_plateOrder_of_room (room : (setCarried sw).members.length ≤ s.freePlateIds.length) :
    exec (.plateOrder [l0, l1, sw, n, cw]) s =
      .next ((s.orderPlates l (setCarried sw) (max 1 (min n.toNat 8)) choice).1.setReply .plan
        (s.orderPlates l (setCarried sw) (max 1 (min n.toNat 8)) choice).2) := by
  unfold exec
  refine State.request_answers running ?_
  have members : (setCarried sw).members.isEmpty = false := List.isEmpty_eq_false_iff.mpr nonempty
  simp only [(readLabel_eq_some_iff l0 l1 l).mpr carried, (LineChoice.ofCode_eq _).trans coded, readSeps_eq_setCarried,
    members, Nat.not_lt.mpr room, copiesTaken_eq, Bool.false_eq_true, if_false]

end Requests

/-- The reply of an order of a label whose current entry is live (R101, R191). -/
theorem State.orderReply_of_current {s : State} {h : Fin 64} {p : Page} (hp : s.page h = some p) (copies : Nat)
    (seps : Seps Bool) (pairs : List (Sys2Proof.Machine.Sep × Fin 128)) :
    [word copies, optWord ((s.attachedTo (some h) seps).map Fin.val)] ++
        (pairs.flatMap fun x => [word x.2.val, word (s.orderOutcome (some h) x.1)]) =
      [word copies, if ∃ sp ∈ seps.members, p.seps.get sp = true then word h.val else 0xFFFF] ++
        pairs.flatMap fun x => [word x.2.val, if p.seps.get x.1 then 0 else 2] := by
  have has : s.pageHas h = p.seps.get := funext (State.pageHas_of_page hp)
  have attached : optWord ((s.attachedTo (some h) seps).map Fin.val) =
      if ∃ sp ∈ seps.members, p.seps.get sp = true then word h.val else 0xFFFF := by
    rw [State.attachedTo, Option.filter_some, has]
    by_cases any : ∃ sp ∈ seps.members, p.seps.get sp = true
    · rw [if_pos any, if_pos (List.any_eq_true.mpr any)]
      rfl
    · rw [if_neg any, if_neg fun x => any (List.any_eq_true.mp x)]
      rfl
  have outcome (x : Sys2Proof.Machine.Sep × Fin 128) :
      word (s.orderOutcome (some h) x.1) = if p.seps.get x.1 then 0 else 2 := by
    simp only [State.orderOutcome, has]
    cases p.seps.get x.1 <;> rfl
  simp only [attached, outcome]

/-- Settles O42: the records are created on the lowest free ids, and treated as the label's current entry says. -/
theorem plateOrderCreatesItsRecords : Obligations.PlateOrderCreatesItsRecords := by
  unfold Obligations.PlateOrderCreatesItsRecords
  refine ⟨fun s l0 l1 sw n cw running bad => ?_, Seps.members_eq,
    fun s i => ⟨s.mem_freePlateIds_iff i, s.freePlateIds_pairwise⟩, ?_⟩
  · exact exec_plateOrder_of_bad running bad
  · rintro s l0 l1 sw n cw l choice copies running carried coded rfl nonempty
    have run := exec_plateOrder_of_room (n := n) running carried coded nonempty
    have ids : ((setCarried sw).members.zip s.freePlateIds).map Prod.snd =
        s.freePlateIds.take (setCarried sw).members.length := map_snd_zip_of_le _ _
    have once : (((setCarried sw).members.zip s.freePlateIds).map Prod.snd).Nodup := by
      rw [ids]
      exact (List.take_sublist _ _).nodup s.freePlateIds_nodup
    obtain ⟨records, kept, arrival, frame⟩ := State.createOrdered_foldl (s := s) (l := l) (choice := choice)
      (copies := max 1 (min n.toNat 8)) once rfl
    refine ⟨exec_plateOrder_of_full running carried coded nonempty, fun room none => ?_, ?_⟩
    · have current := State.currentEntry_of_noCurrent none
      have ran := run room
      simp only [State.orderPlates, current, State.treatOrdered_none] at ran
      generalize ((setCarried sw).members.zip s.freePlateIds).foldl
        (State.createOrdered l choice (max 1 (min n.toNat 8))) s = t at ran records kept arrival frame
      refine ⟨_, ran, fun k sp i hk hi => ?_, fun i hi => kept i (by rw [ids]; exact hi), ?_, ?_, ?_⟩
      · exact records k sp i (List.getElem?_zip_eq_some.mpr ⟨hk, hi⟩)
      · rw [List.length_zip, Nat.min_eq_left room] at arrival
        exact arrival
      · rw [frame, ← ids, List.flatMap_map]
        rfl
      · rw [frame]; rfl
    · rintro h p _ room isCurrent hp rfl
      have current := State.currentEntry_of_isCurrent isCurrent
      have ran := run room
      simp only [State.orderPlates, current] at ran
      generalize ((setCarried sw).members.zip s.freePlateIds).foldl
        (State.createOrdered l choice (max 1 (min n.toNat 8))) s = m at ran records kept arrival frame
      have waits : ∀ x ∈ (setCarried sw).members.zip s.freePlateIds, ∃ r, m.plate x.2 = some r ∧ r.sep = x.1 ∧
          r.waitsFor l := fun x hx => by
        obtain ⟨k, hk⟩ := List.getElem?_of_mem hx
        exact ⟨_, records k x.1 x.2 hk, rfl, Plate.create_waitsFor (some_copies n)⟩
      have hpm : m.page h = some p := by rw [frame]; exact hp
      rw [State.treatOrdered_some once hpm waits] at ran
      obtain ⟨treated, others, page, pages, made, frameT⟩ := State.attachOne_foldl (l := l) once hpm rfl
      generalize (((setCarried sw).members.zip s.freePlateIds).map Prod.snd).foldl (State.attachOne h l) m = t
        at ran treated others page pages made frameT
      refine ⟨_, ran, fun k sp i hk hi => ?_, fun i hi => ?_, ?_, fun k hk => ?_, ?_, ?_, ?_, ?_⟩
      · have at_ : ((setCarried sw).members.zip s.freePlateIds)[k]? = some (sp, i) :=
          List.getElem?_zip_eq_some.mpr ⟨hk, hi⟩
        refine (treated i (List.mem_map_of_mem (List.mem_of_getElem? at_))).trans ?_
        rw [records k sp i at_, Option.bind_some, Plate.attachedTo, if_pos (Plate.create_waitsFor (some_copies n))]
        rfl
      · rw [← ids] at hi
        exact (others i hi).trans (kept i hi)
      · have counted : (((setCarried sw).members.zip s.freePlateIds).map Prod.snd).countP
            (fun k => (m.plate k).any fun r => r.takenBy l p.seps) =
            ((setCarried sw).members.filter p.seps.get).length := by
          have members : ((setCarried sw).members.zip s.freePlateIds).map Prod.fst = (setCarried sw).members :=
            List.map_fst_zip room
          rw [List.countP_map, ← List.countP_eq_length_filter, ← members, List.countP_map, members]
          refine List.countP_congr fun x hx => ?_
          obtain ⟨r, hr, sep, first⟩ := waits x hx
          simp only [Function.comp_apply, hr, Option.any_some, Plate.takenBy, decide_eq_true first, Bool.true_and, sep]
        rw [counted] at page
        exact page
      · refine (pages k hk).trans ?_
        rw [frame]; rfl
      · rw [List.length_zip, Nat.min_eq_left room] at arrival
        rw [frameT]; exact arrival
      · have mismatches : (((setCarried sw).members.zip s.freePlateIds).map Prod.snd).filterMap (m.mismatchOf h l p) =
            ((setCarried sw).members.zip s.freePlateIds).filterMap (fun x =>
              if p.seps.get x.1 then none
              else some
                { kind := .orderMismatch, time := s.clock, label := some l, version := some p.version, handle := some h
                  sep := some x.1, plate := some x.2, disposition := .noted }) := by
          rw [List.filterMap_map]
          refine List.filterMap_congr fun x hx => ?_
          obtain ⟨r, hr, sep, first⟩ := waits x hx
          have clock : m.clock = s.clock := by rw [frame]
          rw [Function.comp_apply, State.mismatchOf, hr, Option.filter_some, decide_eq_true first, Bool.true_and, sep, clock]
          cases p.seps.get x.1 with
          | true => rfl
          | false => rw [← sep, ← first.2.1]; rfl
        rw [← mismatches]
        have same : m.incidents = s.incidents ∧ m.lost = s.lost := by rw [frame]; exact ⟨rfl, rfl⟩
        rw [State.recordedAll, State.incidentsWith, State.lostWith, same.1, same.2] at made
        exact made
      · rw [← State.orderReply_of_current hp]
        rw [frameT, frame]; rfl
      · rw [frameT, frame]; rfl

end Sys2Proof.Machine
end

section
/-! PROOF. PLATE CANCEL, and the entries that lose a record: what retentions lost leave of the catalogue (R16 to R18, R103,
R104, R114). -/

namespace Sys2Proof.Machine

open Sys2Proof

/-! ## Retentions lost (R16, R18) -/

/-- An entry that has lost n retentions: a SUPERSEDED one that lost its last is freed (R16, R18). -/
def Page.releasedBy (n : Nat) (p : Page) : Option Page :=
  if p.state = .superseded ∧ n ≠ 0 ∧ p.retention ≤ n then none else some { p with retention := p.retention - n }

/-- The cells that an entry gives back where it is freed. -/
def cellsFreed : Option Page → Option Page → Nat
  | some p, none => cellsOf p.held
  | _, _ => 0

/-- Every entry h has lost n h retentions, and what was freed with its last has left the catalogue (R16 to R18, R45). -/
structure State.released (s t : State) (n : Fin 64 → Nat) : Prop where
  page : ∀ h, t.page h = (s.page h).bind (Page.releasedBy (n h))
  cells : t.freeCells = s.freeCells + (handles.map fun h => cellsFreed (s.page h) (t.page h)).sum
  order : t.openOrder = s.openOrder.filter fun h => (s.page h).isNone || (t.page h).isSome
  incidents : t.incidents =
    resolvedWhere (fun x => x.handle.any fun h => (s.page h).isSome && (t.page h).isNone) s.incidents
  indexing : (∀ h, (s.page h).isSome = true → t.page h = none → h ∉ s.indexQueue ∧ s.indexer ≠ some h) →
    t.indexQueue = s.indexQueue ∧ t.indexer = s.indexer

theorem Page.releasedBy_zero (p : Page) : p.releasedBy 0 = some p := by
  rw [Page.releasedBy, if_neg (by simp)]
  rfl

theorem Page.releasedBy_add (p : Page) (m n : Nat) : (p.releasedBy m).bind (Page.releasedBy n) = p.releasedBy (m + n) := by
  unfold Page.releasedBy
  by_cases first : p.state = .superseded ∧ m ≠ 0 ∧ p.retention ≤ m
  · obtain ⟨state, some, last⟩ := first
    rw [if_pos ⟨state, some, last⟩, if_pos ⟨state, by omega, by omega⟩]
    rfl
  · rw [if_neg first, Option.bind_some]
    simp only
    by_cases second : p.state = .superseded ∧ n ≠ 0 ∧ p.retention - m ≤ n
    · obtain ⟨state, some, last⟩ := second
      rw [if_pos ⟨state, some, last⟩, if_pos ⟨state, by omega, by omega⟩]
    · rw [if_neg second, if_neg, Nat.sub_sub]
      rintro ⟨state, some, last⟩
      by_cases none : n = 0
      · exact first ⟨state, by omega, by omega⟩
      · exact second ⟨state, none, by omega⟩

theorem Page.releasedBy_held {p q : Page} {n : Nat} (released : p.releasedBy n = some q) : q.held = p.held := by
  unfold Page.releasedBy at released
  split at released
  · cases released
  · cases released; rfl

theorem resolvedWhere_false (q : Incident → Bool) (never : ∀ i, q i = false) (is : List Incident) :
    resolvedWhere q is = is := by
  unfold resolvedWhere
  refine (List.map_congr_left fun i _ => ?_).trans (List.map_id is)
  rw [if_neg (by rw [never i]; exact Bool.false_ne_true)]
  rfl

section Released

variable {s m t : State} {h : Fin 64}

/-- Entries that lose nothing stay. -/
theorem State.released.of_same (pages : t.pages = s.pages) (cells : t.freeCells = s.freeCells)
    (order : t.openOrder = s.openOrder) (incidents : t.incidents = s.incidents) (queue : t.indexQueue = s.indexQueue)
    (indexer : t.indexer = s.indexer) : s.released t fun _ => 0 := by
  have page (h : Fin 64) : t.page h = s.page h := congrArg (fun v => v[h]) pages
  refine ⟨fun h => ?_, ?_, ?_, ?_, fun _ => ⟨queue, indexer⟩⟩
  · rw [page]
    cases s.page h with
    | none => rfl
    | some p => exact p.releasedBy_zero.symm
  · have none (h : Fin 64) : cellsFreed (s.page h) (s.page h) = 0 := by cases s.page h <;> rfl
    simp only [page, none, cells]
    simp
  · rw [order]
    refine (List.filter_eq_self.mpr fun h _ => ?_).symm
    rw [page]
    cases s.page h <;> rfl
  · rw [incidents, resolvedWhere_false]
    intro x
    rw [Option.any_eq_false]
    intro h _
    rw [page]
    cases s.page h <;> simp

/-- Retentions lost one after another. -/
theorem State.released.trans {a b : Fin 64 → Nat} (first : s.released m a) (second : m.released t b) :
    s.released t fun h => a h + b h := by
  have gone (h : Fin 64) (free : m.page h = none) : t.page h = none := by rw [second.page, free]; rfl
  have page (h : Fin 64) : t.page h = (s.page h).bind (Page.releasedBy (a h + b h)) := by
    rw [second.page, first.page]
    cases s.page h with
    | none => rfl
    | some p => exact p.releasedBy_add _ _
  have back (h : Fin 64) (free : s.page h = none) : m.page h = none := by rw [first.page, free]; rfl
  refine ⟨page, ?_, ?_, ?_, ?_⟩
  · rw [second.cells, first.cells, Nat.add_assoc, ← List.sum_map_add]
    refine congrArg (fun v => s.freeCells + List.sum v) (List.map_congr_left fun h _ => ?_)
    cases hm : m.page h with
    | none => rw [gone h hm]; exact Nat.add_zero _
    | some q =>
      obtain ⟨p, hp, released⟩ := Option.bind_eq_some_iff.mp ((first.page h).symm.trans hm)
      rw [hp]
      cases t.page h with
      | none => exact (Nat.zero_add _).trans (congrArg cellsOf (Page.releasedBy_held released))
      | some _ => rfl
  · rw [second.order, first.order, List.filter_filter]
    refine List.filter_congr fun h _ => ?_
    cases hs : s.page h with
    | none => rw [back h hs]; rfl
    | some p =>
      cases hm : m.page h with
      | none => rw [gone h hm]; rfl
      | some q => simp
  · rw [second.incidents, first.incidents, resolvedWhere_resolvedWhere _ _ _ fun _ => rfl]
    refine congrArg (fun q => resolvedWhere q s.incidents) (funext fun x => ?_)
    cases x.handle with
    | none => rfl
    | some h =>
      simp only [Option.any_some]
      cases hs : s.page h with
      | none => rw [back h hs]; rfl
      | some p =>
        cases hm : m.page h with
        | none => rw [gone h hm]; rfl
        | some q => simp
  · intro free
    obtain ⟨queue, indexer⟩ := first.indexing fun h live none => free h live (gone h none)
    rw [← queue, ← indexer]
    refine second.indexing fun h live none => ?_
    rw [queue, indexer]
    refine free h ?_ none
    cases hs : s.page h with
    | none => rw [first.page, hs] at live; cases live
    | some p => rfl

/-- One entry's loss, by what has become of it; every other entry is as it was. -/
theorem State.released.of_one {p : Page} (hp : s.page h = some p) (self : t.page h = p.releasedBy 1)
    (others : ∀ k, k ≠ h → t.page k = s.page k)
    (cells : t.freeCells = s.freeCells + cellsFreed (some p) (t.page h))
    (order : t.openOrder = s.openOrder.filter fun k => k != h || (t.page h).isSome)
    (incidents : t.incidents = resolvedWhere (fun x => x.handle == some h && (t.page h).isNone) s.incidents)
    (indexing : (t.page h = none → h ∉ s.indexQueue ∧ s.indexer ≠ some h) →
      t.indexQueue = s.indexQueue ∧ t.indexer = s.indexer) :
    s.released t fun k => if k = h then 1 else 0 := by
  refine ⟨fun k => ?_, ?_, ?_, ?_, fun free => indexing (free h (by rw [hp]; rfl))⟩
  · by_cases same : k = h
    · rw [same, if_pos rfl, hp, self]; rfl
    · rw [if_neg same, others k same]
      cases s.page k with
      | none => rfl
      | some q => exact q.releasedBy_zero.symm
  · have only (k : Fin 64) (other : k ≠ h) : cellsFreed (s.page k) (t.page k) = 0 := by
      rw [others k other]
      cases s.page k <;> rfl
    rw [cells, handles, ← Fin.sum_univ_def, Finset.sum_eq_single h (fun k _ => only k) (by simp), hp]
  · rw [order]
    refine List.filter_congr fun k _ => ?_
    by_cases same : k = h
    · rw [same, hp]; simp
    · rw [others k same, bne_iff_ne.mpr same]
      cases s.page k <;> rfl
  · rw [incidents]
    refine congrArg (fun q => resolvedWhere q s.incidents) (funext fun x => ?_)
    cases x.handle with
    | none => rfl
    | some k =>
      by_cases same : k = h
      · rw [same, Option.any_some, hp]; simp
      · rw [Option.any_some, others k same]
        have other : (some k == some h) = false := by simpa using same
        rw [other]
        cases s.page k <;> rfl

/-- An entry loses one retention, and is freed where it was a SUPERSEDED one's last (R16, R18). -/
theorem State.release_released (s : State) (h : Fin 64) : s.released (s.release h) fun k => if k = h then 1 else 0 := by
  have frame := s.modifyPage_frame h fun p => { p with retention := p.retention - 1 }
  have page := s.modifyPage_page h h fun p => { p with retention := p.retention - 1 }
  have pages (k : Fin 64) (other : k ≠ h) :=
    (s.modifyPage_page h k fun p => { p with retention := p.retention - 1 }).trans (if_neg other)
  rw [if_pos rfl] at page
  unfold State.release State.freeIfUnused
  cases hp : s.page h with
  | none =>
    have same : s.modifyPage h (fun p => { p with retention := p.retention - 1 }) = s := by
      simp only [State.modifyPage, hp]
    rw [same] at page ⊢
    simp only [hp]
    have kept : s.released s fun _ => 0 := State.released.of_same rfl rfl rfl rfl rfl rfl
    refine { kept with page := fun k => ?_ }
    by_cases other : k = h
    · rw [other, hp]; rfl
    · rw [if_neg other]; exact kept.page k
  | some p =>
    rw [hp, Option.map_some] at page
    generalize s.modifyPage h (fun p => { p with retention := p.retention - 1 }) = m at frame page pages
    simp only [page]
    by_cases last : p.state = .superseded ∧ p.retention - 1 = 0
    · rw [if_pos last]
      obtain ⟨free, kept, cells, order, indexing, incidents, -⟩ := State.freeEntry_freed m h _ page
      have gone : p.releasedBy 1 = none := by
        rw [Page.releasedBy, if_pos ⟨last.1, Nat.one_ne_zero, by omega⟩]
      refine State.released.of_one hp (free.trans gone.symm) (fun k other => (kept k other).trans (pages k other)) ?_ ?_ ?_ ?_
      · rw [cells, free, frame]; rfl
      · rw [order, free, frame]; simp
      · rw [incidents, free, frame]; simp
      · intro away
        obtain ⟨notQueued, notIndexed⟩ := away free
        have same : m.indexer = s.indexer ∧ m.indexQueue = s.indexQueue := by rw [frame]; exact ⟨rfl, rfl⟩
        rw [State.leftIndexing, same.1, same.2, if_neg notIndexed] at indexing
        refine ⟨indexing.2.trans (List.filter_eq_self.mpr fun k hk => ?_), indexing.1⟩
        exact bne_iff_ne.mpr fun e => notQueued (e ▸ hk)
    · rw [if_neg last]
      have kept : p.releasedBy 1 = some { p with retention := p.retention - 1 } := by
        rw [Page.releasedBy, if_neg fun x => last ⟨x.1, by omega⟩]
      refine State.released.of_one hp (page.trans kept.symm) pages ?_ ?_ ?_ ?_
      · rw [page, frame]; rfl
      · rw [page, frame]; simp
      · rw [page, frame, resolvedWhere_false _ fun x => by simp]
      · rw [frame]; exact fun _ => ⟨rfl, rfl⟩

end Released

/-! ## Cancelling (R103, R104) -/

section Cancels

variable {s t : State} {i : Fin 128} {r : Plate}

/-- A record whose copies to expose have been withdrawn (R103). -/
def Plate.cancelledNow (r : Plate) : Plate :=
  { r with toExpose := 0, withdrawn := r.withdrawn + r.toExpose, cancelled := true }

/-- A record that nothing holds once its copies to expose are withdrawn (R103, R114). -/
def Plate.idle (r : Plate) : Bool := r.channel.isNone && r.exposing == 0 && r.awaiting == 0

theorem Plate.idle_iff (r : Plate) : r.idle = true ↔ r.channel = none ∧ r.exposing = 0 ∧ r.awaiting = 0 := by
  simp only [Plate.idle, Bool.and_eq_true, Option.isNone_iff_eq_none, beq_iff_eq, and_assoc]

theorem Plate.cancelledNow_spent (r : Plate) : r.cancelledNow.spent = r.idle := by
  unfold Plate.spent Plate.idle Plate.cancelledNow
  rw [beq_self_eq_true, Bool.and_true]

theorem State.cancelPlate_eq (hr : s.plate i = some r) :
    s.cancelPlate i = (s.setPlate i (some r.cancelledNow)).freeIfSpent i := by
  simp only [State.cancelPlate, State.modifyPlate, hr]
  rfl

/-- A record that something still holds stays, cancelled (R103). -/
theorem State.cancelPlate_of_held (hr : s.plate i = some r) (held : r.idle = false) :
    s.cancelPlate i = s.setPlate i (some r.cancelledNow) := by
  rw [State.cancelPlate_eq hr]
  exact State.freeIfSpent_of_live (s.plate_setPlate_self i _) (r.cancelledNow_spent.trans held)

theorem State.cancelPlate_of_idle (hr : s.plate i = some r) (idle : r.idle = true) :
    s.cancelPlate i = (s.setPlate i (some r.cancelledNow)).freePlate i := by
  have spent := r.cancelledNow_spent.trans idle
  rw [State.cancelPlate_eq hr]
  simp only [State.freeIfSpent, State.plate_setPlate_self, spent, if_true]

/-- A record with no page that nothing holds is freed (R103, R114). -/
theorem State.cancelPlate_of_unnamed (hr : s.plate i = some r) (idle : r.idle = true) (page : r.page = none) :
    s.cancelPlate i = s.setPlate i none := by
  rw [State.cancelPlate_of_idle hr idle,
    State.freePlate_of_unnamed (r := r.cancelledNow) (s.plate_setPlate_self i _) page, State.setPlate_setPlate]

/-- A record that nothing holds is freed, and its entry loses a retention (R16, R103, R114). -/
theorem State.cancelPlate_of_named {h : Fin 64} (hr : s.plate i = some r) (idle : r.idle = true)
    (page : r.page = some h) : s.cancelPlate i = (s.setPlate i none).release h := by
  rw [State.cancelPlate_of_idle hr idle]
  have named : r.cancelledNow.page = some h := page
  simp only [State.freePlate, State.plate_setPlate_self, named, State.setPlate_setPlate]

/-- What retentions lost leave does not look at the plate records. -/
theorem State.released.of_setPlate {v : Option Plate} {n : Fin 64 → Nat} (lost : (s.setPlate i v).released t n) :
    s.released t n := ⟨lost.page, lost.cells, lost.order, lost.incidents, lost.indexing⟩

/-- The entry that a cancelled record leaves, where it is freed. -/
def Plate.leaves (r : Plate) (h : Fin 64) : Bool := r.idle && r.page == some h

/-- One record cancelled (R103, R114). -/
theorem State.cancelPlate_leaves (hr : s.plate i = some r) (cancelled : s.cancelPlate i = t) :
    t.plate i = (if r.idle = true then none else some r.cancelledNow) ∧ (∀ k, k ≠ i → t.plate k = s.plate k) ∧
      (s.released t fun h => if r.leaves h = true then 1 else 0) ∧
      t = { s with
        plates := t.plates, pages := t.pages, freeCells := t.freeCells, openOrder := t.openOrder
        indexQueue := t.indexQueue, indexer := t.indexer, incidents := t.incidents } := by
  subst cancelled
  unfold Plate.leaves
  cases idle : r.idle with
  | false =>
    rw [State.cancelPlate_of_held hr idle]
    refine ⟨s.plate_setPlate_self i _, fun k hk => s.plate_setPlate_of_ne _ hk, ?_, rfl⟩
    exact State.released.of_same rfl rfl rfl rfl rfl rfl
  | true =>
    cases page : r.page with
    | none =>
      rw [State.cancelPlate_of_unnamed hr idle page]
      refine ⟨s.plate_setPlate_self i _, fun k hk => s.plate_setPlate_of_ne _ hk, ?_, rfl⟩
      exact State.released.of_same rfl rfl rfl rfl rfl rfl
    | some h =>
      rw [State.cancelPlate_of_named hr idle page]
      have lost := State.release_released (s.setPlate i none) h
      have frame := State.release_frame (s.setPlate i none) h
      generalize (s.setPlate i none).release h = t at lost frame
      have plates : t.plates = (s.setPlate i none).plates := by rw [frame]
      refine ⟨(congrArg (fun v => v[i]) plates).trans (s.plate_setPlate_self i _),
        fun k hk => (congrArg (fun v => v[k]) plates).trans (s.plate_setPlate_of_ne _ hk), ?_, ?_⟩
      · have same : (fun k => if (true && some h == some k) = true then 1 else 0) =
            fun k : Fin 64 => if k = h then 1 else 0 := by
          funext k
          simp only [Bool.true_and, beq_iff_eq, Option.some.injEq, eq_comm (a := h)]
        rw [same]
        exact lost.of_setPlate
      · rw [frame]; rfl

/-- Records cancelled one after another, each once (R104). -/
theorem State.cancelPlate_foldl {ids : List (Fin 128)} (once : ids.Nodup) (live : ∀ k ∈ ids, s.plate k ≠ none)
    (cancelled : ids.foldl State.cancelPlate s = t) :
    (∀ k ∈ ids, t.plate k = (s.plate k).bind fun r => if r.idle = true then none else some r.cancelledNow) ∧
      (∀ k, k ∉ ids → t.plate k = s.plate k) ∧
      (s.released t fun h => ids.countP fun k => (s.plate k).any fun r => r.leaves h) ∧
      t = { s with
        plates := t.plates, pages := t.pages, freeCells := t.freeCells, openOrder := t.openOrder
        indexQueue := t.indexQueue, indexer := t.indexer, incidents := t.incidents } := by
  induction ids generalizing s with
  | nil =>
    subst cancelled
    exact ⟨nofun, fun _ _ => rfl, State.released.of_same rfl rfl rfl rfl rfl rfl, rfl⟩
  | cons i ids ih =>
    obtain ⟨new, onceRest⟩ := List.nodup_cons.mp once
    obtain ⟨liveFirst, liveRest⟩ := List.forall_mem_cons.mp live
    obtain ⟨r, hr⟩ := Option.ne_none_iff_exists'.mp liveFirst
    obtain ⟨self, others, lost, frame⟩ := State.cancelPlate_leaves hr rfl
    rw [List.foldl_cons] at cancelled
    generalize s.cancelPlate i = m at cancelled self others lost frame
    have apart (k : Fin 128) (hk : k ∈ ids) : m.plate k = s.plate k := others k fun e => new (e ▸ hk)
    obtain ⟨treated, kept, lostRest, frameT⟩ := ih onceRest (fun k hk => by rw [apart k hk]; exact liveRest k hk) cancelled
    refine ⟨fun k hk => ?_, fun k hk => ?_, ?_, ?_⟩
    · rcases List.mem_cons.mp hk with rfl | later
      · rw [kept k new, self, hr, Option.bind_some]
      · rw [treated k later, apart k later]
    · obtain ⟨notFirst, notRest⟩ := List.ne_and_not_mem_of_not_mem_cons hk
      rw [kept k notRest, others k notFirst]
    · have counts : (fun h => (if r.leaves h = true then 1 else 0) +
          ids.countP fun k => (m.plate k).any fun r => r.leaves h) =
          fun h => (i :: ids).countP fun k => (s.plate k).any fun r => r.leaves h := by
        funext h
        rw [List.countP_cons, hr, Option.any_some, Nat.add_comm]
        refine congrArg (· + _) (List.countP_congr fun k hk => ?_)
        rw [apart k hk]
      exact counts ▸ lost.trans lostRest
    · rw [frameT, frame]

end Cancels

/-- Settles O43: one record cancelled, or every record of a label, one after another. -/
theorem plateCancelWithdrawsTheCopies : Obligations.PlateCancelWithdrawsTheCopies := by
  unfold Obligations.PlateCancelWithdrawsTheCopies
  intro s running
  have byId (i : Fin 128) : exec (.plateCancel [word i.val]) s =
      .next ((s.cancelById i).1.setReply .plan (s.cancelById i).2) := by
    unfold exec
    refine State.request_answers running ?_
    simp only [readPlateId_of_eq (toNat_word (Nat.le_trans (Nat.le_of_lt i.isLt) (by decide)))]
  have byLabel {l0 l1 : Word} {l : Label} (carried : labelCarried l0 l1 l) : exec (.plateCancel [l0, l1]) s =
      .next ((s.cancelByLabel l).1.setReply .plan (s.cancelByLabel l).2) := by
    unfold exec
    refine State.request_answers running ?_
    simp only [(readLabel_eq_some_iff l0 l1 l).mpr carried]
  refine ⟨fun iw high => ?badId, fun l0 l1 bad => ?badLabel, fun i r hr held => ?held, fun i r hr channel exposing awaiting =>
    ⟨fun page => ?unnamed, fun h p page hp => ?named⟩, fun i free => ?free, fun l0 l1 l carried none => ?noPage,
    fun l0 l1 l ids gone carried some hids hgone => ?label⟩
  case badId =>
    unfold exec
    refine State.request_answers running ?_
    simp only [readPlateId_of_lt high]
    rfl
  case badLabel =>
    unfold exec
    refine State.request_answers running ?_
    simp only [(readLabel_eq_none_iff l0 l1).mpr bad]
    rfl
  case held =>
    have held : r.idle = false := by
      rw [Bool.eq_false_iff, ne_eq, r.idle_iff]
      rintro ⟨channel, exposing, awaiting⟩
      rcases held with on | some | some
      · exact on channel
      · omega
      · omega
    rw [byId, State.cancelById]
    simp only [hr, State.cancelPlate_of_held hr held, State.plate_setPlate_self]
    rfl
  case unnamed =>
    have idle := r.idle_iff.mpr ⟨channel, exposing, awaiting⟩
    rw [byId, State.cancelById]
    simp only [hr, State.cancelPlate_of_unnamed hr idle page, State.plate_setPlate_self, exposing, awaiting]
    rfl
  case named =>
    have idle := r.idle_iff.mpr ⟨channel, exposing, awaiting⟩
    obtain ⟨gone, -, -, frame⟩ := State.cancelPlate_leaves hr rfl
    rw [if_pos idle] at gone
    have settled : s.recordSettled (s.cancelPlate i) i r.cancelledNow h p [] := by
      rw [State.cancelPlate_eq hr]
      exact State.freeIfSpent_settled (t := s.setPlate i (some r.cancelledNow)) rfl (s.plate_setPlate_self i _)
        (fun j hj => s.plate_setPlate_of_ne _ hj) s.recordedAll_nil page hp
    have ran := byId i
    rw [State.cancelById] at ran
    simp only [hr, gone, exposing, awaiting] at ran
    generalize s.cancelPlate i = t at ran settled frame
    refine ⟨_, ran, settled, ?_, ?_⟩
    · rw [frame]; rfl
    · rw [frame]; rfl
  case free =>
    rw [byId, State.cancelById]
    simp only [free]
    rfl
  case noPage =>
    have empty : s.platesOf l = [] := by
      refine List.filter_eq_nil_iff.mpr fun i _ => ?_
      rw [Option.any_eq_true]
      rintro ⟨r, hr, label⟩
      exact none i r hr (beq_iff_eq.mp label)
    rw [byLabel carried, State.cancelByLabel, empty]
    rfl
  case label =>
    have ran := byLabel carried
    have same : s.platesOf l = ids := hids.symm
    have mem (k : Fin 128) : k ∈ ids ↔ ∃ r, s.plate k = Option.some r ∧ r.label = l := by
      rw [hids, List.mem_filter, Option.any_eq_true]
      simp [plateIds]
    have once : ids.Nodup := hids ▸ (List.nodup_finRange 128).filter _
    have live : ∀ k ∈ ids, s.plate k ≠ none := fun k hk => by
      obtain ⟨r, hr, -⟩ := (mem k).mp hk
      rw [hr]; nofun
    obtain ⟨treated, kept, lost, frame⟩ := State.cancelPlate_foldl once live rfl
    have members : ids.isEmpty = false := by
      obtain ⟨i, hi⟩ := some
      exact List.isEmpty_eq_false_iff.mpr (List.ne_nil_of_mem ((mem i).mpr hi))
    simp only [State.cancelByLabel, same, members, Bool.false_eq_true, if_false] at ran
    generalize ids.foldl State.cancelPlate s = t at ran treated kept lost frame
    have idle : gone = ids.filter fun k => (s.plate k).any Plate.idle := hgone
    have counts (h : Fin 64) : (ids.countP fun k => (s.plate k).any fun r => r.leaves h) =
        (gone.filter fun i => (s.plate i).any fun r => r.page == Option.some h).length := by
      rw [← List.countP_eq_length_filter, idle, List.countP_filter]
      refine List.countP_congr fun k _ => ?_
      cases s.plate k with
      | none => simp
      | some r => simp only [Option.any_some, Plate.leaves, Bool.and_comm]
    have freed : (ids.filter fun i => (t.plate i).isNone) = gone := by
      rw [idle]
      refine List.filter_congr fun k hk => ?_
      obtain ⟨r, hr, -⟩ := (mem k).mp hk
      rw [treated k hk, hr, Option.bind_some, Option.any_some]
      cases r.idle <;> rfl
    rw [freed] at ran
    refine ⟨_, ran, fun k => ?_, fun h => ?_, ?_, lost.order, lost.incidents, lost.indexing, ?_, ?_⟩
    · by_cases hk : k ∈ ids
      · obtain ⟨r, hr, -⟩ := (mem k).mp hk
        have inGone : k ∈ gone ↔ r.idle = true := by rw [idle, List.mem_filter, hr]; simp [hk]
        refine (treated k hk).trans ?_
        rw [hr, Option.bind_some, if_pos hk]
        by_cases gives : r.idle = true
        · rw [if_pos gives, if_pos (inGone.mpr gives)]
        · rw [if_neg gives, if_neg (fun x => gives (inGone.mp x))]
          rfl
      · have notGone : k ∉ gone := fun x => hk (List.mem_of_mem_filter (idle ▸ x))
        rw [if_neg notGone, if_neg hk]
        exact kept k hk
    · refine (lost.page h).trans ?_
      rw [counts]
      refine Option.bind_congr fun p _ => ?_
      rw [Page.releasedBy]
      exact if_congr (and_congr_right fun _ => and_congr_left fun _ => not_congr List.length_eq_zero_iff) rfl rfl
    · refine lost.cells.trans (congrArg (fun v => s.freeCells + List.sum v) (List.map_congr_left fun h _ => ?_))
      rfl
    · rw [frame]; rfl
    · rw [frame]; rfl

end Sys2Proof.Machine
end

section
/-! PROOF. PAGE OPEN of a label with no current entry (R2 to R6). -/

namespace Sys2Proof.Machine

open Sys2Proof

section Opening

variable {s : State} {l0 l1 sw w h n : Word} {l : Label} {i : Fin 64} {v : Nat}

theorem exec_pageOpen_of_refused (running : s.resetAsserted = false) (refused : openRefused l0 l1 sw w h n) :
    exec (.pageOpen [l0, l1, sw, w, h, n]) s = .next (s.setReply .feed { status := .badValue, results := [] }) := by
  unfold exec
  refine State.request_answers running ?_
  cases label : readLabel l0 l1 with
  | none => simp only [label]; rfl
  | some l =>
    have invalid := ((openRefused_iff l0 l1 sw w h n).mp refused).resolve_left (by rw [label]; nofun)
    simp only [label, invalid, Bool.false_eq_true, if_false]
    rfl

/-- The entry that an accepted PAGE OPEN makes (R1, R5). -/
def openedPage (l : Label) (v : Nat) (sw w h n : Word) (now : Seconds) : Page :=
  Page.create l v (setCarried sw) w.toNat h.toNat (numberCarried n) now

/-- A state with an entry opened, before any record is treated (R5). -/
def State.withOpened (s : State) (i : Fin 64) (p : Page) : State :=
  { s.setPage i (some p) with openOrder := s.openOrder ++ [i] }

theorem State.withOpened_page_self (s : State) (i : Fin 64) (p : Page) : (s.withOpened i p).page i = some p :=
  s.page_setPage_self i (some p)

theorem State.withOpened_page_of_ne (s : State) (p : Page) {i k : Fin 64} (other : k ≠ i) :
    (s.withOpened i p).page k = s.page k :=
  s.page_setPage_of_ne (some p) other

variable (running : s.resetAsserted = false) (carried : labelCarried l0 l1 l) (accepted : ¬openRefused l0 l1 sw w h n)

include running carried accepted

theorem exec_pageOpen_of_full (full : ∀ i : Fin 64, s.page i ≠ none) :
    exec (.pageOpen [l0, l1, sw, w, h, n]) s = .next (s.setReply .feed { status := .full, results := [] }) := by
  have label := (readLabel_eq_some_iff l0 l1 l).mpr carried
  have valid : openValid (readSeps sw) w.toNat h.toNat (readOpt n) = true :=
    Bool.not_eq_false _ ▸ fun x => accepted ((openRefused_iff l0 l1 sw w h n).mpr (Or.inr x))
  have none : s.freeHandle = none := by
    rw [State.freeHandle, List.find?_eq_none]
    intro i _
    simpa using full i
  unfold exec
  refine State.request_answers running ?_
  simp only [label, valid, none, if_true]
  rfl

theorem exec_pageOpen_accepted (lowest : s.lowestFree i) :
    exec (.pageOpen [l0, l1, sw, w, h, n]) s =
      .next ((s.openPage i l (setCarried sw) w.toNat h.toNat (numberCarried n)).1.setReply .feed
        (s.openPage i l (setCarried sw) w.toNat h.toNat (numberCarried n)).2) := by
  have label := (readLabel_eq_some_iff l0 l1 l).mpr carried
  have valid : openValid (setCarried sw) w.toNat h.toNat (numberCarried n) = true :=
    Bool.not_eq_false _ ▸ fun x => accepted ((openRefused_iff l0 l1 sw w h n).mpr (Or.inr x))
  unfold exec
  refine State.request_answers running ?_
  simp only [label, valid, State.freeHandle_of_lowestFree lowest, if_true, readSeps_eq_setCarried,
    readOpt_eq_numberCarried]

/-- An accepted PAGE OPEN of a label with no current entry opens the lowest FREE entry and treats the records that wait
for it (R5, R6). -/
theorem exec_pageOpen_of_noCurrent (lowest : s.lowestFree i) (version : s.versionAfter l v) (noCurrent : s.noCurrent l) :
    exec (.pageOpen [l0, l1, sw, w, h, n]) s =
      .next (((s.withOpened i (openedPage l v sw w h n s.clock)).attachWaiting i l).setReply .feed
        { status := .done, results := [word i.val, word v, 0xFFFF] }) := by
  rw [exec_pageOpen_accepted running carried accepted lowest, State.openPage]
  simp only [State.nextVersion_of_versionAfter version, State.currentEntry_of_noCurrent noCurrent]
  unfold State.withOpened openedPage
  rfl

/-- An accepted PAGE OPEN of a label with a current entry supersedes that entry too (R12). -/
theorem exec_pageOpen_of_current {o : Fin 64} (lowest : s.lowestFree i) (version : s.versionAfter l v)
    (current : s.isCurrent l o) :
    exec (.pageOpen [l0, l1, sw, w, h, n]) s =
      .next ((((s.withOpened i (openedPage l v sw w h n s.clock)).attachWaiting i l).supersede o i).setReply .feed
        { status := .done, results := [word i.val, word v, word o.val] }) := by
  rw [exec_pageOpen_accepted running carried accepted lowest, State.openPage]
  simp only [State.nextVersion_of_versionAfter version, State.currentEntry_of_isCurrent current]
  unfold State.withOpened openedPage
  rfl

end Opening

/-- No record waits for the label: nothing is attached (R6). -/
theorem State.attachWaiting_of_none {s : State} {i : Fin 64} {l : Label} (hp : s.page i ≠ none)
    (none : ∀ k r, s.plate k = some r → ¬r.waitsFor l) : s.attachWaiting i l = s := by
  obtain ⟨p, hp⟩ := Option.ne_none_iff_exists'.mp hp
  have same (ids : List (Fin 128)) : ids.foldl (State.attachOne i l) s = s := by
    induction ids with
    | nil => rfl
    | cons k ids ih =>
      have one : State.attachOne i l s k = s := by
        cases hr : s.plate k with
        | none => simp only [State.attachOne, hr]
        | some r => rw [State.attachOne_eq hr hp, if_neg (none k r hr)]
      rw [List.foldl_cons, one, ih]
  exact same plateIds

/-- Settles O17: the entry is opened, and the waiting records of its label are treated in ascending plate id. -/
theorem pageOpenTakesTheLowestFreeEntry : Obligations.PageOpenTakesTheLowestFreeEntry := by
  unfold Obligations.PageOpenTakesTheLowestFreeEntry
  refine ⟨fun s l0 l1 sw w h n => exec_pageOpen_of_refused, fun s l0 l1 sw w h n l v running carried accepted version =>
    ⟨fun i lowest noCurrent noneWaits => ?_, ?_, exec_pageOpen_of_full running carried accepted⟩⟩
  · have ran := exec_pageOpen_of_noCurrent running carried accepted lowest version noCurrent
    have opened := s.withOpened_page_self i (openedPage l v sw w h n s.clock)
    rw [State.attachWaiting_of_none (s := s.withOpened i _) (by rw [opened]; nofun) noneWaits] at ran
    exact ran
  · rintro i _ lowest noCurrent unnamed rfl
    have ran := exec_pageOpen_of_noCurrent running carried accepted lowest version noCurrent
    obtain ⟨treated, -, page, pages, made, frame⟩ := State.attachOne_foldl (l := l) (List.nodup_finRange 128)
      (s.withOpened_page_self i (openedPage l v sw w h n s.clock)) rfl
    rw [State.attachWaiting, plateIds] at ran
    generalize (List.finRange 128).foldl (State.attachOne i l) (s.withOpened i _) = t
      at ran treated page pages made frame
    have treated (k : Fin 128) : t.plate k = (s.plate k).bind fun r => r.attachedTo i l (setCarried sw) :=
      treated k (List.mem_finRange k)
    have naming : 0 + ((List.finRange 128).countP fun k => (s.plate k).any fun r => r.takenBy l (setCarried sw)) =
        t.recordsNaming i := by
      rw [Nat.zero_add, State.recordsNaming_eq]
      refine List.countP_congr fun k _ => ?_
      rw [treated]
      cases hr : s.plate k with
      | none => exact Iff.rfl
      | some r =>
        have elsewhere : (r.page == some i) = false := by simpa using unnamed k r hr
        rw [Option.bind_some, Option.any_some, Plate.attachedTo, Plate.takenBy]
        by_cases waits : r.waitsFor l
        · rw [if_pos waits, decide_eq_true waits]
          cases (setCarried sw).get r.sep <;> simp
        · rw [if_neg waits, decide_eq_false waits]
          simp [elsewhere]
    refine ⟨_, ran, treated, ?_, fun k other => ?_, made, ?_, ?_⟩
    · exact page.trans (congrArg (fun x => some { openedPage l v sw w h n s.clock with retention := x }) naming)
    · exact (pages k other).trans (s.withOpened_page_of_ne _ other)
    · rw [frame]; rfl
    · rw [frame]; rfl

end Sys2Proof.Machine
end

section
/-! PROOF. PAGE OPEN of a label with a current entry: the records of the old entry (R12 to R14, R16 to R18). -/

namespace Sys2Proof.Machine

open Sys2Proof

/-! ## A record on a channel, or with nothing to expose, is replaced (R14) -/

section Replace

variable {s t : State} {o i : Fin 64} {k : Fin 128} {r : Plate} {p : Page}

theorem Plate.derived_ne_waiting_iff (r : Plate) : r.derived ≠ .waiting ↔ r.channel ≠ none ∨ r.toExpose = 0 := by
  rw [ne_eq, Plate.derived_waits, Plate.waits, not_and_or, Nat.not_lt, Nat.le_zero]

/-- A record that a supersede has made obsolete, its copies to expose withdrawn (R14). -/
def Plate.superseded (r : Plate) : Plate :=
  { r with toExpose := 0, withdrawn := r.withdrawn + r.toExpose, obsolete := true }

/-- The record that replaces one of a superseded entry on the new entry (R14). -/
def Plate.replacement (r : Plate) (i : Fin 64) (arrival : BitVec 32) : Plate :=
  Plate.create r.label (some i) r.sep r.choice (r.toExpose + r.exposing + r.awaiting) r.step .supersede arrival

/-- Whether a record is to be replaced on an entry of a separation set (R14). -/
def Plate.wanted (r : Plate) (seps : Seps Bool) : Bool := !r.cancelled && seps.get r.sep

/-- The incident made in place of a replacement, where the table holds the free ids given (R14). -/
def Plate.unreplaced (r : Plate) (p : Page) (free : List (Fin 128)) (now : Seconds) (i : Fin 64) (k : Fin 128) :
    Option Incident :=
  if r.cancelled = false then
    if p.seps.get r.sep = false then some (r.untaken .orderMismatch now p.version i k)
    else if free = [] then some (r.untaken .orderLost now p.version i k) else none
  else none

theorem State.orderIncident_eq (hp : s.page i = some p) (kind : IncidentKind) (r : Plate) (k : Fin 128) :
    s.orderIncident kind i r k = s.raise (r.untaken kind s.clock p.version i k) := by
  rw [State.orderIncident, hp]
  rfl

/-- A record that is not to be replaced, or that finds the table full, leaves the table as it is (R14). -/
theorem State.replaceBy_of_none (hp : s.page i = some p) (none : r.wanted p.seps = false ∨ s.freePlateIds = [])
    (replaced : s.replaceBy i k r = t) :
    s.recordedAll t (r.unreplaced p s.freePlateIds s.clock i k).toList ∧
      t = { s with incidents := t.incidents, lost := t.lost } := by
  subst replaced
  unfold State.replaceBy Plate.unreplaced
  rw [State.pageHas_of_page hp]
  cases cancelled : r.cancelled with
  | true => exact ⟨s.recordedAll_nil, rfl⟩
  | false =>
    cases has : p.seps.get r.sep with
    | false =>
      simp only [Bool.false_eq_true, if_false, if_true, State.orderIncident_eq hp, Option.toList_some]
      exact ⟨s.raise_recordedAll _, s.raise_frame _⟩
    | true =>
      have full : s.freePlateIds = [] := none.resolve_left (by rw [Plate.wanted, cancelled, has]; decide)
      simp only [full, List.head?_nil, Bool.true_eq_false, Bool.false_eq_true, if_false, if_true,
        State.orderIncident_eq hp, Option.toList_some]
      exact ⟨s.raise_recordedAll _, s.raise_frame _⟩

/-- A record replaced on the lowest free id (R14). -/
theorem State.replaceBy_of_wanted {f : Fin 128} {free : List (Fin 128)} (hp : s.page i = some p)
    (wanted : r.wanted p.seps = true) (ids : s.freePlateIds = f :: free) (replaced : s.replaceBy i k r = t) :
    t.plate f = some (r.replacement i s.arrival) ∧ (∀ j, j ≠ f → t.plate j = s.plate j) ∧ t.arrival = s.arrival + 1 ∧
      t.page i = some { p with retention := p.retention + 1 } ∧ (∀ h, h ≠ i → t.page h = s.page h) ∧
      t = { s with plates := t.plates, pages := t.pages, arrival := t.arrival } := by
  obtain ⟨cancelled, has⟩ := Bool.and_eq_true_iff.mp wanted
  rw [Bool.not_eq_true'] at cancelled
  unfold State.replaceBy at replaced
  simp only [State.pageHas_of_page hp, cancelled, has, ids, List.head?_cons, Bool.false_eq_true, if_false, if_true]
    at replaced
  obtain ⟨page, pages, frame⟩ := State.retain_leaves
    (s := { s.setPlate f (some (r.replacement i s.arrival)) with arrival := s.arrival + 1 }) hp
  have retained : State.retain { s.setPlate f (some (r.replacement i s.arrival)) with arrival := s.arrival + 1 } i = t :=
    replaced
  rw [retained] at page pages frame
  have plates : t.plates = (s.setPlate f (some (r.replacement i s.arrival))).plates := by rw [frame]
  refine ⟨(congrArg (fun v => v[f]) plates).trans (s.plate_setPlate_self f _),
    fun j hj => (congrArg (fun v => v[j]) plates).trans (s.plate_setPlate_of_ne _ hj), ?_, page, pages, ?_⟩
  · rw [frame]
  · rw [frame]; rfl

/-- A record that a supersede of its entry replaces (R14). -/
def Plate.replacedFrom (r : Plate) (o : Fin 64) (seps : Seps Bool) : Bool := decide (r.begun o) && r.wanted seps

/-- What becomes of a record of the old entry by replacement; a record that waits, or of another entry, stays (R14). -/
def Plate.afterReplace (r : Plate) (o : Fin 64) : Plate := if r.begun o then r.superseded else r

/-- The incident that a record's replacement makes (R14). -/
def State.replaceIncident (s : State) (free : List (Fin 128)) (o i : Fin 64) (p : Page) (k : Fin 128) :
    Option Incident :=
  (s.plate k).bind fun r => if r.begun o then r.unreplaced p free s.clock i k else none

theorem State.replaceOne_eq (hr : s.plate k = some r) :
    State.replaceOne o i s k =
      if r.begun o then (s.replaceBy i k r).setPlate k (some r.superseded) else s := by
  have begun : (r.page = some o ∧ r.derived ≠ .waiting) ↔ r.begun o := by rw [Plate.derived_ne_waiting_iff]
  simp only [State.replaceOne, hr]
  exact if_congr begun rfl rfl

theorem State.freePlateIds_congr (same : ∀ j, (t.plate j).isNone = (s.plate j).isNone) :
    t.freePlateIds = s.freePlateIds := List.filter_congr fun j _ => same j

/-- One record treated where nothing is created (R14). -/
theorem State.replaceOne_of_none (hp : s.page i = some p)
    (none : (s.plate k).any (fun r => r.replacedFrom o p.seps) = false ∨ s.freePlateIds = [])
    (replaced : State.replaceOne o i s k = t) :
    t.plate k = (s.plate k).map (Plate.afterReplace · o) ∧ (∀ j, j ≠ k → t.plate j = s.plate j) ∧
      t.freePlateIds = s.freePlateIds ∧ s.recordedAll t (s.replaceIncident s.freePlateIds o i p k).toList ∧
      t = { s with plates := t.plates, incidents := t.incidents, lost := t.lost } := by
  cases hr : s.plate k with
  | none =>
    obtain rfl : s = t := by rw [← replaced, State.replaceOne, hr]
    refine ⟨hr, fun _ _ => rfl, rfl, ?_, rfl⟩
    rw [State.replaceIncident, hr]
    exact s.recordedAll_nil
  | some r =>
    rw [State.replaceOne_eq hr] at replaced
    rw [hr, Option.any_some] at none
    rw [State.replaceIncident, hr, Option.bind_some, Option.map_some, Plate.afterReplace]
    by_cases begun : r.begun o
    · rw [if_pos begun] at replaced ⊢
      rw [if_pos begun]
      rw [Plate.replacedFrom, decide_eq_true begun, Bool.true_and] at none
      obtain ⟨made, frame⟩ := State.replaceBy_of_none (k := k) hp none rfl
      generalize s.replaceBy i k r = m at replaced made frame
      subst replaced
      have others (j : Fin 128) (hj : j ≠ k) : (m.setPlate k (some r.superseded)).plate j = s.plate j := by
        rw [m.plate_setPlate_of_ne _ hj, frame]
        rfl
      refine ⟨m.plate_setPlate_self k _, others, State.freePlateIds_congr fun j => ?_, made, ?_⟩
      · by_cases hj : j = k
        · rw [hj, m.plate_setPlate_self, hr]; rfl
        · rw [others j hj]
      · rw [frame]; rfl
    · rw [if_neg begun] at replaced ⊢
      rw [if_neg begun]
      subst replaced
      exact ⟨hr, fun _ _ => rfl, rfl, s.recordedAll_nil, rfl⟩

/-- One record replaced on the lowest free id (R14). -/
theorem State.replaceOne_of_replaced {f : Fin 128} {free : List (Fin 128)} (hp : s.page i = some p)
    (hr : s.plate k = some r) (replacing : r.replacedFrom o p.seps = true) (ids : s.freePlateIds = f :: free)
    (replaced : State.replaceOne o i s k = t) :
    t.plate k = some r.superseded ∧ t.plate f = some (r.replacement i s.arrival) ∧
      (∀ j, j ≠ k → j ≠ f → t.plate j = s.plate j) ∧ t.freePlateIds = free ∧ t.arrival = s.arrival + 1 ∧
      t.page i = some { p with retention := p.retention + 1 } ∧ (∀ h, h ≠ i → t.page h = s.page h) ∧
      t = { s with plates := t.plates, pages := t.pages, arrival := t.arrival } := by
  obtain ⟨begun, wanted⟩ := Bool.and_eq_true_iff.mp replacing
  rw [State.replaceOne_eq hr, if_pos (of_decide_eq_true begun)] at replaced
  obtain ⟨created, others, arrival, page, pages, frame⟩ := State.replaceBy_of_wanted (k := k) hp wanted ids rfl
  generalize s.replaceBy i k r = m at replaced created others arrival page pages frame
  have free_f : s.plate f = none := (s.mem_freePlateIds_iff f).mp (by rw [ids]; exact List.mem_cons_self)
  have apart : f ≠ k := fun e => by rw [e, hr] at free_f; cases free_f
  subst replaced
  have createdT := (m.plate_setPlate_of_ne (some r.superseded) apart).trans created
  have othersT (j : Fin 128) (hk : j ≠ k) (hf : j ≠ f) : (m.setPlate k (some r.superseded)).plate j = s.plate j :=
    (m.plate_setPlate_of_ne _ hk).trans (others j hf)
  refine ⟨m.plate_setPlate_self k _, createdT, othersT, ?_, arrival, page, pages, ?_⟩
  · have once : (f :: free).Nodup := ids ▸ s.freePlateIds_nodup
    have kept : free = (f :: free).filter (· != f) := by
      rw [List.filter_cons, if_neg (by simp), List.filter_eq_self.mpr]
      exact fun j hj => bne_iff_ne.mpr fun e => (List.nodup_cons.mp once).1 (e ▸ hj)
    rw [kept, ← ids, State.freePlateIds, State.freePlateIds, List.filter_filter]
    refine List.filter_congr fun j _ => ?_
    by_cases hf : j = f
    · rw [hf, createdT]; simp
    · rw [bne_iff_ne.mpr hf, Bool.true_and]
      by_cases hk : j = k
      · rw [hk, m.plate_setPlate_self, hr]; rfl
      · rw [othersT j hk hf]
  · rw [frame]; rfl

/-- The record that a supersede replaces, where there is one (R14). -/
def State.replacedAt (s : State) (o : Fin 64) (seps : Seps Bool) (k : Fin 128) : Option Plate :=
  (s.plate k).filter fun r => r.replacedFrom o seps

/-- The records of an entry o, with ids among those given, have been treated by a supersede, the new ones on the lowest free
ids and on the entry i, which was p (R14). -/
structure State.replacedAs (s t : State) (ids : List (Fin 128)) (o i : Fin 64) (p : Page) : Prop where
  live : ∀ k r, s.plate k = some r → t.plate k = some (if k ∈ ids then r.afterReplace o else r)
  created : ∀ (m : Nat) (r : Plate) (f : Fin 128), (ids.filterMap (s.replacedAt o p.seps))[m]? = some r →
    s.freePlateIds[m]? = some f → t.plate f = some (r.replacement i (s.arrival + BitVec.ofNat 32 m))
  free : ∀ k, s.plate k = none → k ∉ s.freePlateIds.take (ids.filterMap (s.replacedAt o p.seps)).length →
    t.plate k = none
  arrival : t.arrival = s.arrival +
    BitVec.ofNat 32 (min (ids.filterMap (s.replacedAt o p.seps)).length s.freePlateIds.length)
  page : t.page i = some { p with
    retention := p.retention + min (ids.filterMap (s.replacedAt o p.seps)).length s.freePlateIds.length }
  pages : ∀ h, h ≠ i → t.page h = s.page h
  made : s.recordedAll t (ids.filterMap (s.replaceIncident s.freePlateIds o i p))
  frame : t = { s with
    plates := t.plates, pages := t.pages, arrival := t.arrival, incidents := t.incidents, lost := t.lost }

/-- A record of the new entry is not one of the old. -/
theorem Plate.replacement_not_begun (apart : i ≠ o) (arrival : BitVec 32) : ¬(r.replacement i arrival).begun o :=
  fun x => apart (Option.some.inj x.1)

theorem Plate.afterReplace_begun (apart : i ≠ o) (arrival : BitVec 32) :
    (r.replacement i arrival).afterReplace o = r.replacement i arrival :=
  if_neg (Plate.replacement_not_begun apart arrival)

/-- States that differ in new records of another entry have the same records to replace (R14). -/
theorem State.replacedAt_congr {seps : Seps Bool} (apart : i ≠ o)
    (agree : t.plate k = s.plate k ∨ s.plate k = none ∧ ∃ r, t.plate k = some r ∧ r.page = some i) :
    t.replacedAt o seps k = s.replacedAt o seps k := by
  unfold State.replacedAt
  rcases agree with same | ⟨free, r, hr, page⟩
  · rw [same]
  · have other : ¬r.begun o := fun x => apart (Option.some.inj (page.symm.trans x.1))
    rw [free, hr, Option.filter_some, Plate.replacedFrom, decide_eq_false other]
    rfl

theorem State.replaceIncident_congr {free free' : List (Fin 128)} {p' : Page} (apart : i ≠ o)
    (agree : t.plate k = s.plate k ∨ s.plate k = none ∧ ∃ r, t.plate k = some r ∧ r.page = some i)
    (clock : t.clock = s.clock) (full : free = [] ↔ free' = []) (seps : p'.seps = p.seps) (version : p'.version = p.version) :
    t.replaceIncident free o i p' k = s.replaceIncident free' o i p k := by
  unfold State.replaceIncident
  rcases agree with same | ⟨none, r, hr, page⟩
  · rw [same, clock]
    unfold Plate.unreplaced
    simp only [full, seps, version]
  · have other : ¬r.begun o := fun x => apart (Option.some.inj (page.symm.trans x.1))
    rw [none, hr, Option.bind_some, if_neg other]
    rfl

/-- Records of the old entry treated one after another, each once, where the table has room for all or for none (R14). -/
theorem State.replaceOne_foldl {ids : List (Fin 128)} (once : ids.Nodup) (apart : i ≠ o) (hp : s.page i = some p)
    (room : (ids.filterMap (s.replacedAt o p.seps)).length < s.freePlateIds.length ∨ s.freePlateIds = [])
    (replaced : ids.foldl (State.replaceOne o i) s = t) : s.replacedAs t ids o i p := by
  induction ids generalizing s p with
  | nil =>
    subst replaced
    refine ⟨fun k r hr => ?_, fun m r f hm => ?_, fun _ hk _ => hk, ?_, ?_, fun _ _ => rfl, s.recordedAll_nil, rfl⟩
    · rw [if_neg List.not_mem_nil]; exact hr
    · rw [List.filterMap_nil, List.getElem?_nil] at hm; cases hm
    · rw [List.filterMap_nil, List.length_nil, Nat.zero_min, BitVec.add_zero]; rfl
    · rw [List.filterMap_nil, List.length_nil, Nat.zero_min]; exact hp
  | cons k ids ih =>
    obtain ⟨new, onceRest⟩ := List.nodup_cons.mp once
    rw [List.foldl_cons] at replaced
    by_cases none : (s.plate k).any (fun r => r.replacedFrom o p.seps) = false ∨ s.freePlateIds = []
    · obtain ⟨self, others, free, made, frame⟩ := State.replaceOne_of_none hp none rfl
      generalize State.replaceOne o i s k = m at replaced self others free made frame
      have agree (j : Fin 128) (hj : j ∈ ids) : m.plate j = s.plate j := others j fun e => new (e ▸ hj)
      have clock : m.clock = s.clock := by rw [frame]
      have arrival : m.arrival = s.arrival := by rw [frame]
      have hpm : m.page i = some p := by rw [frame]; exact hp
      have same : ids.filterMap (m.replacedAt o p.seps) = ids.filterMap (s.replacedAt o p.seps) :=
        List.filterMap_congr fun j hj => State.replacedAt_congr apart (Or.inl (agree j hj))
      have incidents : ids.filterMap (m.replaceIncident m.freePlateIds o i p) =
          ids.filterMap (s.replaceIncident s.freePlateIds o i p) :=
        List.filterMap_congr fun j hj =>
          State.replaceIncident_congr apart (Or.inl (agree j hj)) clock (by rw [free]) rfl rfl
      have added : (ids.filterMap (s.replacedAt o p.seps) = (k :: ids).filterMap (s.replacedAt o p.seps)) ∨
          s.freePlateIds = [] := by
        refine none.imp_left fun none => ?_
        have nothing : s.replacedAt o p.seps k = Option.none := by
          unfold State.replacedAt
          cases hr : s.plate k with
          | none => rfl
          | some r => rw [hr, Option.any_some] at none; rw [Option.filter_some, none]; rfl
        rw [List.filterMap_cons, nothing]
      have more : (ids.filterMap (s.replacedAt o p.seps)).length ≤ ((k :: ids).filterMap (s.replacedAt o p.seps)).length :=
        ((List.sublist_cons_self k ids).filterMap _).length_le
      have rest := ih onceRest hpm (by rw [same, free]; exact room.imp_left (Nat.lt_of_le_of_lt more)) replaced
      refine ⟨fun j r hr => ?_, fun x r f hx hf => ?_, fun j hj beyond => ?_, ?_, ?_, fun h hh => ?_, ?_, ?_⟩
      · by_cases hj : j = k
        · subst hj
          rw [hr, Option.map_some] at self
          rw [rest.live j _ self, if_neg new, if_pos List.mem_cons_self]
        · rw [rest.live j r ((others j hj).trans hr)]
          simp only [List.mem_cons, hj, false_or]
      · rcases added with added | empty
        · rw [← added, ← same] at hx
          rw [← free] at hf
          rw [rest.created x r f hx hf, arrival]
        · rw [empty, List.getElem?_nil] at hf; cases hf
      · refine rest.free j ?_ ?_
        · by_cases hk : j = k
          · rw [hk, self, ← hk, hj]; rfl
          · rw [others j hk, hj]
        · rw [same, free]
          rcases added with added | empty
          · rw [added]; exact beyond
          · rw [empty, List.take_nil]; exact List.not_mem_nil
      · rw [rest.arrival, same, free, arrival]
        rcases added with added | empty
        · rw [added]
        · rw [empty, List.length_nil, Nat.min_zero, Nat.min_zero]
      · rw [rest.page, same, free]
        rcases added with added | empty
        · rw [added]
        · rw [empty, List.length_nil, Nat.min_zero, Nat.min_zero]
      · rw [rest.pages h hh, frame]; rfl
      · have all := State.recordedAll.append (s := s) made (incidents ▸ rest.made)
        rw [List.filterMap_cons]
        cases first : s.replaceIncident s.freePlateIds o i p k with
        | none => rw [first] at all; exact all
        | some x => rw [first] at all; exact all
      · rw [rest.frame, frame]
    · obtain ⟨replacing, notFull⟩ := not_or.mp none
      obtain ⟨r, hr, replacing⟩ : ∃ r, s.plate k = some r ∧ r.replacedFrom o p.seps = true := by
        rw [Bool.not_eq_false, Option.any_eq_true] at replacing
        exact replacing
      obtain ⟨f, free, ids'⟩ := List.exists_cons_of_ne_nil notFull
      obtain ⟨self, created, others, freeM, arrival, page, pages, frame⟩ :=
        State.replaceOne_of_replaced hp hr replacing ids' rfl
      generalize State.replaceOne o i s k = m at replaced self created others freeM arrival page pages frame
      have freeF : s.plate f = Option.none := (s.mem_freePlateIds_iff f).mp (by rw [ids']; exact List.mem_cons_self)
      have agree (j : Fin 128) (hj : j ∈ ids) :
          m.plate j = s.plate j ∨ s.plate j = Option.none ∧ ∃ r, m.plate j = some r ∧ r.page = some i := by
        by_cases hf : j = f
        · exact Or.inr ⟨hf ▸ freeF, _, hf ▸ created, rfl⟩
        · exact Or.inl (others j (fun e => new (e ▸ hj)) hf)
      have clock : m.clock = s.clock := by rw [frame]
      have same : ids.filterMap (m.replacedAt o p.seps) = ids.filterMap (s.replacedAt o p.seps) :=
        List.filterMap_congr fun j hj => State.replacedAt_congr apart (agree j hj)
      have first : (k :: ids).filterMap (s.replacedAt o p.seps) = r :: ids.filterMap (s.replacedAt o p.seps) := by
        rw [List.filterMap_cons, State.replacedAt, hr, Option.filter_some, if_pos replacing]
      rw [first, ids', List.length_cons, List.length_cons] at room
      have roomM : (ids.filterMap (s.replacedAt o p.seps)).length < free.length :=
        Nat.lt_of_succ_lt_succ (room.resolve_right (List.cons_ne_nil f free))
      have begun : r.begun o := of_decide_eq_true (Bool.and_eq_true_iff.mp replacing).1
      have noIncident : s.replaceIncident s.freePlateIds o i p k = Option.none := by
        obtain ⟨cancelled, has⟩ := Bool.and_eq_true_iff.mp (Bool.and_eq_true_iff.mp replacing).2
        rw [State.replaceIncident, hr, Option.bind_some, if_pos begun, Plate.unreplaced, has, if_neg notFull]
        simp
      have incidents : ids.filterMap (m.replaceIncident m.freePlateIds o i
            { p with retention := p.retention + 1 }) =
          ids.filterMap (s.replaceIncident s.freePlateIds o i p) :=
        List.filterMap_congr fun j hj => State.replaceIncident_congr apart (agree j hj) clock
          (by rw [freeM]; exact iff_of_false (List.ne_nil_of_length_pos (Nat.zero_lt_of_lt roomM)) notFull) rfl rfl
      have rest := ih (s := m) onceRest page (Or.inl (by rw [freeM]; exact same ▸ roomM)) replaced
      have countM : (ids.filterMap (m.replacedAt o p.seps)).length = (ids.filterMap (s.replacedAt o p.seps)).length := by
        rw [same]
      have next (x : Nat) : s.arrival + 1 + BitVec.ofNat 32 x = s.arrival + BitVec.ofNat 32 (x + 1) := by
        rw [Nat.add_comm x 1, BitVec.ofNat_add, ← BitVec.add_assoc]
        rfl
      have counted : min (ids.filterMap (s.replacedAt o p.seps)).length free.length + 1 =
          min ((k :: ids).filterMap (s.replacedAt o p.seps)).length s.freePlateIds.length := by
        rw [first, ids', List.length_cons, List.length_cons, Nat.succ_min_succ]
      refine ⟨fun j x hx => ?_, fun x q g hx hg => ?_, fun j hj beyond => ?_, ?_, ?_, fun h hh => ?_, ?_, ?_⟩
      · by_cases hj : j = k
        · subst hj
          obtain rfl : r = x := Option.some.inj (hr.symm.trans hx)
          rw [rest.live j _ self, if_neg new, if_pos List.mem_cons_self, Plate.afterReplace, if_pos begun]
        · have notF : j ≠ f := fun e => by rw [e, freeF] at hx; cases hx
          rw [rest.live j x ((others j hj notF).trans hx)]
          simp only [List.mem_cons, hj, false_or]
      · rw [first] at hx
        rw [ids'] at hg
        cases x with
        | zero =>
          obtain rfl : r = q := Option.some.inj hx
          obtain rfl : f = g := Option.some.inj hg
          rw [rest.live f _ created, Plate.afterReplace_begun apart, ite_self, BitVec.add_zero]
        | succ x =>
          rw [List.getElem?_cons_succ] at hx hg
          rw [rest.created x q g (by rw [← hx]; exact congrArg (·[x]?) same) (by rw [freeM]; exact hg), arrival, next]
      · rw [first, ids', List.length_cons, List.take_succ_cons] at beyond
        obtain ⟨notF, beyond⟩ := List.ne_and_not_mem_of_not_mem_cons beyond
        refine rest.free j ?_ ?_
        · refine (others j (fun e => ?_) notF).trans hj
          rw [e, hr] at hj; cases hj
        · rw [freeM]
          exact countM ▸ beyond
      · refine rest.arrival.trans ?_
        rw [← counted, ← next, ← arrival, freeM]
        exact congrArg (fun x => m.arrival + BitVec.ofNat 32 (min x free.length)) countM
      · have sum : p.retention + 1 + min (ids.filterMap (m.replacedAt o p.seps)).length m.freePlateIds.length =
            p.retention + min ((k :: ids).filterMap (s.replacedAt o p.seps)).length s.freePlateIds.length := by
          rw [← counted, countM, freeM]
          omega
        exact rest.page.trans (congrArg (fun x => some { p with retention := x }) sum)
      · rw [rest.pages h hh, pages h hh]
      · have recorded : s.recordedAll m [] := by rw [frame]; exact s.recordedAll_nil
        have all := State.recordedAll.append (s := s) recorded (incidents ▸ rest.made)
        rw [List.filterMap_cons, noIncident]
        exact all
      · rw [rest.frame, frame]

end Replace

end Sys2Proof.Machine
end

section
/-! PROOF. PAGE OPEN of a label with a current entry: the waiting records of the old entry (R13, R16 to R18). -/

namespace Sys2Proof.Machine

open Sys2Proof

section Released

variable {s t : State} {o : Fin 64} {n : Nat}

/-- What retentions lost by one entry leave of the catalogue. -/
theorem State.released.only (lost : s.released t fun h => if h = o then n else 0) :
    (∀ h, h ≠ o → t.page h = s.page h) ∧ t.page o = (s.page o).bind (Page.releasedBy n) ∧
      t.freeCells = s.freeCells + cellsFreed (s.page o) (t.page o) ∧
      t.openOrder = s.openOrder.filter (fun h => h != o || (s.page o).isNone || (t.page o).isSome) ∧
      t.incidents = resolvedWhere
        (fun x => x.handle == some o && (s.page o).isSome && (t.page o).isNone) s.incidents := by
  have self := lost.page o
  have others (h : Fin 64) (other : h ≠ o) : t.page h = s.page h := by
    rw [lost.page, if_neg other]
    cases s.page h with
    | none => rfl
    | some q => exact q.releasedBy_zero
  have nothing (h : Fin 64) (other : h ≠ o) : cellsFreed (s.page h) (t.page h) = 0 := by
    rw [others h other]
    cases s.page h <;> rfl
  rw [if_pos rfl] at self
  refine ⟨others, self, ?_, ?_, ?_⟩
  · rw [lost.cells, handles, ← Fin.sum_univ_def, Finset.sum_eq_single o (fun h _ => nothing h) (by simp)]
  · rw [lost.order]
    refine List.filter_congr fun h _ => ?_
    by_cases same : h = o
    · rw [same, bne_self_eq_false, Bool.false_or]
    · rw [others h same, bne_iff_ne.mpr same]
      cases s.page h <;> rfl
  · rw [lost.incidents]
    refine congrArg (fun q => resolvedWhere q s.incidents) (funext fun x => ?_)
    cases x.handle with
    | none => rfl
    | some h =>
      by_cases same : h = o
      · rw [same, Option.any_some, beq_self_eq_true, Bool.true_and]
      · have other : (some h == some o) = false := by simpa using same
        rw [Option.any_some, others h same, other]
        cases s.page h <;> rfl

end Released

/-- Incidents that a test passes over stay where others are resolved. -/
theorem resolvedWhere_append (q : Incident → Bool) (is js : List Incident) (never : ∀ x ∈ js, q x = false) :
    resolvedWhere q (is ++ js) = resolvedWhere q is ++ js := by
  unfold resolvedWhere
  rw [List.map_append]
  refine congrArg _ ((List.map_congr_left fun x hx => ?_).trans (List.map_id js))
  rw [if_neg (by rw [never x hx]; exact Bool.false_ne_true)]
  rfl

theorem resolvedWhere_length (q : Incident → Bool) (is : List Incident) : (resolvedWhere q is).length = is.length :=
  List.length_map _

section Repoint

variable {s m t : State} {o i : Fin 64} {k : Fin 128} {r : Plate} {p : Page} {ids : List (Fin 128)}

/-- A waiting record of a superseded entry that the new one does not take (R13). -/
def Plate.failedOrder (r : Plate) : Plate := { r with toExpose := 0, failed := r.failed + r.toExpose, obsolete := true }

/-- A waiting record of an entry (R98, R13). -/
abbrev Plate.waitsAt (r : Plate) (o : Fin 64) : Prop := r.page = some o ∧ ¬r.begun o

/-- What becomes of a record of the old entry that waits; any other stays (R13, R114). -/
def Plate.afterRepoint (r : Plate) (o i : Fin 64) (seps : Seps Bool) : Option Plate :=
  if r.waitsAt o then
    if seps.get r.sep then some { r with page := some i }
    else if r.exposing = 0 ∧ r.awaiting = 0 then none else some r.failedOrder
  else some r

/-- The incident that a waiting record makes where the new entry does not take it (R13). -/
def State.repointIncident (s : State) (o i : Fin 64) (p : Page) (k : Fin 128) : Option Incident :=
  ((s.plate k).filter fun r => decide (r.waitsAt o) && !p.seps.get r.sep).map fun r =>
    r.untaken .orderMismatch s.clock p.version i k

theorem State.repointIncident_about {x : Incident} (made : s.repointIncident o i p k = some x) : x.handle = some i := by
  obtain ⟨r, -, rfl⟩ := Option.map_eq_some_iff.mp made
  rfl

theorem State.repointIncident_passed {ids : List (Fin 128)} (apart : i ≠ o) (a b : Bool) :
    ∀ x ∈ ids.filterMap (s.repointIncident o i p), (x.handle == some o && a && b) = false := by
  intro x hx
  obtain ⟨k, -, made⟩ := List.mem_filterMap.mp hx
  have other : (some i == some o) = false := by simpa using apart
  rw [State.repointIncident_about made, other]
  rfl

theorem Plate.waitsAt_iff (r : Plate) : (r.page = some o ∧ r.derived = .waiting) ↔ r.waitsAt o := by
  rw [Plate.waitsAt, Plate.begun, ← Plate.derived_ne_waiting_iff]
  tauto

theorem State.repointOne_eq (hr : s.plate k = some r) (hp : s.page i = some p) :
    State.repointOne o i s k =
      if r.waitsAt o then
        if p.seps.get r.sep = true then ((s.setPlate k (some { r with page := some i })).retain i).release o
        else ((s.raise (r.untaken .orderMismatch s.clock p.version i k)).setPlate k (some r.failedOrder)).freeIfSpent k
      else s := by
  simp only [State.repointOne, hr, State.pageHas_of_page hp, State.orderIncident_eq hp]
  exact if_congr r.waitsAt_iff rfl rfl

/-- Of the waiting records of an entry o, those with ids among the given ones have been re-pointed to the entry i, which was
p, or have failed, and the entries follow the records that name them (R13, R16 to R18). -/
structure State.repointedAs (s t : State) (ids : List (Fin 128)) (o i : Fin 64) (p : Page) : Prop where
  plates : ∀ k, t.plate k = if k ∈ ids then (s.plate k).bind fun r => r.afterRepoint o i p.seps else s.plate k
  fewer : t.recordsNaming o ≤ s.recordsNaming o
  more : s.recordsNaming i ≤ t.recordsNaming i
  new : t.page i = some { p with retention := p.retention + (t.recordsNaming i - s.recordsNaming i) }
  old : t.page o = (s.page o).bind (Page.releasedBy (s.recordsNaming o - t.recordsNaming o))
  pages : ∀ h, h ≠ i → h ≠ o → t.page h = s.page h
  cells : t.freeCells = s.freeCells + cellsFreed (s.page o) (t.page o)
  order : t.openOrder = s.openOrder.filter fun h => h != o || (s.page o).isNone || (t.page o).isSome
  made : s.incidents.length + (ids.filterMap (s.repointIncident o i p)).length ≤ 255 → t.lost = s.lost ∧
    t.incidents = resolvedWhere (fun x => x.handle == some o && (s.page o).isSome && (t.page o).isNone) s.incidents ++
      ids.filterMap (s.repointIncident o i p)
  frame : t = { s with
    plates := t.plates, pages := t.pages, freeCells := t.freeCells, openOrder := t.openOrder
    incidents := t.incidents, lost := t.lost }

/-- A record that the fold leaves as it is. -/
theorem State.repointedAs.of_same (hp : s.page i = some p)
    (plates : ∀ k ∈ ids, (s.plate k).bind (fun r => r.afterRepoint o i p.seps) = s.plate k)
    (silent : ids.filterMap (s.repointIncident o i p) = []) : s.repointedAs s ids o i p := by
  refine ⟨fun k => ?_, Nat.le_refl _, Nat.le_refl _, ?_, ?_, fun _ _ _ => rfl, ?_, ?_, fun _ => ⟨rfl, ?_⟩, rfl⟩
  · split
    · next mem => exact (plates k mem).symm
    · rfl
  · rw [Nat.sub_self]; exact hp
  · rw [Nat.sub_self]
    cases s.page o with
    | none => rfl
    | some q => exact q.releasedBy_zero.symm
  · cases s.page o <;> rfl
  · exact (List.filter_eq_self.mpr fun h _ => by cases s.page o <;> simp).symm
  · rw [silent, List.append_nil, resolvedWhere_false _ fun x => by cases s.page o <;> simp]

/-- One record treated, by the state before the old entry loses its retention. -/
theorem State.repointedAs.of_released {n : Nat} (apart : i ≠ o) (away : o ∉ s.indexQueue ∧ s.indexer ≠ some o)
    (self : m.plate k = (s.plate k).bind fun r => r.afterRepoint o i p.seps)
    (others : ∀ j, j ≠ k → m.plate j = s.plate j) (fewer : m.recordsNaming o + n = s.recordsNaming o)
    (more : s.recordsNaming i ≤ m.recordsNaming i)
    (new : m.page i = some { p with retention := p.retention + (m.recordsNaming i - s.recordsNaming i) })
    (pages : ∀ h, h ≠ i → m.page h = s.page h)
    (made : s.recordedAll m ([k].filterMap (s.repointIncident o i p)))
    (frame : m = { s with plates := m.plates, pages := m.pages, incidents := m.incidents, lost := m.lost })
    (lost : m.released t fun h => if h = o then n else 0)
    (frameT : t = { m with
      pages := t.pages, freeCells := t.freeCells, openOrder := t.openOrder, indexQueue := t.indexQueue
      indexer := t.indexer, incidents := t.incidents }) : s.repointedAs t [k] o i p := by
  obtain ⟨kept, old, cells, order, incidents⟩ := lost.only
  have plates : t.plates = m.plates := by rw [frameT]
  have plate (j : Fin 128) : t.plate j = m.plate j := congrArg (fun v => v[j]) plates
  have naming (h : Fin 64) : t.recordsNaming h = m.recordsNaming h :=
    State.recordsNaming_congr (fun j => by rw [plate j]) h
  have queues : m.indexQueue = s.indexQueue ∧ m.indexer = s.indexer := by rw [frame]; exact ⟨rfl, rfl⟩
  have before : m.page o = s.page o := pages o (Ne.symm apart)
  have indexing : t.indexQueue = m.indexQueue ∧ t.indexer = m.indexer := by
    refine lost.indexing fun h live none => ?_
    have same : h = o := by
      by_contra other
      rw [kept h other] at none
      rw [none] at live; cases live
    rw [same, queues.1, queues.2]
    exact away
  rw [before] at old cells order incidents
  refine ⟨fun j => ?_, ?_, ?_, ?_, ?_, fun h hi ho => ?_, ?_, ?_, fun room => ?_, ?_⟩
  · rw [plate]
    by_cases hj : j = k
    · rw [hj, if_pos List.mem_cons_self, self]
    · rw [if_neg (by simpa using hj), others j hj]
  · rw [naming]; omega
  · rw [naming]; exact more
  · rw [naming, kept i apart, new]
  · rw [naming, ← fewer, Nat.add_sub_cancel_left, old]
  · rw [kept h ho, pages h hi]
  · rw [cells, frame]
  · rw [order, frame]
  · have fits : ([k].filterMap (s.repointIncident o i p)).length ≤ 255 - s.incidents.length := by omega
    have lostT : t.lost = m.lost := by rw [frameT]
    refine ⟨?_, ?_⟩
    · rw [lostT, made.2, State.lostWith, if_pos fits]
    · rw [incidents, made.1, State.incidentsWith, List.take_of_length_le fits, resolvedWhere_append]
      exact State.repointIncident_passed apart _ _
  · rw [frameT, indexing.1, indexing.2, frame]

/-- One record treated (R13, R114). -/
theorem State.repointOne_repointed (apart : i ≠ o) (away : o ∉ s.indexQueue ∧ s.indexer ≠ some o)
    (hp : s.page i = some p) (treated : State.repointOne o i s k = t) : s.repointedAs t [k] o i p := by
  cases hr : s.plate k with
  | none =>
    obtain rfl : s = t := by rw [← treated, State.repointOne, hr]
    refine State.repointedAs.of_same hp (fun j hj => ?_) ?_
    · rw [List.mem_singleton.mp hj, hr]; rfl
    · rw [List.filterMap_cons, State.repointIncident, hr]; rfl
  | some r =>
    rw [State.repointOne_eq hr hp] at treated
    by_cases waits : r.waitsAt o
    case neg =>
      rw [if_neg waits] at treated
      subst treated
      refine State.repointedAs.of_same hp (fun j hj => ?_) ?_
      · rw [List.mem_singleton.mp hj, hr, Option.bind_some, Plate.afterRepoint, if_neg waits]
      · rw [List.filterMap_cons, State.repointIncident, hr, Option.filter_some, decide_eq_false waits]; rfl
    rw [if_pos waits] at treated
    have named : names (some r) o = 1 := if_pos waits.1
    have elsewhere : names (some r) i = 0 := if_neg fun e => apart (Option.some.inj (e.symm.trans waits.1))
    have incident : [k].filterMap (s.repointIncident o i p) =
        if p.seps.get r.sep then [] else [r.untaken .orderMismatch s.clock p.version i k] := by
      rw [List.filterMap_cons, State.repointIncident, hr, Option.filter_some, decide_eq_true waits]
      cases p.seps.get r.sep <;> rfl
    cases has : p.seps.get r.sep with
    | true =>
      rw [if_pos has] at treated
      rw [if_pos has] at incident
      obtain ⟨new, pages, frame⟩ := State.retain_leaves (s := s.setPlate k (some { r with page := some i })) hp
      have lost := State.release_released ((s.setPlate k (some { r with page := some i })).retain i) o
      have frameT := State.release_frame ((s.setPlate k (some { r with page := some i })).retain i) o
      rw [treated] at lost frameT
      generalize (s.setPlate k (some { r with page := some i })).retain i = m at new pages frame lost frameT
      have plates : m.plates = (s.setPlate k (some { r with page := some i })).plates := by rw [frame]
      have self := (congrArg (fun v => v[k]) plates).trans (s.plate_setPlate_self k _)
      have others (j : Fin 128) (hj : j ≠ k) := (congrArg (fun v => v[j]) plates).trans (s.plate_setPlate_of_ne _ hj)
      have naming (h : Fin 64) : m.recordsNaming h + names (s.plate k) h = s.recordsNaming h + names (m.plate k) h :=
        State.recordsNaming_changed others h
      have self : m.plate k = some { r with page := some i } := self
      have joins : names (some { r with page := some i }) i = 1 := if_pos rfl
      have leaves : names (some { r with page := some i }) o = 0 := if_neg fun e => apart (Option.some.inj e)
      have namingO := naming o
      have namingI := naming i
      rw [hr, self, named, leaves] at namingO
      rw [hr, self, elsewhere, joins] at namingI
      have gained : m.recordsNaming i - s.recordsNaming i = 1 := by omega
      refine State.repointedAs.of_released (n := 1) apart away ?_ others namingO (by omega) (by rw [gained, new]) pages ?_ ?_
        lost frameT
      · rw [self, hr, Option.bind_some, Plate.afterRepoint, if_pos waits, if_pos has]
      · rw [incident, frame]; exact s.recordedAll_nil
      · rw [frame]; rfl
    | false =>
      rw [has, if_neg Bool.false_ne_true] at treated incident
      generalize r.untaken .orderMismatch s.clock p.version i k = x at treated incident
      have recorded (v : Option Plate) : s.recordedAll ((s.raise x).setPlate k v) [x] := s.raise_recordedAll x
      have others (v : Option Plate) (j : Fin 128) (hj : j ≠ k) : ((s.raise x).setPlate k v).plate j = s.plate j := by
        rw [State.plate_setPlate_of_ne _ _ hj, State.raise_frame]
        rfl
      have frame (v : Option Plate) : (s.raise x).setPlate k v = { s with
          plates := ((s.raise x).setPlate k v).plates, pages := ((s.raise x).setPlate k v).pages
          incidents := ((s.raise x).setPlate k v).incidents, lost := ((s.raise x).setPlate k v).lost } := by
        rw [State.raise_frame]
        rfl
      have pages (v : Option Plate) (h : Fin 64) : ((s.raise x).setPlate k v).page h = s.page h := by
        rw [State.raise_frame]
        rfl
      have self (v : Option Plate) : ((s.raise x).setPlate k v).plate k = v := State.plate_setPlate_self _ k v
      have naming (v : Option Plate) (h : Fin 64) :
          ((s.raise x).setPlate k v).recordsNaming h + names (s.plate k) h = s.recordsNaming h + names v h := by
        have counted := State.recordsNaming_changed (others v) h
        rw [self] at counted
        exact counted
      rw [hr] at naming
      have incidents (v : Option Plate) :
          s.recordedAll ((s.raise x).setPlate k v) ([k].filterMap (s.repointIncident o i p)) := incident ▸ recorded v
      have kept (v : Option Plate) (none : names v i = 0) :
          ((s.raise x).setPlate k v).recordsNaming i = s.recordsNaming i := by
        have namingI := naming v i
        rw [elsewhere, none] at namingI
        exact namingI
      have same (v : Option Plate) (none : names v i = 0) : ((s.raise x).setPlate k v).page i = some
          { p with retention := p.retention + (((s.raise x).setPlate k v).recordsNaming i - s.recordsNaming i) } := by
        rw [kept v none, Nat.sub_self, pages, hp]
        rfl
      have nothing : names none i = 0 := if_neg nofun
      have spent : r.failedOrder.spent = true ↔ r.exposing = 0 ∧ r.awaiting = 0 := by
        have unchannelled : r.channel = none := by
          by_contra channel
          exact waits.2 ⟨waits.1, Or.inl channel⟩
        simp only [Plate.spent, Plate.failedOrder, unchannelled, Bool.and_eq_true, beq_iff_eq]
        tauto
      by_cases idle : r.exposing = 0 ∧ r.awaiting = 0
      · have page : r.failedOrder.page = some o := waits.1
        have freed : ((s.raise x).setPlate k none).release o = t := by
          rw [← treated]
          simp only [State.freeIfSpent, State.freePlate, State.plate_setPlate_self, spent.mpr idle, page, if_true,
            State.setPlate_setPlate]
        have namingO := naming none o
        have unnamed : names none o = 0 := if_neg nofun
        rw [named, unnamed] at namingO
        refine State.repointedAs.of_released (n := 1) apart away ?_ (others none) namingO (kept none nothing).ge
          (same none nothing) (fun h _ => pages none h) (incidents none) (frame none) (freed ▸ State.release_released _ o)
          (freed ▸ State.release_frame _ o)
        rw [self, hr, Option.bind_some, Plate.afterRepoint, if_pos waits, has, if_neg Bool.false_ne_true, if_pos idle]
      · have live : r.failedOrder.spent = false := Bool.eq_false_iff.mpr fun x => idle (spent.mp x)
        rw [State.freeIfSpent_of_live (self _) live] at treated
        have namingO := naming (some r.failedOrder) o
        have still : names (some r.failedOrder) o = 1 := named
        have other : names (some r.failedOrder) i = 0 := elsewhere
        rw [named, still] at namingO
        subst treated
        refine State.repointedAs.of_released (n := 0) apart away ?_ (others _) (Nat.add_right_cancel namingO)
          (kept _ other).ge (same _ other) (fun h _ => pages _ h) (incidents _) (frame _) ?_ rfl
        · rw [self, hr, Option.bind_some, Plate.afterRepoint, if_pos waits, has, if_neg Bool.false_ne_true, if_neg idle]
        · simp only [ite_self]
          exact State.released.of_same rfl rfl rfl rfl rfl rfl

/-- The waiting records of an entry treated one after another, each once (R13). -/
theorem State.repointOne_foldl (once : ids.Nodup) (apart : i ≠ o) (away : o ∉ s.indexQueue ∧ s.indexer ≠ some o)
    (hp : s.page i = some p) (treated : ids.foldl (State.repointOne o i) s = t) : s.repointedAs t ids o i p := by
  induction ids generalizing s p with
  | nil =>
    subst treated
    exact State.repointedAs.of_same hp (fun _ hk => absurd hk List.not_mem_nil) rfl
  | cons k ids ih =>
    obtain ⟨new, onceRest⟩ := List.nodup_cons.mp once
    rw [List.foldl_cons] at treated
    have first := State.repointOne_repointed (k := k) apart away hp rfl
    generalize State.repointOne o i s k = m at treated first
    have awayM : o ∉ m.indexQueue ∧ m.indexer ≠ some o := by rw [first.frame]; exact away
    have rest := ih onceRest awayM first.new treated
    have unchanged (j : Fin 128) (hj : j ≠ k) : m.plate j = s.plate j := by
      rw [first.plates, if_neg (by simpa using hj)]
    have clock : m.clock = s.clock := by rw [first.frame]
    have gone (free : m.page o = none) : t.page o = none := by rw [rest.old, free]; rfl
    have back (free : s.page o = none) : m.page o = none := by rw [first.old, free]; rfl
    have incidents (p' : Page) (seps : p'.seps = p.seps) (version : p'.version = p.version) :
        ids.filterMap (m.repointIncident o i p') = ids.filterMap (s.repointIncident o i p) := by
      refine List.filterMap_congr fun j hj => ?_
      rw [State.repointIncident, State.repointIncident, unchanged j fun e => new (e ▸ hj), clock, seps, version]
    have both : (k :: ids).filterMap (s.repointIncident o i p) =
        [k].filterMap (s.repointIncident o i p) ++ ids.filterMap (s.repointIncident o i p) :=
      List.filterMap_append (l := [k])
    refine ⟨fun j => ?_, rest.fewer.trans first.fewer, first.more.trans rest.more, ?_, ?_, fun h hi ho => ?_, ?_, ?_,
      fun room => ?_, ?_⟩
    · rw [rest.plates]
      by_cases hj : j = k
      · rw [hj, if_neg new, if_pos List.mem_cons_self, first.plates, if_pos List.mem_cons_self]
      · rw [unchanged j hj]
        simp only [List.mem_cons, hj, false_or]
    · have sum : p.retention + (m.recordsNaming i - s.recordsNaming i) + (t.recordsNaming i - m.recordsNaming i) =
          p.retention + (t.recordsNaming i - s.recordsNaming i) := by
        have := first.more
        have := rest.more
        omega
      exact rest.new.trans (congrArg (fun x => some { p with retention := x }) sum)
    · have sum : s.recordsNaming o - m.recordsNaming o + (m.recordsNaming o - t.recordsNaming o) =
          s.recordsNaming o - t.recordsNaming o := by
        have := first.fewer
        have := rest.fewer
        omega
      rw [rest.old, first.old, ← sum]
      cases s.page o with
      | none => rfl
      | some q => exact q.releasedBy_add _ _
    · rw [rest.pages h hi ho, first.pages h hi ho]
    · rw [rest.cells, first.cells, Nat.add_assoc]
      refine congrArg _ ?_
      cases hm : m.page o with
      | none => rw [gone hm]; exact Nat.add_zero _
      | some q =>
        obtain ⟨p, hp, released⟩ := Option.bind_eq_some_iff.mp (first.old.symm.trans hm)
        rw [hp]
        cases t.page o with
        | none => exact (Nat.zero_add _).trans (congrArg cellsOf (Page.releasedBy_held released))
        | some _ => rfl
    · rw [rest.order, first.order, List.filter_filter]
      refine List.filter_congr fun h _ => ?_
      cases hs : s.page o with
      | none => rw [back hs]; simp
      | some p =>
        cases hm : m.page o with
        | none => rw [gone hm]; simp
        | some q => cases h != o <;> simp
    · rw [both] at room ⊢
      rw [List.length_append] at room
      obtain ⟨lostM, madeM⟩ := first.made (by omega)
      have length : m.incidents.length = s.incidents.length + ([k].filterMap (s.repointIncident o i p)).length := by
        rw [madeM, List.length_append, resolvedWhere_length]
      have same := incidents { p with retention := p.retention + (m.recordsNaming i - s.recordsNaming i) } rfl rfl
      obtain ⟨lostT, madeT⟩ := rest.made (by rw [same, length]; omega)
      refine ⟨lostT.trans lostM, ?_⟩
      rw [madeT, same, madeM, resolvedWhere_append _ _ _ (State.repointIncident_passed apart _ _),
        resolvedWhere_resolvedWhere _ _ _ fun _ => rfl, List.append_assoc]
      refine congrArg (· ++ _) (congrArg (resolvedWhere · s.incidents) (funext fun x => ?_))
      cases hs : s.page o with
      | none => rw [back hs]; simp
      | some p =>
        cases hm : m.page o with
        | none => rw [gone hm]; simp
        | some q => simp
    · rw [rest.frame, first.frame]

end Repoint
end Sys2Proof.Machine
end

section
/-! PROOF. PAGE OPEN of a label with a current entry: the supersede as a whole (R12 to R14, R16 to R18). -/

namespace Sys2Proof.Machine

open Sys2Proof

/-! ## The superseded entry, before its records are treated (R12) -/

section Entry

variable {s t : State} {o : Fin 64} {p : Page}

/-- The entry is SUPERSEDED, has left the indexer, and its incidents of the page's text are resolved (R12, R44). -/
def State.entrySuperseded (s : State) (o : Fin 64) : State :=
  ((s.modifyPage o Page.superseded).stopIndexing o).resolve fun i => i.kind.ofPage && i.handle == some o

theorem State.supersede_eq (s : State) (o i : Fin 64) :
    s.supersede o i = (plateIds.foldl (State.repointOne o i)
      (plateIds.foldl (State.replaceOne o i) (s.entrySuperseded o))).freeIfUnused o := rfl

theorem State.entrySuperseded_page (s : State) (o k : Fin 64) :
    (s.entrySuperseded o).page k = if k = o then (s.page k).map Page.superseded else s.page k := by
  rw [State.entrySuperseded, State.resolve_eq]
  exact s.supersedeEntry_page o k

theorem State.entrySuperseded_incidents (s : State) (o : Fin 64) :
    (s.entrySuperseded o).incidents =
      resolvedWhere (fun i => i.kind.ofPage && i.handle == some o) s.incidents := by
  rw [State.entrySuperseded, State.resolve_eq, State.stopIndexing_frame, State.modifyPage_frame]

theorem State.entrySuperseded_left (s : State) (o : Fin 64) : s.leftIndexing (s.entrySuperseded o) o := by
  have left := State.stopIndexing_left (s.modifyPage o Page.superseded) o
  have same : (s.modifyPage o Page.superseded).indexer = s.indexer ∧
      (s.modifyPage o Page.superseded).indexQueue = s.indexQueue := by
    rw [State.modifyPage_frame]
    exact ⟨rfl, rfl⟩
  rw [State.leftIndexing, same.1, same.2] at left
  exact left

theorem State.entrySuperseded_frame (s : State) (o : Fin 64) :
    s.entrySuperseded o = { s with
      pages := (s.entrySuperseded o).pages, indexQueue := (s.entrySuperseded o).indexQueue
      indexer := (s.entrySuperseded o).indexer, incidents := (s.entrySuperseded o).incidents } := by
  rw [State.entrySuperseded, State.resolve_eq, State.stopIndexing_frame, State.modifyPage_frame]

/-- A SUPERSEDED entry with no retention frees itself (R18). -/
theorem State.freeIfUnused_of_last (hp : s.page o = some p) (state : p.state = .superseded) (last : p.retention = 0) :
    s.entryFreed (s.freeIfUnused o) o p := by
  have freed : s.freeIfUnused o = s.freeEntry o := by
    simp only [State.freeIfUnused, hp, state, last, and_self, if_true]
  rw [freed]
  exact s.freeEntry_freed o p hp

theorem State.freeIfUnused_of_kept (kept : ∀ p, s.page o = some p → p.retention ≠ 0) : s.freeIfUnused o = s := by
  cases hp : s.page o with
  | none => simp only [State.freeIfUnused, hp]
  | some p => simp only [State.freeIfUnused, hp, kept p hp, and_false, if_false]

theorem State.freeIfUnused_page_of_ne (s : State) {o k : Fin 64} (other : k ≠ o) :
    (s.freeIfUnused o).page k = s.page k := by
  unfold State.freeIfUnused
  split
  · next p hp =>
    split
    · exact (s.freeEntry_freed o p hp).2.1 k other
    · rfl
  · rfl

theorem State.freeIfUnused_plate (s : State) (o : Fin 64) (k : Fin 128) : (s.freeIfUnused o).plate k = s.plate k := by
  rw [State.freeIfUnused_frame]
  rfl

/-- A handle that has left the index queue and the indexer leaves it once more as it is. -/
theorem State.leftIndexing.again {m : State} (left : s.leftIndexing m o) (same : m.leftIndexing t o) :
    s.leftIndexing t o := by
  obtain ⟨notQueued, notIndexed⟩ := left.gone
  have kept : m.indexQueue.filter (· != o) = m.indexQueue :=
    List.filter_eq_self.mpr fun k hk => bne_iff_ne.mpr fun (e : k = o) => notQueued (e ▸ hk)
  rw [State.leftIndexing, if_neg notIndexed, kept] at same
  rw [State.leftIndexing, same.1, same.2]
  exact left

end Entry

/-! ## An entry that no record names (R18) -/

section Unnamed

variable {s : State} {o i : Fin 64}

theorem State.replaceOne_foldl_of_unnamed (unnamed : ∀ k r, s.plate k = some r → r.page ≠ some o) (ids : List (Fin 128)) :
    ids.foldl (State.replaceOne o i) s = s := by
  induction ids with
  | nil => rfl
  | cons k ids ih =>
    have one : State.replaceOne o i s k = s := by
      cases hr : s.plate k with
      | none => simp only [State.replaceOne, hr]
      | some r => rw [State.replaceOne_eq hr, if_neg fun x => unnamed k r hr x.1]
    rw [List.foldl_cons, one, ih]

theorem State.repointOne_foldl_of_unnamed (unnamed : ∀ k r, s.plate k = some r → r.page ≠ some o) (ids : List (Fin 128)) :
    ids.foldl (State.repointOne o i) s = s := by
  induction ids with
  | nil => rfl
  | cons k ids ih =>
    have one : State.repointOne o i s k = s := by
      cases hr : s.plate k with
      | none => simp only [State.repointOne, hr]
      | some r => simp only [State.repointOne, hr, unnamed k r hr, false_and, if_false]
    rw [List.foldl_cons, one, ih]

end Unnamed

/-- Settles O18: no record names the old entry, so the supersede frees it at once. -/
theorem pageOpenSupersedesAndFreesTheUnusedEntry : Obligations.PageOpenSupersedesAndFreesTheUnusedEntry := by
  unfold Obligations.PageOpenSupersedesAndFreesTheUnusedEntry
  intro s l0 l1 sw w h n l i o p v running carried accepted lowest current hp unretained version unnamed
  have ran := exec_pageOpen_of_current running carried accepted lowest version current
  have free : s.page i = none := State.freeHandle_page (State.freeHandle_of_lowestFree lowest)
  have apart : i ≠ o := fun e => by rw [e, hp] at free; cases free
  have opened := s.withOpened_page_self i (openedPage l v sw w h n s.clock)
  have pagesU (k : Fin 64) (other : k ≠ i) := s.withOpened_page_of_ne (openedPage l v sw w h n s.clock) other
  rw [State.attachWaiting_of_none (s := s.withOpened i _) (by rw [opened]; nofun) fun k r hr => (unnamed k r hr).2,
    State.supersede_eq] at ran
  have incidentsM := (s.withOpened i (openedPage l v sw w h n s.clock)).entrySuperseded_incidents o
  have leftM := (s.withOpened i (openedPage l v sw w h n s.clock)).entrySuperseded_left o
  have frameM := (s.withOpened i (openedPage l v sw w h n s.clock)).entrySuperseded_frame o
  have pagesM := (s.withOpened i (openedPage l v sw w h n s.clock)).entrySuperseded_page o
  generalize (s.withOpened i (openedPage l v sw w h n s.clock)).entrySuperseded o = m
    at ran incidentsM leftM frameM pagesM
  have unnamedM (k : Fin 128) (r : Plate) (hr : m.plate k = some r) : r.page ≠ some o := by
    rw [frameM] at hr
    exact (unnamed k r hr).1
  rw [State.replaceOne_foldl_of_unnamed unnamedM, State.repointOne_foldl_of_unnamed unnamedM] at ran
  have old : m.page o = some p.superseded := by
    rw [pagesM, if_pos rfl, pagesU o (Ne.symm apart), hp]
    rfl
  obtain ⟨gone, others, cells, order, left, incidents, frame⟩ := m.freeIfUnused_of_last old rfl unretained
  generalize m.freeIfUnused o = t at ran gone others cells order left incidents frame
  refine ⟨_, ran, ?_, gone, fun k hi ho => ?_, ?_, ?_, leftM.again left, ?_, ?_, ?_⟩
  · refine (others i apart).trans ?_
    rw [pagesM, if_neg apart, opened]
    rfl
  · refine (others k ho).trans ?_
    rw [pagesM, if_neg ho, pagesU k hi]
  · refine cells.trans ?_
    rw [frameM]
    rfl
  · refine order.trans ?_
    rw [frameM]
    rfl
  · refine incidents.trans ?_
    rw [incidentsM, resolvedWhere_resolvedWhere _ _ _ fun _ => rfl]
    refine congrArg (resolvedWhere · s.incidents) (funext fun x => ?_)
    cases x.handle == some o <;> simp
  · rw [frame, frameM]; rfl
  · rw [frame, frameM]; rfl

end Sys2Proof.Machine
end

section
/-! PROOF. PAGE OPEN of a label with a current entry: what the old entry keeps (R13, R14, R16 to R18). -/

namespace Sys2Proof.Machine

open Sys2Proof

/-! ## The records that still name the old entry are obsolete (R13, R14) -/

section Obsolete

variable {s t : State} {o i : Fin 64} {p : Page}

/-- One record treated: the new entry stays live, no other entry changes, and a record of the old one that has begun is
obsolete, or an untreated one (R14). -/
theorem State.replaceOne_leaves {k : Fin 128} (apart : i ≠ o) (hp : s.page i = some p)
    (treated : State.replaceOne o i s k = t) :
    (t.page i).isSome = true ∧ (∀ h, h ≠ i → t.page h = s.page h) ∧
      ∀ j r, t.plate j = some r → r.page = some o →
        r.obsolete = true ∨ s.plate j = some r ∧ (j ≠ k ∨ ¬r.begun o) := by
  by_cases none : (s.plate k).any (fun r => r.replacedFrom o p.seps) = false ∨ s.freePlateIds = []
  · obtain ⟨self, others, -, -, frame⟩ := State.replaceOne_of_none hp none treated
    refine ⟨by rw [frame]; exact Option.isSome_of_eq_some hp, fun h _ => by rw [frame]; rfl, fun j r hr page => ?_⟩
    by_cases hj : j = k
    · rw [hj, self] at hr
      obtain ⟨q, hq, rfl⟩ := Option.map_eq_some_iff.mp hr
      rw [Plate.afterReplace] at page ⊢
      split
      · exact Or.inl rfl
      · next waits => rw [hj]; exact Or.inr ⟨hq, Or.inr waits⟩
    · exact Or.inr ⟨(others j hj).symm.trans hr, Or.inl hj⟩
  · obtain ⟨replacing, notFull⟩ := not_or.mp none
    obtain ⟨q, hq, replacing⟩ : ∃ q, s.plate k = some q ∧ q.replacedFrom o p.seps = true := by
      rw [Bool.not_eq_false, Option.any_eq_true] at replacing
      exact replacing
    obtain ⟨f, free, ids⟩ := List.exists_cons_of_ne_nil notFull
    obtain ⟨self, created, others, -, -, page, pages, -⟩ := State.replaceOne_of_replaced hp hq replacing ids treated
    refine ⟨Option.isSome_of_eq_some page, pages, fun j r hr named => ?_⟩
    by_cases hj : j = k
    · rw [hj, self] at hr
      obtain rfl := Option.some.inj hr
      exact Or.inl rfl
    by_cases hf : j = f
    · rw [hf, created] at hr
      obtain rfl := Option.some.inj hr
      exact absurd (Option.some.inj named) apart
    · exact Or.inr ⟨(others j hj hf).symm.trans hr, Or.inl hj⟩

theorem State.replaceOne_foldl_leaves {ids : List (Fin 128)} (apart : i ≠ o) (hp : s.page i = some p)
    (treated : ids.foldl (State.replaceOne o i) s = t) :
    (t.page i).isSome = true ∧ (∀ h, h ≠ i → t.page h = s.page h) ∧
      ∀ j r, t.plate j = some r → r.page = some o →
        r.obsolete = true ∨ s.plate j = some r ∧ (j ∉ ids ∨ ¬r.begun o) := by
  induction ids generalizing s p with
  | nil =>
    subst treated
    exact ⟨Option.isSome_of_eq_some hp, fun _ _ => rfl, fun _ _ hr _ => Or.inr ⟨hr, Or.inl List.not_mem_nil⟩⟩
  | cons k ids ih =>
    rw [List.foldl_cons] at treated
    obtain ⟨live, pages, old⟩ := State.replaceOne_leaves (k := k) apart hp rfl
    generalize State.replaceOne o i s k = m at treated live pages old
    obtain ⟨q, hq⟩ := Option.isSome_iff_exists.mp live
    obtain ⟨liveT, pagesT, oldT⟩ := ih hq treated
    refine ⟨liveT, fun h hh => (pagesT h hh).trans (pages h hh), fun j r hr named => ?_⟩
    rcases oldT j r hr named with obsolete | ⟨hm, untreated⟩
    · exact Or.inl obsolete
    rcases old j r hm named with obsolete | ⟨hs, first⟩
    · exact Or.inl obsolete
    refine Or.inr ⟨hs, ?_⟩
    simp only [List.mem_cons, not_or]
    tauto

/-- After a supersede every record that names the old entry is obsolete, and no third entry has changed (R13, R14). -/
theorem State.supersede_leaves (apart : i ≠ o) (hp : s.page i = some p) (superseded : s.supersede o i = t) :
    (∀ h, h ≠ i → h ≠ o → t.page h = s.page h) ∧
      ∀ j r, t.plate j = some r → r.page = some o → r.obsolete = true := by
  rw [State.supersede_eq] at superseded
  have away := (s.entrySuperseded_left o).gone
  have pagesM := s.entrySuperseded_page o
  generalize s.entrySuperseded o = m at superseded away pagesM
  have newM : m.page i = some p := by rw [pagesM, if_neg apart, hp]
  obtain ⟨live, pagesN, old⟩ := State.replaceOne_foldl_leaves (ids := plateIds) apart newM rfl
  have frameN := State.replaceAll_frame o i plateIds m
  generalize plateIds.foldl (State.replaceOne o i) m = n at superseded live pagesN old frameN
  have awayN : o ∉ n.indexQueue ∧ n.indexer ≠ some o := by rw [frameN]; exact away
  obtain ⟨q, newN⟩ := Option.isSome_iff_exists.mp live
  have repointed := State.repointOne_foldl (List.nodup_finRange 128) apart awayN newN rfl
  rw [plateIds] at superseded
  generalize (List.finRange 128).foldl (State.repointOne o i) n = u at superseded repointed
  subst superseded
  refine ⟨fun h hi ho => ?_, fun j r hr named => ?_⟩
  · rw [u.freeIfUnused_page_of_ne ho, repointed.pages h hi ho, pagesN h hi, pagesM, if_neg ho]
  · rw [State.freeIfUnused_plate, repointed.plates, if_pos (List.mem_finRange j)] at hr
    obtain ⟨x, hx, after⟩ := Option.bind_eq_some_iff.mp hr
    rw [Plate.afterRepoint] at after
    by_cases waits : x.waitsAt o
    · rw [if_pos waits] at after
      split at after
      · cases after
        exact absurd (Option.some.inj named) apart
      split at after
      · cases after
      · cases after; rfl
    · rw [if_neg waits] at after
      obtain rfl := Option.some.inj after
      have begun : x.begun o := by
        by_contra no
        exact waits ⟨named, no⟩
      rcases old j x hx named with obsolete | ⟨-, untreated⟩
      · exact obsolete
      · exact absurd untreated (not_or.mpr ⟨not_not.mpr (List.mem_finRange j), not_not.mpr begun⟩)

/-- An entry that a PAGE OPEN leaves SUPERSEDED, and that was not, is the one it supersedes (R12). -/
theorem State.openPage_leaves {l : Label} {seps : Seps Bool} {w h : Nat} {e : Option Nat} {q : Page}
    (free : s.page i = none) (hp : s.page o = some p) (live : p.state ≠ .superseded)
    (hq : (s.openPage i l seps w h e).1.page o = some q) (state : q.state = .superseded) (j : Fin 128) (r : Plate)
    (hr : (s.openPage i l seps w h e).1.plate j = some r) (named : r.page = some o) : r.obsolete = true := by
  have apart : i ≠ o := fun e => by rw [e, hp] at free; cases free
  have created := s.withOpened_page_self i (Page.create l (s.nextVersion l) seps w h e s.clock)
  have kept := s.withOpened_page_of_ne (Page.create l (s.nextVersion l) seps w h e s.clock) (Ne.symm apart)
  obtain ⟨-, -, page, pages, -, -⟩ := State.attachOne_foldl (l := l) (List.nodup_finRange 128) created rfl
  have others := pages o (Ne.symm apart)
  rw [kept, hp] at others
  have same (unchanged : (s.openPage i l seps w h e).1.page o = some p) : False := by
    rw [hq] at unchanged
    exact live (Option.some.inj unchanged ▸ state)
  cases current : s.currentEntry l with
  | none =>
    simp only [State.openPage, current] at same
    exact absurd others same
  | some o' =>
    have opened : (s.openPage i l seps w h e).1 =
        ((s.withOpened i (Page.create l (s.nextVersion l) seps w h e s.clock)).attachWaiting i l).supersede o' i := by
      simp only [State.openPage, current]
      rfl
    obtain ⟨p', hp', -⟩ := State.currentEntry_eq_some current
    have apart' : i ≠ o' := fun e => by rw [e, hp'] at free; cases free
    obtain ⟨third, obsolete⟩ := State.supersede_leaves apart' page rfl
    rw [opened] at same hr
    by_cases e : o = o'
    · subst e
      exact obsolete j r hr named
    · exact (same ((third o (Ne.symm apart) e).trans others)).elim

theorem State.request_leaves {P : State → Prop} {port : Port} {f : State → State × Reply} (ran : s.request port f = .next t)
    (held : P s) (answered : P (f s).1) : ∃ u : State, P u ∧ t.pages = u.pages ∧ t.plates = u.plates := by
  unfold State.request at ran
  split at ran
  · cases ran; exact ⟨s, held, rfl, rfl⟩
  · obtain rfl := Host.Outcome.next.inj ran
    exact ⟨_, answered, rfl, rfl⟩

/-- PAGE OPEN leaves the state but for its reply, or an entry opened at a FREE handle (R4, R5). -/
theorem exec_pageOpen_cases {P : State → Prop} {ws : List Word} (refused : P s)
    (opened : ∀ i l seps w h e, s.page i = none → P (s.openPage i l seps w h e).1)
    (ran : exec (.pageOpen ws) s = .next t) : ∃ u : State, P u ∧ t.pages = u.pages ∧ t.plates = u.plates := by
  have ran : execPageOpen ws s = .next t := ran
  refine State.request_leaves ran refused ?_
  split
  · split
    · split
      · split
        · next i free => exact opened _ _ _ _ _ _ (State.freeHandle_page free)
        · exact refused
      · exact refused
    · exact refused
  · exact refused

theorem exec_pageOpen_leaves {ws : List Word} {q : Page} (ran : exec (.pageOpen ws) s = .next t) (hp : s.page o = some p)
    (live : p.state ≠ .superseded) (hq : t.page o = some q) (state : q.state = .superseded) (j : Fin 128) (r : Plate)
    (hr : t.plate j = some r) (named : r.page = some o) : r.obsolete = true := by
  obtain ⟨u, obsolete, pages, plates⟩ := exec_pageOpen_cases
    (P := fun u => u.page o = some q → u.plate j = some r → r.obsolete = true)
    (fun same => absurd (Option.some.inj (hp.symm.trans same) ▸ state) live)
    (fun i l seps w h e free hq hr => State.openPage_leaves free hp live hq state j r hr named) ran
  exact obsolete ((congrArg (fun v => v[o]) pages).symm.trans hq) ((congrArg (fun v => v[j]) plates).symm.trans hr)

end Obsolete
end Sys2Proof.Machine
end

section
/-! PROOF. PAGE OPEN of a label with a current entry: every part of the supersede put together (R12 to R18). -/

namespace Sys2Proof.Machine

open Sys2Proof

section Finish

variable {s m t : State} {o i : Fin 64} {p q : Page} {ids : List (Fin 128)}

/-- A SUPERSEDED entry whose retention counts the records that name it has been freed exactly if none is left (R18). -/
structure State.usedUp (s t : State) (o : Fin 64) (q : Page) (js : List Incident) : Prop where
  page : t.page o = if t.recordsNaming o = 0 then none else some { q with retention := t.recordsNaming o }
  cells : t.freeCells = s.freeCells + if t.recordsNaming o = 0 then cellsOf q.held else 0
  order : t.openOrder = s.openOrder.filter fun h => h != o || decide (0 < t.recordsNaming o)
  queue : t.indexQueue = s.indexQueue
  indexer : t.indexer = s.indexer
  made : s.incidents.length + js.length ≤ 255 → t.lost = s.lost ∧
    t.incidents = resolvedWhere (fun x => x.handle == some o && decide (t.recordsNaming o = 0)) s.incidents ++ js

/-- After the waiting records have been treated, the entry is freed where no record names it any longer (R13, R18). -/
theorem State.repointedAs.then_freed (apart : i ≠ o) (away : o ∉ s.indexQueue ∧ s.indexer ≠ some o)
    (repointed : s.repointedAs m ids o i p) (hq : s.page o = some q) (state : q.state = .superseded)
    (counted : q.retention = s.recordsNaming o) (freed : m.freeIfUnused o = t) :
    t.plates = m.plates ∧ s.usedUp t o q (ids.filterMap (s.repointIncident o i p)) ∧
      t = { m with
        pages := t.pages, freeCells := t.freeCells, openOrder := t.openOrder, indexQueue := t.indexQueue
        indexer := t.indexer, incidents := t.incidents } := by
  have frame := m.freeIfUnused_frame o
  rw [freed] at frame
  have plates : t.plates = m.plates := by rw [frame]
  have naming : t.recordsNaming o = m.recordsNaming o :=
    State.recordsNaming_congr (fun j => congrArg (fun v => v[j].map Plate.page) plates) o
  have queues : m.indexQueue = s.indexQueue ∧ m.indexer = s.indexer := by rw [repointed.frame]; exact ⟨rfl, rfl⟩
  have fewer := repointed.fewer
  have old := repointed.old
  have cells := repointed.cells
  have order := repointed.order
  have made := repointed.made
  rw [hq] at old cells order made
  rw [Option.bind_some, Page.releasedBy] at old
  refine ⟨plates, ?_, frame⟩
  by_cases gone : q.state = .superseded ∧ s.recordsNaming o - m.recordsNaming o ≠ 0 ∧
      q.retention ≤ s.recordsNaming o - m.recordsNaming o
  · have last : m.recordsNaming o = 0 := by omega
    rw [if_pos gone] at old
    have same : t = m := by
      rw [← freed, State.freeIfUnused_of_kept]
      intro p hp
      rw [old] at hp
      cases hp
    subst same
    rw [old] at cells order made
    exact ⟨by rw [last, old]; rfl, by rw [cells, last]; rfl, by rw [order, last]; simp, queues.1, queues.2,
      by rw [last]; simpa using made⟩
  · rw [if_neg gone] at old
    have retention : q.retention - (s.recordsNaming o - m.recordsNaming o) = m.recordsNaming o := by omega
    rw [retention] at old
    rw [old] at cells order made
    have cells : m.freeCells = s.freeCells := cells
    have order : m.openOrder = s.openOrder := by rw [order]; simp
    have made (room : s.incidents.length + (ids.filterMap (s.repointIncident o i p)).length ≤ 255) :
        m.lost = s.lost ∧ m.incidents = s.incidents ++ ids.filterMap (s.repointIncident o i p) := by
      obtain ⟨lost, incidents⟩ := made room
      rw [resolvedWhere_false _ fun x => by simp] at incidents
      exact ⟨lost, incidents⟩
    by_cases last : m.recordsNaming o = 0
    · obtain ⟨page, -, cellsT, orderT, leftT, incidentsT, -⟩ := m.freeIfUnused_of_last old state last
      rw [freed] at page cellsT orderT leftT incidentsT
      have lostT : t.lost = m.lost := by rw [frame]
      have kept : s.indexQueue.filter (· != o) = s.indexQueue :=
        List.filter_eq_self.mpr fun k hk => bne_iff_ne.mpr fun (e : k = o) => away.1 (e ▸ hk)
      rw [State.leftIndexing, queues.1, queues.2, if_neg away.2, kept] at leftT
      rw [last] at naming
      refine ⟨by rw [naming, page]; rfl, ?_, ?_, leftT.2, leftT.1, fun room => ?_⟩
      · rw [cellsT, naming, cells]
        rfl
      · rw [orderT, naming, order]
        simp
      · obtain ⟨lost, incidents⟩ := made room
        refine ⟨lostT.trans lost, ?_⟩
        rw [incidentsT, incidents, naming, resolvedWhere_append _ _ _ fun x hx => ?_]
        · simp
        · simpa using State.repointIncident_passed apart true true x hx
    · have same : t = m := by
        rw [← freed, State.freeIfUnused_of_kept]
        intro p hp
        rw [old] at hp
        obtain rfl := Option.some.inj hp
        exact last
      subst same
      refine ⟨by rw [old, if_neg last], by rw [cells, if_neg last]; rfl, ?_, queues.1, queues.2, fun room => ?_⟩
      · rw [order, decide_eq_true (Nat.pos_of_ne_zero last)]
        simp
      · rw [decide_eq_false last, resolvedWhere_false _ fun x => by simp]
        exact made room

end Finish

section Replaced

variable {s t : State} {o i : Fin 64} {p : Page} {ids : List (Fin 128)}

theorem Plate.afterReplace_page (r : Plate) (o : Fin 64) : (r.afterReplace o).page = r.page := by
  rw [Plate.afterReplace]
  split <;> rfl

/-- An id that a supersede takes holds a replacement (R14). -/
theorem State.replacedAs.taken (replaced : s.replacedAs t ids o i p) {k : Fin 128}
    (mem : k ∈ s.freePlateIds.take (ids.filterMap (s.replacedAt o p.seps)).length) :
    ∃ r a, t.plate k = some (Plate.replacement r i a) := by
  obtain ⟨m, short, rfl⟩ := List.getElem_of_mem mem
  rw [List.length_take] at short
  rw [List.getElem_take]
  exact ⟨_, _, replaced.created m _ _ (List.getElem?_eq_getElem (by omega)) (List.getElem?_eq_getElem (by omega))⟩

theorem State.replacedAs.clock (replaced : s.replacedAs t ids o i p) : t.clock = s.clock := by rw [replaced.frame]

/-- A record of the table after a supersede's replacements was there before, or is a replacement (R14). -/
theorem State.replacedAs.plate_cases (replaced : s.replacedAs t ids o i p) (k : Fin 128) :
    (∃ r, s.plate k = some r ∧ t.plate k = some (if k ∈ ids then r.afterReplace o else r)) ∨
      s.plate k = none ∧ t.plate k = none ∧
        k ∉ s.freePlateIds.take (ids.filterMap (s.replacedAt o p.seps)).length ∨
      s.plate k = none ∧ (∃ r a, t.plate k = some (Plate.replacement r i a)) ∧
        k ∈ s.freePlateIds.take (ids.filterMap (s.replacedAt o p.seps)).length := by
  cases hr : s.plate k with
  | some r => exact Or.inl ⟨r, rfl, replaced.live k r hr⟩
  | none =>
    by_cases mem : k ∈ s.freePlateIds.take (ids.filterMap (s.replacedAt o p.seps)).length
    · exact Or.inr (Or.inr ⟨rfl, replaced.taken mem, mem⟩)
    · exact Or.inr (Or.inl ⟨rfl, replaced.free k hr mem, mem⟩)

theorem State.replacedAs.naming_old (replaced : s.replacedAs t ids o i p) (apart : i ≠ o) :
    t.recordsNaming o = s.recordsNaming o := by
  rw [State.recordsNaming_eq, State.recordsNaming_eq]
  refine List.countP_congr fun k _ => ?_
  rcases replaced.plate_cases k with ⟨r, before, after⟩ | ⟨before, after, -⟩ | ⟨before, ⟨r, a, after⟩, -⟩
  · rw [before, after, Option.any_some, Option.any_some]
    split
    · rw [Plate.afterReplace_page]
    · exact Iff.rfl
  · rw [before, after]
  · rw [before, after]
    simpa [Plate.replacement, Plate.create] using apart

/-- The records that name the new entry are the replacements (R14, R16). -/
theorem State.replacedAs.naming_new (replaced : s.replacedAs t ids o i p)
    (unnamed : ∀ k r, s.plate k = some r → r.page ≠ some i) :
    t.recordsNaming i = min (ids.filterMap (s.replacedAt o p.seps)).length s.freePlateIds.length := by
  rw [← List.length_take, State.recordsNaming_eq, List.countP_eq_length_filter]
  have onceTaken := s.freePlateIds_nodup.sublist
    (List.take_sublist (ids.filterMap (s.replacedAt o p.seps)).length s.freePlateIds)
  refine ((List.perm_ext_iff_of_nodup ((List.nodup_finRange 128).filter _) onceTaken).mpr fun k => ?_).length_eq
  rw [List.mem_filter]
  rcases replaced.plate_cases k with ⟨r, before, after⟩ | ⟨before, after, away⟩ | ⟨before, ⟨r, a, after⟩, mem⟩
  · refine iff_of_false (fun x => ?_) fun mem => ?_
    · rw [after, Option.any_some, beq_iff_eq] at x
      refine unnamed k r before (Eq.trans ?_ x.2)
      split
      · exact (r.afterReplace_page o).symm
      · rfl
    · have free := (s.mem_freePlateIds_iff k).mp (List.mem_of_mem_take mem)
      rw [before] at free
      cases free
  · refine iff_of_false (fun x => ?_) away
    rw [after] at x
    exact Bool.false_ne_true x.2
  · refine iff_of_true ⟨List.mem_finRange k, ?_⟩ mem
    rw [after]
    exact beq_self_eq_true _

/-- The waiting records of the old entry are those there before the replacements (R13, R14). -/
theorem State.replacedAs.repointIncident (replaced : s.replacedAs t ids o i p) (apart : i ≠ o) {k : Fin 128}
    (mem : k ∈ ids) {p' : Page} (seps : p'.seps = p.seps) (version : p'.version = p.version) :
    t.repointIncident o i p' k = s.repointIncident o i p k := by
  rw [State.repointIncident, State.repointIncident, seps, version, replaced.clock]
  rcases replaced.plate_cases k with ⟨r, before, after⟩ | ⟨before, after, -⟩ | ⟨before, ⟨r, a, after⟩, -⟩
  · rw [before, after, if_pos mem, Plate.afterReplace]
    by_cases begun : r.begun o
    · have ended : ¬r.superseded.waitsAt o := fun x => x.2 ⟨x.1, Or.inr rfl⟩
      have started : ¬r.waitsAt o := fun x => x.2 begun
      rw [if_pos begun, Option.filter_some, Option.filter_some, decide_eq_false ended, decide_eq_false started]
      rfl
    · rw [if_neg begun]
  · rw [before, after]
  · have other : ¬(r.replacement i a).waitsAt o := fun x => apart (Option.some.inj x.1)
    rw [before, after, Option.filter_some, decide_eq_false other]
    rfl

/-- What becomes of a live record by both parts of a supersede (R13, R14). -/
theorem Plate.afterReplace_afterRepoint (r : Plate) (seps : Seps Bool) :
    (r.afterReplace o).afterRepoint o i seps = if r.begun o then some r.superseded else r.afterRepoint o i seps := by
  rw [Plate.afterReplace]
  by_cases begun : r.begun o
  · rw [if_pos begun, if_pos begun, Plate.afterRepoint, if_neg fun x => x.2 ⟨x.1, Or.inr rfl⟩]
  · rw [if_neg begun, if_neg begun]

end Replaced

theorem State.replaceIncident_eq (s : State) (free : List (Fin 128)) (o i : Fin 64) (p : Page) (k : Fin 128) :
    s.replaceIncident free o i p k = (s.plate k).bind fun r =>
      if r.begun o ∧ r.cancelled = false then
        if p.seps.get r.sep = false then some (r.untaken .orderMismatch s.clock p.version i k)
        else if free = [] then some (r.untaken .orderLost s.clock p.version i k) else none
      else none := by
  refine congrArg (Option.bind (s.plate k)) (funext fun r => ?_)
  by_cases begun : r.begun o
  · exact (if_pos begun).trans (if_congr (and_iff_right begun) rfl rfl).symm
  · exact (if_neg begun).trans (if_neg fun b => begun b.1).symm

theorem State.replaceIncident_about {s : State} {free : List (Fin 128)} {o i : Fin 64} {p : Page} {k : Fin 128}
    {x : Incident} (made : s.replaceIncident free o i p k = some x) : x.handle = some i := by
  obtain ⟨r, -, made⟩ := Option.bind_eq_some_iff.mp made
  split at made
  · unfold Plate.unreplaced at made
    split at made
    · split at made
      · cases made; rfl
      · split at made
        · cases made; rfl
        · cases made
    · cases made
  · cases made

/-- The kinds of incident that a supersede resolves, with those of an entry that it frees (R12, R17). -/
theorem IncidentKind.ofPage_or (x : Incident) (o : Fin 64) (b : Bool) :
    ((x.kind.ofPage && x.handle == some o) || (x.handle == some o && b)) = (x.handle == some o &&
      (x.kind == .segmentBad || x.kind == .pageIncomplete || x.kind == .contentFault || b)) := by
  have kinds (k : IncidentKind) :
      k.ofPage = (k == .segmentBad || k == .pageIncomplete || k == .contentFault) := by cases k <;> rfl
  rw [kinds]
  cases x.handle == some o <;> simp

/-- Settles O19: an entry that a PAGE OPEN supersedes keeps only obsolete records; the records are replaced, then the waiting
ones re-pointed, then the entry is freed where none names it. -/
theorem supersededEntryKeepsOnlyObsoleteRecords : Obligations.SupersededEntryKeepsOnlyObsoleteRecords := by
  unfold Obligations.SupersededEntryKeepsOnlyObsoleteRecords
  refine ⟨fun s t ws o p q ran hp live hq state i r hr named => exec_pageOpen_leaves ran hp live hq state i r hr named, ?_⟩
  rintro s l0 l1 sw w h n l i o p v _ _ _ running carried accepted lowest current hp counted unnamed version rfl room rfl rfl
  have ran := exec_pageOpen_of_current running carried accepted lowest version current
  have free : s.page i = none := State.freeHandle_page (State.freeHandle_of_lowestFree lowest)
  have apart : i ≠ o := fun e => by rw [e, hp] at free; cases free
  have opened := s.withOpened_page_self i (openedPage l v sw w h n s.clock)
  have pagesU (k : Fin 64) (other : k ≠ i) := s.withOpened_page_of_ne (openedPage l v sw w h n s.clock) other
  rw [State.attachWaiting_of_none (s := s.withOpened i _) (by rw [opened]; nofun) fun k r hr => (unnamed k r hr).2,
    State.supersede_eq] at ran
  have incidentsM := (s.withOpened i (openedPage l v sw w h n s.clock)).entrySuperseded_incidents o
  have leftM := (s.withOpened i (openedPage l v sw w h n s.clock)).entrySuperseded_left o
  have frameM := (s.withOpened i (openedPage l v sw w h n s.clock)).entrySuperseded_frame o
  have pagesM := (s.withOpened i (openedPage l v sw w h n s.clock)).entrySuperseded_page o
  generalize (s.withOpened i (openedPage l v sw w h n s.clock)).entrySuperseded o = m
    at ran incidentsM leftM frameM pagesM
  have plateM (k : Fin 128) : m.plate k = s.plate k := by rw [frameM]; rfl
  have idsM : m.freePlateIds = s.freePlateIds := State.freePlateIds_congr fun k => by rw [plateM]
  have clockM : m.clock = s.clock := by rw [frameM]; rfl
  have newM : m.page i = some (openedPage l v sw w h n s.clock) := by rw [pagesM, if_neg apart, opened]
  have oldM : m.page o = some p.superseded := by
    rw [pagesM, if_pos rfl, pagesU o (Ne.symm apart), hp]
    rfl
  have namedM : m.recordsNaming o = s.recordsNaming o := State.recordsNaming_congr (fun j => by rw [plateM]) o
  have replacing : plateIds.filterMap (m.replacedAt o (setCarried sw)) = s.replaced o (setCarried sw) := by
    rw [State.replaced]
    refine List.filterMap_congr fun k _ => ?_
    rw [State.replacedAt, plateM]
    refine congrArg (Option.filter · (s.plate k)) (funext fun r => ?_)
    rw [Plate.replacedFrom, Plate.wanted, Bool.and_assoc]
  have replaced := State.replaceOne_foldl (o := o) (List.nodup_finRange 128) apart newM (t := _)
    ((room.imp (fun x => ?_) fun x => ?_ : _ ∨ _)) rfl
  rotate_left
  · rw [idsM]; exact (congrArg List.length replacing).trans_lt x
  · rw [idsM]; exact x.1
  have namedN := replaced.naming_old apart
  have namedNew := replaced.naming_new fun k r hr => (unnamed k r ((plateM k).symm.trans hr)).1
  rw [plateIds] at ran
  generalize (List.finRange 128).foldl (State.replaceOne o i) m = x at ran replaced namedN namedNew
  have awayX : o ∉ x.indexQueue ∧ x.indexer ≠ some o := by rw [replaced.frame]; exact leftM.gone
  have oldX : x.page o = some p.superseded := (replaced.pages o (Ne.symm apart)).trans oldM
  have countedX : p.superseded.retention = x.recordsNaming o := counted.trans (namedM.symm.trans namedN.symm)
  have repointed := State.repointOne_foldl (List.nodup_finRange 128) apart awayX replaced.page rfl
  generalize (List.finRange 128).foldl (State.repointOne o i) x = y at ran repointed
  have othersT (k : Fin 64) (hk : k ≠ o) := y.freeIfUnused_page_of_ne hk
  obtain ⟨platesT, used, frameT⟩ := repointed.then_freed apart awayX oldX rfl countedX rfl
  generalize y.freeIfUnused o = t at ran othersT platesT used frameT
  have counts : ((List.finRange 128).filterMap (m.replacedAt o (openedPage l v sw w h n s.clock).seps)).length =
      (s.replaced o (setCarried sw)).length := congrArg List.length replacing
  have plateT (k : Fin 128) : t.plate k = (x.plate k).bind fun r => r.afterRepoint o i (setCarried sw) := by
    have same := repointed.plates k
    rw [if_pos (List.mem_finRange k)] at same
    exact (congrArg (fun v => v[k]) platesT).trans same
  have liveT (k : Fin 128) (r : Plate) (hr : s.plate k = some r) :
      t.plate k = if r.begun o then some r.superseded else r.afterRepoint o i (setCarried sw) := by
    rw [plateT, replaced.live k r ((plateM k).trans hr), if_pos (List.mem_finRange k), Option.bind_some,
      Plate.afterReplace_afterRepoint]
  have isSame : (List.finRange 128).filterMap
        (m.replaceIncident m.freePlateIds o i (openedPage l v sw w h n s.clock)) =
      plateIds.filterMap fun k => (s.plate k).bind fun r =>
        if r.begun o ∧ r.cancelled = false then
          if (setCarried sw).get r.sep = false then some (r.untaken .orderMismatch s.clock v i k)
          else if s.freePlateIds = [] then some (r.untaken .orderLost s.clock v i k) else none
        else none := by
    refine List.filterMap_congr fun k _ => ?_
    rw [State.replaceIncident_eq, plateM, idsM, clockM]
    rfl
  have jsSame (p' : Page) (seps : p'.seps = setCarried sw) (version : p'.version = v) :
      (List.finRange 128).filterMap (x.repointIncident o i p') = plateIds.filterMap fun k =>
        ((s.plate k).filter fun r => decide (r.page = some o ∧ ¬r.begun o) && !(setCarried sw).get r.sep).map fun r =>
          r.untaken .orderMismatch s.clock v i k := by
    refine List.filterMap_congr fun k hk => ?_
    rw [replaced.repointIncident apart hk seps version, State.repointIncident, plateM, clockM]
    rfl
  refine ⟨_, ran, fun k r hr named => ?_, fun k r hr other => ?_, fun m' r f hr hf => ?_, fun k none beyond => ?_, ?_, ?_, ?_,
    fun k hi ho => ?_, ?_, ?_, ?_, fun fits => ?_, ?_, ?_⟩
  · refine (liveT k r hr).trans ?_
    by_cases begun : r.begun o
    · rw [if_pos begun, if_pos begun]
      rfl
    · rw [if_neg begun, if_neg begun, Plate.afterRepoint, if_pos ⟨named, begun⟩]
      rfl
  · refine (liveT k r hr).trans ?_
    rw [if_neg fun b => other b.1, Plate.afterRepoint, if_neg fun b => other b.1]
  · have created := replaced.created m' r f (by rw [← hr]; exact congrArg (·[m']?) replacing) (idsM.symm ▸ hf)
    refine (plateT f).trans ?_
    rw [created, Option.bind_some, Plate.afterRepoint, if_neg fun b => apart (Option.some.inj b.1), frameM]
    rfl
  · refine (plateT k).trans ?_
    rw [replaced.free k ((plateM k).trans none) (by rw [idsM, counts]; exact beyond)]
    rfl
  · have same : t.arrival = x.arrival := by rw [frameT, repointed.frame]
    refine same.trans (replaced.arrival.trans ?_)
    rw [idsM, counts, frameM]
    rfl
  · have namingI : t.recordsNaming i = y.recordsNaming i :=
      State.recordsNaming_congr (fun j => congrArg (fun v => v[j].map Plate.page) platesT) i
    have sum : 0 + min ((List.finRange 128).filterMap
        (m.replacedAt o (openedPage l v sw w h n s.clock).seps)).length m.freePlateIds.length +
        (y.recordsNaming i - x.recordsNaming i) = t.recordsNaming i := by
      have := repointed.more
      omega
    refine (othersT i apart).trans (repointed.new.trans ?_)
    exact congrArg (fun x => some { openedPage l v sw w h n s.clock with retention := x }) sum
  · exact used.page
  · refine (othersT k ho).trans ?_
    rw [repointed.pages k hi ho, replaced.pages k hi, pagesM, if_neg ho, pagesU k hi]
  · refine used.cells.trans ?_
    rw [replaced.frame, frameM]
    rfl
  · refine used.order.trans ?_
    rw [replaced.frame, frameM]
    rfl
  · have queue : t.indexQueue = m.indexQueue := used.queue.trans (by rw [replaced.frame])
    have indexer : t.indexer = m.indexer := used.indexer.trans (by rw [replaced.frame])
    rw [State.leftIndexing, ← queue, ← indexer] at leftM
    exact leftM
  · obtain ⟨madeX, lostX⟩ := isSame ▸ replaced.made
    have about (x : Incident) (hx : x ∈ (List.finRange 128).filterMap
        (m.replaceIncident m.freePlateIds o i (openedPage l v sw w h n s.clock))) : x.handle = some i := by
      obtain ⟨k, -, made⟩ := List.mem_filterMap.mp hx
      exact State.replaceIncident_about made
    rw [isSame] at about
    have sameLength : m.incidents.length = s.incidents.length := by rw [incidentsM, resolvedWhere_length]; rfl
    have lostM : m.lost = s.lost := by rw [frameM]; rfl
    generalize plateIds.filterMap (fun k => (s.plate k).bind _) = is at madeX lostX fits isSame about ⊢
    have madeT := used.made
    rw [jsSame _ rfl rfl] at madeT
    generalize plateIds.filterMap (fun k => Option.map _ _) = js at madeT fits ⊢
    have room : is.length ≤ 255 - m.incidents.length := by omega
    rw [State.incidentsWith, List.take_of_length_le room] at madeX
    rw [State.lostWith, if_pos room] at lostX
    obtain ⟨lostT, incidentsT⟩ := madeT (by rw [madeX, List.length_append]; omega)
    refine ⟨lostT.trans (lostX.trans lostM), incidentsT.trans ?_⟩
    rw [madeX, resolvedWhere_append _ _ _ fun x hx => ?_, incidentsM, resolvedWhere_resolvedWhere _ _ _ fun _ => rfl]
    · refine congrArg (resolvedWhere · s.incidents ++ is ++ js) (funext fun x => ?_)
      exact IncidentKind.ofPage_or x o _
    · have other : (some i == some o) = false := by simpa using apart
      rw [about x hx, other]
      rfl
  · rw [frameT, repointed.frame, replaced.frame, frameM]; rfl
  · rw [frameT, repointed.frame, replaced.frame, frameM]; rfl

end Sys2Proof.Machine
end

section
/-! PROOF. The walk of a separation's line stream against the text that its segments say (R47 to R53). -/

namespace Sys2Proof.Machine

open Sys2Proof

/-! ## Faults charged in order (R53) -/

section Tallies

/-- A tally with faults charged in order (R53). -/
def Tally.chargeAll (t : Tally) (fs : List (FaultKind × Nat)) : Tally := fs.foldl (fun t f => t.charge f.1 f.2) t

@[simp] theorem Tally.chargeAll_append (t : Tally) (fs gs : List (FaultKind × Nat)) :
    t.chargeAll (fs ++ gs) = (t.chargeAll fs).chargeAll gs := List.foldl_append

@[simp] theorem Tally.chargeAll_singleton (t : Tally) (k : FaultKind) (row : Nat) :
    t.chargeAll [(k, row)] = t.charge k row := rfl

theorem Tally.chargeAll_count {t : Tally} (room : t.count ≤ 65535) (fs : List (FaultKind × Nat)) :
    (t.chargeAll fs).count = min (t.count + fs.length) 65535 := by
  induction fs generalizing t with
  | nil => exact (Nat.min_eq_left room).symm
  | cons f fs ih =>
    have one : (t.charge f.1 f.2).count = min (t.count + 1) 65535 := rfl
    rw [Tally.chargeAll, List.foldl_cons, ← Tally.chargeAll, ih (by rw [one]; exact Nat.min_le_right _ _), one,
      List.length_cons]
    omega

theorem Tally.chargeAll_first (t : Tally) (fs : List (FaultKind × Nat)) :
    (t.chargeAll fs).first = t.first.or (fs.head?.map fun f => (f.1, recordedRow f.2)) := by
  induction fs generalizing t with
  | nil => exact (Option.or_none).symm
  | cons f fs ih =>
    rw [Tally.chargeAll, List.foldl_cons, ← Tally.chargeAll, ih, Tally.charge]
    cases t.first <;> rfl

end Tallies

/-! ## Row records (R49, R50) -/

section Records

variable {w : Nat} {x : LineWalk}

@[simp] theorem RowRecord.rows_length (w : Nat) (reference : Row) (r : RowRecord) :
    (r.rows w reference).length = r.count := by
  cases r with
  | white n => exact List.length_replicate
  | repeatRow n => exact List.length_replicate
  | runs vs => rfl

/-- What the walk over one record adds (R49, R50, R53). -/
theorem LineWalk.record_adds (w : Nat) (x : LineWalk) (r : RowRecord) :
    (x.record w r).rowCount = x.rowCount + r.count ∧ (x.record w r).runValues = x.runValues + r.values.length ∧
      (x.record w r).tally = x.tally.chargeAll (r.faults w x.rowCount) := by
  cases r with
  | white n => exact ⟨rfl, rfl, rfl⟩
  | repeatRow n => exact ⟨rfl, rfl, rfl⟩
  | runs vs =>
    refine ⟨rfl, rfl, ?_⟩
    simp only [LineWalk.record, RowRecord.faults]
    split
    · rfl
    · split <;> rfl

/-- What the walk over a run of records adds. -/
theorem LineWalk.records_add (w : Nat) (x : LineWalk) (rs : List RowRecord) :
    (rs.foldl (LineWalk.record w) x).rowCount = x.rowCount + (rs.map RowRecord.count).sum ∧
      (rs.foldl (LineWalk.record w) x).runValues = x.runValues + (rs.flatMap RowRecord.values).length ∧
      (rs.foldl (LineWalk.record w) x).tally = x.tally.chargeAll (recordFaults w x.rowCount rs) := by
  induction rs generalizing x with
  | nil => exact ⟨rfl, rfl, rfl⟩
  | cons r rs ih =>
    obtain ⟨rows, values, tally⟩ := LineWalk.record_adds w x r
    obtain ⟨rowsT, valuesT, tallyT⟩ := ih (x.record w r)
    rw [List.foldl_cons]
    refine ⟨?_, ?_, ?_⟩
    · rw [rowsT, rows, List.map_cons, List.sum_cons, Nat.add_assoc]
    · rw [valuesT, values, List.flatMap_cons, List.length_append, Nat.add_assoc]
    · rw [tallyT, tally, rows, recordFaults, Tally.chargeAll_append]

theorem decodedRows_append (w : Nat) (rs : List RowRecord) (r : RowRecord) :
    decodedRows w (rs ++ [r]) = decodedRows w rs ++ r.rows w ((decodedRows w rs).getLast?.getD (whiteRow w)) := by
  rw [decodedRows, List.foldl_append]
  rfl

theorem decodedRows_length (w : Nat) (rs : List RowRecord) :
    (decodedRows w rs).length = (rs.map RowRecord.count).sum := by
  induction rs using List.reverseRecOn with
  | nil => rfl
  | append_singleton rs r ih =>
    rw [decodedRows_append, List.length_append, ih, RowRecord.rows_length, List.map_append, List.sum_append]
    simp

end Records

/-! ## LINE segments (R48, R51) -/

section Lines

/-- The content faults of one LINE segment from a running row count on (R48, R51). -/
def segmentFaults (w row : Nat) : Option LineText → List (FaultKind × Nat)
  | none => [(.syntaxDefect, row)]
  | some t =>
    (if t.first = row then [] else [(.rowSequence, row)]) ++ recordFaults w row t.records ++
      (if t.defective then [(.syntaxDefect, row + (t.records.map RowRecord.count).sum)] else [])

theorem lineFaults_cons (w row : Nat) (t : Option LineText) (ts : List (Option LineText)) :
    lineFaults w row (t :: ts) =
      segmentFaults w row t ++ lineFaults w (row + ((recordsOf t).map RowRecord.count).sum) ts := by
  cases t with
  | none => rfl
  | some t => rfl

/-- What the walk over one LINE segment adds. -/
theorem LineWalk.segment_adds (w : Nat) (x : LineWalk) {payload : List Byte} {t : Option LineText}
    (reads : readsAsLine payload t) :
    (x.segment w payload).rowCount = x.rowCount + ((recordsOf t).map RowRecord.count).sum ∧
      (x.segment w payload).runValues = x.runValues + ((recordsOf t).flatMap RowRecord.values).length ∧
      (x.segment w payload).tally = x.tally.chargeAll (segmentFaults w x.rowCount t) := by
  cases t with
  | none =>
    have short : payload.length < 2 := reads
    have charged : x.segment w payload = x.charge .syntaxDefect := by
      match payload, short with
      | [], _ => rfl
      | [_], _ => rfl
    rw [charged]
    exact ⟨rfl, rfl, rfl⟩
  | some t =>
    obtain ⟨range, records, rest, rfl, defective, ends⟩ := reads
    have walked : x.segment w (twoByteForm t.first ++ t.records.flatMap RowRecord.bytes ++ rest) =
        LineWalk.records w (t.records.flatMap RowRecord.bytes ++ rest).length
          (if t.first = x.rowCount then x else x.charge .rowSequence) (t.records.flatMap RowRecord.bytes ++ rest) := by
      rw [twoByteForm, List.append_assoc, List.cons_append, List.cons_append, List.nil_append, LineWalk.segment,
        twoBytes_twoByteForm t.first range]
    rw [walked, LineWalk.records_text w t.records rest records ends _ _ (Nat.le_refl _)]
    have started : (if t.first = x.rowCount then x else x.charge .rowSequence) =
        { x with tally := x.tally.chargeAll (if t.first = x.rowCount then [] else [(.rowSequence, x.rowCount)]) } := by
      split <;> rfl
    rw [started, segmentFaults]
    generalize (if t.first = x.rowCount then [] else [(FaultKind.rowSequence, x.rowCount)]) = fs
    obtain ⟨rows, values, tally⟩ := LineWalk.records_add w { x with tally := x.tally.chargeAll fs } t.records
    by_cases ended : rest = []
    · have sound : t.defective = false := Bool.eq_false_iff.mpr fun d => defective.mp d ended
      rw [if_pos ended, sound, if_neg Bool.false_ne_true, List.append_nil, Tally.chargeAll_append]
      exact ⟨rows, values, tally⟩
    · rw [if_neg ended, if_pos (defective.mpr ended), Tally.chargeAll_append, Tally.chargeAll_append,
        Tally.chargeAll_singleton, ← tally, ← rows]
      exact ⟨rows, values, rfl⟩

/-- What the walk over the LINE segments of a separation adds. -/
theorem LineWalk.segments_add (w : Nat) {payloads : List (List Byte)} {ts : List (Option LineText)}
    (reads : List.Forall₂ readsAsLine payloads ts) (x : LineWalk) :
    (payloads.foldl (LineWalk.segment w) x).rowCount =
        x.rowCount + ((ts.flatMap recordsOf).map RowRecord.count).sum ∧
      (payloads.foldl (LineWalk.segment w) x).runValues =
        x.runValues + ((ts.flatMap recordsOf).flatMap RowRecord.values).length ∧
      (payloads.foldl (LineWalk.segment w) x).tally = x.tally.chargeAll (lineFaults w x.rowCount ts) := by
  induction reads generalizing x with
  | nil => exact ⟨rfl, rfl, rfl⟩
  | @cons payload t payloads ts first rest ih =>
    obtain ⟨rows, values, tally⟩ := LineWalk.segment_adds w x first
    obtain ⟨rowsT, valuesT, tallyT⟩ := ih (x.segment w payload)
    rw [List.foldl_cons]
    refine ⟨?_, ?_, ?_⟩
    · rw [rowsT, rows, List.flatMap_cons, List.map_append, List.sum_append, Nat.add_assoc]
    · rw [valuesT, values, List.flatMap_cons, List.flatMap_append, List.length_append, Nat.add_assoc]
    · rw [tallyT, tally, rows, lineFaults_cons, Tally.chargeAll_append]

variable {p : Page} {sp : Sys2Proof.Machine.Sep} {x : SepText}

/-- The content faults of a separation's line stream, those of its end with them (R48 to R52). -/
def SepText.lineStreamFaults (x : SepText) (w height : Nat) : List (FaultKind × Nat) :=
  lineFaults w 0 x.lines ++
    if x.lines = [] then []
    else if (x.rows w).length < height then [(.shortPage, (x.rows w).length)]
    else if height < (x.rows w).length then [(.longPage, height)] else []

/-- What the walk over a separation's line stream finds (R48 to R53). -/
theorem Page.lineWalk_finds (reads : p.readsAs sp x) :
    (p.lineWalk sp).runValues = x.runValues ∧
      (p.lineWalk sp).tally = Tally.empty.chargeAll (x.lineStreamFaults p.width p.height) := by
  obtain ⟨lines, -⟩ := reads
  have payloads : (p.linePayloads sp).map Prod.snd =
      (p.held.filter fun g => g.kind == .line && g.sep == sp).map Segment.payload := by
    rw [Page.linePayloads, List.map_map]
    rfl
  rw [← payloads] at lines
  have walked : (p.linePayloads sp).foldl (fun x g => LineWalk.segment p.width x g.2) (LineWalk.start p.width) =
      ((p.linePayloads sp).map Prod.snd).foldl (LineWalk.segment p.width) (LineWalk.start p.width) :=
    (List.foldl_map (f := Prod.snd)).symm
  obtain ⟨rows, values, tally⟩ := LineWalk.segments_add p.width lines (LineWalk.start p.width)
  rw [← walked] at rows values tally
  rw [← decodedRows_length p.width, ← SepText.rows] at rows
  have rows := rows.trans (Nat.zero_add _)
  have values := values.trans (Nat.zero_add _)
  have none : (p.linePayloads sp).isEmpty = true ↔ x.lines = [] := by
    have length := lines.length_eq
    rw [List.length_map] at length
    rw [List.isEmpty_iff, ← List.length_eq_zero_iff, length, List.length_eq_zero_iff]
  unfold Page.lineWalk SepText.lineStreamFaults
  simp only
  generalize (p.linePayloads sp).foldl _ _ = z at rows values tally
  have tally : z.tally = Tally.empty.chargeAll (lineFaults p.width 0 x.lines) := tally
  rw [Tally.chargeAll_append, ← tally, ← rows]
  by_cases empty : x.lines = []
  · rw [if_pos (none.mpr empty), if_pos empty]
    exact ⟨values, rfl⟩
  · rw [if_neg (none.not.mpr empty), if_neg empty]
    split
    · exact ⟨values, rfl⟩
    · split
      · exact ⟨values, rfl⟩
      · exact ⟨values, rfl⟩

end Lines

/-! ## Every payload says some text (R48, R51) -/

/-- Bytes are those of row records in their ranges, and then nothing that such a record begins. -/
theorem bytes_splitAsRecords (bs : List Byte) :
    ∃ (rs : List RowRecord) (rest : List Byte), (∀ r ∈ rs, r.inRange) ∧ bs = rs.flatMap RowRecord.bytes ++ rest ∧
      ∀ (r : RowRecord) (tail : List Byte), r.inRange → rest ≠ r.bytes ++ tail := by
  induction length : bs.length using Nat.strong_induction_on generalizing bs with
  | _ n ih =>
    subst length
    cases parsed : parseRecord bs with
    | none =>
      refine ⟨[], bs, nofun, rfl, fun r tail range e => ?_⟩
      rw [e, parseRecord_bytes r tail range] at parsed
      cases parsed
    | some x =>
      obtain ⟨r, rest⟩ := x
      obtain ⟨range, rfl⟩ := parseRecord_some parsed
      have longer : rest.length < (r.bytes ++ rest).length := by
        rw [List.length_append]
        refine Nat.lt_add_of_pos_left ?_
        cases r <;> exact Nat.succ_pos _
      obtain ⟨rs, left, ranges, split, ends⟩ := ih _ longer rest rfl
      refine ⟨r :: rs, left, ?_, ?_, ends⟩
      · exact List.forall_mem_cons.mpr ⟨range, ranges⟩
      · rw [List.flatMap_cons, List.append_assoc, ← split]

theorem readsAsLine_exists (payload : List Byte) : ∃ t, readsAsLine payload t := by
  match payload with
  | [] => exact ⟨none, Nat.succ_pos _⟩
  | [_] => exact ⟨none, Nat.lt_succ_self _⟩
  | hi :: lo :: bs =>
    obtain ⟨rs, rest, ranges, rfl, ends⟩ := bytes_splitAsRecords bs
    have range : twoBytes hi lo ≤ 65535 := by
      have := hi.isLt
      have := lo.isLt
      unfold twoBytes
      omega
    refine ⟨some { first := twoBytes hi lo, records := rs, defective := !rest.isEmpty }, range, ranges, rest, ?_, ?_, ends⟩
    · rw [twoByteForm_twoBytes, List.append_assoc]
      rfl
    · simp

theorem readsAsLine_forall (payloads : List (List Byte)) : ∃ ts, List.Forall₂ readsAsLine payloads ts := by
  induction payloads with
  | nil => exact ⟨[], .nil⟩
  | cons payload payloads ih =>
    obtain ⟨ts, rest⟩ := ih
    obtain ⟨t, first⟩ := readsAsLine_exists payload
    exact ⟨t :: ts, .cons first rest⟩

end Sys2Proof.Machine
end

section
/-! PROOF. The walk of a separation's patch stream against the patches that its segments say (R54 to R57). -/

namespace Sys2Proof.Machine

open Sys2Proof

/-! ## Where samples lie (R57, R64) -/

section Places

/-- The places of the samples of pieces, in order. -/
def placesOf (qs : List Piece) : List (Nat × Nat) :=
  qs.flatMap fun q => (List.range q.count).map fun k => (q.segment, q.offset + k)

theorem locate_eq (qs : List Piece) (k : Nat) : locate qs k = (placesOf qs)[k]? := by
  induction qs generalizing k with
  | nil => rfl
  | cons q qs ih =>
    have length : ((List.range q.count).map fun k => (q.segment, q.offset + k)).length = q.count := by
      rw [List.length_map, List.length_range]
    rw [locate, placesOf, List.flatMap_cons]
    split
    · next inside =>
      rw [List.getElem?_append_left (length.symm ▸ inside), List.getElem?_map, List.getElem?_range inside]
      rfl
    · next beyond =>
      rw [List.getElem?_append_right (by rw [length]; omega), length, ih]
      rfl

/-- The pieces of a patch text: the head's samples and each PATCH DATA payload. -/
def PatchText.pieces (t : PatchText) (samples : Nat) : List Piece :=
  ⟨t.segment.number, 12, samples⟩ :: t.data.map fun g => ⟨g.number, 0, g.payload.length⟩

theorem PatchText.pieces_places (t : PatchText) : placesOf (t.pieces (t.segment.payload.length - 12)) = t.places := by
  have dropped : (List.range t.segment.payload.length).drop 12 =
      (List.range (t.segment.payload.length - 12)).map (12 + ·) := by
    rw [List.range_eq_range', List.drop_range', List.range_eq_range', List.map_add_range']
  rw [placesOf, PatchText.pieces, List.flatMap_cons, PatchText.places, dropped, List.map_map, List.flatMap_map]
  simp only [Nat.zero_add]
  rfl

theorem PatchText.pieces_count (t : PatchText) :
    ((t.pieces (t.segment.payload.length - 12)).map (·.count)).sum = t.samples.length := by
  rw [PatchText.pieces, List.map_cons, List.sum_cons, List.map_map, PatchText.samples, List.length_append,
    List.length_drop, List.length_flatMap]
  rfl

end Places

/-! ## Heads (R54) -/

section Heads

theorem clippedSide_eq (start extent bound : Nat) :
    clippedSide start extent bound = min (start + extent) bound - min start bound := by
  unfold clippedSide
  split <;> omega

theorem PatchHead.clippedArea_eq (p : PatchHead) (width height : Nat) :
    p.clippedArea width height = p.areaOnPage width height := by
  rw [PatchHead.clippedArea, clippedSide_eq, clippedSide_eq, PatchHead.areaOnPage]

/-- What a PATCH HEAD segment parses as, by what its text says (R54, R193). -/
theorem PatchText.sound.parse {t : PatchText} (sound : t.sound) :
    parseHead t.segment.payload = t.head.map fun p => (p, t.segment.payload.drop 12) := by
  obtain ⟨-, -, head⟩ := sound
  cases e : t.head with
  | none =>
    rw [e] at head
    cases parsed : parseHead t.segment.payload with
    | none => rfl
    | some x =>
      obtain ⟨range, unused, bytes⟩ := parseHead_some parsed
      exact absurd bytes (head x.1 unused x.2 range)
  | some p =>
    rw [e] at head
    obtain ⟨range, unused, samples, bytes⟩ := head
    rw [bytes, parseHead_bytes p unused samples range, List.drop_append, List.drop_of_length_le (Nat.le_refl 12)]
    rfl

/-- The patch record that closes is that of the text (R56, R57). -/
theorem PatchText.close_eq (t : PatchText) (p : PatchHead) (width height : Nat) :
    p.close t.segment.number (t.pieces (t.segment.payload.length - 12)) width height = t.patch width height p := by
  unfold PatchHead.close PatchText.patch
  rw [t.pieces_count, p.clippedArea_eq]
  refine congrArg _ (List.map_congr_left fun r _ => ?_)
  rw [locate_eq, t.pieces_places]

end Heads

/-! ## The patch stream (R54 to R56) -/

section Walk

variable {width height : Nat}

theorem PatchWalk.close_of_noPatch {x : PatchWalk} (h : x.stream = .noPatch) : x.close width height = x := by
  obtain ⟨stream, patches, dots, clip, tally⟩ := x
  subst h
  rfl

theorem PatchWalk.close_of_opened {x : PatchWalk} {p : PatchHead} {n : Nat} {qs : List Piece}
    (h : x.stream = .opened p n qs) : x.close width height =
      { stream := .noPatch, patches := x.patches ++ [p.close n qs width height]
        photoDots := x.photoDots + (p.close n qs width height).clippedArea
        clip := x.clip + (p.fullArea - (p.close n qs width height).clippedArea)
        tally :=
          if (p.close n qs width height).received < p.w * p.h then x.tally.charge .patchDataShort p.y0
          else if p.w * p.h < (p.close n qs width height).received then x.tally.charge .patchDataLong p.y0
          else x.tally } := by
  obtain ⟨stream, patches, dots, clip, tally⟩ := x
  subst h
  rfl

theorem PatchWalk.close_stream (x : PatchWalk) : (x.close width height).stream = .noPatch := by
  unfold PatchWalk.close
  split <;> rfl

/-- The content fault of a patch that closes (R56). -/
def PatchText.closeFaults (t : PatchText) (p : PatchHead) : List (FaultKind × Nat) :=
  if t.samples.length < p.w * p.h then [(.patchDataShort, p.y0)]
  else if p.w * p.h < t.samples.length then [(.patchDataLong, p.y0)] else []

theorem PatchText.closeFaults_charged (t : PatchText) (p : PatchHead) (tally : Tally) :
    tally.chargeAll (t.closeFaults p) = if t.samples.length < p.w * p.h then tally.charge .patchDataShort p.y0
      else if p.w * p.h < t.samples.length then tally.charge .patchDataLong p.y0 else tally := by
  unfold PatchText.closeFaults
  split
  · rfl
  · split <;> rfl

/-- What the walk over a patch, closed, leaves (R54 to R56). -/
def PatchWalk.taken (width height : Nat) (x : PatchWalk) (t : PatchText) : PatchWalk :=
  match t.head with
  | none => { x with tally := x.tally.charge .syntaxDefect (headRow t.segment.payload) }
  | some p =>
    if x.patches.length < 32 then
      { x with
        patches := x.patches ++ [t.patch width height p], photoDots := x.photoDots + p.areaOnPage width height
        clip := x.clip + (p.w * p.f * (p.h * p.f) - p.areaOnPage width height)
        tally := x.tally.chargeAll (t.closeFaults p) }
    else { x with tally := x.tally.charge .tooManyPatches p.y0 }

/-- PATCH DATA segments after a discarded head are passed over (R55). -/
theorem PatchWalk.data_of_discarding {x : PatchWalk} (h : x.stream = .discarding) {gs : List Segment}
    (data : ∀ g ∈ gs, g.kind = .patchData) : gs.foldl (PatchWalk.segment width height) x = x := by
  induction gs with
  | nil => rfl
  | cons g gs ih =>
    obtain ⟨first, rest⟩ := List.forall_mem_cons.mp data
    have one : x.segment width height g = x := by simp only [PatchWalk.segment, first, h]
    rw [List.foldl_cons, one, ih rest]

/-- PATCH DATA segments after an open head are pieces of its patch (R55). -/
theorem PatchWalk.data_of_opened {x : PatchWalk} {p : PatchHead} {n : Nat} {qs : List Piece}
    (h : x.stream = .opened p n qs) {gs : List Segment} (data : ∀ g ∈ gs, g.kind = .patchData) :
    gs.foldl (PatchWalk.segment width height) x =
      { x with stream := .opened p n (qs ++ gs.map fun g => ⟨g.number, 0, g.payload.length⟩) } := by
  induction gs generalizing x qs with
  | nil => rw [List.map_nil, List.append_nil, ← h]; rfl
  | cons g gs ih =>
    obtain ⟨first, rest⟩ := List.forall_mem_cons.mp data
    have one : x.segment width height g = { x with stream := .opened p n (qs ++ [⟨g.number, 0, g.payload.length⟩]) } := by
      simp only [PatchWalk.segment, first, h]
    rw [List.foldl_cons, one, ih rfl rest, List.map_cons, List.append_assoc]
    rfl

/-- PATCH DATA segments before the first head are orphans (R55). -/
theorem PatchWalk.data_of_noPatch {x : PatchWalk} (h : x.stream = .noPatch) {gs : List Segment}
    (data : ∀ g ∈ gs, g.kind = .patchData) : gs.foldl (PatchWalk.segment width height) x =
      { x with tally := x.tally.chargeAll (gs.map fun _ => (.patchOrphan, 0)) } := by
  induction gs generalizing x with
  | nil => rfl
  | cons g gs ih =>
    obtain ⟨first, rest⟩ := List.forall_mem_cons.mp data
    have one : x.segment width height g = { x with tally := x.tally.charge .patchOrphan 0 } := by
      simp only [PatchWalk.segment, first, h]
    rw [List.foldl_cons, one, ih (x := { x with tally := x.tally.charge .patchOrphan 0 }) h rest]
    rfl

/-- The walk over a patch's segments, closed, is that of its text (R54 to R57). -/
theorem PatchWalk.patch_taken (x : PatchWalk) {t : PatchText} (sound : t.sound) :
    ((t.segment :: t.data).foldl (PatchWalk.segment width height) x).close width height =
      (x.close width height).taken width height t := by
  have parsed := sound.parse
  obtain ⟨kind, data, -⟩ := sound
  have none := x.close_stream (width := width) (height := height)
  rw [List.foldl_cons, PatchWalk.taken]
  cases e : t.head with
  | none =>
    rw [e, Option.map_none] at parsed
    simp only [PatchWalk.segment, kind, parsed]
    rw [PatchWalk.data_of_discarding rfl data, PatchWalk.close]
    simp only [← none]
  | some p =>
    rw [e, Option.map_some] at parsed
    simp only [PatchWalk.segment, kind, parsed]
    split
    · have closed := t.close_eq p width height
      rw [PatchText.pieces, ← List.length_drop, ← List.singleton_append] at closed
      rw [PatchWalk.data_of_opened rfl data, PatchWalk.close_of_opened rfl, closed, t.closeFaults_charged p, none]
      rfl
    · rw [PatchWalk.data_of_discarding rfl data, PatchWalk.close]
      simp only [← none]

/-- The walk over the patches of a stream, closed, is that of their texts one after another. -/
theorem PatchWalk.patches_taken (x : PatchWalk) {ts : List PatchText} (sound : ∀ t ∈ ts, t.sound) :
    ((ts.flatMap fun t => t.segment :: t.data).foldl (PatchWalk.segment width height) x).close width height =
      ts.foldl (PatchWalk.taken width height) (x.close width height) := by
  induction ts generalizing x with
  | nil => rfl
  | cons t ts ih =>
    obtain ⟨first, rest⟩ := List.forall_mem_cons.mp sound
    rw [List.flatMap_cons, List.foldl_append, ih _ rest, PatchWalk.patch_taken x first, List.foldl_cons]

theorem patchFaults_cons_of_none {t : PatchText} (head : t.head = none) (n : Nat) (ts : List PatchText) :
    patchFaults n (t :: ts) = (.syntaxDefect, headRow t.segment.payload) :: patchFaults n ts := by
  rw [patchFaults]
  simp only [head]
  refine congrArg (fun row => (FaultKind.syntaxDefect, row) :: patchFaults n ts) ?_
  match t.segment.payload with
  | [] => rfl
  | [_] => rfl
  | [_, _] => rfl
  | [_, _, _] => rfl
  | _ :: _ :: _ :: _ :: _ => rfl

theorem patchFaults_cons_of_some {t : PatchText} {p : PatchHead} (head : t.head = some p) (n : Nat)
    (ts : List PatchText) :
    patchFaults n (t :: ts) =
      (if 32 ≤ n then [(.tooManyPatches, p.y0)] else t.closeFaults p) ++ patchFaults (n + 1) ts := by
  rw [patchFaults]
  simp only [head]
  rfl

/-- What the walk over texts adds, with a number of heads not refused before them (R54 to R58). -/
theorem PatchWalk.taken_adds {x : PatchWalk} {n : Nat} (before : x.patches.length = min n 32) (ts : List PatchText)
    {y : PatchWalk} (walked : ts.foldl (PatchWalk.taken width height) x = y) {now : List (PatchText × PatchHead)}
    (took : (ts.filterMap fun t => t.head.map fun p => (t, p)).take (32 - n) = now) :
    y.patches = x.patches ++ now.map (fun t => t.1.patch width height t.2) ∧
      y.photoDots = x.photoDots + (now.map fun t => t.2.areaOnPage width height).sum ∧
      y.clip = x.clip + (now.map fun t => t.2.w * t.2.f * (t.2.h * t.2.f) - t.2.areaOnPage width height).sum ∧
      y.tally = x.tally.chargeAll (patchFaults n ts) := by
  induction ts generalizing x n now with
  | nil =>
    subst walked took
    rw [List.filterMap_nil, List.take_nil]
    exact ⟨(List.append_nil _).symm, rfl, rfl, rfl⟩
  | cons t ts ih =>
    rw [List.foldl_cons] at walked
    cases e : t.head with
    | none =>
      rw [List.filterMap_cons, e, Option.map_none] at took
      have one : x.taken width height t = { x with tally := x.tally.charge .syntaxDefect (headRow t.segment.payload) } := by
        simp only [PatchWalk.taken, e]
      obtain ⟨patches, dots, clip, tally⟩ := ih (x := x.taken width height t) (by rw [one]; exact before) walked took
      rw [one] at patches dots clip tally
      rw [patchFaults_cons_of_none e]
      exact ⟨patches, dots, clip, tally⟩
    | some p =>
      rw [List.filterMap_cons, e, Option.map_some] at took
      rw [patchFaults_cons_of_some e]
      by_cases room : x.patches.length < 32
      · have below : n < 32 := by omega
        have one : x.taken width height t = { x with
            patches := x.patches ++ [t.patch width height p], photoDots := x.photoDots + p.areaOnPage width height
            clip := x.clip + (p.w * p.f * (p.h * p.f) - p.areaOnPage width height)
            tally := x.tally.chargeAll (t.closeFaults p) } := by
          simp only [PatchWalk.taken, e, room, if_true]
        have left : 32 - n = 32 - (n + 1) + 1 := by omega
        rw [left, List.take_succ_cons] at took
        subst took
        obtain ⟨patches, dots, clip, tally⟩ := ih (x := x.taken width height t) (n := n + 1)
          (by rw [one, List.length_append, List.length_singleton]; omega) walked rfl
        rw [one] at patches dots clip tally
        rw [if_neg (Nat.not_le.mpr below), Tally.chargeAll_append]
        refine ⟨patches.trans (List.append_assoc ..), dots.trans (Nat.add_assoc ..), clip.trans (Nat.add_assoc ..), tally⟩
      · have full : 32 ≤ n := by omega
        have one : x.taken width height t = { x with tally := x.tally.charge .tooManyPatches p.y0 } := by
          simp only [PatchWalk.taken, e, room, if_false]
        have none : 32 - n = 0 := Nat.sub_eq_zero_of_le full
        rw [none, List.take_zero] at took
        subst took
        obtain ⟨patches, dots, clip, tally⟩ := ih (x := x.taken width height t) (n := n + 1)
          (by rw [one]; exact before.trans (by omega)) walked
          (by rw [Nat.sub_eq_zero_of_le (Nat.le_succ_of_le full), List.take_zero])
        rw [one] at patches dots clip tally
        rw [if_pos full, Tally.chargeAll_append]
        exact ⟨patches, dots, clip, tally⟩

end Walk

end Sys2Proof.Machine
end

section
/-! PROOF. What indexing finds in the separations of a page, and its completion (R10, R45, R47, R59). -/

namespace Sys2Proof.Machine

open Sys2Proof

section Finds

variable {p : Page} {sp : Sys2Proof.Machine.Sep} {x : SepText}

/-- What the walk over a separation's patch stream finds, after the faults already charged (R54 to R58). -/
theorem Page.patchWalk_finds (reads : p.readsAs sp x) (t : Tally) :
    (p.patchWalk sp t).patches = (patchesTaken x.patches).map (fun t => t.1.patch p.width p.height t.2) ∧
      (p.patchWalk sp t).photoDots = x.photoDots p.width p.height ∧
      (p.patchWalk sp t).clip = x.clipped p.width p.height ∧
      (p.patchWalk sp t).tally =
        t.chargeAll (x.orphans.map (fun _ => (.patchOrphan, 0)) ++ patchFaults 0 x.patches) := by
  obtain ⟨-, split, orphans, sound⟩ := reads
  have walked : p.patchWalk sp t = x.patches.foldl (PatchWalk.taken p.width p.height)
      { stream := .noPatch, patches := [], photoDots := 0, clip := 0
        tally := t.chargeAll (x.orphans.map fun _ => (.patchOrphan, 0)) } := by
    rw [Page.patchWalk, split, List.foldl_append, PatchWalk.data_of_noPatch rfl orphans, PatchWalk.patches_taken _ sound,
      PatchWalk.close_of_noPatch rfl]
  obtain ⟨patches, dots, clip, tally⟩ := PatchWalk.taken_adds (n := 0) rfl x.patches walked.symm rfl
  rw [Tally.chargeAll_append]
  exact ⟨patches, dots.trans (Nat.zero_add _), clip.trans (Nat.zero_add _), tally⟩

theorem SepText.faults_eq (x : SepText) (w height : Nat) :
    x.faults w height = x.lineStreamFaults w height ++
      (x.orphans.map (fun _ => (.patchOrphan, 0)) ++ patchFaults 0 x.patches) :=
  List.append_assoc ..

theorem Tally.empty_chargeAll_first {fs : List (FaultKind × Nat)} {f : FaultKind × Nat} (first : f ∈ fs.head?)
    (range : f.2 ≤ 65535) : (Tally.empty.chargeAll fs).first = some f := by
  rw [Tally.chargeAll_first, first, Option.map_some, recordedRow, if_pos range]
  rfl

/-- What indexing finds of a separation is what its text says (R47 to R59). -/
theorem Page.indexSep_finds (reads : p.readsAs sp x) :
    x.foundAs p.width p.height (p.indexSep sp).1 ∧ (p.indexSep sp).2 = x.clipped p.width p.height := by
  obtain ⟨values, lineTally⟩ := Page.lineWalk_finds reads
  obtain ⟨patches, dots, clip, tally⟩ := Page.patchWalk_finds reads (p.lineWalk sp).tally
  rw [lineTally, ← Tally.chargeAll_append, ← SepText.faults_eq] at tally
  rw [← lineTally] at tally
  unfold Page.indexSep
  simp only
  generalize p.patchWalk sp (p.lineWalk sp).tally = y at patches dots clip tally
  refine ⟨⟨?_, ?_, fun f first range => ?_, patches, values, dots, ?_⟩, clip⟩
  · exact (congrArg Tally.count tally).trans ((Tally.chargeAll_count (Nat.zero_le _) _).trans (by rw [Tally.empty, Nat.zero_add]))
  · refine (congrArg (fun t => t.first.map Prod.fst) tally).trans ?_
    rw [Tally.chargeAll_first]
    cases (x.faults p.width p.height).head? <;> rfl
  · exact (congrArg Tally.first tally).trans (Tally.empty_chargeAll_first first range)
  · simp only [renderWeight, ceilDiv, Page.bands, values, dots]
    rfl

/-- The segments of a patch stream are orphans, and then patches (R54, R55). -/
theorem segments_splitAsPatches (gs : List Segment) (kinds : ∀ g ∈ gs, g.kind ≠ .line) :
    ∃ (orphans : List Segment) (patches : List PatchText),
      gs = orphans ++ patches.flatMap (fun t => t.segment :: t.data) ∧ (∀ g ∈ orphans, g.kind = .patchData) ∧
        ∀ t ∈ patches, t.sound := by
  induction gs with
  | nil => exact ⟨[], [], rfl, nofun, nofun⟩
  | cons g gs ih =>
    obtain ⟨notLine, rest⟩ := List.forall_mem_cons.mp kinds
    obtain ⟨orphans, patches, rfl, data, sound⟩ := ih rest
    cases kind : g.kind with
    | line => exact absurd kind notLine
    | patchData => exact ⟨g :: orphans, patches, rfl, List.forall_mem_cons.mpr ⟨kind, data⟩, sound⟩
    | patchHead =>
      refine ⟨[], { segment := g, data := orphans, head := (parseHead g.payload).map Prod.fst } :: patches, rfl, nofun,
        List.forall_mem_cons.mpr ⟨⟨kind, data, ?_⟩, sound⟩⟩
      cases parsed : parseHead g.payload with
      | none =>
        intro q unused samples range bytes
        rw [bytes, parseHead_bytes q unused samples range] at parsed
        cases parsed
      | some y =>
        obtain ⟨range, unused, bytes⟩ := parseHead_some parsed
        exact ⟨range, unused, y.2, bytes⟩

theorem Page.readsAs_exists (p : Page) (sp : Sys2Proof.Machine.Sep) : ∃ x : SepText, p.readsAs sp x := by
  obtain ⟨lines, reads⟩ :=
    readsAsLine_forall ((p.held.filter fun g => g.kind == .line && g.sep == sp).map Segment.payload)
  obtain ⟨orphans, patches, split, data, sound⟩ :=
    segments_splitAsPatches (p.held.filter fun g => g.kind != .line && g.sep == sp) fun g mem line => by
      have := (List.mem_filter.mp mem).2
      simp [line] at this
  exact ⟨⟨lines, orphans, patches⟩, reads, split, data, sound⟩

end Finds

/-! ## Completion (R10, R45, R59) -/

section Completion

variable {s : State} {h : Fin 64} {p : Page}

theorem Seps.mem_members (x : Seps Bool) (sp : Sys2Proof.Machine.Sep) : sp ∈ x.members ↔ x.get sp = true := by
  rw [Seps.members, List.mem_filter]
  exact and_iff_right (by cases sp <;> decide)

theorem Page.indexed_results (p : Page) (sp : Sys2Proof.Machine.Sep) : p.indexed.results.get sp = p.resultOf sp := by
  cases sp <;> rfl

theorem Page.faulty_iff (p : Page) :
    p.faulty = true ↔ ∃ sp, p.seps.get sp = true ∧ 0 < (p.results.get sp).tally.count := by
  simp only [Page.faulty, List.any_eq_true, Seps.mem_members, decide_eq_true_eq]

/-- The CONTENT FAULT of a separation (R10). -/
def Page.contentFaultOf (p : Page) (now : Seconds) (h : Fin 64) (sp : Sys2Proof.Machine.Sep) : Incident :=
  { kind := .contentFault, time := now, label := some p.label, version := some p.version
    handle := some h, sep := some sp, disposition := .held
    detail := (p.results.get sp).tally.first.map fun x =>
      { count := (p.results.get sp).tally.count, kind := x.1, row := x.2 } }

theorem State.contentFault_eq (s : State) (h : Fin 64) (p : Page) (sp : Sys2Proof.Machine.Sep) :
    State.contentFault h p s sp =
      if 0 < (p.results.get sp).tally.count then s.raise (p.contentFaultOf s.clock h sp) else s := by
  unfold State.contentFault
  simp only [Nat.pos_iff_ne_zero, ne_eq, ite_not]
  rfl

/-- The CONTENT FAULTs of the separations with faults, made in order (R10). -/
theorem State.contentFault_foldl (sps : List Sys2Proof.Machine.Sep) (s : State) :
    s.recordedAll (sps.foldl (State.contentFault h p) s)
        ((sps.filter fun sp => 0 < (p.results.get sp).tally.count).map (p.contentFaultOf s.clock h)) ∧
      sps.foldl (State.contentFault h p) s = { s with
        incidents := (sps.foldl (State.contentFault h p) s).incidents
        lost := (sps.foldl (State.contentFault h p) s).lost } := by
  induction sps generalizing s with
  | nil => exact ⟨s.recordedAll_nil, rfl⟩
  | cons sp sps ih =>
    rw [List.foldl_cons, State.contentFault_eq]
    by_cases faults : 0 < (p.results.get sp).tally.count
    · rw [if_pos faults, List.filter_cons, if_pos (decide_eq_true faults), List.map_cons]
      have first := s.raise_recordedAll (p.contentFaultOf s.clock h sp)
      have frame := s.raise_frame (p.contentFaultOf s.clock h sp)
      generalize s.raise (p.contentFaultOf s.clock h sp) = m at first frame
      obtain ⟨rest, frameT⟩ := ih m
      have clock : m.clock = s.clock := by rw [frame]
      rw [clock] at rest
      exact ⟨first.append rest, by rw [frameT, frame]⟩
    · rw [if_neg faults, List.filter_cons, if_neg (by simpa using faults)]
      exact ih s

/-- The page that indexing leaves (R10, R59). -/
def Page.indexedAt (p : Page) (now : Seconds) : Page :=
  { p.indexed with completed := some now, state := if p.indexed.faulty then .faulted else .complete }

theorem exec_indexingCompletion (running : s.resetAsserted = false) (indexer : s.indexer = some h)
    (hp : s.page h = some p) :
    exec .indexingCompletion s = .next ({ (p.indexedAt s.clock).seps.members.foldl
      (State.contentFault h (p.indexedAt s.clock)) (s.setPage h (some (p.indexedAt s.clock))) with
        indexer := none }.takeForIndexing) := by
  unfold exec execIndexingCompletion
  rw [State.event_running s _ running]
  simp only [indexer, hp, Option.bind_some, Option.map_some]
  rfl

end Completion

/-- Settles O30: the walks over the line and patch streams find what the separation's text says; completion stores it. -/
theorem indexerTakesAndCompletesPages : Obligations.IndexerTakesAndCompletesPages := by
  unfold Obligations.IndexerTakesAndCompletesPages
  refine ⟨Page.readsAs_exists, fun s running => ⟨fun h rest idle queue => ?_, fun h p text indexer hp reads => ?_⟩⟩
  · unfold exec execIndexerTake
    rw [State.event_running s _ running, State.takeForIndexing]
    simp only [idle, queue]
  · have ran := exec_indexingCompletion running indexer hp
    obtain ⟨made, frame⟩ := State.contentFault_foldl (h := h) (p := p.indexedAt s.clock)
      (p.indexedAt s.clock).seps.members (s.setPage h (some (p.indexedAt s.clock)))
    generalize (p.indexedAt s.clock).seps.members.foldl _ _ = m at ran made frame
    obtain ⟨taken, queue⟩ := State.takeForIndexing_idle { m with indexer := none } rfl
    have frameT := State.takeForIndexing_frame { m with indexer := none }
    generalize State.takeForIndexing { m with indexer := none } = t at ran taken queue frameT
    have queueM : m.indexQueue = s.indexQueue := by rw [frame]; rfl
    have pagesT : t.pages = (s.setPage h (some (p.indexedAt s.clock))).pages := by rw [frameT, frame]
    have page : t.page h = some (p.indexedAt s.clock) :=
      (congrArg (fun v => v[h]) pagesT).trans (s.page_setPage_self h _)
    have incidents : t.incidents = m.incidents ∧ t.lost = m.lost := by rw [frameT]; exact ⟨rfl, rfl⟩
    refine ⟨t, p.indexed, ran, fun k other => ?_, rfl, fun sp mem => ?_, fun sp away => ?_, ?_, ?_, ?_, fun sound => ?_,
      fun faults => ?_, ?_⟩
    · exact (congrArg (fun v => v[k]) pagesT).trans (s.page_setPage_of_ne _ other)
    · rw [Page.indexed_results, Page.resultOf, if_pos mem]
      exact (Page.indexSep_finds (reads sp)).1
    · rw [Page.indexed_results, Page.resultOf, away, if_neg Bool.false_ne_true]
    · refine congrArg List.sum (List.map_congr_left fun sp _ => ?_)
      exact (Page.indexSep_finds (reads sp)).2
    · rw [taken, queueM]
    · rw [queue, queueM]
    · have none : p.indexed.faulty = false := by
        rw [Bool.eq_false_iff, ne_eq, Page.faulty_iff]
        rintro ⟨sp, mem, some⟩
        exact some.ne' (sound sp mem)
      have silent : (p.indexedAt s.clock).seps.members.filter
          (fun sp => 0 < ((p.indexedAt s.clock).results.get sp).tally.count) = [] := by
        refine List.filter_eq_nil_iff.mpr fun sp mem => ?_
        rw [decide_eq_true_eq]
        exact Nat.not_lt.mpr (sound sp ((Seps.mem_members _ sp).mp mem)).le
      rw [silent, List.map_nil] at made
      have kept := State.recordedAll_nil (s.setPage h (some (p.indexedAt s.clock)))
      refine ⟨page.trans ?_, incidents.1.trans (made.1.trans kept.1.symm), incidents.2.trans (made.2.trans kept.2.symm)⟩
      rw [Page.indexedAt, none]
      rfl
    · have some := (Page.faulty_iff p.indexed).mpr faults
      refine ⟨page.trans ?_, incidents.1.trans made.1, incidents.2.trans made.2⟩
      rw [Page.indexedAt, some]
      rfl
    · rw [frameT, frame]
      rfl

end Sys2Proof.Machine
end

section
/-! PROOF. The line work decoded row by row through a render context, against the rows that the text says (R48 to R51, R60,
R121). -/

namespace Sys2Proof.Machine

open Sys2Proof

/-! ## The rows of records (R49, R50) -/

section Rows

variable {w : Nat}

/-- The row that a record repeats, after a carry row (R49, R50). -/
def RowRecord.row (w : Nat) (carry : Row) : RowRecord → Row
  | .white _ => whiteRow w
  | .repeatRow _ => carry
  | .runs vs => buildRow w false vs

theorem RowRecord.rows_eq (w : Nat) (carry : Row) (r : RowRecord) :
    r.rows w carry = List.replicate r.count (r.row w carry) := by cases r <;> rfl

theorem RowRecord.inRange.count_pos {r : RowRecord} (range : r.inRange) : 0 < r.count := by
  cases r with
  | white n => exact range.1
  | repeatRow n => exact range.1
  | runs vs => exact Nat.one_pos

theorem whiteRow_length (w : Nat) : (whiteRow w).length = w := List.length_replicate

theorem RowRecord.row_length (r : RowRecord) {carry : Row} (h : carry.length = w) : (r.row w carry).length = w := by
  cases r with
  | white n => exact whiteRow_length w
  | repeatRow n => exact h
  | runs vs => exact buildRow_length vs w false

/-- The rows of a run of records begin with those of its first part. -/
theorem decodedRows_prefix (w : Nat) (rs qs : List RowRecord) : decodedRows w rs <+: decodedRows w (rs ++ qs) := by
  induction qs using List.reverseRecOn with
  | nil => rw [List.append_nil]
  | append_singleton qs q ih =>
    rw [← List.append_assoc, decodedRows_append]
    exact ih.trans (List.prefix_append _ _)

theorem decodedRows_width (w : Nat) (rs : List RowRecord) : ∀ row ∈ decodedRows w rs, row.length = w := by
  induction rs using List.reverseRecOn with
  | nil => nofun
  | append_singleton rs r ih =>
    rw [decodedRows_append, RowRecord.rows_eq]
    intro row mem
    rcases List.mem_append.mp mem with old | new
    · exact ih row old
    · rw [List.eq_of_mem_replicate new]
      refine r.row_length ?_
      cases last : (decodedRows w rs).getLast? with
      | none => exact whiteRow_length w
      | some row => exact ih row (List.mem_of_getLast? last)

end Rows

/-! ## The next record of a stream (R51, R193) -/

section Next

/-- What is left to read of a LINE payload, after some of its records (R51). -/
theorem parseRecord_at {payload : List Byte} {t : Option LineText} (reads : readsAsLine payload t)
    {read unread : List RowRecord} (split : recordsOf t = read ++ unread) :
    (unread = [] → parseRecord (payload.drop (2 + (read.flatMap RowRecord.bytes).length)) = none) ∧
      ∀ r later, unread = r :: later → ∃ rest,
        parseRecord (payload.drop (2 + (read.flatMap RowRecord.bytes).length)) = some (r, rest) ∧
          payload.length - rest.length = 2 + ((read ++ [r]).flatMap RowRecord.bytes).length ∧ r.inRange := by
  cases t with
  | none =>
    obtain ⟨rfl, rfl⟩ := List.append_eq_nil_iff.mp split.symm
    have short : payload.length < 2 := reads
    refine ⟨fun _ => ?_, nofun⟩
    rw [List.drop_of_length_le (by simp; omega)]
    rfl
  | some t =>
    obtain ⟨-, records, rest, rfl, -, ends⟩ := reads
    have split : t.records = read ++ unread := split
    rw [split] at records ⊢
    have dropped : (twoByteForm t.first ++ (read ++ unread).flatMap RowRecord.bytes ++ rest).drop
        (2 + (read.flatMap RowRecord.bytes).length) = unread.flatMap RowRecord.bytes ++ rest := by
      have front : (twoByteForm t.first ++ read.flatMap RowRecord.bytes).length =
          2 + (read.flatMap RowRecord.bytes).length := List.length_append
      rw [List.flatMap_append, ← List.append_assoc, List.append_assoc _ _ rest, ← front, List.drop_left]
    rw [dropped]
    refine ⟨fun none => ?_, fun r later some => ?_⟩
    · rw [none]
      exact parseRecord_none ends
    · subst some
      have range := records r (List.mem_append_right _ List.mem_cons_self)
      refine ⟨later.flatMap RowRecord.bytes ++ rest, ?_, ?_, range⟩
      · rw [List.flatMap_cons, List.append_assoc, parseRecord_bytes r _ range]
      · simp only [List.flatMap_append, List.flatMap_cons, List.length_append, List.flatMap_nil, List.length_nil,
          twoByteForm, List.length_cons]
        omega

/-- The number and payload of a segment (R193). -/
def Segment.numbered (g : Segment) : Nat × List Byte := (g.number, g.payload)

/-- The first record of a run of LINE segments, read from their beginnings (R51, R193). -/
theorem nextRecord_begins {gs : List Segment} {ts : List (Option LineText)}
    (reads : List.Forall₂ readsAsLine (gs.map Segment.payload) ts) :
    (ts.flatMap recordsOf = [] ∧ nextRecord 2 (gs.map Segment.numbered) = none) ∨
      ∃ skipped now after g r later, ts = skipped ++ now :: after ∧ gs[skipped.length]? = some g ∧
        skipped.flatMap recordsOf = [] ∧ recordsOf now = r :: later ∧ r.inRange ∧
        nextRecord 2 (gs.map Segment.numbered) = some (g.number, 2 + r.bytes.length, r) := by
  induction gs generalizing ts with
  | nil => cases reads; exact Or.inl ⟨rfl, rfl⟩
  | cons g gs ih =>
    obtain ⟨t, ts, first, rest, rfl⟩ := List.forall₂_cons_left_iff.mp reads
    obtain ⟨none, some⟩ := parseRecord_at (read := []) first rfl
    have begins : (g :: gs).map Segment.numbered = (g.number, g.payload) :: gs.map Segment.numbered := rfl
    rw [begins, nextRecord]
    cases records : recordsOf t with
    | nil =>
      rw [List.flatMap_nil, List.length_nil, Nat.add_zero] at none
      rw [none records]
      simp only
      rcases ih rest with ⟨empty, nothing⟩ | ⟨skipped, now, after, h, r, later, rfl, at', passed, next, range, found⟩
      · exact Or.inl ⟨by rw [List.flatMap_cons, records, empty]; rfl, nothing⟩
      · refine Or.inr ⟨t :: skipped, now, after, h, r, later, rfl, at', ?_, next, range, found⟩
        rw [List.flatMap_cons, records, passed]
        rfl
    | cons r later =>
      obtain ⟨rest, parsed, offset, range⟩ := some r later records
      rw [List.flatMap_nil, List.length_nil, Nat.add_zero] at parsed
      rw [parsed]
      simp only
      refine Or.inr ⟨[], t, ts, g, r, later, rfl, rfl, rfl, records, range, ?_⟩
      rw [offset, List.nil_append, List.flatMap_cons, List.flatMap_nil, List.append_nil]

/-- The next record after those read of a LINE segment: of the same segment, or the first of a later one (R51, R193). -/
theorem nextRecord_goes_on {g : Segment} {gs : List Segment} {now : Option LineText} {ts : List (Option LineText)}
    (first : readsAsLine g.payload now) (reads : List.Forall₂ readsAsLine (gs.map Segment.payload) ts)
    {read unread : List RowRecord} (split : recordsOf now = read ++ unread) :
    (unread ++ ts.flatMap recordsOf = [] ∧
        nextRecord (2 + (read.flatMap RowRecord.bytes).length) ((g :: gs).map Segment.numbered) = none) ∨
      ∃ skipped now' after g' read' r later, now :: ts = skipped ++ now' :: after ∧
        (g :: gs)[skipped.length]? = some g' ∧ recordsOf now' = read' ++ r :: later ∧
        skipped.flatMap recordsOf ++ read' = read ∧ r.inRange ∧
        nextRecord (2 + (read.flatMap RowRecord.bytes).length) ((g :: gs).map Segment.numbered) =
          some (g'.number, 2 + ((read' ++ [r]).flatMap RowRecord.bytes).length, r) := by
  obtain ⟨none, some⟩ := parseRecord_at first split
  have begins : (g :: gs).map Segment.numbered = (g.number, g.payload) :: gs.map Segment.numbered := rfl
  rw [begins, nextRecord]
  cases unread with
  | nil =>
    rw [none rfl]
    simp only
    rw [List.append_nil] at split
    rcases nextRecord_begins reads with
      ⟨empty, nothing⟩ | ⟨skipped, now', after, h, r, later, rfl, at', passed, next, range, found⟩
    · exact Or.inl ⟨empty, nothing⟩
    · refine Or.inr ⟨now :: skipped, now', after, h, [], r, later, rfl, at', next, ?_, range, ?_⟩
      · rw [List.flatMap_cons, split, passed, List.append_nil, List.append_nil]
      · rw [found, List.nil_append, List.flatMap_cons, List.flatMap_nil, List.append_nil]
  | cons r later =>
    obtain ⟨rest, parsed, offset, range⟩ := some r later rfl
    rw [parsed]
    simp only
    exact Or.inr ⟨[], now, ts, g, read, r, later, rfl, rfl, split, rfl, range, by rw [offset]⟩

end Next

/-! ## One row (R60, R121) -/

section Step

variable {w : Nat} {x : RenderContext} {segs : List (Nat × List Byte)}

theorem RenderContext.nextRow_of_left (left : 0 < x.rowsLeft) :
    x.nextRow segs w = (x.carry, { x with rowsLeft := x.rowsLeft - 1 }) := if_pos left

theorem RenderContext.nextRow_of_end (left : x.rowsLeft = 0)
    (ended : (x.segment.bind fun n => nextRecord x.offset (segs.dropWhile fun g => g.1 < n)) = none) :
    x.nextRow segs w = (whiteRow w, { x with segment := none }) := by
  rw [RenderContext.nextRow, if_neg (by rw [left]; exact Nat.lt_irrefl 0), ended]

/-- A record read gives its first row, and the others are left, each equal to the carry row (R60, R121). -/
theorem RenderContext.nextRow_of_record {n off : Nat} {r : RowRecord} (left : x.rowsLeft = 0)
    (found : (x.segment.bind fun n => nextRecord x.offset (segs.dropWhile fun g => g.1 < n)) = some (n, off, r)) :
    x.nextRow segs w = (r.row w x.carry, { x with
      segment := some n, offset := off, rowsLeft := r.count - 1, carry := r.row w x.carry
      rowCount := x.rowCount + r.count }) := by
  rw [RenderContext.nextRow, if_neg (by rw [left]; exact Nat.lt_irrefl 0), found]
  cases r with
  | white k => rfl
  | repeatRow k => rfl
  | runs vs =>
    simp only [left]
    rfl

/-- The row that comes next, and the carry row after it, have the width of a carry row that has it (R121). -/
theorem RenderContext.nextRow_width (segs : List (Nat × List Byte)) (carry : x.carry.length = w) :
    (x.nextRow segs w).1.length = w ∧ (x.nextRow segs w).2.carry.length = w := by
  rcases Nat.eq_zero_or_pos x.rowsLeft with none | left
  · cases found : x.segment.bind fun n => nextRecord x.offset (segs.dropWhile fun g => g.1 < n) with
    | none =>
      rw [RenderContext.nextRow_of_end none found]
      exact ⟨whiteRow_length w, carry⟩
    | some z =>
      obtain ⟨n, off, r⟩ := z
      rw [RenderContext.nextRow_of_record none found]
      exact ⟨r.row_length carry, r.row_length carry⟩
  · rw [RenderContext.nextRow_of_left left]
    exact ⟨carry, carry⟩

end Step

/-! ## A context that stands at a row (R60, R121) -/

section Stands

variable {p : Page} {sp : Sys2Proof.Machine.Sep} {t : SepText} {x : RenderContext} {y : Nat}

theorem Page.linePayloads_dropWhile (sorted : (p.held.map Segment.number).Pairwise (· < ·)) {n : Nat} {g : Segment}
    (at' : (p.stream .line sp)[n]? = some g) :
    (p.linePayloads sp).dropWhile (fun h => h.1 < g.number) = ((p.stream .line sp).drop n).map Segment.numbered := by
  obtain ⟨inside, rfl⟩ := List.getElem?_eq_some_iff.mp at'
  have ordered : (p.stream .line sp).Pairwise fun a b => a.number < b.number :=
    (List.pairwise_map.mp sorted).sublist List.filter_sublist
  have payloads : p.linePayloads sp =
      ((p.stream .line sp).take n).map Segment.numbered ++ ((p.stream .line sp).drop n).map Segment.numbered := by
    rw [← List.map_append, List.take_append_drop]
    rfl
  rw [payloads, List.dropWhile_append_of_pos, List.drop_eq_getElem_cons inside, List.map_cons, List.dropWhile_cons,
    if_neg (by simp [Segment.numbered])]
  intro h mem
  obtain ⟨k, earlier, rfl⟩ := List.mem_map.mp mem
  obtain ⟨m, short, rfl⟩ := List.getElem_of_mem earlier
  rw [List.length_take] at short
  rw [List.getElem_take]
  exact decide_eq_true (List.pairwise_iff_getElem.mp ordered m n (by omega) inside (by omega))

theorem getElem?_of_prefix {α : Type} {as bs : List α} (h : as <+: bs) {n : Nat} (inside : n < as.length) :
    bs[n]? = as[n]? := by
  obtain ⟨cs, rfl⟩ := h
  exact List.getElem?_append_left inside

/-- The rows decoded up to a cursor are the first of those that the text says. -/
theorem SepText.rows_prefix {done rest : List RowRecord} (split : t.lines.flatMap recordsOf = done ++ rest) (w : Nat) :
    decodedRows w done <+: t.rows w := by
  rw [SepText.rows, split]
  exact decodedRows_prefix w done rest

/-- A loaded copy's context stands at the first row (R121). -/
theorem RenderContext.start_standsAt (reads : p.readsAs sp t) : (RenderContext.start p sp).standsAt p sp t 0 := by
  obtain ⟨lines, -⟩ := reads
  unfold RenderContext.standsAt RenderContext.start Page.linePayloads Page.stream
  cases segments : p.held.filter fun g => g.kind == .line && g.sep == sp with
  | nil =>
    rw [segments] at lines
    have none : t.lines = [] := List.forall₂_nil_left_iff.mp lines
    refine Or.inl ⟨rfl, rfl, ?_⟩
    rw [SepText.rows, none]
    exact Nat.le_refl 0
  | cons g gs =>
    rw [segments] at lines
    obtain ⟨now, after, -, -, e⟩ := List.forall₂_cons_left_iff.mp lines
    exact Or.inr ⟨[], after, now, g, [], recordsOf now, [], e, rfl, rfl, rfl, rfl, rfl, rfl, rfl, rfl, rfl⟩

/-- From a context that stands at a row, the next row is that of the text, white where the stream has ended, and the
context then stands at the row after it (R60, R121). -/
theorem RenderContext.standsAt.next (reads : p.readsAs sp t) (sorted : (p.held.map Segment.number).Pairwise (· < ·))
    (stands : x.standsAt p sp t y) :
    (x.nextRow (p.linePayloads sp) p.width).1 = ((t.rows p.width)[y]?).getD (whiteRow p.width) ∧
      (x.nextRow (p.linePayloads sp) p.width).2.standsAt p sp t (y + 1) := by
  obtain ⟨lines, -⟩ := reads
  rcases stands with ⟨segment, none, ended⟩ |
    ⟨before, after, now, g, read, unread, rows, split, at', segment, records, offset, rfl, length, left, carry, count⟩
  · rw [RenderContext.nextRow_of_end none (by rw [segment]; rfl), List.getElem?_eq_none ended]
    exact ⟨rfl, Or.inl ⟨rfl, none, Nat.le_succ_of_le ended⟩⟩
  have upTo : t.lines.flatMap recordsOf =
      (before.flatMap recordsOf ++ read) ++ (unread ++ after.flatMap recordsOf) := by
    rw [split, List.flatMap_append, List.flatMap_cons, records]
    simp only [List.append_assoc]
  rcases Nat.eq_zero_or_pos x.rowsLeft with none | remaining
  · have current : (p.held.filter fun g => g.kind == .line && g.sep == sp).drop before.length =
        g :: (p.held.filter fun g => g.kind == .line && g.sep == sp).drop (before.length + 1) := by
      obtain ⟨inside, rfl⟩ := List.getElem?_eq_some_iff.mp at'
      exact List.drop_eq_getElem_cons inside
    have later := List.forall₂_drop before.length lines
    rw [← List.map_drop, current, split, List.drop_left] at later
    obtain ⟨first, rest⟩ := List.forall₂_cons.mp later
    have next : (x.segment.bind fun n => nextRecord x.offset ((p.linePayloads sp).dropWhile fun g => g.1 < n)) =
        nextRecord (2 + (read.flatMap RowRecord.bytes).length)
          ((g :: (p.held.filter fun g => g.kind == .line && g.sep == sp).drop (before.length + 1)).map
            Segment.numbered) := by
      rw [segment, Option.bind_some, p.linePayloads_dropWhile sorted at', offset, ← current]
      rfl
    rw [none, Nat.add_zero] at length
    rcases nextRecord_goes_on first rest records with
      ⟨empty, nothing⟩ | ⟨skipped, now', after', g', read', r, unread', split', at'', records', passed, range, found⟩
    · rw [RenderContext.nextRow_of_end none (next.trans nothing)]
      have whole : (t.rows p.width).length = y := by
        rw [SepText.rows, upTo, empty, List.append_nil, length]
      rw [List.getElem?_eq_none whole.le]
      exact ⟨rfl, Or.inl ⟨rfl, none, whole.le.trans (Nat.le_succ y)⟩⟩
    · rw [RenderContext.nextRow_of_record none (next.trans found)]
      have done : (before ++ skipped).flatMap recordsOf ++ (read' ++ [r]) = before.flatMap recordsOf ++ read ++ [r] := by
        rw [List.flatMap_append, ← passed]
        simp only [List.append_assoc]
      have upTo' : t.lines.flatMap recordsOf =
          (before.flatMap recordsOf ++ read ++ [r]) ++ (unread' ++ after'.flatMap recordsOf) := by
        rw [← done, split, split', List.flatMap_append, List.flatMap_append, List.flatMap_cons, List.flatMap_append,
          records']
        simp only [List.append_assoc, List.cons_append, List.nil_append]
      have added : decodedRows p.width (before.flatMap recordsOf ++ read ++ [r]) =
          decodedRows p.width (before.flatMap recordsOf ++ read) ++ List.replicate r.count (r.row p.width x.carry) := by
        rw [decodedRows_append, RowRecord.rows_eq, carry]
      have positive := range.count_pos
      have row : (t.rows p.width)[y]? = some (r.row p.width x.carry) := by
        rw [getElem?_of_prefix (SepText.rows_prefix upTo' p.width)
          (by rw [added, List.length_append, List.length_replicate]; omega), added,
          List.getElem?_append_right length.le, length, Nat.sub_self, List.getElem?_replicate, if_pos positive]
      refine ⟨by rw [row]; rfl, Or.inr ⟨before ++ skipped, after', now', g', read' ++ [r], unread', _, ?_, ?_, rfl, ?_, rfl,
        rfl, ?_, ?_, ?_, ?_⟩⟩
      · rw [split, split', List.append_assoc]
      · rw [List.length_append, ← List.getElem?_drop, current, at'']
      · rw [records', List.append_assoc]
        rfl
      · rw [done, added, List.length_append, List.length_replicate]
        simp only
        omega
      · rw [done, added, ← length, List.drop_append]
        simp
      · rw [done, added, List.getLast?_append, List.getLast?_replicate, if_neg positive.ne']
        rfl
      · rw [done, added, List.length_append, List.length_replicate, count]
  · rw [RenderContext.nextRow_of_left remaining]
    have inside : y < (decodedRows p.width (before.flatMap recordsOf ++ read)).length := by omega
    have row : (decodedRows p.width (before.flatMap recordsOf ++ read))[y]? = some x.carry := by
      rw [← Nat.add_zero y, ← List.getElem?_drop, left, List.getElem?_replicate, if_pos remaining]
    refine ⟨?_, Or.inr ⟨before, after, now, g, read, unread, _, split, at', segment, records, offset, rfl, ?_, ?_, carry,
      count⟩⟩
    · rw [getElem?_of_prefix (SepText.rows_prefix upTo p.width) inside, row]
      rfl
    · rw [length]
      simp only
      omega
    · rw [← List.drop_drop, left, List.drop_replicate]

/-- The next k rows from a context, of the width of its carry row (R60). -/
theorem RenderContext.rows_width {w : Nat} (segs : List (Nat × List Byte)) (k : Nat) {x : RenderContext}
    (carry : x.carry.length = w) : ∀ row ∈ (x.rows segs w k).1, row.length = w := by
  induction k generalizing x with
  | zero => nofun
  | succ k ih =>
    obtain ⟨first, next⟩ := x.nextRow_width segs carry
    exact List.forall_mem_cons.mpr ⟨first, ih next⟩

theorem RenderContext.rows_length (segs : List (Nat × List Byte)) (w k : Nat) (x : RenderContext) :
    (x.rows segs w k).1.length = k := by
  induction k generalizing x with
  | zero => rfl
  | succ k ih => exact congrArg Nat.succ (ih _)

/-- The next k rows from a context that stands at a row are those of the text from that row on (R60, R121). -/
theorem RenderContext.standsAt.rows (reads : p.readsAs sp t) (sorted : (p.held.map Segment.number).Pairwise (· < ·))
    (k : Nat) (stands : x.standsAt p sp t y) :
    (∀ m, m < k → (x.rows (p.linePayloads sp) p.width k).1[m]? =
        some (((t.rows p.width)[y + m]?).getD (whiteRow p.width))) ∧
      (x.rows (p.linePayloads sp) p.width k).2.standsAt p sp t (y + k) := by
  induction k generalizing x y with
  | zero => exact ⟨nofun, stands⟩
  | succ k ih =>
    obtain ⟨row, next⟩ := stands.next reads sorted
    obtain ⟨rows, last⟩ := ih next
    rw [Nat.add_right_comm] at last
    refine ⟨fun m short => ?_, last⟩
    cases m with
    | zero => exact congrArg some row
    | succ m =>
      have after := rows m (Nat.lt_of_succ_lt_succ short)
      rw [Nat.add_right_comm] at after
      exact after

end Stands

end Sys2Proof.Machine
end

section
/-! PROOF. The samples of a patch, read through its locator (R57, R64), and the screened dot over them (R62 to R72). -/

namespace Sys2Proof.Machine

open Sys2Proof

/-! ## Where a sample's bytes go on (R57, R64) -/

section Chunks

/-- The samples of payloads from an offset in each on, in order. -/
def chunkSamples (cs : List (Segment × Nat)) : List Byte := cs.flatMap fun c => c.1.payload.drop c.2

/-- The places of those samples. -/
def chunkPlaces (cs : List (Segment × Nat)) : List (Nat × Nat) :=
  cs.flatMap fun c => ((List.range c.1.payload.length).drop c.2).map fun k => (c.1.number, k)

/-- The segments of a patch, with the offset of the first sample in each (R55). -/
def PatchText.chunks (t : PatchText) : List (Segment × Nat) := (t.segment, 12) :: t.data.map fun g => (g, 0)

theorem PatchText.chunks_samples (t : PatchText) : chunkSamples t.chunks = t.samples := by
  rw [chunkSamples, PatchText.chunks, List.flatMap_cons, List.flatMap_map, PatchText.samples]
  simp only [List.drop_zero]

theorem PatchText.chunks_places (t : PatchText) : chunkPlaces t.chunks = t.places := by
  rw [chunkPlaces, PatchText.chunks, List.flatMap_cons, List.flatMap_map, PatchText.places]
  simp only [List.drop_zero]

theorem chunkPlaces_length (cs : List (Segment × Nat)) : (chunkPlaces cs).length = (chunkSamples cs).length := by
  rw [chunkPlaces, chunkSamples, List.length_flatMap, List.length_flatMap]
  simp only [List.length_map, List.length_drop, List.length_range]

/-- A place lies in the payload of one segment, and the samples from it on are those of that payload and of the later ones
(R57). -/
theorem chunkPlaces_getElem? {cs : List (Segment × Nat)} {k n off : Nat} (place : (chunkPlaces cs)[k]? = some (n, off)) :
    ∃ before g d after, cs = before ++ (g, d) :: after ∧ n = g.number ∧
      (chunkSamples cs).drop k = g.payload.drop off ++ chunkSamples after := by
  induction cs generalizing k with
  | nil => cases place
  | cons c cs ih =>
    obtain ⟨g, d⟩ := c
    have samples : chunkSamples ((g, d) :: cs) = g.payload.drop d ++ chunkSamples cs := rfl
    have places : chunkPlaces ((g, d) :: cs) =
        (((List.range g.payload.length).drop d).map fun k => (g.number, k)) ++ chunkPlaces cs := rfl
    have length : (((List.range g.payload.length).drop d).map fun k => (g.number, k)).length = g.payload.length - d := by
      rw [List.length_map, List.length_drop, List.length_range]
    rw [samples]
    rw [places] at place
    by_cases inside : k < g.payload.length - d
    · rw [List.getElem?_append_left (length.symm ▸ inside), List.getElem?_map, List.getElem?_drop,
        List.getElem?_range (by omega)] at place
      obtain ⟨rfl, rfl⟩ := Prod.mk.inj (Option.some.inj place)
      refine ⟨[], g, d, cs, rfl, rfl, ?_⟩
      rw [List.drop_append_of_le_length (by rw [List.length_drop]; omega), List.drop_drop]
    · rw [List.getElem?_append_right (by rw [length]; omega), length] at place
      obtain ⟨before, h, e, after, rfl, number, dropped⟩ := ih place
      refine ⟨(g, d) :: before, h, e, after, rfl, number, ?_⟩
      rw [List.drop_append, List.drop_of_length_le (by rw [List.length_drop]; omega), List.length_drop, dropped]
      rfl

end Chunks

/-! ## The samples of a patch (R64) -/

section Samples

variable {p : Page} {sp : Sys2Proof.Machine.Sep} {x : SepText} {t : PatchText} {hd : PatchHead}

/-- The held segment of a number is the only one. -/
theorem Page.find?_number (sorted : (p.held.map Segment.number).Pairwise (· < ·)) {g : Segment} (mem : g ∈ p.held) :
    p.held.find? (fun h => h.number == g.number) = some g := by
  obtain ⟨h, found⟩ := Option.isSome_iff_exists.mp
    (List.find?_isSome (p := fun h : Segment => h.number == g.number).mpr ⟨g, mem, beq_self_eq_true _⟩)
  have once : (p.held.map Segment.number).Nodup := sorted.imp Nat.ne_of_lt
  have same := List.inj_on_of_nodup_map once (List.mem_of_find?_eq_some found) mem
    (beq_iff_eq.mp (List.find?_some (p := fun h : Segment => h.number == g.number) found))
  rw [found, same]

/-- The PATCH DATA bytes after a segment of the patch stream are those of the segments after it. -/
theorem Page.dataAfter_eq (sorted : (p.held.map Segment.number).Pairwise (· < ·)) {before after : List Segment} {g : Segment}
    (split : (p.held.filter fun g => g.kind != .line && g.sep == sp) = before ++ g :: after) :
    p.dataAfter sp g.number = (after.filter fun h => h.kind == .patchData).flatMap Segment.payload := by
  have ordered : (p.held.filter fun g => g.kind != .line && g.sep == sp).Pairwise fun a b => a.number < b.number :=
    (List.pairwise_map.mp sorted).sublist List.filter_sublist
  rw [split] at ordered
  obtain ⟨-, fromHere, earlier⟩ := List.pairwise_append.mp ordered
  have later (h : Segment) (mem : h ∈ after) : g.number < h.number := (List.pairwise_cons.mp fromHere).1 h mem
  have noneBefore : before.filter (fun h => g.number < h.number) = [] := by
    refine List.filter_eq_nil_iff.mpr fun h mem => ?_
    have := earlier h mem g List.mem_cons_self
    simp only [decide_eq_true_eq]
    omega
  have allAfter : after.filter (fun h => g.number < h.number) = after :=
    List.filter_eq_self.mpr fun h mem => decide_eq_true (later h mem)
  have kept : (before ++ g :: after).filter (fun h => g.number < h.number) = after := by
    rw [List.filter_append, noneBefore, List.nil_append, List.filter_cons, if_neg (by simp), allAfter]
  have stream : p.stream .patchData sp =
      (p.held.filter fun g => g.kind != .line && g.sep == sp).filter fun h => h.kind == .patchData := by
    rw [Page.stream, List.filter_filter]
    refine List.filter_congr fun h _ => ?_
    cases h.kind <;> rfl
  have same := congrArg (List.filter fun h => h.kind == .patchData) kept
  rw [List.filter_filter] at same
  rw [Page.dataAfter, stream, split, List.filter_filter, ← same]
  exact congrArg (List.flatMap Segment.payload) (List.filter_congr fun h _ => Bool.and_comm _ _)

theorem PatchText.chunks_data {before after : List (Segment × Nat)} {g : Segment} {d : Nat}
    (split : t.chunks = before ++ (g, d) :: after) : ∀ c ∈ after, c.1 ∈ t.data ∧ c.2 = 0 := by
  have tail (c : Segment × Nat) (mem : c ∈ t.data.map fun g => (g, 0)) : c.1 ∈ t.data ∧ c.2 = 0 := by
    obtain ⟨g, inside, rfl⟩ := List.mem_map.mp mem
    exact ⟨inside, rfl⟩
  intro c mem
  refine tail c ?_
  cases before with
  | nil => exact (List.cons.inj split).2 ▸ mem
  | cons b before =>
    rw [(List.cons.inj split).2]
    exact List.mem_append_right _ (List.mem_cons_of_mem _ mem)

/-- The bytes from the place of a sample on are the samples of the patch from it on, and later bytes (R64). -/
theorem Page.samplesFrom_prefix (reads : p.readsAs sp x) (sorted : (p.held.map Segment.number).Pairwise (· < ·))
    (mem : t ∈ x.patches) {k n off : Nat} (place : t.places[k]? = some (n, off)) :
    t.samples.drop k <+: p.samplesFrom sp n off := by
  obtain ⟨-, split, -, sound⟩ := reads
  obtain ⟨-, data, -⟩ := sound t mem
  rw [← t.chunks_places] at place
  obtain ⟨before, g, d, after, chunks, rfl, dropped⟩ := chunkPlaces_getElem? place
  rw [← t.chunks_samples, dropped]
  obtain ⟨pre, post, patches⟩ := List.append_of_mem mem
  have segments : t.segment :: t.data = before.map Prod.fst ++ g :: after.map Prod.fst := by
    have same := congrArg (List.map Prod.fst) chunks
    rw [PatchText.chunks, List.map_cons, List.map_map, List.map_append, List.map_cons] at same
    rw [← same]
    exact congrArg _ (List.map_id _).symm
  rw [patches, List.flatMap_append, List.flatMap_cons, segments] at split
  have here : (p.held.filter fun g => g.kind != .line && g.sep == sp) =
      (x.orphans ++ (pre.flatMap (fun t => t.segment :: t.data) ++ before.map Prod.fst)) ++
        g :: (after.map Prod.fst ++ post.flatMap fun t => t.segment :: t.data) := by
    rw [split]
    simp only [List.append_assoc, List.cons_append]
  have held : g ∈ p.held := by
    have inside : g ∈ p.held.filter fun g => g.kind != .line && g.sep == sp := by
      rw [here]
      exact List.mem_append_right _ List.mem_cons_self
    exact (List.mem_filter.mp inside).1
  have rest : chunkSamples after = (after.map Prod.fst).flatMap Segment.payload := by
    rw [chunkSamples, List.flatMap_map]
    refine List.flatMap_congr fun c mem => ?_
    rw [(PatchText.chunks_data chunks c mem).2]
    rfl
  have allData : (after.map Prod.fst).filter (fun h => h.kind == .patchData) = after.map Prod.fst := by
    refine List.filter_eq_self.mpr fun h mem => ?_
    obtain ⟨c, inside, rfl⟩ := List.mem_map.mp mem
    exact beq_iff_eq.mpr (data c.1 (PatchText.chunks_data chunks c inside).1)
  rw [Page.samplesFrom, p.find?_number sorted held, p.dataAfter_eq sorted here, List.filter_append, allData,
    List.flatMap_append, rest, Option.map_some, Option.getD_some, ← List.append_assoc]
  exact List.prefix_append _ _

/-- The sample of a patch at a sample row and column (R63, R64). -/
theorem Page.sample_eq (reads : p.readsAs sp x) (sorted : (p.held.map Segment.number).Pairwise (· < ·))
    (taken : (t, hd) ∈ patchesTaken x.patches) {row col : Nat} (inside : row < hd.h) :
    p.sample sp (t.patch p.width p.height hd) row col = ((t.samples[row * hd.w + col]?).map BitVec.toNat).getD 0 := by
  have mem : t ∈ x.patches := by
    obtain ⟨u, mem, head⟩ := List.mem_filterMap.mp (List.mem_of_mem_take taken)
    obtain ⟨_, -, e⟩ := Option.map_eq_some_iff.mp head
    exact (Prod.mk.inj e).1 ▸ mem
  have located : (t.patch p.width p.height hd).locator.getD row none = t.places[row * hd.w]? := by
    rw [PatchText.patch, List.getD_eq_getElem?_getD, List.getElem?_map, List.getElem?_range inside]
    rfl
  have received : (t.patch p.width p.height hd).received = t.samples.length := rfl
  have head : (t.patch p.width p.height hd).head = hd := rfl
  rw [Page.sample, located, received, head]
  by_cases short : row * hd.w + col < t.samples.length
  · have first : row * hd.w < t.places.length := by
      rw [← t.chunks_places, chunkPlaces_length, t.chunks_samples]
      omega
    rw [if_pos short]
    obtain ⟨n, off, place⟩ : ∃ n off, t.places[row * hd.w]? = some (n, off) :=
      ⟨_, _, List.getElem?_eq_getElem first⟩
    have same := getElem?_of_prefix (p.samplesFrom_prefix reads sorted mem place) (n := col)
      (by rw [List.length_drop]; omega)
    rw [List.getElem?_drop] at same
    rw [place]
    simp only
    rw [List.getD_eq_getElem?_getD, same, List.getElem?_eq_getElem short]
    rfl
  · rw [if_neg short, List.getElem?_eq_none (Nat.not_lt.mp short)]
    rfl

end Samples

end Sys2Proof.Machine
end

section
/-! PROOF. A render task that ends: the rows of its band, dot by dot (R61 to R72, R121, R124, R125). -/

namespace Sys2Proof.Machine

open Sys2Proof

/-! ## The dot under a patch (R62 to R72) -/

section Dots

variable {p : Page} {sp : Sys2Proof.Machine.Sep} {screens : Vector ScreenSlot 8} {mapped : Fin 8}

theorem PatchHead.covers_iff (hd : PatchHead) (x y : Nat) : hd.covers x y = true ↔
    hd.x0 ≤ x ∧ x < hd.x0 + hd.w * hd.f ∧ hd.y0 ≤ y ∧ y < hd.y0 + hd.h * hd.f := by
  simp only [PatchHead.covers, Bool.and_eq_true, decide_eq_true_eq, and_assoc]

/-- A dot of a sample is inked where its tone exceeds the threshold that the tile places there (R70 to R72). -/
theorem ScreenSet.inked_of_placed {c : ScreenSet} {v x y threshold : Nat}
    (placed : c.tile[(y + c.yoff) % c.side * c.side + (x + c.xoff + (y + c.yoff) / c.side * c.xshift) % c.side]? =
      some threshold) : c.inked v x y = true ↔ threshold < c.clamp (c.tone v) := by
  rw [ScreenSet.inked_iff, ScreenSet.threshold, ScreenSet.course, List.getD_eq_getElem?_getD, placed]
  rfl

/-- A dot of a row after every patch (R61). -/
theorem Page.screenRow_getElem? {row : Row} {y j : Nat} {ink : Bool} (dot : row[j]? = some ink) :
    (p.screenRow sp screens mapped y row)[j]? = some (p.dot sp screens mapped j y ink) := by
  rw [Page.screenRow, List.getElem?_map, List.getElem?_zipIdx, dot]
  simp

theorem Page.screenRow_length (p : Page) (row : Row) (y : Nat) :
    (p.screenRow sp screens mapped y row).length = row.length := by
  rw [Page.screenRow, List.length_map, List.length_zipIdx]

end Dots

/-! ## The rows of a band (R60, R61, R121) -/

section Bands

variable {p : Page} {sp : Sys2Proof.Machine.Sep} {screens : Vector ScreenSlot 8} {mapped : Fin 8} {b : Nat}
  {x : RenderContext} {t : SepText}

theorem Page.renderBand_length :
    (p.renderBand sp screens mapped b x).1.length = min 256 (p.height - 256 * b) := by
  rw [Page.renderBand, List.length_map, List.length_zipIdx, RenderContext.rows_length]
  rfl

theorem Page.renderBand_getElem? {k : Nat} {row : Row} (at' : (p.renderBand sp screens mapped b x).1[k]? = some row) :
    ∃ line, (x.rows (p.linePayloads sp) p.width (p.bandHeight b)).1[k]? = some line ∧
      row = p.screenRow sp screens mapped (256 * b + k) line := by
  rw [Page.renderBand, List.getElem?_map, List.getElem?_zipIdx, Option.map_map, Option.map_eq_some_iff] at at'
  obtain ⟨line, found, rfl⟩ := at'
  refine ⟨line, found, ?_⟩
  rw [Function.comp_apply, Nat.zero_add]

theorem Page.renderBand_width (carry : x.carry.length = p.width) :
    ∀ row ∈ (p.renderBand sp screens mapped b x).1, row.length = p.width := by
  intro row mem
  obtain ⟨k, at'⟩ := List.mem_iff_getElem?.mp mem
  obtain ⟨line, found, rfl⟩ := Page.renderBand_getElem? at'
  rw [Page.screenRow_length]
  exact x.rows_width _ _ carry line (List.mem_of_getElem? found)

/-- The line-work row of a text: white past its end. -/
theorem SepText.row_dot (t : SepText) {w y j : Nat} (inside : j < w) :
    (((t.rows w)[y]?).getD (whiteRow w))[j]? = some ((((t.rows w)[y]?).bind fun dots => dots[j]?).getD false) := by
  cases at' : (t.rows w)[y]? with
  | none =>
    rw [Option.getD_none, whiteRow, List.getElem?_replicate, if_pos inside]
    rfl
  | some row =>
    have width : row.length = w := decodedRows_width w _ row (List.mem_of_getElem? at')
    rw [Option.getD_some, Option.bind_some, List.getElem?_eq_getElem (width.symm ▸ inside)]
    rfl

theorem SepText.row_length (t : SepText) (w y : Nat) : (((t.rows w)[y]?).getD (whiteRow w)).length = w := by
  cases at' : (t.rows w)[y]? with
  | none => exact whiteRow_length w
  | some row => exact decodedRows_width w _ row (List.mem_of_getElem? at')

/-- Each dot of a band is the patches' composite over that of the text, and the context then stands at the next band
(R60, R61, R121). -/
theorem Page.renderBand_reads (reads : p.readsAs sp t) (sorted : (p.held.map Segment.number).Pairwise (· < ·))
    (stands : x.standsAt p sp t (256 * b)) :
    (∀ (k : Nat) (row : Row), (p.renderBand sp screens mapped b x).1[k]? = some row → row.length = p.width ∧
      ∀ j, j < p.width → row[j]? = some (p.dot sp screens mapped j (256 * b + k)
        ((((t.rows p.width)[256 * b + k]?).bind fun dots => dots[j]?).getD false))) ∧
      (p.renderBand sp screens mapped b x).2.standsAt p sp t
        (256 * b + (p.renderBand sp screens mapped b x).1.length) := by
  obtain ⟨rows, last⟩ := stands.rows reads sorted (p.bandHeight b)
  refine ⟨fun k row at' => ?_, ?_⟩
  · obtain ⟨line, found, rfl⟩ := Page.renderBand_getElem? at'
    have short : k < p.bandHeight b := by
      rw [← x.rows_length (p.linePayloads sp) p.width (p.bandHeight b)]
      exact (List.getElem?_eq_some_iff.mp found).1
    obtain rfl := Option.some.inj (found.symm.trans (rows k short))
    refine ⟨?_, fun j inside => Page.screenRow_getElem? (t.row_dot inside)⟩
    rw [Page.screenRow_length, t.row_length]
  · rw [Page.renderBand_length]
    exact last

end Bands

/-! ## The end of a task (R124, R125) -/

section Tasks

variable {s : State} {l : Line} {b : Nat} {e : Exposure} {r : Plate} {h : Fin 64} {p : Page}

/-- A task that completes fills its slot, moves the context on and leaves the engine idle (R124). -/
theorem exec_renderTaskCompletion (running : s.resetAsserted = false)
    (task : s.engine = some { line := l, band := b, discarded := false }) (exposed : s.exposes l e r h p) :
    exec .renderTaskCompletion s = .next (s.finishTask { line := l, band := b, discarded := false } e r p) := by
  unfold exec execRenderTaskCompletion
  rw [State.event_running s _ running]
  simp only [task, exposed.1, exposed.loadedPage, Bool.false_eq_true, if_false]

theorem exec_discardedTaskEnd (running : s.resetAsserted = false)
    (task : s.engine = some { line := l, band := b, discarded := true }) :
    exec .discardedTaskEnd s =
      .next { (s.setChannel l { s.channel l with ring := (s.channel l).ring.set (b % 4) .free }) with
        engine := none } := by
  unfold exec execDiscardedTaskEnd
  rw [State.event_running s _ running]
  simp only [task, if_true]
  rfl

end Tasks

/-- Settles O54: a task fills its slot with the rows of its band, read through the context; a discarded one frees it. -/
theorem renderTasksEnd : Obligations.RenderTasksEnd := by
  unfold Obligations.RenderTasksEnd
  refine ⟨fun p sp x reads => RenderContext.start_standsAt reads,
    fun p sp x t hd row col reads sorted taken inside _ => Page.sample_eq reads sorted taken inside, ?_, ?_⟩
  · rintro p sp screens mapped q x y v threshold c rfl
    refine ⟨q.head.covers_iff x y, ?_⟩
    rintro rfl placed
    exact ScreenSet.inked_of_placed placed
  · intro s l b running
    refine ⟨fun e r h p task exposed => ?_, exec_discardedTaskEnd running⟩
    have ran := exec_renderTaskCompletion running task exposed
    have self : (s.finishTask { line := l, band := b, discarded := false } e r p).channel l = { s.channel l with
        ring := (s.channel l).ring.set (b % 4)
          (.filled b (p.renderBand r.sep s.screens (e.mapping.get r.sep) b (s.channel l).context).1)
        context := (p.renderBand r.sep s.screens (e.mapping.get r.sep) b (s.channel l).context).2 } :=
      State.channel_setChannel_self ..
    refine ⟨_, _, ran, rfl, Page.renderBand_length, fun carry => Page.renderBand_width carry,
      fun x reads sorted stands => ?_, ?_, ?_, rfl, rfl⟩
    · rw [self]
      exact Page.renderBand_reads reads sorted stands
    · rw [self]
    · exact State.channel_setChannel_of_ne _ _ (Line.other_ne l)

end Sys2Proof.Machine
end
